-- ==== Sys2Proof/Word.lean ====
section
/-! DEFINITION. The command word of the two command ports (30_encoding.md R81): 64 bits, bit 0 the least significant (00_scope.md R12). -/

namespace Sys2Proof

/-- A command word, and the width of a response's data (30_encoding.md R80, R81). -/
abbrev Word := BitVec 64

end Sys2Proof
end

