-- ==== Sys2Proof/Config.lean ====
section
/-! DEFINITION. The parameters an instantiation fixes (00_scope.md R5 to R8), the constants derived from them (R9),
the reference configuration (R11), and the free values the spec leaves open (93_implementation_defined.md U2, U3, U10). -/

namespace Sys2Proof

/-- The static parameters of one instantiation: `W`, `R`, `NMAX`, `NSNAP` (00_scope.md R5 to R8). -/
structure Config where
  /-- `W`, the probability word width in bits (R5). -/
  w : Nat
  /-- `R`, the range register width in bits (R6). -/
  r : Nat
  /-- `NMAX`, the capacity of each frequency table in symbols (R7). -/
  nmax : Nat
  /-- `NSNAP`, the number of snapshot slots of each unit (R8). -/
  nsnap : Nat
  deriving DecidableEq, Repr

namespace Config

/-- `HI_BIT_POS = W - 1` (R9). -/
def hiBitPos (c : Config) : Nat := c.w - 1

/-- `LOW_BIT_POS = W - 2` (R9). -/
def lowBitPos (c : Config) : Nat := c.w - 2

/-- `HI_BIT`, also written `HALF` (R9). -/
def hiBit (c : Config) : Nat := 2 ^ c.hiBitPos

/-- `LOW_BIT`, also written `QUARTER` (R9). -/
def lowBit (c : Config) : Nat := 2 ^ c.lowBitPos

/-- `THREE_QUARTER = HI_BIT | LOW_BIT` (R9); the two bits differ, so the sum is the same number. -/
def threeQuarter (c : Config) : Nat := c.hiBit + c.lowBit

/-- `WINDOW_MASK = (1 << W) - 1` (R9). -/
def windowMask (c : Config) : Nat := 2 ^ c.w - 1

/-- `LOW_BIT_MASK = LOW_BIT - 1` (R9). -/
def lowBitMask (c : Config) : Nat := c.lowBit - 1

/-- `MAX_TOTAL = LOW_BIT`, the scale threshold of the cumulative total (R9). -/
def maxTotal (c : Config) : Nat := c.lowBit

/-- The greatest value of the `R`-bit counter `underflow` (10_state.md R26). -/
def underflowMax (c : Config) : Nat := 2 ^ c.r - 1

/-- The reference configuration (R11). -/
def reference : Config := { w := 16, r := 32, nmax := 1023, nsnap := 4 }

/-- FREE VALUE. What the `k`-th read of an unspecified ENC register in mode FAULT yields (10_state.md R40, R46). No body: nothing
constrains it (log 4). -/
opaque freeEncDraw : Nat → BitVec 64

/-- FREE VALUE. What the `k`-th read of an unspecified DEC register in mode FAULT yields (10_state.md R40, R46; log 4). -/
opaque freeDecDraw : Nat → BitVec 64

/-- FREE VALUE. The bit the writer puts at bit position `k` of the medium past the last accepted bit (20_memory.md R57; log 14). -/
opaque freePad : Nat → Bool

end Config

end Sys2Proof
end

