-- ==== Sys2Proof/Syntax.lean ====
section
/-! DEFINITION. The command set: one constructor per row of spec/opcode_table.json (30_encoding.md R85, R86), the two units that
take them, and the reasons a word is no command of a unit (R88). -/

namespace Sys2Proof

/-- The two units, also called halves (00_scope.md R2, R16). -/
inductive Half where
  /-- `range_encoder_fsm`, UNIT 0. -/
  | enc
  /-- `range_decoder_fsm`, UNIT 1. -/
  | dec
  deriving DecidableEq, Repr

/-- A command with its operands. An ARG operand is a natural of 32 bits (30_encoding.md R91; the bound is `Instr.wellFormed`);
an F operand is one bit. -/
inductive Instr where
  /-- `ENC.INIT n` (42_encoder.md R160). -/
  | encInit (n : Nat)
  /-- `ENC.EXPAND n2` (R161). -/
  | encExpand (n2 : Nat)
  /-- `ENC.SYM s` (R162). -/
  | encSym (sym : Nat)
  /-- `ENC.FLUSH [force]` (R163). -/
  | encFlush (force : Bool)
  /-- `ENC.EST s` (R164). -/
  | encEst (sym : Nat)
  /-- `ENC.SAVE` (R165). -/
  | encSave
  /-- `ENC.RESTORE h [cleanup]` (R166). -/
  | encRestore (cleanup : Bool) (h : Nat)
  /-- `ENC.DELETE h` (R167). -/
  | encDelete (h : Nat)
  /-- `ENC.READP i` (R168). -/
  | encReadp (idx : Nat)
  /-- `ENC.READREG r` (R169). -/
  | encReadreg (reg : Nat)
  /-- `DEC.INIT n` (43_decoder.md R190). -/
  | decInit (n : Nat)
  /-- `DEC.EXPAND n2` (R191). -/
  | decExpand (n2 : Nat)
  /-- `DEC.SYM` (R192). -/
  | decSym
  /-- `DEC.SAVE` (R193). -/
  | decSave
  /-- `DEC.RESTORE h [cleanup]` (R194). -/
  | decRestore (cleanup : Bool) (h : Nat)
  /-- `DEC.DELETE h` (R195). -/
  | decDelete (h : Nat)
  /-- `DEC.READP i` (R196). -/
  | decReadp (idx : Nat)
  /-- `DEC.READREG r` (R197). -/
  | decReadreg (reg : Nat)
  deriving DecidableEq, Repr

/-- The unit a command belongs to: its UNIT field (30_encoding.md R81, R85, R86). -/
def Instr.unit : Instr → Half
  | .encInit _ | .encExpand _ | .encSym _ | .encFlush _ | .encEst _ | .encSave | .encRestore _ _ | .encDelete _ | .encReadp _
  | .encReadreg _ => .enc
  | .decInit _ | .decExpand _ | .decSym | .decSave | .decRestore _ _ | .decDelete _ | .decReadp _ | .decReadreg _ => .dec

/-- Why a word is no command of the unit whose port received it, in the order of 30_encoding.md R88. Each reason ends the command
with status IllegalCommand. -/
inductive Illegal where
  /-- UNIT does not name the unit (values 2 to 15 among them, R89). -/
  | wrongUnit
  /-- OPC is not in the opcode map of the unit. -/
  | reservedOp
  /-- RSV is not 0. -/
  | rsvNotZero
  /-- F is 1 on a command whose F column is "must be 0". -/
  | flagNotZero
  /-- ARG is not 0 on a command whose ARG column is "must be 0". -/
  | argNotZero
  deriving DecidableEq, Repr

end Sys2Proof
end

