-- ==== Sys2Proof/WellFormed.lean ====
section
/-! DEFINITION. Which instructions the encoding can spell (30_encoding.md R81, R91, R92) and which configurations an instantiation
may have (00_scope.md R5 to R8). -/

namespace Sys2Proof

/-- An ARG operand fits its 32-bit field (30_encoding.md R91; R92: "An operand that does not fit 32 bits cannot be assembled"). -/
def argFits (v : Nat) : Bool := decide (v < 2 ^ 32)

/-- Every operand of the instruction fits its field of the command word. -/
def Instr.wellFormed : Instr → Bool
  | .encInit n => argFits n
  | .encExpand n2 => argFits n2
  | .encSym sym => argFits sym
  | .encFlush _ => true
  | .encEst sym => argFits sym
  | .encSave => true
  | .encRestore _ h => argFits h
  | .encDelete h => argFits h
  | .encReadp idx => argFits idx
  | .encReadreg reg => argFits reg
  | .decInit n => argFits n
  | .decExpand n2 => argFits n2
  | .decSym => true
  | .decSave => true
  | .decRestore _ h => argFits h
  | .decDelete h => argFits h
  | .decReadp idx => argFits idx
  | .decReadreg reg => argFits reg

/-- The bounds of the four parameters (00_scope.md R5: `3 <= W <= 32`; R6: `max(W+2, 2W-2) <= R <= 64`;
R7: `1 <= NMAX <= MAX_TOTAL - 1`; R8: `NSNAP <= 64`). -/
structure Config.Valid (c : Config) : Prop where
  w_ge : 3 ≤ c.w
  w_le : c.w ≤ 32
  r_ge : max (c.w + 2) (2 * c.w - 2) ≤ c.r
  r_le : c.r ≤ 64
  nmax_ge : 1 ≤ c.nmax
  nmax_lt : c.nmax < c.maxTotal
  nsnap_le : c.nsnap ≤ 64

/-- The same bounds as a check that runs. -/
def Config.valid (c : Config) : Bool :=
  decide (3 ≤ c.w) && decide (c.w ≤ 32) && decide (max (c.w + 2) (2 * c.w - 2) ≤ c.r) && decide (c.r ≤ 64) &&
    decide (1 ≤ c.nmax) && decide (c.nmax < c.maxTotal) && decide (c.nsnap ≤ 64)

end Sys2Proof
end

