-- ==== Sys2Proof/Decode.lean ====
section
/-! DEFINITION. Decoding a command word (30_encoding.md R81, R85 to R91), total and refusing by name, and the encoder, both from
the encoding tables of the spec. -/

namespace Sys2Proof

/-- `v[hi:lo]`, bits `hi` down to `lo` of a word (00_scope.md R12). -/
def bits (w : Word) (hi lo : Nat) : Nat := w.toNat / 2 ^ lo % 2 ^ (hi + 1 - lo)

/-- UNIT, bits 63:60 (R81). -/
def unitField (w : Word) : Nat := bits w 63 60

/-- OP, bits 59:56 (R81). -/
def opField (w : Word) : Nat := bits w 59 56

/-- F, bit 55 (R81). -/
def flagField (w : Word) : Bool := decide (bits w 55 55 = 1)

/-- RSV, bits 54:32 (R81). -/
def rsvField (w : Word) : Nat := bits w 54 32

/-- ARG, bits 31:0 (R81). -/
def argField (w : Word) : Nat := bits w 31 0

/-- The UNIT number of a unit (R81: "0 = ENC, 1 = DEC"). -/
def Half.number : Half → Nat
  | .enc => 0
  | .dec => 1

/-- The must-be-0 rules of R88 for a command that takes ARG alone. -/
def withArg (w : Word) (mk : Nat → Instr) : Except Illegal Instr :=
  if rsvField w ≠ 0 then .error .rsvNotZero
  else if flagField w then .error .flagNotZero
  else .ok (mk (argField w))

/-- The must-be-0 rules of R88 for a command that takes neither F nor ARG. -/
def withNothing (w : Word) (i : Instr) : Except Illegal Instr :=
  if rsvField w ≠ 0 then .error .rsvNotZero
  else if flagField w then .error .flagNotZero
  else if argField w ≠ 0 then .error .argNotZero
  else .ok i

/-- The must-be-0 rules of R88 for a command that takes F alone. -/
def withFlag (w : Word) (mk : Bool → Instr) : Except Illegal Instr :=
  if rsvField w ≠ 0 then .error .rsvNotZero
  else if argField w ≠ 0 then .error .argNotZero
  else .ok (mk (flagField w))

/-- The must-be-0 rules of R88 for a command that takes F and ARG. -/
def withFlagArg (w : Word) (mk : Bool → Nat → Instr) : Except Illegal Instr :=
  if rsvField w ≠ 0 then .error .rsvNotZero
  else .ok (mk (flagField w) (argField w))

/-- The ENC opcode map (R85); every other OP is reserved (R89). -/
def decodeEnc (w : Word) : Except Illegal Instr :=
  match opField w with
  | 0x1 => withArg w .encInit
  | 0x2 => withArg w .encExpand
  | 0x3 => withArg w .encSym
  | 0x4 => withFlag w .encFlush
  | 0x5 => withArg w .encEst
  | 0x6 => withNothing w .encSave
  | 0x7 => withFlagArg w .encRestore
  | 0x8 => withArg w .encDelete
  | 0x9 => withArg w .encReadp
  | 0xA => withArg w .encReadreg
  | _ => .error .reservedOp

/-- The DEC opcode map (R86); every other OP, 4 and 5 among them, is reserved (R89). -/
def decodeDec (w : Word) : Except Illegal Instr :=
  match opField w with
  | 0x1 => withArg w .decInit
  | 0x2 => withArg w .decExpand
  | 0x3 => withNothing w .decSym
  | 0x6 => withNothing w .decSave
  | 0x7 => withFlagArg w .decRestore
  | 0x8 => withArg w .decDelete
  | 0x9 => withArg w .decReadp
  | 0xA => withArg w .decReadreg
  | _ => .error .reservedOp

/-- What the unit `u` makes of a word on its command port (R88): a command, or the reason it is illegal. -/
def decode (u : Half) (w : Word) : Except Illegal Instr :=
  if unitField w ≠ u.number then .error .wrongUnit
  else match u with
    | .enc => decodeEnc w
    | .dec => decodeDec w

/-- The word of the fields (R81), RSV 0. -/
def packWord (unit op : Nat) (f : Bool) (arg : Nat) : Word :=
  BitVec.ofNat 64 (unit * 2 ^ 60 + op * 2 ^ 56 + f.toNat * 2 ^ 55 + arg)

/-- The word of a command (R85 to R87). -/
def encode : Instr → Word
  | .encInit n => packWord 0 0x1 false n
  | .encExpand n2 => packWord 0 0x2 false n2
  | .encSym sym => packWord 0 0x3 false sym
  | .encFlush force => packWord 0 0x4 force 0
  | .encEst sym => packWord 0 0x5 false sym
  | .encSave => packWord 0 0x6 false 0
  | .encRestore cleanup h => packWord 0 0x7 cleanup h
  | .encDelete h => packWord 0 0x8 false h
  | .encReadp idx => packWord 0 0x9 false idx
  | .encReadreg reg => packWord 0 0xA false reg
  | .decInit n => packWord 1 0x1 false n
  | .decExpand n2 => packWord 1 0x2 false n2
  | .decSym => packWord 1 0x3 false 0
  | .decSave => packWord 1 0x6 false 0
  | .decRestore cleanup h => packWord 1 0x7 cleanup h
  | .decDelete h => packWord 1 0x8 false h
  | .decReadp idx => packWord 1 0x9 false idx
  | .decReadreg reg => packWord 1 0xA false reg

/-- The port on which a word is a command, if on any: the unit its UNIT field names, and ENC for the reserved UNIT values, which
are illegal on both ports (R88, R89; log 15). -/
def portOf (w : Word) : Half := if unitField w = 1 then .dec else .enc

/-- The instruction the decoder reads from the 64-bit word `w` on the port its UNIT field names; every command is exactly one
64-bit word (R90), so an instruction of more than 64 bits does not exist. -/
def decodeTableWord (nbits w : Nat) : Option Instr :=
  if 64 < nbits ∨ 2 ^ 64 ≤ w then none
  else match decode (portOf (BitVec.ofNat 64 w)) (BitVec.ofNat 64 w) with
    | .ok i => some i
    | .error _ => none

end Sys2Proof
end

