-- ==== Sys2Proof/Machine/State.lean ====
section
/-! DEFINITION. The state of the two units and of the three agents around them (10_state.md), the reset state (R44, R45), and the
reasons a step can stop. -/

namespace Sys2Proof.Machine

/-- The between-commands state of a unit (10_state.md R21). DEC never holds `flushed`. -/
inductive Mode where
  /-- After reset, before the first successful INIT. -/
  | uninit
  /-- Initialised. -/
  | ready
  /-- ENC only: the terminating bits have been emitted (R31). -/
  | flushed
  /-- A stream fault or a counter overflow ended a command; the datapath is unspecified (R46). -/
  | fault
  deriving DecidableEq, Repr

/-- The status of a response (60_exceptions.md R220). -/
inductive Status where
  | ok
  | invalidArgument
  | outOfMemory
  | symbolOutOfRange
  | streamFault
  | illegalCommand
  | invalidState
  | counterOverflow
  deriving DecidableEq, Repr

/-- A response: status and 64 bits of data (30_encoding.md R84). -/
structure Response where
  status : Status
  data : Word
  deriving DecidableEq, Repr

/-- The commands of ENC that have emit beats (42_encoder.md R162, R163). -/
inductive EncBeatCommand where
  | sym (x : Nat)
  | flush (force : Bool)
  deriving DecidableEq, Repr

/-- Where a unit stands with respect to its ports (30_encoding.md R80, R82, R83; 70_reset_and_hazards.md R260). -/
inductive Ctl where
  /-- No command in progress, no response waiting. -/
  | ready
  /-- The command is done and its response is on offer. -/
  | responding (r : Response)
  /-- ENC, inside a command: it offers the bit `b` and the writer never takes it. -/
  | offering (b : Bool)
  /-- DEC, inside a command: it requests a bit and the reader never answers. -/
  | requesting
  /-- ENC, inside `cmd`: it offers the bit `b` and waits because the writer is detached (70_reset_and_hazards.md R268; log 19). -/
  | offeringDetached (b : Bool) (cmd : EncBeatCommand)
  /-- DEC, inside DEC.SYM: it requests a bit and waits because the reader is detached (70_reset_and_hazards.md R268; log 19). -/
  | requestingDetached
  deriving DecidableEq, Repr

/-- One `cumulative_frequency_model` instance (40_model.md R110): `N` and the slots `P[0..NMAX]` (10_state.md R29, R30). A snapshot
slot holds the same with `P[0..N]` alone (R32). -/
structure Model where
  /-- `N`, the alphabet size. -/
  n : Nat
  /-- `P`, slot `i` at position `i`. -/
  p : List Nat
  deriving DecidableEq, Repr

/-- A snapshot slot of ENC (10_state.md R32). -/
structure EncSlot where
  valid : Bool
  low : Nat
  high : Nat
  underflow : Nat
  flushed : Bool
  tmpRange : Nat
  model : Model
  deriving DecidableEq, Repr

/-- A snapshot slot of DEC (10_state.md R32). -/
structure DecSlot where
  valid : Bool
  low : Nat
  high : Nat
  code : Nat
  tmpRange : Nat
  model : Model
  deriving DecidableEq, Repr

/-- The state of ENC (10_state.md R21, R23 to R32). Registers are naturals (00_scope.md R12, R13; log 10). -/
structure Enc where
  ctl : Ctl
  mode : Mode
  /-- Lower bound of the interval, inclusive (R24). -/
  low : Nat
  /-- Upper bound of the interval, inclusive (R25). -/
  high : Nat
  /-- The count of pending bits (R26). -/
  underflow : Nat
  /-- `high - low + 1` of the most recent narrowing (R28). -/
  tmpRange : Nat
  model : Model
  /-- Slot `h` at position `h` (R32). -/
  slots : List EncSlot
  /-- The model's own: how many free values ENC has drawn (log 4). -/
  draws : Nat
  deriving DecidableEq, Repr

/-- The state of DEC (10_state.md R21, R23 to R32). -/
structure Dec where
  ctl : Ctl
  mode : Mode
  low : Nat
  high : Nat
  /-- The window over the compressed stream (R27). -/
  code : Nat
  tmpRange : Nat
  model : Model
  slots : List DecSlot
  /-- The model's own: how many free values DEC has drawn (log 4). -/
  draws : Nat
  deriving DecidableEq, Repr

/-- How the writer ends one beat of the bit-output port (20_memory.md R56, R63; 70_reset_and_hazards.md R260). -/
inductive WriterAnswer where
  | accept
  | error
  /-- It never completes the beat. -/
  | never
  deriving DecidableEq, Repr

/-- How the reader ends one beat of the bit-input port (20_memory.md R59, R63; 70_reset_and_hazards.md R260). -/
inductive ReaderAnswer where
  | bit (b : Bool)
  | error
  /-- It never completes the beat. -/
  | never
  deriving DecidableEq, Repr

/-- The writer: its strap, its answers to the coming beats while it is attached, and the bits it has accepted, first first (log 5,
log 19). -/
structure Writer where
  /-- `enc_ob_bound`. -/
  bound : Bool
  /-- The answers to the next beats. -/
  script : List WriterAnswer
  /-- The answer to every beat after those. -/
  after : WriterAnswer
  accepted : List Bool
  deriving DecidableEq, Repr

/-- The reader: its strap, its answers to the coming beats while it is attached, and the bits taken from it, first first (log 5,
log 19). -/
structure Reader where
  /-- `dec_ib_bound`. -/
  bound : Bool
  script : List ReaderAnswer
  after : ReaderAnswer
  taken : List Bool
  deriving DecidableEq, Repr

/-- What the host does at one rising edge of the clock (30_encoding.md R80; 70_reset_and_hazards.md R250, R261; log 8). -/
inductive HostEvent where
  /-- `*_cmd_valid = 1` with this word on the unit's command port. -/
  | offer (u : Half) (word : Word)
  /-- `*_rsp_ready = 1` on the unit's response port. -/
  | take (u : Half)
  /-- The level of `rst`, from this edge on. -/
  | reset (level : Bool)
  /-- The level of `enc_ob_bound`, from this edge on. -/
  | bindWriter (level : Bool)
  /-- The level of `dec_ib_bound`, from this edge on. -/
  | bindReader (level : Bool)
  deriving DecidableEq, Repr

/-- The whole machine: the two units, which share nothing (10_state.md R20), and the agents around them. -/
structure State where
  /-- The static parameters; no step changes them (00_scope.md R10; log 1). -/
  cfg : Config
  enc : Enc
  dec : Dec
  /-- The level of `rst`. -/
  rst : Bool
  writer : Writer
  reader : Reader
  /-- What the host does next, in order. -/
  inputs : List HostEvent
  /-- The responses the host has taken, in order. -/
  delivered : List (Half × Response)
  deriving DecidableEq, Repr

/-- The internal faults. No state that meets the invariants of 10_state.md R34 and R36 raises one. -/
inductive Fault where
  /-- Raised by DEC.SYM when no symbol's sub-interval holds the scaled code (60_exceptions.md R238: "an internal fault naming the
  line: a stuck state that is never final and never a response"; log 11). Safe: the model stops. -/
  | lookupFindsNoSymbol
  /-- Raised by ENC.EXPAND and DEC.EXPAND when the scaling loop of 40_model.md R118 does not end, which R118 excludes (log 12).
  Safe: the model stops. -/
  | scalingNeverEnds
  deriving DecidableEq, Repr

/-- The refusals. -/
inductive Refusal where
  /-- Raised by an arm of `exec` whose instruction has no meaning yet; no arm does. Safe. -/
  | notModelled (mnemonic : String)
  deriving DecidableEq, Repr

/-- An empty table of `NMAX + 1` slots. Reset leaves the contents unspecified (10_state.md R44); DESIGN CHOICE 0 (log 2). -/
def Model.reset (c : Config) : Model := { n := 0, p := List.replicate (c.nmax + 1) 0 }

/-- A slot after reset: not valid, contents unspecified (10_state.md R44); DESIGN CHOICE 0 and no table (log 3). -/
def EncSlot.reset : EncSlot :=
  { valid := false, low := 0, high := 0, underflow := 0, flushed := false, tmpRange := 0, model := { n := 0, p := [] } }

/-- A slot after reset: not valid, contents unspecified (10_state.md R44); DESIGN CHOICE 0 and no table (log 3). -/
def DecSlot.reset : DecSlot :=
  { valid := false, low := 0, high := 0, code := 0, tmpRange := 0, model := { n := 0, p := [] } }

/-- ENC after reset (10_state.md R44, R45); `draws` is the model's own. -/
def Enc.reset (c : Config) (draws : Nat) : Enc :=
  { ctl := .ready, mode := .uninit, low := 0, high := c.windowMask, underflow := 0, tmpRange := 0, model := Model.reset c,
    slots := List.replicate c.nsnap EncSlot.reset, draws := draws }

/-- DEC after reset (10_state.md R44, R45); `draws` is the model's own. -/
def Dec.reset (c : Config) (draws : Nat) : Dec :=
  { ctl := .ready, mode := .uninit, low := 0, high := c.windowMask, code := 0, tmpRange := 0, model := Model.reset c,
    slots := List.replicate c.nsnap DecSlot.reset, draws := draws }

/-- The machine right after reset in configuration `c`, with a writer that accepts every bit and a reader at the end of its stream
(20_memory.md R60), both attached, and a host that does nothing (log 5, log 8, log 9). -/
def State.resetIn (c : Config) : State :=
  { cfg := c, enc := Enc.reset c 0, dec := Dec.reset c 0, rst := false,
    writer := { bound := true, script := [], after := .accept, accepted := [] },
    reader := { bound := true, script := [], after := .bit false, taken := [] },
    inputs := [], delivered := [] }

/-- The machine right after reset, in the reference configuration (00_scope.md R11; log 1). -/
def State.reset : State := State.resetIn Config.reference

/-- Replace ENC. -/
def State.withEnc (s : State) (e : Enc) : State := { s with enc := e }

/-- Replace DEC. -/
def State.withDec (s : State) (d : Dec) : State := { s with dec := d }

/-- Replace the writer. -/
def State.withWriter (s : State) (w : Writer) : State := { s with writer := w }

/-- Replace the reader. -/
def State.withReader (s : State) (r : Reader) : State := { s with reader := r }

/-- Replace the level of `rst`. -/
def State.withRst (s : State) (level : Bool) : State := { s with rst := level }

/-- Replace what the host does next. -/
def State.withInputs (s : State) (l : List HostEvent) : State := { s with inputs := l }

/-- Replace the record of the responses taken. -/
def State.withDelivered (s : State) (l : List (Half × Response)) : State := { s with delivered := l }

/-- Replace ENC's position at its ports. -/
def Enc.withCtl (e : Enc) (k : Ctl) : Enc := { e with ctl := k }

/-- Replace DEC's position at its ports. -/
def Dec.withCtl (d : Dec) (k : Ctl) : Dec := { d with ctl := k }

end Sys2Proof.Machine
end

