-- ==== Sys2Proof/Machine/Flags.lean ====
section
/-! DEFINITION. The hardware has no condition codes: its flags are the mode register (10_state.md R21, R31) and the port signals
(30_encoding.md R80). This file holds their encodings, the mode acceptance table (60_exceptions.md R226), the kinds of status
(R220) and the output signals as functions of the state (R82, R83; 70_reset_and_hazards.md R251). -/

namespace Sys2Proof.Machine

/-- The 2-bit encoding of the mode (10_state.md R21). -/
def Mode.number : Mode → Nat
  | .uninit => 0
  | .ready => 1
  | .flushed => 2
  | .fault => 3

/-- The 4-bit status code on `*_rsp_status` (60_exceptions.md R220); 8 to 15 are never produced. -/
def Status.code : Status → BitVec 4
  | .ok => 0
  | .invalidArgument => 1
  | .outOfMemory => 2
  | .symbolOutOfRange => 3
  | .streamFault => 4
  | .illegalCommand => 5
  | .invalidState => 6
  | .counterOverflow => 7

/-- The two faults (60_exceptions.md R220, R222, R223, R225). -/
def Status.isFault : Status → Bool
  | .streamFault | .counterOverflow => true
  | .ok | .invalidArgument | .outOfMemory | .symbolOutOfRange | .illegalCommand | .invalidState => false

/-- The refusals, which change no state (60_exceptions.md R220, R224). -/
def Status.isRefusal : Status → Bool
  | .invalidArgument | .outOfMemory | .symbolOutOfRange | .illegalCommand | .invalidState => true
  | .ok | .streamFault | .counterOverflow => false

/-- The mode acceptance table (60_exceptions.md R226). -/
def accepts (i : Instr) (m : Mode) : Bool :=
  match i, m with
  | .encInit _, _ | .decInit _, _ => true
  | .encExpand _, .ready | .decExpand _, .ready => true
  | .encExpand _, _ | .decExpand _, _ => false
  | .encSym _, .ready | .encEst _, .ready | .decSym, .ready => true
  | .encSym _, _ | .encEst _, _ | .decSym, _ => false
  | .encFlush _, .ready | .encFlush _, .flushed => true
  | .encFlush _, _ => false
  | .encSave, .ready | .encSave, .flushed | .decSave, .ready => true
  | .encSave, _ | .decSave, _ => false
  | .encRestore _ _, .uninit | .encRestore _ _, .ready | .encRestore _ _, .flushed => true
  | .encRestore _ _, .fault => false
  | .decRestore _ _, .uninit | .decRestore _ _, .ready => true
  | .decRestore _ _, _ => false
  | .encDelete _, _ | .decDelete _, _ => true
  | .encReadp _, .ready | .encReadp _, .flushed | .decReadp _, .ready => true
  | .encReadp _, _ | .decReadp _, _ => false
  | .encReadreg _, _ | .decReadreg _, _ => true

/-- Where a unit stands at its ports. -/
def State.ctl (s : State) : Half → Ctl
  | .enc => s.enc.ctl
  | .dec => s.dec.ctl

/-- `*_cmd_ready`: no command in progress and no response waiting (30_encoding.md R82), and 0 under reset
(70_reset_and_hazards.md R251). -/
def State.cmdReady (s : State) (u : Half) : Bool := !s.rst && decide (s.ctl u = .ready)

/-- The response on offer: `*_rsp_valid` with `*_rsp_status` and `*_rsp_data` (30_encoding.md R80, R83); none under reset (R251). -/
def State.response (s : State) (u : Half) : Option Response :=
  if s.rst then none
  else match s.ctl u with
    | .responding r => some r
    | .ready | .offering _ | .requesting | .offeringDetached _ _ | .requestingDetached => none

/-- `enc_ob_valid` with `enc_ob_bit`: the bit on offer to the writer (30_encoding.md R80); none under reset (R251). -/
def State.offeredBit (s : State) : Option Bool :=
  if s.rst then none
  else match s.enc.ctl with
    | .offering b | .offeringDetached b _ => some b
    | .ready | .responding _ | .requesting | .requestingDetached => none

/-- `dec_ib_req` (30_encoding.md R80); 0 under reset (R251). -/
def State.bitRequest (s : State) : Bool := !s.rst && decide (s.dec.ctl = .requesting ∨ s.dec.ctl = .requestingDetached)

end Sys2Proof.Machine
end

