-- ==== Sys2Proof/Machine/FrequencyModel.lean ====
section
/-! DEFINITION. The micro-operations of `cumulative_frequency_model` (40_model.md). -/

namespace Sys2Proof.Machine

/-- The table rewritten slot by slot: slot `i` of value `v` becomes `f i v`, counting slots from `i`. Every loop of 40_model.md
whose slots do not depend on each other is one of these. -/
def mapSlots (f : Nat → Nat → Nat) : Nat → List Nat → List Nat
  | _, [] => []
  | i, v :: vs => f i v :: mapSlots f (i + 1) vs

namespace Model

/-- `P[i]` (20_memory.md R50). -/
def entry (m : Model) (i : Nat) : Nat := m.p.getD i 0

/-- M.FREQ_LOW(s) (40_model.md R112). -/
def freqLow (m : Model) (sym : Nat) : Nat := m.entry sym

/-- M.FREQ_HIGH(s) (R112). -/
def freqHigh (m : Model) (sym : Nat) : Nat := m.entry (sym + 1)

/-- M.TOTAL (R112). -/
def total (m : Model) : Nat := m.entry m.n

/-- M.INIT(n): `P[i] <- i` for `i` in `0..n`, `N <- n`; slots above `n` keep their old contents (R111). -/
def init (m : Model) (n : Nat) : Model := { n := n, p := mapSlots (fun i v => if i ≤ n then i else v) 0 m.p }

/-- M.UPDATE(s): `P[i] <- P[i] + 1` for `i` in `s+1..N` (R113). -/
def update (m : Model) (sym : Nat) : Model :=
  { m with p := mapSlots (fun i v => if sym < i ∧ i ≤ m.n then v + 1 else v) 0 m.p }

/-- The loop of M.SCALE over the slots from `i`, `prev` being the rewritten `P[i-1]` (R114). -/
def scaleSlots (n : Nat) : Nat → Nat → List Nat → List Nat
  | _, _, [] => []
  | i, prev, v :: vs =>
    if n < i then v :: vs
    else
      let half := v >>> 1
      let v' := if half ≤ prev then prev + 1 else half
      v' :: scaleSlots n (i + 1) v' vs

/-- M.SCALE: halve with repair; `P[0]` is kept (R114). -/
def scale (m : Model) : Model :=
  match m.p with
  | [] => m
  | v :: vs => { m with p := v :: scaleSlots m.n 1 v vs }

/-- M.SCALE_MAYBE (R115). -/
def scaleMaybe (m : Model) (c : Config) : Model := if c.maxTotal ≤ m.total then m.scale else m

/-- The growing loop of M.EXPAND over the slots from `i`, `prev` being `P[i-1]`: slots `oldN+1..n2` get `P[i-1] + 1` (R117). -/
def growSlots (oldN n2 : Nat) : Nat → Nat → List Nat → List Nat
  | _, _, [] => []
  | i, prev, v :: vs =>
    let v' := if oldN < i ∧ i ≤ n2 then prev + 1 else v
    v' :: growSlots oldN n2 (i + 1) v' vs

/-- The first part of M.EXPAND(n2): the new slots, and `N <- n2` (R117). -/
def grow (m : Model) (n2 : Nat) : Model := { n := n2, p := growSlots m.n n2 0 0 m.p }

/-- The scaling loop of M.EXPAND, `while P[N] >= MAX_TOTAL: M.SCALE` (R118), given up after `fuel` passes (log 12). -/
def scaleLoop (c : Config) : Nat → Model → Option Model
  | 0, m => if c.maxTotal ≤ m.total then none else some m
  | fuel + 1, m => if c.maxTotal ≤ m.total then scaleLoop c fuel m.scale else some m

/-- M.EXPAND(n2) (R117, R118). From a table that meets 10_state.md R34, `W` passes are always enough (log 12). -/
def expand (m : Model) (c : Config) (n2 : Nat) : Option Model := scaleLoop c c.w (m.grow n2)

/-- The scan of M.LOOKUP(q) over the symbols below `k`, from the top (R119). -/
def lookupBelow (m : Model) (q : Nat) : Nat → Option Nat
  | 0 => none
  | k + 1 => if m.entry k ≤ q then some k else lookupBelow m q k

/-- M.LOOKUP(q): the linear scan `for s in N-1 downto 0` (R119). -/
def lookup (m : Model) (q : Nat) : Option Nat := lookupBelow m q m.n

/-- M.SAVE_TO: the copy of `N` and `P[0..N]` a slot holds (R120). -/
def saved (m : Model) : Model := { n := m.n, p := m.p.take (m.n + 1) }

/-- M.LOAD_FROM: `N <- slot.N`, `P[i] <- slot.P[i]` for `i` in `0..slot.N`; slots above keep stale contents (R120). -/
def load (m : Model) (slot : Model) : Model :=
  { n := slot.n, p := mapSlots (fun i v => if i ≤ slot.n then slot.entry i else v) 0 m.p }

end Model

end Sys2Proof.Machine
end

