-- ==== Sys2Proof/Machine/Operands.lean ====
section
/-! DEFINITION. The operands of the commands: the size, symbol, handle, index and register-number spaces and their range checks
(30_encoding.md R91; 20_memory.md R50 to R53), and the register map (10_state.md R39). -/

namespace Sys2Proof.Machine

/-- Which snapshot slot a handle names: the slot, when it exists and its `valid` bit is set (20_memory.md R52). -/
def encSlotOf (c : Config) (e : Enc) (h : Nat) : Option EncSlot :=
  if c.nsnap ≤ h then none
  else match e.slots[h]? with
    | some slot => if slot.valid then some slot else none
    | none => none

/-- Which snapshot slot a handle names: the slot, when it exists and its `valid` bit is set (20_memory.md R52). -/
def decSlotOf (c : Config) (d : Dec) (h : Nat) : Option DecSlot :=
  if c.nsnap ≤ h then none
  else match d.slots[h]? with
    | some slot => if slot.valid then some slot else none
    | none => none

/-- The least handle whose `valid` bit is clear (42_encoder.md R165). -/
def encFreeHandle (c : Config) (e : Enc) : Option Nat := (e.slots.take c.nsnap).findIdx? (fun slot => !slot.valid)

/-- The least handle whose `valid` bit is clear (43_decoder.md R193). -/
def decFreeHandle (c : Config) (d : Dec) : Option Nat := (d.slots.take c.nsnap).findIdx? (fun slot => !slot.valid)

/-- SNAP_VALID: bit `h` is the `valid` bit of slot `h`, the bits at and above NSNAP 0 (10_state.md R39). -/
def validMask : List Bool → Nat
  | [] => 0
  | v :: vs => v.toNat + 2 * validMask vs

/-- The size checks INIT and EXPAND share (42_encoder.md R160, R161): at or above `MAX_TOTAL` is InvalidArgument, above NMAX is
OutOfMemory, the first checked first. -/
def sizeCheck (c : Config) (n : Nat) : Option Status :=
  if c.maxTotal ≤ n then some .invalidArgument
  else if c.nmax < n then some .outOfMemory
  else none

/-- The checks of INIT in order: `n = 0`, no collaborator bound, the size (42_encoder.md R160; 43_decoder.md R190). -/
def initCheck (c : Config) (bound : Bool) (n : Nat) : Option Status :=
  if n = 0 then some .invalidArgument
  else if !bound then some .invalidArgument
  else sizeCheck c n

/-- The checks of EXPAND in order (42_encoder.md R161; 43_decoder.md R191). -/
def expandCheck (c : Config) (m : Model) (n2 : Nat) : Option Status :=
  if n2 ≤ m.n then some .invalidArgument else sizeCheck c n2

/-- The register map of ENC (10_state.md R39, 42_encoder.md R169): width and value of register `reg`, if it is one. -/
def encRegister (c : Config) (e : Enc) (reg : Nat) : Option (Nat × Nat) :=
  match reg with
  | 0 => some (2, e.mode.number)
  | 1 => some (32, e.model.n)
  | 2 => some (c.w, e.low)
  | 3 => some (c.w, e.high)
  | 4 => some (c.r, e.underflow)
  | 6 => some (c.w + 1, e.tmpRange)
  | 7 => some (c.w, e.model.total)
  | 8 => some (c.nsnap, validMask ((e.slots.take c.nsnap).map (·.valid)))
  | 9 => some (6, c.w)
  | 10 => some (7, c.r)
  | 11 => some (32, c.nmax)
  | 12 => some (7, c.nsnap)
  | _ => none

/-- The register map of DEC (10_state.md R39, 43_decoder.md R197): width and value of register `reg`, if it is one. -/
def decRegister (c : Config) (d : Dec) (reg : Nat) : Option (Nat × Nat) :=
  match reg with
  | 0 => some (2, d.mode.number)
  | 1 => some (32, d.model.n)
  | 2 => some (c.w, d.low)
  | 3 => some (c.w, d.high)
  | 5 => some (c.w, d.code)
  | 6 => some (c.w + 1, d.tmpRange)
  | 7 => some (c.w, d.model.total)
  | 8 => some (c.nsnap, validMask ((d.slots.take c.nsnap).map (·.valid)))
  | 9 => some (6, c.w)
  | 10 => some (7, c.r)
  | 11 => some (32, c.nmax)
  | 12 => some (7, c.nsnap)
  | _ => none

/-- The registers that hold no value in mode FAULT: LOW, HIGH, UNDERFLOW, CODE, TMP_RANGE, TOTAL (10_state.md R40, R46). -/
def isDatapathRegister (reg : Nat) : Bool := decide (2 ≤ reg ∧ reg ≤ 7)

end Sys2Proof.Machine
end

