-- ==== Sys2Proof/Machine/RangeArith.lean ====
section
/-! DEFINITION. The range arithmetic of one symbol step (41_range_arith.md): NARROW, the classification of an interval, the E3
action and SHIFT on the interval, and the decoder's scaled code. -/

namespace Sys2Proof.Machine

/-- What NARROW writes (41_range_arith.md R140). -/
structure Narrowed where
  tmpRange : Nat
  low : Nat
  high : Nat
  deriving DecidableEq, Repr

/-- NARROW(s): both new bounds from the old `low`, truncating division (R140). -/
def narrow (m : Model) (sym low high : Nat) : Narrowed :=
  let range := high - low + 1
  { tmpRange := range
    high := low + range * m.freqHigh sym / m.total - 1
    low := low + range * m.freqLow sym / m.total }

/-- The three cases of the renormalisation loop (R141). -/
inductive RenormCase where
  | msbEq
  | e3
  | exit
  deriving DecidableEq, Repr

/-- The classification, conditions in the order of R141. -/
def classify (c : Config) (low high : Nat) : RenormCase :=
  if high &&& c.hiBit = low &&& c.hiBit then .msbEq
  else if low &&& c.lowBit ≠ 0 ∧ high &&& c.lowBit = 0 then .e3
  else .exit

/-- The E3 action on `low`: clear the top two bits (R144, R145). -/
def e3Low (c : Config) (low : Nat) : Nat := low &&& c.lowBitMask

/-- The E3 action on `high`: set the second MSB (R144, R145). -/
def e3High (c : Config) (high : Nat) : Nat := high ||| c.lowBit

/-- The E3 action on `code`: flip the second MSB (R145). -/
def e3Code (c : Config) (code : Nat) : Nat := code ^^^ c.lowBit

/-- SHIFT of `low` (R146). -/
def shiftLow (c : Config) (low : Nat) : Nat := low <<< 1 &&& c.windowMask

/-- SHIFT of `high` (R146). -/
def shiftHigh (c : Config) (high : Nat) : Nat := (high <<< 1 ||| 1) &&& c.windowMask

/-- SHIFT of `code` with the bit taken (R146). -/
def shiftCode (c : Config) (code : Nat) (b : Bool) : Nat := (code <<< 1 ||| b.toNat) &&& c.windowMask

/-- The shared MSB an MSB_EQ step emits, `high >> HI_BIT_POS` (R143). -/
def sharedMsb (c : Config) (high : Nat) : Bool := decide (high >>> c.hiBitPos = 1)

/-- The first bit of a flush, the second MSB of `low` (42_encoder.md R163). -/
def flushBit (c : Config) (low : Nat) : Bool := decide (low >>> c.lowBitPos &&& 1 = 1)

/-- The decoder's scaled code `q` (41_range_arith.md R150). -/
def scaledCode (m : Model) (low high code : Nat) : Nat := ((code - low + 1) * m.total - 1) / (high - low + 1)

end Sys2Proof.Machine
end

