-- ==== Sys2Proof/Machine/Streams.lean ====
section
/-! DEFINITION. The two bit streams (20_memory.md R55 to R63): `emit` and `take` beat by beat, the multi-bit forms of R58 and R61,
and the writer's packing into bytes (R57). -/

namespace Sys2Proof.Machine

/-- How a run of beats ended: every beat completed, an error at a beat, or a beat that is never completed (with the bit on offer). -/
inductive BeatsEnd where
  | done
  | error
  | stuck (b : Bool)
  deriving DecidableEq, Repr

namespace Writer

/-- The writer's answer to the next beat, and the writer after answering. A detached writer completes no beat
(70_reset_and_hazards.md R268) and its answers stay for the beats to come (log 19). -/
def answer (w : Writer) : WriterAnswer × Writer :=
  if w.bound then
    match w.script with
    | [] => (w.after, w)
    | a :: rest => (a, { w with script := rest })
  else (.never, w)

/-- The writer with one more bit accepted. -/
def store (w : Writer) (b : Bool) : Writer := { w with accepted := w.accepted ++ [b] }

/-- `emit` of each bit in order (R56). An error ends the run: bits accepted before it stay accepted, later bits are never emitted
(R63). -/
def emitAll : List Bool → Writer → BeatsEnd × Writer
  | [], w => (.done, w)
  | b :: bs, w =>
    match w.answer with
    | (.accept, w') => emitAll bs (w'.store b)
    | (.error, w') => (.error, w')
    | (.never, w') => (.stuck b, w')

/-- The bits of `write(value, nbits)`: `value[nbits-1]` first (R58). -/
def fieldBits (value : Nat) : Nat → List Bool
  | 0 => []
  | k + 1 => value.testBit k :: fieldBits value k

/-- The software call `write(value, nbits)` as beats of the port (R58). -/
def writeField (value nbits : Nat) (w : Writer) : BeatsEnd × Writer := emitAll (fieldBits value nbits) w

/-- Byte `k` of the medium after the writer is closed: accepted bit `8k + j` in byte bit `7 - j`, the positions past the last
accepted bit the writer's choice (R57; log 14). -/
def mediumByte (w : Writer) (k : Nat) : BitVec 8 :=
  BitVec.ofNat 8 ((List.range 8).foldl (fun v j => 2 * v + (w.accepted.getD (8 * k + j) (Config.freePad (8 * k + j))).toNat) 0)

/-- The bytes of the medium after the writer is closed (R57). -/
def medium (w : Writer) : List (BitVec 8) := (List.range ((w.accepted.length + 7) / 8)).map w.mediumByte

end Writer

namespace Reader

/-- The reader's answer to the next request, and the reader after answering. A detached reader completes no beat
(70_reset_and_hazards.md R268) and its answers stay for the beats to come (log 19). -/
def answer (r : Reader) : ReaderAnswer × Reader :=
  if r.bound then
    match r.script with
    | [] => (r.after, r)
    | a :: rest => (a, { r with script := rest })
  else (.never, r)

/-- The reader with one more bit taken. -/
def consume (r : Reader) (b : Bool) : Reader := { r with taken := r.taken ++ [b] }

/-- `read(nbits)` as beats: `v <- (v << 1) | take()`, `nbits` times (R59, R61). A failing beat's bit is not taken, the bits before
it stay taken (R63). -/
def takeField : Nat → Nat → Reader → BeatsEnd × Nat × Reader
  | 0, v, r => (.done, v, r)
  | k + 1, v, r =>
    match r.answer with
    | (.bit b, r') => takeField k (v <<< 1 ||| b.toNat) (r'.consume b)
    | (.error, r') => (.error, v, r')
    | (.never, r') => (.stuck false, v, r')

end Reader

end Sys2Proof.Machine
end

