-- ==== Sys2Proof/Machine/Ops.lean ====
section
/-! DEFINITION. The shared operations: completing a command with a response, ending it with an error (the only "exception" this
hardware has, 60_exceptions.md R230), waiting at a beat, reset, and the renormalisation loops of the two units. -/

namespace Sys2Proof.Machine

/-- `respond(OK, data)` of ENC (00_scope.md R14, 30_encoding.md R84). -/
def respondEnc (data : Nat) (s : State) : State :=
  s.withEnc (s.enc.withCtl (.responding { status := .ok, data := BitVec.ofNat 64 data }))

/-- `respond(OK, data)` of DEC (00_scope.md R14, 30_encoding.md R84). -/
def respondDec (data : Nat) (s : State) : State :=
  s.withDec (s.dec.withCtl (.responding { status := .ok, data := BitVec.ofNat 64 data }))

/-- The mode after a command ended with this status: a fault enters FAULT, a refusal keeps the mode (60_exceptions.md R224, R225). -/
def modeAfter (st : Status) (m : Mode) : Mode := if st.isFault then .fault else m

/-- TAKING AN ERROR: `raise st` of the unit `u` (00_scope.md R14). A refusal changes no state; a fault sets the mode to FAULT, after
which the datapath registers and the table hold no value (60_exceptions.md R224, R225; a read in FAULT draws a free value, log 13).
The response is `(st, 0)` (30_encoding.md R84), and the unit's next command is the return (R230). -/
def raise (u : Half) (st : Status) (s : State) : State :=
  match u with
  | .enc => s.withEnc { s.enc with mode := modeAfter st s.enc.mode, ctl := .responding { status := st, data := 0 } }
  | .dec => s.withDec { s.dec with mode := modeAfter st s.dec.mode, ctl := .responding { status := st, data := 0 } }

/-- The instruction that a waiting ENC is inside. -/
def EncBeatCommand.instr : EncBeatCommand → Instr
  | .sym x => .encSym x
  | .flush force => .encFlush force

/-- Where ENC stands inside `cmd` with the bit `b` on offer at a beat that is not completed: stuck when the writer never takes the bit
(70_reset_and_hazards.md R260; log 6), waiting when the writer is detached (R268; log 19). -/
def encStallCtl (cmd : EncBeatCommand) (b bound : Bool) : Ctl := if bound then .offering b else .offeringDetached b cmd

/-- Where DEC stands at a request that is not answered: stuck (R260; log 6), or waiting for a detached reader (R268; log 19). -/
def decStallCtl (bound : Bool) : Ctl := if bound then .requesting else .requestingDetached

/-- ENC inside `cmd` offers a bit that is not taken. -/
def stallEnc (cmd : EncBeatCommand) (b : Bool) (s : State) : State :=
  s.withEnc (s.enc.withCtl (encStallCtl cmd b s.writer.bound))

/-- DEC requests a bit that it does not get. -/
def stallDec (s : State) : State := s.withDec (s.dec.withCtl (decStallCtl s.reader.bound))

/-- A rising edge with `rst = 1`: both units take their reset values, a command in progress is abandoned, the bits already
exchanged stay (70_reset_and_hazards.md R250; 10_state.md R44, R45; log 9). -/
def resetUnits (s : State) : State :=
  (s.withEnc (Enc.reset s.cfg s.enc.draws)).withDec (Dec.reset s.cfg s.dec.draws)

/-- How a renormalisation loop ended: at EXIT, with an error, or stuck at a beat. -/
inductive LoopEnd where
  | exit
  | raised (st : Status)
  | stuck (b : Bool)
  deriving DecidableEq, Repr

/-- What ENC's loop reads and writes (41_range_arith.md R142 to R146; 42_encoder.md R162). -/
structure EncRun where
  low : Nat
  high : Nat
  underflow : Nat
  count : Nat
  writer : Writer
  deriving DecidableEq, Repr

/-- What DEC's loop reads and writes (41_range_arith.md R142, R145, R146). -/
structure DecRun where
  low : Nat
  high : Nat
  code : Nat
  reader : Reader
  deriving DecidableEq, Repr

namespace EncRun

/-- ENC's SHIFT touches no port (41_range_arith.md R146). -/
def shift (c : Config) (r : EncRun) : EncRun := { r with low := shiftLow c r.low, high := shiftHigh c r.high }

/-- The bits of one MSB_EQ step: the shared MSB, then the pending bits, its complement `underflow` times (41_range_arith.md R143). -/
def msbBits (c : Config) (r : EncRun) : List Bool :=
  sharedMsb c r.high :: List.replicate r.underflow (!sharedMsb c r.high)

/-- What an MSB_EQ step does to the registers once its bits are out, and its cost (41_range_arith.md R143, R152). -/
def settle (r : EncRun) (w : Writer) : EncRun := { r with count := r.count + 1 + r.underflow, underflow := 0, writer := w }

/-- The E3 action past its overflow check (41_range_arith.md R144). -/
def defer (c : Config) (r : EncRun) : EncRun :=
  { r with underflow := r.underflow + 1, low := e3Low c r.low, high := e3High c r.high }

/-- The MSB_EQ action: emit the bits when `emits` (ENC.SYM), leave the port alone otherwise (ENC.EST, 42_encoder.md R164). -/
def msbStep (c : Config) (emits : Bool) (r : EncRun) : BeatsEnd × Writer :=
  if emits then r.writer.emitAll (r.msbBits c) else (.done, r.writer)

/-- ENC's renormalisation loop (41_range_arith.md R142; order 70_reset_and_hazards.md R263), at most `fuel` shifts. After `W` shifts
every interval classifies as EXIT (R147; log 16). -/
def renorm (c : Config) (emits : Bool) : Nat → EncRun → LoopEnd × EncRun
  | 0, r => (.exit, r)
  | fuel + 1, r =>
    match classify c r.low r.high with
    | .exit => (.exit, r)
    | .msbEq =>
      match r.msbStep c emits with
      | (.done, w) => renorm c emits fuel ((r.settle w).shift c)
      | (.error, w) => (.raised .streamFault, { r with writer := w })
      | (.stuck b, w) => (.stuck b, { r with writer := w })
    | .e3 =>
      if r.underflow = c.underflowMax then (.raised .counterOverflow, r)
      else renorm c emits fuel ((r.defer c).shift c)

end EncRun

namespace DecRun

/-- Replace the reader. -/
def withReader (r : DecRun) (rd : Reader) : DecRun := { r with reader := rd }

/-- DEC's E3 action (41_range_arith.md R145). -/
def defer (c : Config) (r : DecRun) : DecRun :=
  { r with code := e3Code c r.code, low := e3Low c r.low, high := e3High c r.high }

/-- DEC's SHIFT once the bit is taken (41_range_arith.md R146). -/
def shift (c : Config) (b : Bool) (r : DecRun) : DecRun :=
  { r with low := shiftLow c r.low, high := shiftHigh c r.high, code := shiftCode c r.code b }

/-- The action of a step that is not EXIT (41_range_arith.md R145): none for MSB_EQ. -/
def act (c : Config) (k : RenormCase) (r : DecRun) : DecRun :=
  match k with
  | .e3 => r.defer c
  | .msbEq | .exit => r

/-- DEC's renormalisation loop (41_range_arith.md R142; order 70_reset_and_hazards.md R264), at most `fuel` shifts, each with one
take beat (log 16). -/
def renorm (c : Config) : Nat → DecRun → LoopEnd × DecRun
  | 0, r => (.exit, r)
  | fuel + 1, r =>
    match classify c r.low r.high with
    | .exit => (.exit, r)
    | k =>
      match r.reader.answer with
      | (.bit b, rd) => renorm c fuel (((r.act c k).shift c b).withReader (rd.consume b))
      | (.error, rd) => (.raised .streamFault, r.withReader rd)
      | (.never, rd) => (.stuck false, r.withReader rd)

end DecRun

end Sys2Proof.Machine
end

