-- ==== Sys2Proof/Machine/Decoder.lean ====
section
/-! DEFINITION. The meaning of every DEC command (43_decoder.md), each after the decode and mode checks of 60_exceptions.md R228. -/

namespace Sys2Proof.Machine

/-- End a command of DEC: with the first failing check's status if there is one, else with what it does. -/
def decChecked (accepted : Bool) (check : Option Status) (s : State) (effect : Host.Outcome State Fault Refusal) :
    Host.Outcome State Fault Refusal :=
  if !accepted then .next (raise .dec .invalidState s)
  else match check with
    | some st => .next (raise .dec st s)
    | none => effect

/-- DEC.INIT past its checks (R190; order 70_reset_and_hazards.md R265): M.INIT, the registers, then `W` take beats into `code`.
A StreamFault leaves `N = n` (10_state.md R46) and the bits taken before it taken. -/
def decInitRun (n : Nat) (s : State) : State :=
  match s.reader.takeField s.cfg.w 0 with
  | (.done, code, rd) =>
    respondDec 0 ((s.withReader rd).withDec
      { s.dec with
        model := s.dec.model.init n, low := 0, high := s.cfg.windowMask, tmpRange := 0, code := code, mode := .ready })
  | (.error, _, rd) => raise .dec .streamFault ((s.withReader rd).withDec { s.dec with model := s.dec.model.init n })
  | (.stuck _, _, rd) => stallDec (s.withReader rd)

/-- DEC.INIT n (R190). -/
def execDecInit (n : Nat) (s : State) : Host.Outcome State Fault Refusal :=
  decChecked (accepts (.decInit n) s.dec.mode) (initCheck s.cfg s.reader.bound n) s (.next (decInitRun n s))

/-- DEC.EXPAND n2 (R191), the table grown as ENC grows its own (40_model.md R125). -/
def execDecExpand (n2 : Nat) (s : State) : Host.Outcome State Fault Refusal :=
  decChecked (accepts (.decExpand n2) s.dec.mode) (expandCheck s.cfg s.dec.model n2) s
    (match s.dec.model.expand s.cfg n2 with
      | some m => .next (respondDec 0 (s.withDec { s.dec with model := m }))
      | none => .fault .scalingNeverEnds)

/-- The run of the renormalisation loop of the symbol `sym`, from NARROW on, `W` shifts at most (41_range_arith.md R147). -/
def decSymbolRun (sym : Nat) (s : State) : LoopEnd × DecRun :=
  let nw := narrow s.dec.model sym s.dec.low s.dec.high
  DecRun.renorm s.cfg s.cfg.w { low := nw.low, high := nw.high, code := s.dec.code, reader := s.reader }

/-- What DEC.SYM leaves when its loop ended at EXIT (70_reset_and_hazards.md R264 steps 4 and 5). -/
def decSymbolState (sym : Nat) (r : DecRun) (s : State) : State :=
  (s.withReader r.reader).withDec
    { s.dec with
      low := r.low, high := r.high, code := r.code, tmpRange := (narrow s.dec.model sym s.dec.low s.dec.high).tmpRange,
      model := (s.dec.model.update sym).scaleMaybe s.cfg }

/-- DEC.SYM once the symbol is looked up (R192; order 70_reset_and_hazards.md R264). -/
def decSymbol (sym : Nat) (s : State) : State :=
  match decSymbolRun sym s with
  | (.exit, r) => respondDec sym (decSymbolState sym r s)
  | (.raised st, r) => raise .dec st (s.withReader r.reader)
  | (.stuck _, r) => stallDec (s.withReader r.reader)

/-- The symbol DEC.SYM decodes: the scaled code looked up in the table (R192; 41_range_arith.md R150; 40_model.md R119). -/
def decodedSymbol (d : Dec) : Option Nat := d.model.lookup (scaledCode d.model d.low d.high d.code)

/-- DEC.SYM (R192). A lookup that finds no symbol is an internal fault (60_exceptions.md R238; log 11). -/
def execDecSym (s : State) : Host.Outcome State Fault Refusal :=
  decChecked (accepts .decSym s.dec.mode) none s
    (match decodedSymbol s.dec with
      | some sym => .next (decSymbol sym s)
      | none => .fault .lookupFindsNoSymbol)

/-- The copy of DEC's state that SAVE writes into a slot (R193; 10_state.md R32). -/
def decSnapshot (d : Dec) : DecSlot :=
  { valid := true, low := d.low, high := d.high, code := d.code, tmpRange := d.tmpRange, model := d.model.saved }

/-- DEC.SAVE (R193): the lowest free slot, OutOfMemory when there is none. -/
def execDecSave (s : State) : Host.Outcome State Fault Refusal :=
  decChecked (accepts .decSave s.dec.mode) none s
    (.next (match decFreeHandle s.cfg s.dec with
      | none => raise .dec .outOfMemory s
      | some h => respondDec h (s.withDec { s.dec with slots := s.dec.slots.set h (decSnapshot s.dec) })))

/-- What RESTORE loads from a slot (R194). -/
def decRestored (d : Dec) (slot : DecSlot) : Dec :=
  { d with
    low := slot.low, high := slot.high, code := slot.code, tmpRange := slot.tmpRange, model := d.model.load slot.model,
    mode := .ready }

/-- Clear `valid` of slot `h`, whose contents then stay unread (10_state.md R33). -/
def decFreeSlot (h : Nat) (slot : DecSlot) (d : Dec) : Dec := { d with slots := d.slots.set h { slot with valid := false } }

/-- DEC.RESTORE h [cleanup] (R194). -/
def execDecRestore (cleanup : Bool) (h : Nat) (s : State) : Host.Outcome State Fault Refusal :=
  decChecked (accepts (.decRestore cleanup h) s.dec.mode) none s
    (.next (match decSlotOf s.cfg s.dec h with
      | none => raise .dec .invalidArgument s
      | some slot =>
        let d := decRestored s.dec slot
        respondDec 0 (s.withDec (if cleanup then decFreeSlot h slot d else d))))

/-- DEC.DELETE h (R195). -/
def execDecDelete (h : Nat) (s : State) : Host.Outcome State Fault Refusal :=
  decChecked (accepts (.decDelete h) s.dec.mode) none s
    (.next (match decSlotOf s.cfg s.dec h with
      | none => raise .dec .invalidArgument s
      | some slot => respondDec 0 (s.withDec (decFreeSlot h slot s.dec))))

/-- DEC.READP i (R196). -/
def execDecReadp (idx : Nat) (s : State) : Host.Outcome State Fault Refusal :=
  decChecked (accepts (.decReadp idx) s.dec.mode) (if s.dec.model.n < idx then some .invalidArgument else none) s
    (.next (respondDec (s.dec.model.entry idx) s))

/-- DEC.READREG r (R197): TOTAL has no value in UNINIT; in FAULT the datapath registers yield free values of their width
(10_state.md R40, R46; log 4). -/
def execDecReadreg (reg : Nat) (s : State) : Host.Outcome State Fault Refusal :=
  decChecked (accepts (.decReadreg reg) s.dec.mode && !decide (reg = 7 ∧ s.dec.mode = .uninit)) none s
    (.next (match decRegister s.cfg s.dec reg with
      | none => raise .dec .invalidArgument s
      | some (width, value) =>
        if s.dec.mode = .fault ∧ isDatapathRegister reg = true then
          respondDec ((Config.freeDecDraw s.dec.draws).toNat % 2 ^ width) (s.withDec { s.dec with draws := s.dec.draws + 1 })
        else respondDec value s))

end Sys2Proof.Machine
end

