-- ==== Sys2Proof/Machine/Encoder.lean ====
section
/-! DEFINITION. The meaning of every ENC command (42_encoder.md), each after the decode and mode checks of 60_exceptions.md R228. -/

namespace Sys2Proof.Machine

/-- The greatest bit count a response can carry (30_encoding.md R95). -/
def countMax : Nat := 2 ^ 64 - 1

/-- End a command of ENC: with the first failing check's status if there is one, else with what it does. -/
def encChecked (accepted : Bool) (check : Option Status) (s : State) (effect : Host.Outcome State Fault Refusal) :
    Host.Outcome State Fault Refusal :=
  if !accepted then .next (raise .enc .invalidState s)
  else match check with
    | some st => .next (raise .enc st s)
    | none => effect

/-- ENC.INIT n (R160). -/
def execEncInit (n : Nat) (s : State) : Host.Outcome State Fault Refusal :=
  encChecked (accepts (.encInit n) s.enc.mode) (initCheck s.cfg s.writer.bound n) s
    (.next (respondEnc 0 (s.withEnc
      { s.enc with model := s.enc.model.init n, low := 0, high := s.cfg.windowMask, underflow := 0, tmpRange := 0, mode := .ready })))

/-- ENC.EXPAND n2 (R161). -/
def execEncExpand (n2 : Nat) (s : State) : Host.Outcome State Fault Refusal :=
  encChecked (accepts (.encExpand n2) s.enc.mode) (expandCheck s.cfg s.enc.model n2) s
    (match s.enc.model.expand s.cfg n2 with
      | some m => .next (respondEnc 0 (s.withEnc { s.enc with model := m }))
      | none => .fault .scalingNeverEnds)

/-- The check of ENC.SYM and ENC.EST (60_exceptions.md R237). -/
def symbolCheck (m : Model) (sym : Nat) : Option Status := if m.n ≤ sym then some .symbolOutOfRange else none

/-- The run of the renormalisation loop of one symbol, from NARROW on, `W` shifts at most (41_range_arith.md R147). -/
def encSymbolRun (emits : Bool) (sym : Nat) (s : State) : LoopEnd × EncRun :=
  let nw := narrow s.enc.model sym s.enc.low s.enc.high
  EncRun.renorm s.cfg emits s.cfg.w
    { low := nw.low, high := nw.high, underflow := s.enc.underflow, count := 0, writer := s.writer }

/-- What a symbol command leaves when its loop ended at EXIT: the interval, the pending count, the updated table
(70_reset_and_hazards.md R263 steps 2 and 3). -/
def encSymbolState (sym : Nat) (r : EncRun) (s : State) : State :=
  (s.withWriter r.writer).withEnc
    { s.enc with
      low := r.low, high := r.high, underflow := r.underflow, tmpRange := (narrow s.enc.model sym s.enc.low s.enc.high).tmpRange,
      model := (s.enc.model.update sym).scaleMaybe s.cfg }

/-- The symbol step of ENC after its checks: `emits` for ENC.SYM, not for ENC.EST (R162, R164; order 70_reset_and_hazards.md R263).
A StreamFault or CounterOverflow stops it at its micro-step, the bits accepted before it staying accepted. -/
def encSymbol (emits : Bool) (sym : Nat) (s : State) : State :=
  match encSymbolRun emits sym s with
  | (.exit, r) =>
    if countMax < r.count then raise .enc .counterOverflow (encSymbolState sym r s)
    else respondEnc r.count (encSymbolState sym r s)
  | (.raised st, r) => raise .enc st (s.withWriter r.writer)
  | (.stuck b, r) => stallEnc (.sym sym) b (s.withWriter r.writer)

/-- ENC.SYM s (R162). -/
def execEncSym (sym : Nat) (s : State) : Host.Outcome State Fault Refusal :=
  encChecked (accepts (.encSym sym) s.enc.mode) (symbolCheck s.enc.model sym) s (.next (encSymbol true sym s))

/-- The bits of a flush: the second MSB of `low`, then `underflow + 1` complements (R163). -/
def flushBits (c : Config) (e : Enc) : List Bool :=
  flushBit c e.low :: List.replicate (e.underflow + 1) (!flushBit c e.low)

/-- The flush procedure (R163; order 70_reset_and_hazards.md R266). -/
def encFlushRun (force : Bool) (s : State) : State :=
  if s.enc.underflow = s.cfg.underflowMax then raise .enc .counterOverflow s
  else match s.writer.emitAll (flushBits s.cfg s.enc) with
    | (.done, w) =>
      let t := (s.withWriter w).withEnc { s.enc with underflow := 0, mode := .flushed }
      if countMax < s.enc.underflow + 2 then raise .enc .counterOverflow t else respondEnc (s.enc.underflow + 2) t
    | (.error, w) => raise .enc .streamFault (s.withWriter w)
    | (.stuck b, w) => stallEnc (.flush force) b (s.withWriter w)

/-- ENC.FLUSH [force] (R163): an unforced flush in FLUSHED does nothing and answers 0. -/
def execEncFlush (force : Bool) (s : State) : Host.Outcome State Fault Refusal :=
  encChecked (accepts (.encFlush force) s.enc.mode) none s
    (.next (if s.enc.mode = .flushed ∧ force = false then respondEnc 0 s else encFlushRun force s))

/-- ENC.EST s (R164): ENC.SYM without its emits. -/
def execEncEst (sym : Nat) (s : State) : Host.Outcome State Fault Refusal :=
  encChecked (accepts (.encEst sym) s.enc.mode) (symbolCheck s.enc.model sym) s (.next (encSymbol false sym s))

/-- The copy of ENC's state that SAVE writes into a slot (R165; 10_state.md R32). -/
def encSnapshot (e : Enc) : EncSlot :=
  { valid := true, low := e.low, high := e.high, underflow := e.underflow, flushed := decide (e.mode = .flushed),
    tmpRange := e.tmpRange, model := e.model.saved }

/-- ENC.SAVE (R165): the lowest free slot, OutOfMemory when there is none. -/
def execEncSave (s : State) : Host.Outcome State Fault Refusal :=
  encChecked (accepts .encSave s.enc.mode) none s
    (.next (match encFreeHandle s.cfg s.enc with
      | none => raise .enc .outOfMemory s
      | some h => respondEnc h (s.withEnc { s.enc with slots := s.enc.slots.set h (encSnapshot s.enc) })))

/-- What RESTORE loads from a slot (R166). -/
def encRestored (e : Enc) (slot : EncSlot) : Enc :=
  { e with
    low := slot.low, high := slot.high, underflow := slot.underflow, tmpRange := slot.tmpRange, model := e.model.load slot.model,
    mode := if slot.flushed then .flushed else .ready }

/-- Clear `valid` of slot `h`, whose contents then stay unread (10_state.md R33). -/
def encFreeSlot (h : Nat) (slot : EncSlot) (e : Enc) : Enc := { e with slots := e.slots.set h { slot with valid := false } }

/-- ENC.RESTORE h [cleanup] (R166). -/
def execEncRestore (cleanup : Bool) (h : Nat) (s : State) : Host.Outcome State Fault Refusal :=
  encChecked (accepts (.encRestore cleanup h) s.enc.mode) none s
    (.next (match encSlotOf s.cfg s.enc h with
      | none => raise .enc .invalidArgument s
      | some slot =>
        let e := encRestored s.enc slot
        respondEnc 0 (s.withEnc (if cleanup then encFreeSlot h slot e else e))))

/-- ENC.DELETE h (R167). -/
def execEncDelete (h : Nat) (s : State) : Host.Outcome State Fault Refusal :=
  encChecked (accepts (.encDelete h) s.enc.mode) none s
    (.next (match encSlotOf s.cfg s.enc h with
      | none => raise .enc .invalidArgument s
      | some slot => respondEnc 0 (s.withEnc (encFreeSlot h slot s.enc))))

/-- ENC.READP i (R168). -/
def execEncReadp (idx : Nat) (s : State) : Host.Outcome State Fault Refusal :=
  encChecked (accepts (.encReadp idx) s.enc.mode) (if s.enc.model.n < idx then some .invalidArgument else none) s
    (.next (respondEnc (s.enc.model.entry idx) s))

/-- ENC.READREG r (R169): TOTAL has no value in UNINIT; in FAULT the datapath registers yield free values of their width
(10_state.md R40, R46; log 4). -/
def execEncReadreg (reg : Nat) (s : State) : Host.Outcome State Fault Refusal :=
  encChecked (accepts (.encReadreg reg) s.enc.mode && !decide (reg = 7 ∧ s.enc.mode = .uninit)) none s
    (.next (match encRegister s.cfg s.enc reg with
      | none => raise .enc .invalidArgument s
      | some (width, value) =>
        if s.enc.mode = .fault ∧ isDatapathRegister reg = true then
          respondEnc ((Config.freeEncDraw s.enc.draws).toNat % 2 ^ width) (s.withEnc { s.enc with draws := s.enc.draws + 1 })
        else respondEnc value s))

end Sys2Proof.Machine
end

