-- ==== Sys2Proof/Machine/Dispatch.lean ====
section
/-! DEFINITION. The meaning of an accepted command, one arm per row of the opcode table. -/

namespace Sys2Proof.Machine

def exec (i : Instr) (s : State) : Host.Outcome State Fault Refusal :=
  match i with
  -- ENC (42_encoder.md)
  | .encInit n => Sys2Proof.Machine.execEncInit n s
  | .encExpand n2 => Sys2Proof.Machine.execEncExpand n2 s
  | .encSym sym => Sys2Proof.Machine.execEncSym sym s
  | .encFlush force => Sys2Proof.Machine.execEncFlush force s
  | .encEst sym => Sys2Proof.Machine.execEncEst sym s
  | .encSave => Sys2Proof.Machine.execEncSave s
  | .encRestore cleanup h => Sys2Proof.Machine.execEncRestore cleanup h s
  | .encDelete h => Sys2Proof.Machine.execEncDelete h s
  | .encReadp idx => Sys2Proof.Machine.execEncReadp idx s
  | .encReadreg reg => Sys2Proof.Machine.execEncReadreg reg s
  -- DEC (43_decoder.md)
  | .decInit n => Sys2Proof.Machine.execDecInit n s
  | .decExpand n2 => Sys2Proof.Machine.execDecExpand n2 s
  | .decSym => Sys2Proof.Machine.execDecSym s
  | .decSave => Sys2Proof.Machine.execDecSave s
  | .decRestore cleanup h => Sys2Proof.Machine.execDecRestore cleanup h s
  | .decDelete h => Sys2Proof.Machine.execDecDelete h s
  | .decReadp idx => Sys2Proof.Machine.execDecReadp idx s
  | .decReadreg reg => Sys2Proof.Machine.execDecReadreg reg s

end Sys2Proof.Machine
end

