-- ==== Sys2Proof/Machine/Ports.lean ====
section
/-! DEFINITION. The command and response ports (30_encoding.md R80 to R84) and reset (70_reset_and_hazards.md R250, R251): what one
act of the host at a rising edge does. -/

namespace Sys2Proof.Machine

/-- The unit `u` accepts a word (R82): a command of its own runs, any other word ends with IllegalCommand and changes nothing
else (R88). -/
def accept (u : Half) (word : Word) (s : State) : Host.Outcome State Fault Refusal :=
  match decode u word with
  | .ok i => exec i s
  | .error _ => .next (raise u .illegalCommand s)

/-- The unit `u` is ready again (R82). -/
def freePort (u : Half) (s : State) : State :=
  match u with
  | .enc => s.withEnc (s.enc.withCtl .ready)
  | .dec => s.withDec (s.dec.withCtl .ready)

/-- The host takes the response `r` of `u` (R83). -/
def deliver (u : Half) (r : Response) (s : State) : State := freePort u (s.withDelivered (s.delivered ++ [(u, r)]))

/-- The strap `enc_ob_bound` takes this level, which is all it does (70_reset_and_hazards.md R268); but an ENC that waits for a detached
writer goes on with its command when the writer is attached again: no beat of that command has passed, so it is run from the registers
it began with, which no other command could change (R260, R261; log 19). -/
def setWriterBound (level : Bool) (s : State) : Host.Outcome State Fault Refusal :=
  let t := s.withWriter { s.writer with bound := level }
  match s.enc.ctl with
  | .offeringDetached _ cmd => if level then exec cmd.instr (freePort .enc t) else .next t
  | .ready | .responding _ | .offering _ | .requesting | .requestingDetached => .next t

/-- The same of the strap `dec_ib_bound` and a DEC.SYM that waits for a detached reader. -/
def setReaderBound (level : Bool) (s : State) : Host.Outcome State Fault Refusal :=
  let t := s.withReader { s.reader with bound := level }
  match s.dec.ctl with
  | .requestingDetached => if level then exec .decSym (freePort .dec t) else .next t
  | .ready | .responding _ | .offering _ | .requesting | .offeringDetached _ _ => .next t

/-- One act of the host at a rising edge. A word offered while the unit is not ready is not accepted, and a response asked for
while there is none is not taken: that edge is no beat (R80, R82, R83; 70_reset_and_hazards.md R251, R261). -/
def edge (ev : HostEvent) (s : State) : Host.Outcome State Fault Refusal :=
  match ev with
  | .offer u word => if s.cmdReady u then accept u word s else .next s
  | .take u =>
    match s.response u with
    | some r => .next (deliver u r s)
    | none => .next s
  | .reset level => .next (if level then (resetUnits s).withRst true else s.withRst false)
  | .bindWriter level => setWriterBound level s
  | .bindReader level => setReaderBound level s

end Sys2Proof.Machine
end

