-- ==== Sys2Proof/Machine/Step.lean ====
section
/-! DEFINITION. One step: the next act of the host; nothing happens when the host does nothing (70_reset_and_hazards.md R260). -/

namespace Sys2Proof.Machine

/-- One step of the machine (log 8). -/
def step (s : State) : Host.Outcome State Fault Refusal :=
  match s.inputs with
  | [] => .next s
  | ev :: rest => edge ev (s.withInputs rest)

/-- `s` with the host's next act the offer of the 64-bit word `w` on the port its UNIT field names, that port ready and `rst` low,
so that the very next step accepts the word and runs it (log 8, log 15). -/
def State.withFetchWord (s : State) (_nbits w : Nat) : State :=
  let word := BitVec.ofNat 64 w
  let u := portOf word
  ((freePort u s).withRst false).withInputs (.offer u word :: s.inputs)

end Sys2Proof.Machine
end

