-- ==== Sys2Proof/Machine/Pseudo.lean ====
section
/-! DEFINITION. The pseudo-commands: sequences of commands that the host issues, taking each response before the next command
(30_encoding.md R93, R94; 70_reset_and_hazards.md R261; log 17). -/

namespace Sys2Proof.Machine

/-- The host issues the command `i` to its unit and takes the response: the response and the state after it. None when the port is
not ready or the command never answers. -/
def issue (i : Instr) (s : State) : Option (Response × State) :=
  if s.cmdReady i.unit then
    match exec i s with
    | .next t =>
      match t.response i.unit with
      | some r => some (r, deliver i.unit r t)
      | none => none
    | .fault _ => none
    | .refused _ => none
  else none

/-- The host issues commands one after another: their responses, in order, and the state after the last. -/
def issueAll : List Instr → State → Option (List Response × State)
  | [], s => some ([], s)
  | i :: rest, s =>
    match issue i s with
    | none => none
    | some (r, t) =>
      match issueAll rest t with
      | none => none
      | some (rs, final) => some (r :: rs, final)

/-- What a host sequence gives: a status, its value, and the state it leaves. -/
structure HostResult (α : Type) where
  status : Status
  value : α
  state : State
  deriving Repr

/-- ENC.ESTBUF buf, len, limit (R93), from the accumulated cost `acc`: stops at the first status that is not OK, and after the
symbol whose cost takes the sum above `limit`. -/
def estBuf (limit : Nat) : List Nat → Nat → State → Option (HostResult Nat)
  | [], acc, s => some { status := .ok, value := acc, state := s }
  | sym :: rest, acc, s =>
    match issue (.encEst sym) s with
    | none => none
    | some (r, t) =>
      if r.status ≠ .ok then some { status := r.status, value := acc, state := t }
      else if limit < acc + r.data.toNat then some { status := .ok, value := acc + r.data.toNat, state := t }
      else estBuf limit rest (acc + r.data.toNat) t

/-- The ENC.EST commands of ENC.COST (R94): their data summed, no limit; stops at the first status that is not OK (log 17). -/
def estSum : List Nat → Nat → State → Option (HostResult Nat)
  | [], acc, s => some { status := .ok, value := acc, state := s }
  | sym :: rest, acc, s =>
    match issue (.encEst sym) s with
    | none => none
    | some (r, t) =>
      if r.status ≠ .ok then some { status := r.status, value := acc, state := t } else estSum rest (acc + r.data.toNat) t

/-- ENC.COST s1, ..., sk (R94): SAVE, the estimates, RESTORE of the handle with cleanup. Its status is the first that is not OK. -/
def costOf (syms : List Nat) (s : State) : Option (HostResult Nat) :=
  match issue .encSave s with
  | none => none
  | some (rs, s1) =>
    if rs.status ≠ .ok then some { status := rs.status, value := 0, state := s1 }
    else match estSum syms 0 s1 with
      | none => none
      | some est =>
        match issue (.encRestore true rs.data.toNat) est.state with
        | none => none
        | some (rr, s2) =>
          some { status := if est.status ≠ .ok then est.status else rr.status, value := est.value, state := s2 }

/-- DEC.UNTIL e (R94): DEC.SYM until the symbol `e` comes; the symbols before it. The host gives up after `fuel` symbols
(43_decoder.md R199: the unit itself does not detect the end). DESIGN CHOICE (log 17): the status is looked at before the data, so that a
DEC.SYM that ends with a status other than OK, whose data is 0, ends the loop with that status and the symbols so far, also for `e = 0`;
R94 and R199 say only to repeat until the data equals `e`. -/
def decUntil (e : Nat) : Nat → State → Option (HostResult (List Nat))
  | 0, _ => none
  | fuel + 1, s =>
    match issue .decSym s with
    | none => none
    | some (r, t) =>
      if r.status ≠ .ok then some { status := r.status, value := [], state := t }
      else if r.data.toNat = e then some { status := .ok, value := [], state := t }
      else match decUntil e fuel t with
        | none => none
        | some rest => some { rest with value := r.data.toNat :: rest.value }

/-- ENC.FLUSHF, which is `ENC.FLUSH force` (R94). -/
def flushF : Instr := .encFlush true

end Sys2Proof.Machine
end

