-- ==== Sys2Proof/Safety.lean ====
section
/-! DEFINITION. The words the claims are made of: a legal state (the invariants of 10_state.md R21, R26, R29 to R36 and 40_model.md
R124), a safe step, what the collaborators do (70_reset_and_hazards.md R260), a response and nothing else, and the renormalisation
loop of 41_range_arith.md R142 as a relation in plain arithmetic, which the machine's own loop is claimed to meet. -/

namespace Sys2Proof.Machine

/-- The invariants of a table in use, whoever holds it (10_state.md R29, R34). -/
structure TableOk (c : Config) (m : Model) : Prop where
  n_pos : 1 ≤ m.n
  n_le : m.n ≤ c.nmax
  zero : m.entry 0 = 0
  mono : ∀ i, i < m.n → m.entry i < m.entry (i + 1)
  bounded : m.total < c.maxTotal

/-- The invariants of an interval at a command boundary (10_state.md R35). -/
structure IntervalOk (c : Config) (low high : Nat) : Prop where
  nonempty : low < high
  fits : high < 2 ^ c.w
  low_lt : low < c.hiBit
  high_ge : c.hiBit ≤ high
  wide : low < c.lowBit ∨ c.threeQuarter ≤ high

/-- What a valid ENC slot holds (10_state.md R32, R34, R35). -/
structure EncSlotOk (c : Config) (slot : EncSlot) : Prop where
  table : TableOk c slot.model
  interval : IntervalOk c slot.low slot.high
  underflow_le : slot.underflow ≤ c.underflowMax
  flushed_empty : slot.flushed = true → slot.underflow = 0
  range_le : slot.tmpRange ≤ 2 ^ c.w

/-- What a valid DEC slot holds (10_state.md R32, R34 to R36). -/
structure DecSlotOk (c : Config) (slot : DecSlot) : Prop where
  table : TableOk c slot.model
  interval : IntervalOk c slot.low slot.high
  code_ge : slot.low ≤ slot.code
  code_le : slot.code ≤ slot.high
  range_le : slot.tmpRange ≤ 2 ^ c.w

/-- A response carries data 0 unless its status is OK (30_encoding.md R84). -/
def Response.Ok (r : Response) : Prop := r.status ≠ .ok → r.data = 0

/-- The legal states of ENC. -/
structure EncInv (c : Config) (e : Enc) : Prop where
  /-- The table has `NMAX + 1` slots (00_scope.md R7). -/
  table_length : e.model.p.length = c.nmax + 1
  /-- Every slot in use fits (40_model.md R124); nothing is said of the others (10_state.md R44, R46; log 2, log 13). -/
  entries_fit : e.mode = .ready ∨ e.mode = .flushed → ∀ i, i ≤ e.model.n → e.model.entry i < 2 ^ (c.w - 1)
  /-- `NSNAP` snapshot slots (10_state.md R32). -/
  slots_length : e.slots.length = c.nsnap
  slots_ok : ∀ slot ∈ e.slots, slot.valid = true → EncSlotOk c slot
  n_le : e.model.n ≤ c.nmax
  /-- `N` is 0 only in mode UNINIT (10_state.md R29). -/
  n_pos : e.mode ≠ .uninit → 1 ≤ e.model.n
  /-- READY and FLUSHED (10_state.md R34, R35). -/
  table : e.mode = .ready ∨ e.mode = .flushed → TableOk c e.model
  interval : e.mode = .ready ∨ e.mode = .flushed → IntervalOk c e.low e.high
  underflow_le : e.mode = .ready ∨ e.mode = .flushed → e.underflow ≤ c.underflowMax
  range_le : e.mode = .ready ∨ e.mode = .flushed → e.tmpRange ≤ 2 ^ c.w
  /-- Flush empties the pending bits (42_encoder.md R163). -/
  flushed_empty : e.mode = .flushed → e.underflow = 0
  /-- In UNINIT the registers hold their reset values (10_state.md R40) and no slot is valid (42_encoder.md R166). -/
  uninit_regs : e.mode = .uninit →
    e.low = 0 ∧ e.high = c.windowMask ∧ e.underflow = 0 ∧ e.tmpRange = 0 ∧ e.model.n = 0
  uninit_slots : e.mode = .uninit → ∀ slot ∈ e.slots, slot.valid = false
  /-- ENC has no bit-input port (30_encoding.md R80). -/
  no_request : e.ctl ≠ .requesting ∧ e.ctl ≠ .requestingDetached
  response_ok : ∀ r, e.ctl = .responding r → r.Ok

/-- The legal states of DEC. -/
structure DecInv (c : Config) (d : Dec) : Prop where
  table_length : d.model.p.length = c.nmax + 1
  entries_fit : d.mode = .ready → ∀ i, i ≤ d.model.n → d.model.entry i < 2 ^ (c.w - 1)
  slots_length : d.slots.length = c.nsnap
  slots_ok : ∀ slot ∈ d.slots, slot.valid = true → DecSlotOk c slot
  n_le : d.model.n ≤ c.nmax
  n_pos : d.mode ≠ .uninit → 1 ≤ d.model.n
  /-- DEC never holds FLUSHED (10_state.md R21). -/
  not_flushed : d.mode ≠ .flushed
  table : d.mode = .ready → TableOk c d.model
  interval : d.mode = .ready → IntervalOk c d.low d.high
  /-- `low <= code <= high` whatever bits the reader supplied (10_state.md R36). -/
  code_ge : d.mode = .ready → d.low ≤ d.code
  code_le : d.mode = .ready → d.code ≤ d.high
  range_le : d.mode = .ready → d.tmpRange ≤ 2 ^ c.w
  uninit_regs : d.mode = .uninit →
    d.low = 0 ∧ d.high = c.windowMask ∧ d.code = 0 ∧ d.tmpRange = 0 ∧ d.model.n = 0
  uninit_slots : d.mode = .uninit → ∀ slot ∈ d.slots, slot.valid = false
  /-- DEC has no bit-output port (30_encoding.md R80). -/
  no_offer : ∀ b, d.ctl ≠ .offering b ∧ ∀ cmd, d.ctl ≠ .offeringDetached b cmd
  response_ok : ∀ r, d.ctl = .responding r → r.Ok

/-- The command passes its checks in this state (42_encoder.md R162, R163), and it emits. -/
def EncBeatCommand.Accepted (e : Enc) : EncBeatCommand → Prop
  | .sym x => e.mode = .ready ∧ x < e.model.n
  | .flush force => e.mode = .ready ∨ e.mode = .flushed ∧ force = true

/-- The legal states of the machine. -/
structure Inv (s : State) : Prop where
  cfg : s.cfg.Valid
  enc : EncInv s.cfg s.enc
  dec : DecInv s.cfg s.dec
  /-- A unit waits for a detached writer or reader only while its strap is 0, inside a command that its state accepts
  (70_reset_and_hazards.md R268; log 19). -/
  enc_waits : ∀ b cmd, s.enc.ctl = .offeringDetached b cmd → s.writer.bound = false ∧ cmd.Accepted s.enc
  dec_waits : s.dec.ctl = .requestingDetached → s.reader.bound = false ∧ s.dec.mode = .ready
  /-- While `rst = 1` both units are in UNINIT with no command in progress (70_reset_and_hazards.md R250); the registers and the
  `valid` bits of that mode are `uninit_regs` and `uninit_slots`, and table and slot contents are left open. -/
  held : s.rst = true → (s.enc.mode = .uninit ∧ s.enc.ctl = .ready) ∧ s.dec.mode = .uninit ∧ s.dec.ctl = .ready

/-- A safe step: the machine goes on. -/
def SafeStep (s : State) : Prop := ∃ t, step s = .next t

/-- An attached writer that accepts every bit (70_reset_and_hazards.md R260: each beat completes; no error is reported). -/
def Writer.Accepting (w : Writer) : Prop := w.bound = true ∧ w.after = .accept ∧ ∀ a ∈ w.script, a = .accept

/-- An attached reader that answers every request with a bit (70_reset_and_hazards.md R260; no error is reported). -/
def Reader.Supplying (r : Reader) : Prop := r.bound = true ∧ (∃ b, r.after = .bit b) ∧ ∀ a ∈ r.script, ∃ b, a = .bit b

/-- An attached writer that completes every beat, with or without an error (70_reset_and_hazards.md R260). -/
def Writer.Answering (w : Writer) : Prop := w.bound = true ∧ w.after ≠ .never ∧ ∀ a ∈ w.script, a ≠ .never

/-- An attached reader that completes every beat, with or without an error (70_reset_and_hazards.md R260). -/
def Reader.Answering (r : Reader) : Prop := r.bound = true ∧ r.after ≠ .never ∧ ∀ a ∈ r.script, a ≠ .never

/-- The answers of the writer to its next `k` beats: none while it is detached (70_reset_and_hazards.md R268). -/
def Writer.coming (w : Writer) (k : Nat) : List WriterAnswer :=
  if w.bound then (w.script ++ List.replicate k w.after).take k else List.replicate k .never

/-- The answers of the reader to its next `k` beats: none while it is detached (70_reset_and_hazards.md R268). -/
def Reader.coming (r : Reader) (k : Nat) : List ReaderAnswer :=
  if r.bound then (r.script ++ List.replicate k r.after).take k else List.replicate k .never

/-- The writer after `k` beats that accepted `bits`. A detached writer has answered none. -/
def Writer.past (w : Writer) (k : Nat) (bits : List Bool) : Writer :=
  { w with script := if w.bound then w.script.drop k else w.script, accepted := w.accepted ++ bits }

/-- The reader after `k` beats that gave `bits`. A detached reader has answered none. -/
def Reader.past (r : Reader) (k : Nat) (bits : List Bool) : Reader :=
  { r with script := if r.bound then r.script.drop k else r.script, taken := r.taken ++ bits }

/-- A list of bits read as a number, the first bit the most significant (20_memory.md R61). -/
def bitsValue : List Bool → Nat
  | [] => 0
  | b :: bs => b.toNat * 2 ^ bs.length + bitsValue bs

/-- The mode of a unit. -/
def State.mode (s : State) : Half → Mode
  | .enc => s.enc.mode
  | .dec => s.dec.mode

/-- The response `(OK, data)` (30_encoding.md R84). -/
def okResponse (data : Nat) : Response := { status := .ok, data := BitVec.ofNat 64 data }

/-- The response `(st, 0)` (30_encoding.md R84). -/
def errorResponse (st : Status) : Response := { status := st, data := 0 }

/-- `s` with the response `r` on offer by `u`, and nothing else changed. -/
def State.answered (s : State) (u : Half) (r : Response) : State :=
  match u with
  | .enc => { s with enc := { s.enc with ctl := .responding r } }
  | .dec => { s with dec := { s.dec with ctl := .responding r } }

/-- ENC's renormalisation loop (41_range_arith.md R141 to R144, R146): `EncLoop c low high u bits low' high' u'` says that the loop,
entered with `low`, `high` and `underflow = u`, emits `bits` and leaves `low'`, `high'` and `u'`. -/
inductive EncLoop (c : Config) : Nat → Nat → Nat → List Bool → Nat → Nat → Nat → Prop where
  | exit {low high u : Nat} (msb : high.testBit (c.w - 1) ≠ low.testBit (c.w - 1))
      (straddle : ¬(low.testBit (c.w - 2) = true ∧ high.testBit (c.w - 2) = false)) : EncLoop c low high u [] low high u
  | msbEq {low high u low' high' u' : Nat} {bits : List Bool} (msb : high.testBit (c.w - 1) = low.testBit (c.w - 1))
      (rest : EncLoop c (2 * low % 2 ^ c.w) ((2 * high + 1) % 2 ^ c.w) 0 bits low' high' u') :
      EncLoop c low high u
        (high.testBit (c.w - 1) :: List.replicate u (!high.testBit (c.w - 1)) ++ bits) low' high' u'
  | e3 {low high u low' high' u' : Nat} {bits : List Bool} (msb : high.testBit (c.w - 1) ≠ low.testBit (c.w - 1))
      (straddle : low.testBit (c.w - 2) = true ∧ high.testBit (c.w - 2) = false) (room : u ≠ 2 ^ c.r - 1)
      (rest : EncLoop c (2 * (low % 2 ^ (c.w - 2)) % 2 ^ c.w) ((2 * (high + 2 ^ (c.w - 2)) + 1) % 2 ^ c.w) (u + 1)
        bits low' high' u') :
      EncLoop c low high u bits low' high' u'

/-- ENC's renormalisation loop meets an E3 step with `underflow` at its limit, after emitting `bits` (41_range_arith.md R144). -/
inductive EncOverflow (c : Config) : Nat → Nat → Nat → List Bool → Prop where
  | here {low high u : Nat} (msb : high.testBit (c.w - 1) ≠ low.testBit (c.w - 1))
      (straddle : low.testBit (c.w - 2) = true ∧ high.testBit (c.w - 2) = false) (full : u = 2 ^ c.r - 1) :
      EncOverflow c low high u []
  | msbEq {low high u : Nat} {bits : List Bool} (msb : high.testBit (c.w - 1) = low.testBit (c.w - 1))
      (rest : EncOverflow c (2 * low % 2 ^ c.w) ((2 * high + 1) % 2 ^ c.w) 0 bits) :
      EncOverflow c low high u (high.testBit (c.w - 1) :: List.replicate u (!high.testBit (c.w - 1)) ++ bits)
  | e3 {low high u : Nat} {bits : List Bool} (msb : high.testBit (c.w - 1) ≠ low.testBit (c.w - 1))
      (straddle : low.testBit (c.w - 2) = true ∧ high.testBit (c.w - 2) = false) (room : u ≠ 2 ^ c.r - 1)
      (rest : EncOverflow c (2 * (low % 2 ^ (c.w - 2)) % 2 ^ c.w) ((2 * (high + 2 ^ (c.w - 2)) + 1) % 2 ^ c.w) (u + 1) bits) :
      EncOverflow c low high u bits

/-- DEC's renormalisation loop (41_range_arith.md R141, R142, R145, R146): `DecLoop c low high code bits low' high' code'` says that
the loop, entered with `low`, `high` and `code`, takes `bits` and leaves `low'`, `high'` and `code'`. -/
inductive DecLoop (c : Config) : Nat → Nat → Nat → List Bool → Nat → Nat → Nat → Prop where
  | exit {low high code : Nat} (msb : high.testBit (c.w - 1) ≠ low.testBit (c.w - 1))
      (straddle : ¬(low.testBit (c.w - 2) = true ∧ high.testBit (c.w - 2) = false)) : DecLoop c low high code [] low high code
  | msbEq {low high code low' high' code' : Nat} {b : Bool} {bits : List Bool}
      (msb : high.testBit (c.w - 1) = low.testBit (c.w - 1))
      (rest : DecLoop c (2 * low % 2 ^ c.w) ((2 * high + 1) % 2 ^ c.w) ((2 * code + b.toNat) % 2 ^ c.w) bits low' high' code') :
      DecLoop c low high code (b :: bits) low' high' code'
  | e3 {low high code low' high' code' : Nat} {b : Bool} {bits : List Bool}
      (msb : high.testBit (c.w - 1) ≠ low.testBit (c.w - 1))
      (straddle : low.testBit (c.w - 2) = true ∧ high.testBit (c.w - 2) = false)
      (rest : DecLoop c (2 * (low % 2 ^ (c.w - 2)) % 2 ^ c.w) ((2 * (high + 2 ^ (c.w - 2)) + 1) % 2 ^ c.w)
        ((2 * (code ^^^ 2 ^ (c.w - 2)) + b.toNat) % 2 ^ c.w) bits low' high' code') :
      DecLoop c low high code (b :: bits) low' high' code'

/-- One symbol or one growth of the alphabet, the two things a session repeats on both sides (43_decoder.md R198). -/
inductive SessionOp where
  | sym (x : Nat)
  | expand (n2 : Nat)
  deriving DecidableEq, Repr

/-- The ENC command of a session operation. -/
def SessionOp.encode : SessionOp → Instr
  | .sym x => .encSym x
  | .expand n2 => .encExpand n2

/-- The DEC command that mirrors it (70_reset_and_hazards.md R254, R255). -/
def SessionOp.decode : SessionOp → Instr
  | .sym _ => .decSym
  | .expand n2 => .decExpand n2

/-- What the DEC command must answer: the symbol, or 0. -/
def SessionOp.answer : SessionOp → Response
  | .sym x => okResponse x
  | .expand _ => okResponse 0

end Sys2Proof.Machine
end

