-- ==== Sys2Proof/Certificates/Slice0/Obligations.lean ====
section
/-! DEFINITION. The claims about the machine, from the numbered rules of spec/. Each docstring names the rules a claim formalises; a
clause that rests on a choice of the model names its log entry. -/

open Sys2Proof Sys2Proof.Machine

/-! ### Encoding (30_encoding.md) -/

/-- Decode and encode agree. Every command that the encoding can spell decodes, from its own word, to itself on its own unit's port,
and is illegal on the other's; and a word that decodes on a port is the word of the command it decodes to, a well-formed command of
that unit, so that no command has a second spelling (R81, R85 to R88, R90, R91). -/
def Obligations.DecodeAndEncodeAgree : Prop :=
  (∀ i : Instr, i.wellFormed = true →
    decode i.unit (encode i) = .ok i ∧ ∀ u, u ≠ i.unit → decode u (encode i) = .error .wrongUnit) ∧
  ∀ (u : Half) (w : Word) (i : Instr), decode u w = .ok i → i.unit = u ∧ i.wellFormed = true ∧ encode i = w

/-- R87: the mask and match of each command, and where its operands stand: a unit reads a command from a word exactly when the word
meets the command's pattern, F being bit 55 and ARG bits 31 to 0. -/
def Obligations.CommandsAreTheMaskRows : Prop :=
  ∀ (u : Half) (w : Word) (i : Instr), decode u w = .ok i ↔
    match i with
    | .encInit n => u = .enc ∧ w &&& 0xFFFFFFFF00000000 = 0x0100000000000000 ∧ n = w.toNat % 2 ^ 32
    | .encExpand n => u = .enc ∧ w &&& 0xFFFFFFFF00000000 = 0x0200000000000000 ∧ n = w.toNat % 2 ^ 32
    | .encSym n => u = .enc ∧ w &&& 0xFFFFFFFF00000000 = 0x0300000000000000 ∧ n = w.toNat % 2 ^ 32
    | .encFlush f => u = .enc ∧ w &&& 0xFF7FFFFFFFFFFFFF = 0x0400000000000000 ∧ f = w.getLsbD 55
    | .encEst n => u = .enc ∧ w &&& 0xFFFFFFFF00000000 = 0x0500000000000000 ∧ n = w.toNat % 2 ^ 32
    | .encSave => u = .enc ∧ w &&& 0xFFFFFFFFFFFFFFFF = 0x0600000000000000
    | .encRestore f n => u = .enc ∧ w &&& 0xFF7FFFFF00000000 = 0x0700000000000000 ∧ f = w.getLsbD 55 ∧ n = w.toNat % 2 ^ 32
    | .encDelete n => u = .enc ∧ w &&& 0xFFFFFFFF00000000 = 0x0800000000000000 ∧ n = w.toNat % 2 ^ 32
    | .encReadp n => u = .enc ∧ w &&& 0xFFFFFFFF00000000 = 0x0900000000000000 ∧ n = w.toNat % 2 ^ 32
    | .encReadreg n => u = .enc ∧ w &&& 0xFFFFFFFF00000000 = 0x0A00000000000000 ∧ n = w.toNat % 2 ^ 32
    | .decInit n => u = .dec ∧ w &&& 0xFFFFFFFF00000000 = 0x1100000000000000 ∧ n = w.toNat % 2 ^ 32
    | .decExpand n => u = .dec ∧ w &&& 0xFFFFFFFF00000000 = 0x1200000000000000 ∧ n = w.toNat % 2 ^ 32
    | .decSym => u = .dec ∧ w &&& 0xFFFFFFFFFFFFFFFF = 0x1300000000000000
    | .decSave => u = .dec ∧ w &&& 0xFFFFFFFFFFFFFFFF = 0x1600000000000000
    | .decRestore f n => u = .dec ∧ w &&& 0xFF7FFFFF00000000 = 0x1700000000000000 ∧ f = w.getLsbD 55 ∧ n = w.toNat % 2 ^ 32
    | .decDelete n => u = .dec ∧ w &&& 0xFFFFFFFF00000000 = 0x1800000000000000 ∧ n = w.toNat % 2 ^ 32
    | .decReadp n => u = .dec ∧ w &&& 0xFFFFFFFF00000000 = 0x1900000000000000 ∧ n = w.toNat % 2 ^ 32
    | .decReadreg n => u = .dec ∧ w &&& 0xFFFFFFFF00000000 = 0x1A00000000000000 ∧ n = w.toNat % 2 ^ 32

/-- R88, R89: a word offered to a ready unit is illegal exactly under the five conditions of R88, the opcode maps being those of R85
and R86, the commands with an F operand ENC.FLUSH and RESTORE, those without an ARG operand ENC.FLUSH, SAVE and DEC.SYM. An illegal
word ends with IllegalCommand and changes nothing but the response on offer; any other word is a command. -/
def Obligations.IllegalWordsAreRefused : Prop :=
  ∀ (u : Half) (w : Word) (rest : List HostEvent) (s : State),
    s.inputs = .offer u w :: rest → s.rst = false → s.ctl u = .ready →
    let legal :=
      unitField w = u.number ∧
      opField w ∈ (match u with | .enc => [1, 2, 3, 4, 5, 6, 7, 8, 9, 10] | .dec => [1, 2, 3, 6, 7, 8, 9, 10]) ∧
      rsvField w = 0 ∧
      (flagField w = true → opField w ∈ (match u with | .enc => [4, 7] | .dec => [7])) ∧
      (argField w ≠ 0 → opField w ∉ (match u with | .enc => [4, 6] | .dec => [3, 6]))
    (¬legal → step s = .next ((s.withInputs rest).answered u (errorResponse .illegalCommand))) ∧
    (legal → ∃ i, decode u w = .ok i ∧ step s = exec i (s.withInputs rest))

/-- Words written out from the encodings of R81, R85 to R87 and the examples of R87, R163, R166 and R194. -/
def Obligations.SampleWordsDecode : Prop :=
  decode .enc 0x0100000000000101 = .ok (.encInit 257) ∧ decode .enc 0x0300000000000048 = .ok (.encSym 72) ∧
    decode .enc 0x0480000000000000 = .ok (.encFlush true) ∧ decode .enc 0x0780000000000000 = .ok (.encRestore true 0) ∧
    decode .enc 0x0A00000000000004 = .ok (.encReadreg 4) ∧ decode .dec 0x1300000000000000 = .ok .decSym ∧
    decode .dec 0x1780000000000002 = .ok (.decRestore true 2) ∧ decode .dec 0x1A00000000000005 = .ok (.decReadreg 5) ∧
    decode .enc 0 = .error .reservedOp ∧ decode .enc 0x1300000000000000 = .error .wrongUnit ∧
    decode .dec 0x1400000000000000 = .error .reservedOp

/-! ### Ports, reset and the step (30_encoding.md R80 to R84, 70_reset_and_hazards.md) -/

/-- A word on offer at a ready unit that decodes to the command `i` is accepted, and the step is the effect of `i` on the state in
which the host has made that offer (R82, R90; log 8). -/
def Obligations.StepRunsDecodedInstruction : Prop :=
  ∀ (u : Half) (w : Word) (i : Instr) (rest : List HostEvent) (s : State),
    s.inputs = .offer u w :: rest → s.rst = false → s.ctl u = .ready → decode u w = .ok i →
    step s = exec i (s.withInputs rest)

/-- R82: a unit with a command in progress or a response waiting accepts no command, and nor does one under reset (R251): the offer is
no beat. A command that was accepted leaves its unit not ready (R82, R83), and the other unit's ports as they were (R68, R234). -/
def Obligations.NoCommandBeforeTheResponse : Prop :=
  (∀ (u : Half) (w : Word) (rest : List HostEvent) (s : State),
    s.inputs = .offer u w :: rest → s.rst = true ∨ s.ctl u ≠ .ready → step s = .next (s.withInputs rest)) ∧
  ∀ (i : Instr) (s t : State), exec i s = .next t →
    t.ctl i.unit ≠ .ready ∧ ∀ u, u ≠ i.unit → t.ctl u = s.ctl u

/-- R83: a response is delivered at the beat at which the host takes it, after which the unit is ready again and nothing else has
changed; with no response on offer that edge is no beat (log 8 for the form of the record). -/
def Obligations.ResponseIsDelivered : Prop :=
  ∀ (u : Half) (rest : List HostEvent) (s : State), s.inputs = .take u :: rest → s.rst = false →
    (∀ r, s.ctl u = .responding r → ∃ t, step s = .next t ∧ t.ctl u = .ready ∧ t.delivered = s.delivered ++ [(u, r)] ∧
      t.answered u r = { s with inputs := rest, delivered := s.delivered ++ [(u, r)] }) ∧
    ((∀ r, s.ctl u ≠ .responding r) → step s = .next (s.withInputs rest))

/-- R83, R260: in a legal state, with a writer and a reader that complete every beat, every accepted command produces a response. -/
def Obligations.EveryCommandResponds : Prop :=
  ∀ (i : Instr) (s : State), Inv s → s.writer.Answering → s.reader.Answering →
    ∃ t r, exec i s = .next t ∧ t.ctl i.unit = .responding r

/-- R250, R44, R45: an edge with `rst = 1` gives both units their reset values, abandons the command in progress and keeps the bits
already exchanged. -/
def Obligations.ResetGivesTheResetValues : Prop :=
  ∀ (rest : List HostEvent) (s : State), s.inputs = .reset true :: rest →
    ∃ t, step s = .next t ∧ t.rst = true ∧
      (t.enc.mode = .uninit ∧ t.enc.low = 0 ∧ t.enc.high = 2 ^ s.cfg.w - 1 ∧ t.enc.underflow = 0 ∧ t.enc.tmpRange = 0 ∧
        t.enc.model.n = 0 ∧ t.enc.ctl = .ready ∧ t.enc.slots.length = s.cfg.nsnap ∧ ∀ slot ∈ t.enc.slots, slot.valid = false) ∧
      (t.dec.mode = .uninit ∧ t.dec.low = 0 ∧ t.dec.high = 2 ^ s.cfg.w - 1 ∧ t.dec.code = 0 ∧ t.dec.tmpRange = 0 ∧
        t.dec.model.n = 0 ∧ t.dec.ctl = .ready ∧ t.dec.slots.length = s.cfg.nsnap ∧ ∀ slot ∈ t.dec.slots, slot.valid = false) ∧
      t.cfg = s.cfg ∧ t.writer = s.writer ∧ t.reader = s.reader ∧ t.delivered = s.delivered ∧ t.inputs = rest

/-- R251: while `rst = 1` no unit is ready, responds, offers or requests a bit; and from a legal state the edge with `rst = 0` makes
both units ready. -/
def Obligations.OutputsUnderReset : Prop :=
  ∀ s : State, s.rst = true →
    (∀ u, s.cmdReady u = false ∧ s.response u = none) ∧ s.offeredBit = none ∧ s.bitRequest = false ∧
    (Inv s → ∀ rest, s.inputs = .reset false :: rest → ∃ t, step s = .next t ∧ ∀ u, t.cmdReady u = true)

/-- R260: a unit whose collaborator never completes a beat stays in its command, whatever the host does, until reset. R268: so does a
unit that waits for a detached collaborator, until reset or until that strap reads 1 again (log 19). -/
def Obligations.StuckUntilReset : Prop :=
  ∀ s t : State, step s = .next t →
    (∀ b, s.enc.ctl = .offering b → t.enc = s.enc ∨ ∃ rest, s.inputs = .reset true :: rest) ∧
    (s.dec.ctl = .requesting → t.dec = s.dec ∨ ∃ rest, s.inputs = .reset true :: rest) ∧
    (∀ b cmd, s.enc.ctl = .offeringDetached b cmd →
      t.enc = s.enc ∨ ∃ rest, s.inputs = .reset true :: rest ∨ s.inputs = .bindWriter true :: rest) ∧
    (s.dec.ctl = .requestingDetached →
      t.dec = s.dec ∨ ∃ rest, s.inputs = .reset true :: rest ∨ s.inputs = .bindReader true :: rest)

/-! ### Invariants -/

/-- The machine right after reset is legal, in every configuration R5 to R8 allow (10_state.md R44), and so in the reference
configuration, which is the model's choice for `State.reset` (log 1). In UNINIT the invariant speaks of the mode, the registers, the
`valid` bits, the ports and the lengths of the model's lists, and of no table or slot contents, which R44 leaves unspecified: nothing
here rests on the zeros of log 2 and log 3. -/
def Obligations.ResetIsLegal : Prop :=
  (∀ c : Config, c.Valid → Inv (State.resetIn c)) ∧ Inv State.reset

/-- Every step keeps the invariants of 10_state.md R21, R29, R34 to R36 and 40_model.md R124, and the parameters (00_scope.md R10),
whatever the host, the writer and the reader do. Of table and slot contents they speak only where the spec gives them values: slots
0..N in READY and FLUSHED, and valid snapshot slots; not after reset (R44, R250; log 2, log 3) and not in FAULT (R46; log 13). Of a
unit stuck inside a command the clauses of READY and FLUSHED hold because the model shows the registers of before the command, which is
its choice (log 6). A unit waits for a detached collaborator only while that strap is 0 (R268; log 19). -/
def Obligations.StepKeepsTheInvariant : Prop :=
  ∀ s t : State, Inv s → step s = .next t → Inv t ∧ t.cfg = s.cfg

/-- R238: in a legal state no step stops: the symbol lookup always finds a symbol, and the scaling loop of R118 ends. -/
def Obligations.LegalStatesStep : Prop :=
  ∀ s : State, Inv s → SafeStep s

/-! ### Errors (60_exceptions.md) -/

/-- R224: a refusal changes no state: nothing but the response on offer differs, for a command and for an illegal word. -/
def Obligations.RefusalsChangeNothing : Prop :=
  (∀ (i : Instr) (s t : State) (r : Response), exec i s = .next t → t.ctl i.unit = .responding r → r.status.isRefusal = true →
    t = s.answered i.unit (errorResponse r.status)) ∧
  ∀ (u : Half) (w : Word) (e : Illegal) (s : State), decode u w = .error e →
    accept u w s = .next (s.answered u (errorResponse .illegalCommand))

/-- R225, R46: a fault enters FAULT with data 0; slots and `valid` bits are unchanged, the bits exchanged stay exchanged, and `N` is
unchanged except that DEC.INIT has set it to its new size. -/
def Obligations.FaultsEnterFault : Prop :=
  ∀ (i : Instr) (s t : State) (r : Response), exec i s = .next t → t.ctl i.unit = .responding r → r.status.isFault = true →
    t.mode i.unit = .fault ∧ r.data = 0 ∧ t.enc.slots = s.enc.slots ∧ t.dec.slots = s.dec.slots ∧
    s.writer.accepted <+: t.writer.accepted ∧ s.reader.taken <+: t.reader.taken ∧
    t.enc.model.n = s.enc.model.n ∧ t.dec.model.n = (match i with | .decInit n => n | _ => s.dec.model.n)

/-- R227: FAULT is left only by a successful INIT, which gives READY, or by reset, which gives UNINIT. -/
def Obligations.FaultIsLeftByInitOrReset : Prop :=
  ∀ s t : State, step s = .next t →
    ∀ u, s.mode u = .fault → t.mode u ≠ .fault →
      (∃ w n rest, s.inputs = .offer u w :: rest ∧
        decode u w = .ok (match u with | .enc => .encInit n | .dec => .decInit n) ∧
        t.ctl u = .responding (okResponse 0) ∧ t.mode u = .ready) ∨
      (∃ rest, s.inputs = .reset true :: rest ∧ t.mode u = .uninit)

/-- R226: the mode acceptance table. A command whose mode is not accepted ends with InvalidState and changes nothing; a command whose
mode is accepted never does, but for READREG TOTAL in UNINIT, which does (R169, R197). -/
def Obligations.ModeAcceptance : Prop :=
  ∀ (i : Instr) (s : State),
    let modes : List Mode :=
      match i with
      | .encInit _ | .encDelete _ | .encReadreg _ | .decInit _ | .decDelete _ | .decReadreg _ => [.uninit, .ready, .flushed, .fault]
      | .encExpand _ | .encSym _ | .encEst _ | .decExpand _ | .decSym | .decSave | .decReadp _ => [.ready]
      | .encFlush _ | .encSave | .encReadp _ => [.ready, .flushed]
      | .encRestore _ _ => [.uninit, .ready, .flushed]
      | .decRestore _ _ => [.uninit, .ready]
    (s.mode i.unit ∉ modes → exec i s = .next (s.answered i.unit (errorResponse .invalidState))) ∧
    (s.mode i.unit ∈ modes → ∀ t r, exec i s = .next t → t.ctl i.unit = .responding r → r.status = .invalidState →
      (i = .encReadreg 7 ∨ i = .decReadreg 7) ∧ s.mode i.unit = .uninit) ∧
    ((i = .encReadreg 7 ∨ i = .decReadreg 7) → s.mode i.unit = .uninit →
      exec i s = .next (s.answered i.unit (errorResponse .invalidState)))

/-- R221: the statuses each command can end with, besides OK. -/
def Obligations.StatusesOfCommands : Prop :=
  ∀ (i : Instr) (s t : State) (r : Response), exec i s = .next t → t.ctl i.unit = .responding r → r.status ≠ .ok →
    r.status ∈ (match i with
      | .encInit _ => [.invalidArgument, .outOfMemory]
      | .decInit _ => [.invalidArgument, .outOfMemory, .streamFault]
      | .encExpand _ | .decExpand _ => [.invalidState, .invalidArgument, .outOfMemory]
      | .encSym _ => [.invalidState, .symbolOutOfRange, .streamFault, .counterOverflow]
      | .encEst _ => [.invalidState, .symbolOutOfRange, .counterOverflow]
      | .encFlush _ => [.invalidState, .streamFault, .counterOverflow]
      | .encSave | .decSave => [.invalidState, .outOfMemory]
      | .encRestore _ _ | .decRestore _ _ => [.invalidState, .invalidArgument]
      | .encDelete _ | .decDelete _ => [.invalidArgument]
      | .encReadp _ | .decReadp _ | .encReadreg _ | .decReadreg _ => [.invalidState, .invalidArgument]
      | .decSym => [.invalidState, .streamFault] : List Status)

/-- R221, R228: every cause of InvalidArgument and OutOfMemory, command by command, the former first (R160, R161, R165 to R169, R190,
R191, R193 to R197). Nothing but the response changes. -/
def Obligations.ArgumentRefusals : Prop :=
  ∀ (k : Nat) (cleanup : Bool) (s : State),
    (∀ (u : Half) (i : Instr) (bound : Bool),
      (u = .enc ∧ i = .encInit k ∧ bound = s.writer.bound) ∨ (u = .dec ∧ i = .decInit k ∧ bound = s.reader.bound) →
      (k = 0 ∨ bound = false ∨ 2 ^ (s.cfg.w - 2) ≤ k → exec i s = .next (s.answered u (errorResponse .invalidArgument))) ∧
      (k ≠ 0 → bound = true → k < 2 ^ (s.cfg.w - 2) → s.cfg.nmax < k →
        exec i s = .next (s.answered u (errorResponse .outOfMemory)))) ∧
    (∀ (u : Half) (i : Instr) (size : Nat), s.mode u = .ready →
      (u = .enc ∧ i = .encExpand k ∧ size = s.enc.model.n) ∨ (u = .dec ∧ i = .decExpand k ∧ size = s.dec.model.n) →
      (k ≤ size ∨ 2 ^ (s.cfg.w - 2) ≤ k → exec i s = .next (s.answered u (errorResponse .invalidArgument))) ∧
      (size < k → k < 2 ^ (s.cfg.w - 2) → s.cfg.nmax < k → exec i s = .next (s.answered u (errorResponse .outOfMemory)))) ∧
    ((s.cfg.nsnap ≤ k ∨ ∀ slot, s.enc.slots[k]? = some slot → slot.valid = false) →
      exec (.encDelete k) s = .next (s.answered .enc (errorResponse .invalidArgument)) ∧
      (s.enc.mode ≠ .fault → exec (.encRestore cleanup k) s = .next (s.answered .enc (errorResponse .invalidArgument)))) ∧
    ((s.cfg.nsnap ≤ k ∨ ∀ slot, s.dec.slots[k]? = some slot → slot.valid = false) →
      exec (.decDelete k) s = .next (s.answered .dec (errorResponse .invalidArgument)) ∧
      (s.dec.mode = .uninit ∨ s.dec.mode = .ready →
        exec (.decRestore cleanup k) s = .next (s.answered .dec (errorResponse .invalidArgument)))) ∧
    ((s.enc.mode = .ready ∨ s.enc.mode = .flushed) → (∀ slot ∈ s.enc.slots, slot.valid = true) →
      exec .encSave s = .next (s.answered .enc (errorResponse .outOfMemory))) ∧
    (s.dec.mode = .ready → (∀ slot ∈ s.dec.slots, slot.valid = true) →
      exec .decSave s = .next (s.answered .dec (errorResponse .outOfMemory))) ∧
    ((s.enc.mode = .ready ∨ s.enc.mode = .flushed) → s.enc.model.n < k →
      exec (.encReadp k) s = .next (s.answered .enc (errorResponse .invalidArgument))) ∧
    (s.dec.mode = .ready → s.dec.model.n < k →
      exec (.decReadp k) s = .next (s.answered .dec (errorResponse .invalidArgument))) ∧
    (k = 5 ∨ 13 ≤ k → exec (.encReadreg k) s = .next (s.answered .enc (errorResponse .invalidArgument))) ∧
    (k = 4 ∨ 13 ≤ k → exec (.decReadreg k) s = .next (s.answered .dec (errorResponse .invalidArgument)))

/-- R237: ENC.SYM and ENC.EST of a symbol at or above `N` end with SymbolOutOfRange before any state is written. -/
def Obligations.SymbolOutOfRange : Prop :=
  ∀ (sym : Nat) (s : State), s.enc.mode = .ready → s.enc.model.n ≤ sym →
    exec (.encSym sym) s = .next (s.answered .enc (errorResponse .symbolOutOfRange)) ∧
    exec (.encEst sym) s = .next (s.answered .enc (errorResponse .symbolOutOfRange))

/-! ### Rules about all commands -/

/-- R2, R68, R234: the units share nothing. A command of ENC does not depend on DEC or the reader and leaves them alone, and the
reverse. -/
def Obligations.UnitsAreIndependent : Prop :=
  ∀ (i : Instr) (s t : State), exec i s = .next t →
    (i.unit = .enc → t.dec = s.dec ∧ t.reader = s.reader ∧
      ∀ d r, exec i { s with dec := d, reader := r } = .next { t with dec := d, reader := r }) ∧
    (i.unit = .dec → t.enc = s.enc ∧ t.writer = s.writer ∧
      ∀ e w, exec i { s with enc := e, writer := w } = .next { t with enc := e, writer := w })

/-- R268: the straps are sampled only by INIT, and a strap that falls in mid-session changes nothing in the unit but that a detached
writer or reader completes no beat, and the unit waits. Any other command does with other straps what it does with both collaborators
attached, unless it needs a beat of a detached one: then the unit is left waiting at that beat, inside that command, and nothing else has
changed. Setting a strap, in any state, changes the strap alone; but a unit that waits goes on when its strap reads 1 again, and then
does what its command does from there (log 8 for the form of the act; log 19 for going on). -/
def Obligations.StrapsAreSampledByInit : Prop :=
  (∀ (i : Instr) (s t : State) (b b' : Bool), (∀ n, i ≠ .encInit n ∧ i ≠ .decInit n) → s.writer.bound = true → s.reader.bound = true →
    exec i s = .next t →
    let strapped := fun x : State => { x with writer := { x.writer with bound := b }, reader := { x.reader with bound := b' } }
    exec i (strapped s) = .next (strapped t) ∨
    (b = false ∧ ∃ (x : Bool) (cmd : EncBeatCommand), cmd.instr = i ∧
      exec i (strapped s) = .next (strapped { s with enc := { s.enc with ctl := .offeringDetached x cmd } })) ∨
    (b' = false ∧ i = .decSym ∧
      exec i (strapped s) = .next (strapped { s with dec := { s.dec with ctl := .requestingDetached } }))) ∧
  ∀ (b : Bool) (rest : List HostEvent) (s : State),
    (s.inputs = .bindWriter b :: rest →
      let t := { s with inputs := rest, writer := { s.writer with bound := b } }
      (b = false ∨ (∀ x cmd, s.enc.ctl ≠ .offeringDetached x cmd) → step s = .next t) ∧
      (b = true → ∀ x cmd, s.enc.ctl = .offeringDetached x cmd →
        step s = exec cmd.instr { t with enc := { t.enc with ctl := .ready } })) ∧
    (s.inputs = .bindReader b :: rest →
      let t := { s with inputs := rest, reader := { s.reader with bound := b } }
      (b = false ∨ s.dec.ctl ≠ .requestingDetached → step s = .next t) ∧
      (b = true → s.dec.ctl = .requestingDetached → step s = exec .decSym { t with dec := { t.dec with ctl := .ready } }))

/-- R62, R146, R190: only ENC.SYM and ENC.FLUSH touch the writer, and only DEC.INIT and DEC.SYM the reader. -/
def Obligations.WhoMovesBits : Prop :=
  ∀ (i : Instr) (s t : State), exec i s = .next t →
    (t.writer = s.writer ∨ (∃ sym, i = .encSym sym) ∨ ∃ force, i = .encFlush force) ∧
    (t.reader = s.reader ∨ (∃ n, i = .decInit n) ∨ i = .decSym)

/-- R63, R66, R45: bits already accepted stay accepted and bits already taken stay taken, through errors, stalls and resets. -/
def Obligations.StreamsOnlyGrow : Prop :=
  ∀ s t : State, step s = .next t → s.writer.accepted <+: t.writer.accepted ∧ s.reader.taken <+: t.reader.taken

/-- R32, R33: only SAVE writes a slot's contents; any other command leaves every slot's contents and can only clear `valid` bits. For a
slot that stays valid this is the spec's; that a slot freed by DELETE or by RESTORE with cleanup keeps its contents is the model's
choice (log 3). -/
def Obligations.OnlySaveWritesSlots : Prop :=
  ∀ (i : Instr) (s t : State), exec i s = .next t → i ≠ .encSave → i ≠ .decSave →
    (t.enc.slots.length = s.enc.slots.length ∧ ∀ (h : Nat) (old new : EncSlot), s.enc.slots[h]? = some old → t.enc.slots[h]? = some new →
      { new with valid := old.valid } = old ∧ (new.valid = true → old.valid = true)) ∧
    (t.dec.slots.length = s.dec.slots.length ∧ ∀ (h : Nat) (old new : DecSlot), s.dec.slots[h]? = some old → t.dec.slots[h]? = some new →
      { new with valid := old.valid } = old ∧ (new.valid = true → old.valid = true))

/-! ### The frequency model (40_model.md) -/

/-- R113: M.UPDATE adds 1 to `P[s+1..N]`, so the weight of `s` and the total grow by 1 and every other weight is unchanged. -/
def Obligations.UpdateRaisesOneWeight : Prop :=
  ∀ (m : Model) (sym : Nat), m.n < m.p.length → (∀ i, i < m.n → m.entry i < m.entry (i + 1)) → sym < m.n →
    (m.update sym).n = m.n ∧
    (∀ i, (m.update sym).entry i = if sym < i ∧ i ≤ m.n then m.entry i + 1 else m.entry i) ∧
    (m.update sym).total = m.total + 1 ∧
    ∀ k, k < m.n → (m.update sym).freqHigh k - (m.update sym).freqLow k = m.freqHigh k - m.freqLow k + if k = sym then 1 else 0

/-- R114: M.SCALE halves `P[1..N]` upward, each entry repaired to stay above its rewritten predecessor, and writes nothing else; from a
strictly monotone table the new total is at most `max(N, (P[N] + N - 1) // 2)`. -/
def Obligations.ScaleHalvesWithRepair : Prop :=
  ∀ m : Model, m.n < m.p.length →
    m.scale.n = m.n ∧ m.scale.entry 0 = m.entry 0 ∧
    (∀ i, i < m.n → m.scale.entry (i + 1) =
      if m.entry (i + 1) / 2 ≤ m.scale.entry i then m.scale.entry i + 1 else m.entry (i + 1) / 2) ∧
    (∀ i, i < m.n → m.scale.entry i < m.scale.entry (i + 1)) ∧ (∀ i, m.n < i → m.scale.entry i = m.entry i) ∧
    (1 ≤ m.n → m.entry 0 = 0 → (∀ i, i < m.n → m.entry i < m.entry (i + 1)) →
      m.scale.total ≤ max m.n ((m.total + m.n - 1) / 2))

/-- R115, R121: after M.UPDATE the total is at most `MAX_TOTAL`; M.SCALE_MAYBE scales exactly when it is equal, one pass is enough, and
the invariants of R34 hold again. -/
def Obligations.SymbolKeepsTheTable : Prop :=
  ∀ (c : Config) (m : Model) (sym : Nat), TableOk c m → m.n < m.p.length → sym < m.n →
    (m.update sym).total ≤ c.maxTotal ∧
    (m.update sym).scaleMaybe c = (if (m.update sym).total = c.maxTotal then (m.update sym).scale else m.update sym) ∧
    TableOk c ((m.update sym).scaleMaybe c)

/-- R117, R118, R122: M.EXPAND keeps `P[0..oldN]`, gives every new symbol weight 1, then halves until the total is below `MAX_TOTAL`;
it ends, and the invariants of R34 hold. R124, for M.EXPAND: every value it writes, before and between the scalings, fits its slot. -/
def Obligations.ExpandGrowsTheTable : Prop :=
  ∀ (c : Config) (m : Model) (n2 : Nat), c.Valid → TableOk c m → m.p.length = c.nmax + 1 → m.n < n2 → n2 ≤ c.nmax →
    ∃ (g e : Model) (k : Nat), m.expand c n2 = some e ∧ TableOk c e ∧ e.n = n2 ∧ e = Model.scale^[k] g ∧
      (∀ j, j < k → c.maxTotal ≤ (Model.scale^[j] g).total) ∧ g.n = n2 ∧
      (∀ i, g.entry i = if m.n < i ∧ i ≤ n2 then m.entry m.n + (i - m.n) else m.entry i) ∧
      ∀ j i, i ≤ n2 → (Model.scale^[j] g).entry i < 2 ^ (c.w - 1)

/-- R119: M.LOOKUP returns the unique symbol whose sub-interval holds `q`. -/
def Obligations.LookupIsUnique : Prop :=
  ∀ (c : Config) (m : Model) (q : Nat), TableOk c m → q < m.total →
    ∃ sym, m.lookup q = some sym ∧ ∀ k, (k < m.n ∧ m.freqLow k ≤ q ∧ q < m.freqHigh k) ↔ k = sym

/-! ### Range arithmetic (41_range_arith.md) -/

/-- R141: the classification by quarters of the window. -/
def Obligations.ClassifyByQuarters : Prop :=
  ∀ (c : Config) (low high : Nat), c.Valid → low ≤ high → high < 2 ^ c.w →
    (classify c low high = .msbEq ↔ high < 2 ^ (c.w - 1) ∨ 2 ^ (c.w - 1) ≤ low) ∧
    (classify c low high = .e3 ↔
      2 ^ (c.w - 2) ≤ low ∧ low < 2 ^ (c.w - 1) ∧ 2 ^ (c.w - 1) ≤ high ∧ high < 2 ^ (c.w - 1) + 2 ^ (c.w - 2))

/-- R148: from a boundary state narrowing gives a non-empty sub-interval; R140's corner cases: symbol 0 keeps `low`, the last symbol
keeps `high`. -/
def Obligations.NarrowStaysInside : Prop :=
  ∀ (c : Config) (m : Model) (sym low high : Nat), c.Valid → TableOk c m → IntervalOk c low high → sym < m.n →
    let nw := narrow m sym low high
    m.total < nw.tmpRange ∧ low ≤ nw.low ∧ nw.low ≤ nw.high ∧ nw.high ≤ high ∧
    (sym = 0 → nw.low = low) ∧ (sym + 1 = m.n → nw.high = high)

/-- R153: the E3 action followed by SHIFT is subtracting `QUARTER` and doubling. -/
def Obligations.E3IsTheTextbookStep : Prop :=
  ∀ (c : Config) (low high code : Nat) (b : Bool), c.Valid → low ≤ code → code ≤ high → high < 2 ^ c.w →
    classify c low high = .e3 →
    shiftLow c (e3Low c low) = 2 * (low - 2 ^ (c.w - 2)) ∧
    shiftHigh c (e3High c high) = 2 * (high - 2 ^ (c.w - 2)) + 1 ∧
    shiftCode c (e3Code c code) b = 2 * (code - 2 ^ (c.w - 2)) + b.toNat

/-- R147, R149, R152: from any non-empty interval the loop of each unit reaches EXIT within `W` shifts, so a greater number of passes
changes nothing; the interval is then legal and at least `QUARTER + 2` wide, and ENC has counted at most `underflow + W` bits. -/
def Obligations.LoopReachesExit : Prop :=
  ∀ c : Config, c.Valid →
    (∀ (emits : Bool) (r : EncRun) (k : Nat), r.low ≤ r.high → r.high < 2 ^ c.w →
      r.renorm c emits (c.w + k) = r.renorm c emits c.w ∧
      ∀ r', r.renorm c emits c.w = (.exit, r') →
        IntervalOk c r'.low r'.high ∧ 2 ^ (c.w - 2) + 2 ≤ r'.high - r'.low + 1 ∧ r'.count ≤ r.count + r.underflow + c.w) ∧
    (∀ (r : DecRun) (k : Nat), r.low ≤ r.high → r.high < 2 ^ c.w →
      r.renorm c (c.w + k) = r.renorm c c.w ∧
      ∀ r', r.renorm c c.w = (.exit, r') →
        IntervalOk c r'.low r'.high ∧ 2 ^ (c.w - 2) + 2 ≤ r'.high - r'.low + 1)

/-- R150: the scaled code lies in the table, and narrowing to the symbol looked up keeps `code` inside the interval. -/
def Obligations.ScaledCodeFindsTheSymbol : Prop :=
  ∀ (c : Config) (m : Model) (low high code : Nat), TableOk c m → low ≤ code → code ≤ high →
    scaledCode m low high code < m.total ∧
    ∃ sym, m.lookup (scaledCode m low high code) = some sym ∧
      (narrow m sym low high).low ≤ code ∧ code ≤ (narrow m sym low high).high

/-! ### ENC commands (42_encoder.md) -/

/-- R160, R111: ENC.INIT. -/
def Obligations.EncInitStartsASession : Prop :=
  ∀ (n : Nat) (s : State), s.enc.model.p.length = s.cfg.nmax + 1 → 1 ≤ n → n ≤ s.cfg.nmax → n < 2 ^ (s.cfg.w - 2) →
    s.writer.bound = true →
    ∃ m : Model, m.n = n ∧ m.p.length = s.cfg.nmax + 1 ∧ (∀ i, m.entry i = if i ≤ n then i else s.enc.model.entry i) ∧
      exec (.encInit n) s = .next { s with
        enc := { s.enc with
          mode := .ready, low := 0, high := 2 ^ s.cfg.w - 1, underflow := 0, tmpRange := 0, model := m,
          ctl := .responding (okResponse 0) } }

/-- R161, R191, R125: ENC.EXPAND and DEC.EXPAND grow their own table in the same way and change nothing else; from equal models they
give equal models. When the grown total stays below `MAX_TOTAL` the table is the one R117 gives. -/
def Obligations.ExpandGrowsTheAlphabet : Prop :=
  ∀ (n2 : Nat) (s : State), s.cfg.Valid → n2 ≤ s.cfg.nmax →
    (EncInv s.cfg s.enc → s.enc.mode = .ready → s.enc.model.n < n2 →
      ∃ m : Model, s.enc.model.expand s.cfg n2 = some m ∧ m.n = n2 ∧ TableOk s.cfg m ∧
        (s.enc.model.total + (n2 - s.enc.model.n) < 2 ^ (s.cfg.w - 2) →
          ∀ i, i ≤ n2 → m.entry i =
            if s.enc.model.n < i then s.enc.model.total + (i - s.enc.model.n) else s.enc.model.entry i) ∧
        exec (.encExpand n2) s = .next { s with enc := { s.enc with model := m, ctl := .responding (okResponse 0) } }) ∧
    (DecInv s.cfg s.dec → s.dec.mode = .ready → s.dec.model.n < n2 →
      ∃ m : Model, s.dec.model.expand s.cfg n2 = some m ∧ m.n = n2 ∧ TableOk s.cfg m ∧
        (s.dec.model.total + (n2 - s.dec.model.n) < 2 ^ (s.cfg.w - 2) →
          ∀ i, i ≤ n2 → m.entry i =
            if s.dec.model.n < i then s.dec.model.total + (i - s.dec.model.n) else s.dec.model.entry i) ∧
        exec (.decExpand n2) s = .next { s with dec := { s.dec with model := m, ctl := .responding (okResponse 0) } })

/-- R162, R140 to R144, R146, R152: ENC.SYM whose bits the writer accepts. It narrows, runs the loop, emits the loop's bits in order, at
most `underflow + W` of them, updates and scales the table, and answers their number; nothing else changes. With room for `W` more
pending bits and a writer that accepts it always does so; without, whenever the loop ends, the writer accepts its bits, if any, and they
can be counted in 64 bits. -/
def Obligations.EncSymEncodesASymbol : Prop :=
  ∀ (sym : Nat) (s : State), s.cfg.Valid → EncInv s.cfg s.enc → s.enc.mode = .ready → sym < s.enc.model.n →
    let range := s.enc.high - s.enc.low + 1
    let lo := s.enc.low + range * s.enc.model.entry sym / s.enc.model.total
    let hi := s.enc.low + range * s.enc.model.entry (sym + 1) / s.enc.model.total - 1
    let after := fun (bits : List Bool) (low high underflow : Nat) =>
      { s with
        enc := { s.enc with
          low := low, high := high, underflow := underflow, tmpRange := range,
          model := (s.enc.model.update sym).scaleMaybe s.cfg, ctl := .responding (okResponse bits.length) },
        writer := s.writer.past bits.length bits }
    (s.writer.Accepting → s.enc.underflow + s.cfg.w ≤ 2 ^ s.cfg.r - 1 →
      ∃ (bits : List Bool) (low high underflow : Nat), EncLoop s.cfg lo hi s.enc.underflow bits low high underflow ∧
        bits.length ≤ s.enc.underflow + s.cfg.w ∧ exec (.encSym sym) s = .next (after bits low high underflow)) ∧
    (∀ (bits : List Bool) (low high underflow : Nat), EncLoop s.cfg lo hi s.enc.underflow bits low high underflow →
      s.writer.coming bits.length = List.replicate bits.length .accept → bits.length < 2 ^ 64 →
      exec (.encSym sym) s = .next (after bits low high underflow))

/-- R164: ENC.EST, whatever the writer: the count and the state of ENC.SYM, and no bit. The loop either ends or meets the overflow of
R144, so this claim and CounterOverflowInTheLoop cover every symbol. -/
def Obligations.EncEstGivesTheCost : Prop :=
  ∀ (sym : Nat) (s : State), s.cfg.Valid → EncInv s.cfg s.enc → s.enc.mode = .ready → sym < s.enc.model.n →
    let range := s.enc.high - s.enc.low + 1
    let lo := s.enc.low + range * s.enc.model.entry sym / s.enc.model.total
    let hi := s.enc.low + range * s.enc.model.entry (sym + 1) / s.enc.model.total - 1
    let after := fun (bits : List Bool) (low high underflow : Nat) =>
      { s with
        enc := { s.enc with
          low := low, high := high, underflow := underflow, tmpRange := range,
          model := (s.enc.model.update sym).scaleMaybe s.cfg, ctl := .responding (okResponse bits.length) } }
    (s.enc.underflow + s.cfg.w ≤ 2 ^ s.cfg.r - 1 →
      ∃ (bits : List Bool) (low high underflow : Nat), EncLoop s.cfg lo hi s.enc.underflow bits low high underflow ∧
        bits.length ≤ s.enc.underflow + s.cfg.w ∧ exec (.encEst sym) s = .next (after bits low high underflow)) ∧
    (∀ (bits : List Bool) (low high underflow : Nat), EncLoop s.cfg lo hi s.enc.underflow bits low high underflow →
      bits.length < 2 ^ 64 → exec (.encEst sym) s = .next (after bits low high underflow)) ∧
    ((∃ bits low high underflow, EncLoop s.cfg lo hi s.enc.underflow bits low high underflow) ∨
      ∃ bits, EncOverflow s.cfg lo hi s.enc.underflow bits)

/-- R170: from one state ENC.EST and an ENC.SYM that ends with OK return the same count and leave the same state of ENC; only ENC.SYM
emits, and it emits exactly that many bits. -/
def Obligations.CostLaw : Prop :=
  ∀ (sym : Nat) (s t : State) (r : Response),
    exec (.encSym sym) s = .next t → t.enc.ctl = .responding r → r.status = .ok →
    exec (.encEst sym) s = .next { t with writer := s.writer } ∧
    t.writer.accepted.length = s.writer.accepted.length + r.data.toNat

/-- R162, R223, R263, R225: ENC.SYM whose writer reports an error at beat `k` (from 0): the first `k` bits stay accepted, no later bit
is emitted, the response is StreamFault and the mode FAULT. The same with a writer that never completes that beat: the bit stays on
offer and the unit is stuck (R260), or waits when the writer is detached (R268; log 19). No loop that meets the overflow of R144 has a beat before it (R143, R144, R147: after an MSB_EQ step
`underflow` is 0 and at most `W - 1` shifts are left), so such a command ends with CounterOverflow whatever the writer does. -/
def Obligations.EncSymStreamError : Prop :=
  ∀ (sym : Nat) (s : State), s.cfg.Valid → EncInv s.cfg s.enc → s.enc.mode = .ready → sym < s.enc.model.n →
    let range := s.enc.high - s.enc.low + 1
    let low := s.enc.low + range * s.enc.model.entry sym / s.enc.model.total
    let high := s.enc.low + range * s.enc.model.entry (sym + 1) / s.enc.model.total - 1
    (∀ (k : Nat) (bits : List Bool), (∃ low' high' u', EncLoop s.cfg low high s.enc.underflow bits low' high' u') → k < bits.length →
      (s.writer.coming (k + 1) = List.replicate k .accept ++ [.error] →
        ∃ e : Enc, e.mode = .fault ∧ e.ctl = .responding (errorResponse .streamFault) ∧ e.model.n = s.enc.model.n ∧
          e.slots = s.enc.slots ∧
          exec (.encSym sym) s = .next { s with enc := e, writer := s.writer.past (k + 1) (bits.take k) }) ∧
      (s.writer.coming (k + 1) = List.replicate k .accept ++ [.never] →
        ∃ (e : Enc) (b : Bool), bits[k]? = some b ∧
          e.ctl = (if s.writer.bound = true then .offering b else .offeringDetached b (.sym sym)) ∧
          exec (.encSym sym) s = .next { s with enc := e, writer := s.writer.past (k + 1) (bits.take k) })) ∧
    ∀ bits, EncOverflow s.cfg low high s.enc.underflow bits →
      bits = [] ∧ ∃ e : Enc, e.mode = .fault ∧ e.ctl = .responding (errorResponse .counterOverflow) ∧
        e.model.n = s.enc.model.n ∧ e.slots = s.enc.slots ∧ exec (.encSym sym) s = .next { s with enc := e }

/-- R222, R144, R225: ENC.SYM and ENC.EST whose loop meets an E3 step with `underflow = 2^R - 1`, or whose bit count would not fit 64
bits, end with CounterOverflow in mode FAULT; the bits emitted before it stay with the writer. -/
def Obligations.CounterOverflowInTheLoop : Prop :=
  ∀ (sym : Nat) (bits : List Bool) (s : State), s.cfg.Valid → EncInv s.cfg s.enc → s.enc.mode = .ready → sym < s.enc.model.n →
    let range := s.enc.high - s.enc.low + 1
    let low := s.enc.low + range * s.enc.model.entry sym / s.enc.model.total
    let high := s.enc.low + range * s.enc.model.entry (sym + 1) / s.enc.model.total - 1
    EncOverflow s.cfg low high s.enc.underflow bits ∨
      (2 ^ 64 ≤ bits.length ∧ ∃ low' high' u', EncLoop s.cfg low high s.enc.underflow bits low' high' u') →
    ∃ e : Enc, e.mode = .fault ∧ e.ctl = .responding (errorResponse .counterOverflow) ∧ e.model.n = s.enc.model.n ∧
      e.slots = s.enc.slots ∧
      exec (.encEst sym) s = .next { s with enc := e } ∧
      (s.writer.Accepting → exec (.encSym sym) s = .next { s with enc := e, writer := s.writer.past bits.length bits })

/-- R163, R226: ENC.FLUSH. Unforced in FLUSHED it answers 0 and does nothing; otherwise, with a writer that accepts, it emits the
second MSB of `low` and then `underflow + 1` complements, empties `underflow` and enters FLUSHED, answering `underflow + 2`. -/
def Obligations.EncFlushTerminates : Prop :=
  ∀ (force : Bool) (s : State),
    (s.enc.mode = .flushed → force = false →
      exec (.encFlush force) s = .next (s.answered .enc (okResponse 0))) ∧
    (s.enc.mode = .ready ∨ (s.enc.mode = .flushed ∧ force = true) → s.writer.Accepting →
      s.enc.underflow ≠ 2 ^ s.cfg.r - 1 → s.enc.underflow + 2 < 2 ^ 64 →
      let b := s.enc.low.testBit (s.cfg.w - 2)
      exec (.encFlush force) s = .next { s with
        enc := { s.enc with underflow := 0, mode := .flushed, ctl := .responding (okResponse (s.enc.underflow + 2)) },
        writer := s.writer.past (s.enc.underflow + 2) (b :: List.replicate (s.enc.underflow + 1) (!b)) })

/-- R222, R223, R163, R266: ENC.FLUSH ends in mode FAULT with CounterOverflow when the increment would pass `2^R - 1`, no bit being
emitted, or when the count would not fit 64 bits, every bit being emitted; and with StreamFault when the writer reports an error at
beat `k` (from 0), the first `k` bits being accepted. With a writer that never completes that beat its bit stays on offer and the unit
is stuck (R260), or waits when the writer is detached (R268; log 19). -/
def Obligations.EncFlushFaults : Prop :=
  ∀ (force : Bool) (s : State), s.enc.mode = .ready ∨ (s.enc.mode = .flushed ∧ force = true) →
    let b := s.enc.low.testBit (s.cfg.w - 2)
    let bits := b :: List.replicate (s.enc.underflow + 1) (!b)
    (s.enc.underflow = 2 ^ s.cfg.r - 1 →
      ∃ e : Enc, e.mode = .fault ∧ e.ctl = .responding (errorResponse .counterOverflow) ∧ e.model.n = s.enc.model.n ∧
        e.slots = s.enc.slots ∧ exec (.encFlush force) s = .next { s with enc := e }) ∧
    (s.enc.underflow ≠ 2 ^ s.cfg.r - 1 → 2 ^ 64 ≤ s.enc.underflow + 2 → s.writer.Accepting →
      ∃ e : Enc, e.mode = .fault ∧ e.ctl = .responding (errorResponse .counterOverflow) ∧ e.model.n = s.enc.model.n ∧
        e.slots = s.enc.slots ∧
        exec (.encFlush force) s = .next { s with enc := e, writer := s.writer.past (s.enc.underflow + 2) bits }) ∧
    (s.enc.underflow ≠ 2 ^ s.cfg.r - 1 → ∀ k, k < s.enc.underflow + 2 →
      (s.writer.coming (k + 1) = List.replicate k .accept ++ [.error] →
        ∃ e : Enc, e.mode = .fault ∧ e.ctl = .responding (errorResponse .streamFault) ∧ e.model.n = s.enc.model.n ∧
          e.slots = s.enc.slots ∧
          exec (.encFlush force) s = .next { s with enc := e, writer := s.writer.past (k + 1) (bits.take k) }) ∧
      (s.writer.coming (k + 1) = List.replicate k .accept ++ [.never] →
        ∃ (e : Enc) (x : Bool), bits[k]? = some x ∧
          e.ctl = (if s.writer.bound = true then .offering x else .offeringDetached x (.flush force)) ∧
          exec (.encFlush force) s = .next { s with enc := e, writer := s.writer.past (k + 1) (bits.take k) }))

/-- R165, R193: SAVE copies the live state into the lowest free slot and answers its handle; nothing else changes. -/
def Obligations.SaveFillsTheLowestFreeSlot : Prop :=
  ∀ (h : Nat) (s : State), h < s.cfg.nsnap →
    ((s.enc.mode = .ready ∨ s.enc.mode = .flushed) → (∀ k, k < h → ∀ slot, s.enc.slots[k]? = some slot → slot.valid = true) →
      (∃ old, s.enc.slots[h]? = some old ∧ old.valid = false) →
      ∃ slot : EncSlot, slot.valid = true ∧ slot.low = s.enc.low ∧ slot.high = s.enc.high ∧ slot.underflow = s.enc.underflow ∧
        (slot.flushed = true ↔ s.enc.mode = .flushed) ∧ slot.tmpRange = s.enc.tmpRange ∧ slot.model.n = s.enc.model.n ∧
        (∀ i, i ≤ s.enc.model.n → slot.model.entry i = s.enc.model.entry i) ∧
        exec .encSave s = .next { s with
          enc := { s.enc with slots := s.enc.slots.set h slot, ctl := .responding (okResponse h) } }) ∧
    (s.dec.mode = .ready → (∀ k, k < h → ∀ slot, s.dec.slots[k]? = some slot → slot.valid = true) →
      (∃ old, s.dec.slots[h]? = some old ∧ old.valid = false) →
      ∃ slot : DecSlot, slot.valid = true ∧ slot.low = s.dec.low ∧ slot.high = s.dec.high ∧ slot.code = s.dec.code ∧
        slot.tmpRange = s.dec.tmpRange ∧ slot.model.n = s.dec.model.n ∧
        (∀ i, i ≤ s.dec.model.n → slot.model.entry i = s.dec.model.entry i) ∧
        exec .decSave s = .next { s with
          dec := { s.dec with slots := s.dec.slots.set h slot, ctl := .responding (okResponse h) } })

/-- R166, R194, R120: RESTORE of a valid slot loads it, the slots of the table above its `N` keeping what they held; with cleanup it
frees the slot, without it leaves it. Neither stream is touched. -/
def Obligations.RestoreLoadsTheSlot : Prop :=
  ∀ (h : Nat) (cleanup : Bool) (s : State), h < s.cfg.nsnap →
    (∀ slot, s.enc.slots[h]? = some slot → slot.valid = true → s.enc.mode ≠ .fault → slot.model.n < s.enc.model.p.length →
      ∃ (m : Model) (freed : EncSlot), m.n = slot.model.n ∧
        (∀ i, m.entry i = if i ≤ slot.model.n then slot.model.entry i else s.enc.model.entry i) ∧
        freed.valid = false ∧
        exec (.encRestore cleanup h) s = .next { s with
          enc := { s.enc with
            low := slot.low, high := slot.high, underflow := slot.underflow, tmpRange := slot.tmpRange, model := m,
            mode := if slot.flushed = true then .flushed else .ready,
            slots := if cleanup = true then s.enc.slots.set h freed else s.enc.slots,
            ctl := .responding (okResponse 0) } }) ∧
    (∀ slot, s.dec.slots[h]? = some slot → slot.valid = true → s.dec.mode = .uninit ∨ s.dec.mode = .ready →
      slot.model.n < s.dec.model.p.length →
      ∃ (m : Model) (freed : DecSlot), m.n = slot.model.n ∧
        (∀ i, m.entry i = if i ≤ slot.model.n then slot.model.entry i else s.dec.model.entry i) ∧
        freed.valid = false ∧
        exec (.decRestore cleanup h) s = .next { s with
          dec := { s.dec with
            low := slot.low, high := slot.high, code := slot.code, tmpRange := slot.tmpRange, model := m, mode := .ready,
            slots := if cleanup = true then s.dec.slots.set h freed else s.dec.slots,
            ctl := .responding (okResponse 0) } })

/-- R167, R195: DELETE of a valid slot clears its `valid` bit, in every mode, and changes nothing else; deleting it again fails. -/
def Obligations.DeleteFreesTheSlot : Prop :=
  ∀ (h : Nat) (s : State), h < s.cfg.nsnap →
    (∀ slot, s.enc.slots[h]? = some slot → slot.valid = true →
      ∃ (freed : EncSlot) (t : State), freed.valid = false ∧ exec (.encDelete h) s = .next t ∧
        t = { s with enc := { s.enc with slots := s.enc.slots.set h freed, ctl := .responding (okResponse 0) } } ∧
        exec (.encDelete h) t = .next (t.answered .enc (errorResponse .invalidArgument))) ∧
    (∀ slot, s.dec.slots[h]? = some slot → slot.valid = true →
      ∃ (freed : DecSlot) (t : State), freed.valid = false ∧ exec (.decDelete h) s = .next t ∧
        t = { s with dec := { s.dec with slots := s.dec.slots.set h freed, ctl := .responding (okResponse 0) } } ∧
        exec (.decDelete h) t = .next (t.answered .dec (errorResponse .invalidArgument)))

/-- R168, R196: READP answers `P[i]` and changes nothing; R34 fixes its two ends. -/
def Obligations.ReadpReadsTheTable : Prop :=
  ∀ (k : Nat) (s : State),
    (s.enc.mode = .ready ∨ s.enc.mode = .flushed → k ≤ s.enc.model.n →
      exec (.encReadp k) s = .next (s.answered .enc (okResponse (s.enc.model.p.getD k 0))) ∧
      (EncInv s.cfg s.enc → (k = 0 → s.enc.model.p.getD k 0 = 0) ∧ s.enc.model.p.getD k 0 < 2 ^ (s.cfg.w - 2))) ∧
    (s.dec.mode = .ready → k ≤ s.dec.model.n →
      exec (.decReadp k) s = .next (s.answered .dec (okResponse (s.dec.model.p.getD k 0))) ∧
      (DecInv s.cfg s.dec → (k = 0 → s.dec.model.p.getD k 0 = 0) ∧ s.dec.model.p.getD k 0 < 2 ^ (s.cfg.w - 2)))

/-- R169, R197, R39, R40: READREG answers the register of the map and changes nothing, in every mode in which the register holds a value:
numbers 0, 1 and 8 to 12 always, 2 to 6 outside FAULT, 7 in READY and FLUSHED. -/
def Obligations.ReadregReadsTheMap : Prop :=
  ∀ s : State, s.enc.slots.length = s.cfg.nsnap → s.dec.slots.length = s.cfg.nsnap →
    ∃ encValid decValid : Nat,
      (∀ h, encValid.testBit h = true ↔ ∃ slot, s.enc.slots[h]? = some slot ∧ slot.valid = true) ∧
      (∀ h, decValid.testBit h = true ↔ ∃ slot, s.dec.slots[h]? = some slot ∧ slot.valid = true) ∧
      (∀ k v, (k, v) ∈
          [(0, match s.enc.mode with | .uninit => 0 | .ready => 1 | .flushed => 2 | .fault => 3), (1, s.enc.model.n),
            (8, encValid), (9, s.cfg.w), (10, s.cfg.r), (11, s.cfg.nmax), (12, s.cfg.nsnap)] ∨
        (s.enc.mode ≠ .fault ∧
          (k, v) ∈ [(2, s.enc.low), (3, s.enc.high), (4, s.enc.underflow), (6, s.enc.tmpRange)]) ∨
        ((s.enc.mode = .ready ∨ s.enc.mode = .flushed) ∧ (k, v) = (7, s.enc.model.p.getD s.enc.model.n 0)) →
        exec (.encReadreg k) s = .next (s.answered .enc (okResponse v))) ∧
      (∀ k v, (k, v) ∈
          [(0, match s.dec.mode with | .uninit => 0 | .ready => 1 | .flushed => 2 | .fault => 3), (1, s.dec.model.n),
            (8, decValid), (9, s.cfg.w), (10, s.cfg.r), (11, s.cfg.nmax), (12, s.cfg.nsnap)] ∨
        (s.dec.mode ≠ .fault ∧
          (k, v) ∈ [(2, s.dec.low), (3, s.dec.high), (5, s.dec.code), (6, s.dec.tmpRange)]) ∨
        (s.dec.mode = .ready ∧ (k, v) = (7, s.dec.model.p.getD s.dec.model.n 0)) →
        exec (.decReadreg k) s = .next (s.answered .dec (okResponse v)))

/-- R40, R46: READREG of a datapath register in FAULT completes with OK and some value of the register's width, and changes nothing
the spec names. The value is the model's free value (log 4): the claim is about every value it may have. -/
def Obligations.ReadregInFault : Prop :=
  ∀ s : State,
    (s.enc.mode = .fault → ∀ k width, (k, width) ∈ [(2, s.cfg.w), (3, s.cfg.w), (4, s.cfg.r), (6, s.cfg.w + 1), (7, s.cfg.w)] →
      ∃ v draws, v < 2 ^ width ∧ exec (.encReadreg k) s =
        .next { s with enc := { s.enc with draws := draws, ctl := .responding (okResponse v) } }) ∧
    (s.dec.mode = .fault → ∀ k width, (k, width) ∈ [(2, s.cfg.w), (3, s.cfg.w), (5, s.cfg.w), (6, s.cfg.w + 1), (7, s.cfg.w)] →
      ∃ v draws, v < 2 ^ width ∧ exec (.decReadreg k) s =
        .next { s with dec := { s.dec with draws := draws, ctl := .responding (okResponse v) } })

/-! ### DEC commands (43_decoder.md) -/

/-- R190, R111, R61: DEC.INIT with a reader that supplies bits. It takes exactly `W` bits, and `code` is their value, the first the
most significant. -/
def Obligations.DecInitStartsASession : Prop :=
  ∀ (n : Nat) (bits : List Bool) (s : State), s.dec.model.p.length = s.cfg.nmax + 1 → 1 ≤ n → n ≤ s.cfg.nmax →
    n < 2 ^ (s.cfg.w - 2) → s.reader.bound = true → s.reader.coming s.cfg.w = bits.map .bit →
    ∃ m : Model, m.n = n ∧ m.p.length = s.cfg.nmax + 1 ∧ (∀ i, m.entry i = if i ≤ n then i else s.dec.model.entry i) ∧
      exec (.decInit n) s = .next { s with
        dec := { s.dec with
          mode := .ready, low := 0, high := 2 ^ s.cfg.w - 1, code := bitsValue bits, tmpRange := 0, model := m,
          ctl := .responding (okResponse 0) },
        reader := s.reader.past s.cfg.w bits }

/-- R265, R223, R46: DEC.INIT whose reader fails at beat `k` (from 0) has taken `k` bits, has set `N`, and ends with StreamFault in mode
FAULT; with a reader that never answers that beat it is stuck requesting (R260). -/
def Obligations.DecInitStreamError : Prop :=
  ∀ (n : Nat) (bits : List Bool) (s : State), 1 ≤ n → n ≤ s.cfg.nmax → n < 2 ^ (s.cfg.w - 2) → s.reader.bound = true →
    bits.length < s.cfg.w →
    (s.reader.coming (bits.length + 1) = bits.map .bit ++ [.error] →
      ∃ d : Dec, d.mode = .fault ∧ d.ctl = .responding (errorResponse .streamFault) ∧ d.model.n = n ∧ d.slots = s.dec.slots ∧
        exec (.decInit n) s = .next { s with dec := d, reader := s.reader.past (bits.length + 1) bits }) ∧
    (s.reader.coming (bits.length + 1) = bits.map .bit ++ [.never] →
      ∃ d : Dec, d.ctl = .requesting ∧
        exec (.decInit n) s = .next { s with dec := d, reader := s.reader.past (bits.length + 1) bits })

/-- R192, R150, R119, R140 to R142, R145, R146: DEC.SYM whose requests the reader answers with bits. It finds the one symbol whose
sub-interval holds the scaled code, narrows, runs the loop, taking the loop's bits in order, at most `W` of them, updates and scales the
table, and answers the symbol; nothing else changes. With a reader that supplies bits it always does so; with any other, whenever the
loop's bits, if any, come. -/
def Obligations.DecSymDecodesASymbol : Prop :=
  ∀ s : State, s.cfg.Valid → DecInv s.cfg s.dec → s.dec.mode = .ready →
    let range := s.dec.high - s.dec.low + 1
    let q := ((s.dec.code - s.dec.low + 1) * s.dec.model.total - 1) / range
    let holds := fun sym => sym < s.dec.model.n ∧ s.dec.model.entry sym ≤ q ∧ q < s.dec.model.entry (sym + 1)
    let loop := fun sym => DecLoop s.cfg (s.dec.low + range * s.dec.model.entry sym / s.dec.model.total)
      (s.dec.low + range * s.dec.model.entry (sym + 1) / s.dec.model.total - 1) s.dec.code
    let after := fun (sym : Nat) (bits : List Bool) (low high code : Nat) =>
      { s with
        dec := { s.dec with
          low := low, high := high, code := code, tmpRange := range, model := (s.dec.model.update sym).scaleMaybe s.cfg,
          ctl := .responding (okResponse sym) },
        reader := s.reader.past bits.length bits }
    (s.reader.Supplying → ∃ (sym : Nat) (bits : List Bool) (low high code : Nat), holds sym ∧ loop sym bits low high code ∧
      bits.length ≤ s.cfg.w ∧ s.reader.coming bits.length = bits.map .bit ∧
      exec .decSym s = .next (after sym bits low high code)) ∧
    ∀ (sym : Nat) (bits : List Bool) (low high code : Nat), holds sym → loop sym bits low high code →
      s.reader.coming bits.length = bits.map .bit →
      bits.length ≤ s.cfg.w ∧ exec .decSym s = .next (after sym bits low high code)

/-- R192, R223, R264, R225: DEC.SYM whose loop needs more than `k` bits and whose reader gives `k` bits and then reports an error ends
with StreamFault in mode FAULT, exactly those bits being taken; with a reader that never answers that beat it is stuck requesting
(R260), or waits when the reader is detached (R268; log 19). How many bits the loop needs depends on the interval alone, so `all` may be any bits that bring it to EXIT. It ends with
StreamFault in no other case: only when the reader reported an error at the beat after the bits it took, at most `W - 1` of them. -/
def Obligations.DecSymStreamError : Prop :=
  ∀ s : State, s.cfg.Valid → DecInv s.cfg s.dec →
    (s.dec.mode = .ready →
      let range := s.dec.high - s.dec.low + 1
      let q := ((s.dec.code - s.dec.low + 1) * s.dec.model.total - 1) / range
      ∀ (sym k : Nat) (all : List Bool), sym < s.dec.model.n → s.dec.model.entry sym ≤ q → q < s.dec.model.entry (sym + 1) →
        (∃ low high code, DecLoop s.cfg (s.dec.low + range * s.dec.model.entry sym / s.dec.model.total)
          (s.dec.low + range * s.dec.model.entry (sym + 1) / s.dec.model.total - 1) s.dec.code all low high code) →
        k < all.length →
        (s.reader.coming (k + 1) = (all.take k).map .bit ++ [.error] →
          ∃ d : Dec, d.mode = .fault ∧ d.ctl = .responding (errorResponse .streamFault) ∧ d.model.n = s.dec.model.n ∧
            d.slots = s.dec.slots ∧
            exec .decSym s = .next { s with dec := d, reader := s.reader.past (k + 1) (all.take k) }) ∧
        (s.reader.coming (k + 1) = (all.take k).map .bit ++ [.never] →
          ∃ d : Dec, d.ctl = (if s.reader.bound = true then .requesting else .requestingDetached) ∧
            exec .decSym s = .next { s with dec := d, reader := s.reader.past (k + 1) (all.take k) })) ∧
    ∀ (t : State) (r : Response), exec .decSym s = .next t → t.dec.ctl = .responding r → r.status = .streamFault →
      t.dec.mode = .fault ∧ t.dec.model.n = s.dec.model.n ∧ t.dec.slots = s.dec.slots ∧
      ∃ bits : List Bool, bits.length < s.cfg.w ∧ s.reader.coming (bits.length + 1) = bits.map .bit ++ [.error] ∧
        t.reader = s.reader.past (bits.length + 1) bits

/-! ### Laws of sequences -/

/-- R198 for one symbol, and R38: from equal intervals and equal models, when DEC's scaled code lies in the sub-interval of `s`, DEC.SYM
returns `s`, leaves the interval and model that ENC.SYM `s` leaves, and takes one bit for each bit that ENC emitted or put off. -/
def Obligations.DecodeMirrorsEncode : Prop :=
  ∀ (sym : Nat) (s t t' : State) (r r' : Response), s.cfg.Valid → EncInv s.cfg s.enc → DecInv s.cfg s.dec →
    s.enc.mode = .ready → s.dec.mode = .ready → sym < s.enc.model.n →
    s.dec.low = s.enc.low → s.dec.high = s.enc.high → s.dec.model.n = s.enc.model.n →
    (∀ i, i ≤ s.enc.model.n → s.dec.model.entry i = s.enc.model.entry i) →
    s.enc.model.freqLow sym ≤ scaledCode s.dec.model s.dec.low s.dec.high s.dec.code →
    scaledCode s.dec.model s.dec.low s.dec.high s.dec.code < s.enc.model.freqHigh sym →
    exec (.encSym sym) s = .next t → t.enc.ctl = .responding r → r.status = .ok →
    exec .decSym s = .next t' → t'.dec.ctl = .responding r' → r'.status = .ok →
    r' = okResponse sym ∧ t'.dec.low = t.enc.low ∧ t'.dec.high = t.enc.high ∧ t'.dec.tmpRange = t.enc.tmpRange ∧
    t'.dec.model.n = t.enc.model.n ∧ (∀ i, i ≤ t.enc.model.n → t'.dec.model.entry i = t.enc.model.entry i) ∧
    t'.reader.taken.length + s.enc.underflow = s.reader.taken.length + r.data.toNat + t.enc.underflow

/-- R198, R70, R38: the round-trip law. A session of symbols and growths that ends with a flush, every response OK, gives a stream; a
decoder of the same configuration whose reader supplies that stream and then any bits, given the same growths at the same places,
returns every symbol in order, and has in the end taken `W - 2` bits past the end of the stream. After each command of the session the
decoder has the interval and the model that the encoder has after the matching one. -/
def Obligations.RoundTrip : Prop :=
  ∀ (n : Nat) (ops : List SessionOp) (s t d : State) (rs : List Response) (bits : List Bool),
    Inv s → Inv d → d.cfg = s.cfg →
    issueAll (.encInit n :: (ops.map SessionOp.encode ++ [.encFlush false])) s = some (rs, t) → (∀ r ∈ rs, r.status = .ok) →
    t.writer.accepted = s.writer.accepted ++ bits →
    d.cmdReady .dec = true → d.reader.bound = true → d.reader.Supplying → d.reader.coming bits.length = bits.map .bit →
    (∃ (t' : State) (taken : List Bool),
      issueAll (.decInit n :: ops.map SessionOp.decode) d = some (okResponse 0 :: ops.map SessionOp.answer, t') ∧
      t'.reader.taken = d.reader.taken ++ taken ∧ taken.length + 2 = bits.length + s.cfg.w) ∧
    ∀ k, k ≤ ops.length → ∃ (x y : State) (rx : List Response),
      issueAll (.encInit n :: (ops.take k).map SessionOp.encode) s = some (rx, x) ∧
      issueAll (.decInit n :: (ops.take k).map SessionOp.decode) d = some (okResponse 0 :: (ops.take k).map SessionOp.answer, y) ∧
      y.dec.low = x.enc.low ∧ y.dec.high = x.enc.high ∧ y.dec.tmpRange = x.enc.tmpRange ∧ y.dec.model.n = x.enc.model.n ∧
      ∀ i, i ≤ x.enc.model.n → y.dec.model.entry i = x.enc.model.entry i

/-- R171: the snapshot law. SAVE, then any commands of ENC that keep the slot valid and end outside FAULT, then RESTORE with cleanup:
the live state is the one before the SAVE and the slot is free; the bits emitted in between stay. -/
def Obligations.SnapshotLaw : Prop :=
  ∀ (h : Nat) (cmds : List Instr) (s t x y : State) (rs : List Response) (r : Response), Inv s →
    issue .encSave s = some (okResponse h, t) → h < s.cfg.nsnap →
    (∀ i ∈ cmds, i.unit = .enc) → issueAll cmds t = some (rs, x) →
    (∀ k rs' z, issueAll (cmds.take k) t = some (rs', z) → ∃ slot, z.enc.slots[h]? = some slot ∧ slot.valid = true) →
    x.enc.mode ≠ .fault → issue (.encRestore true h) x = some (r, y) →
    r = okResponse 0 ∧ y.enc.low = s.enc.low ∧ y.enc.high = s.enc.high ∧ y.enc.underflow = s.enc.underflow ∧
    y.enc.tmpRange = s.enc.tmpRange ∧ y.enc.mode = s.enc.mode ∧ y.enc.model.n = s.enc.model.n ∧
    (∀ i, i ≤ s.enc.model.n → y.enc.model.entry i = s.enc.model.entry i) ∧
    (∀ slot, y.enc.slots[h]? = some slot → slot.valid = false) ∧ y.writer = x.writer

/-- R94: ENC.COST that ends with OK is SAVE, the estimates and RESTORE with cleanup; it gives the sum of the estimates' data, leaves
ENC's registers, table, mode and `valid` bits as they were, and emits no bit. -/
def Obligations.CostBracketRestores : Prop :=
  ∀ (syms : List Nat) (s : State) (res : HostResult Nat), Inv s → costOf syms s = some res → res.status = .ok →
    (∃ h saved rs simulated, issue .encSave s = some (okResponse h, saved) ∧
      issueAll (syms.map .encEst) saved = some (rs, simulated) ∧ res.value = (rs.map (·.data.toNat)).sum) ∧
    res.state.enc.low = s.enc.low ∧ res.state.enc.high = s.enc.high ∧ res.state.enc.underflow = s.enc.underflow ∧
    res.state.enc.tmpRange = s.enc.tmpRange ∧ res.state.enc.mode = s.enc.mode ∧ res.state.enc.model.n = s.enc.model.n ∧
    (∀ i, i ≤ s.enc.model.n → res.state.enc.model.entry i = s.enc.model.entry i) ∧
    res.state.enc.slots.map (·.valid) = s.enc.slots.map (·.valid) ∧ res.state.writer = s.writer

/-- R57: the writer packs the first accepted bit of each byte into the most significant bit; positions past the last accepted bit are
its own choice (log 14: a free value). -/
def Obligations.FirstBitIsTheMsb : Prop :=
  ∀ (w : Writer) (k j : Nat) (b : Bool), j < 8 → w.accepted[8 * k + j]? = some b →
    (w.mediumByte k).getLsbD (7 - j) = b ∧ k < w.medium.length ∧ w.medium[k]? = some (w.mediumByte k)
end

