-- ==== Sys2Proof/Laws/FrequencyModel.lean ====
section
/-! SUPPORT. What each micro-operation of 40_model.md does to every slot, and that it keeps the invariants of 10_state.md R34. -/

namespace Sys2Proof.Machine

/-! ### The slot-by-slot rewriting -/

@[simp] theorem mapSlots_length (f : Nat → Nat → Nat) (k : Nat) (l : List Nat) : (mapSlots f k l).length = l.length := by
  induction l generalizing k with
  | nil => rfl
  | cons v vs ih => simp [mapSlots, ih]

theorem mapSlots_getD (f : Nat → Nat → Nat) (k : Nat) (l : List Nat) (i : Nat) (h : i < l.length) :
    (mapSlots f k l).getD i 0 = f (k + i) (l.getD i 0) := by
  induction l generalizing k i with
  | nil => simp at h
  | cons v vs ih =>
    cases i with
    | zero => rfl
    | succ i =>
      have := ih (k + 1) i (by simpa using h)
      simpa [mapSlots, Nat.add_assoc, Nat.add_comm 1 i] using this

namespace Model

/-! ### M.INIT and M.UPDATE -/

@[simp] theorem init_n (m : Model) (n : Nat) : (m.init n).n = n := rfl

@[simp] theorem init_length (m : Model) (n : Nat) : (m.init n).p.length = m.p.length := by simp [init]

theorem init_entry (m : Model) (n i : Nat) (h : i < m.p.length) :
    (m.init n).entry i = if i ≤ n then i else m.entry i := by
  simp only [init, entry]
  rw [mapSlots_getD _ _ _ _ h]
  simp

@[simp] theorem update_n (m : Model) (sym : Nat) : (m.update sym).n = m.n := rfl

@[simp] theorem update_length (m : Model) (sym : Nat) : (m.update sym).p.length = m.p.length := by simp [update]

theorem update_entry (m : Model) (sym i : Nat) (h : i < m.p.length) :
    (m.update sym).entry i = if sym < i ∧ i ≤ m.n then m.entry i + 1 else m.entry i := by
  simp only [update, entry]
  rw [mapSlots_getD _ _ _ _ h]
  simp

/-! ### M.SCALE -/

@[simp] theorem scaleSlots_length (n i prev : Nat) (l : List Nat) : (scaleSlots n i prev l).length = l.length := by
  induction l generalizing i prev with
  | nil => rfl
  | cons v vs ih =>
    unfold scaleSlots
    split
    · rfl
    · simp [ih]

@[simp] theorem scale_n (m : Model) : m.scale.n = m.n := by
  unfold scale; split <;> rfl

@[simp] theorem scale_length (m : Model) : m.scale.p.length = m.p.length := by
  unfold scale; split
  · rfl
  · rename_i h; simp [h]

theorem scaleSlots_above (n i prev : Nat) (l : List Nat) (j : Nat) (hj : n < i + j) :
    (scaleSlots n i prev l).getD j 0 = l.getD j 0 := by
  induction l generalizing i prev j with
  | nil => rfl
  | cons v vs ih =>
    unfold scaleSlots
    split
    · rfl
    · cases j with
      | zero => omega
      | succ j => simpa using ih (i + 1) _ j (by omega)

/-- The rewritten value of a slot, from its old value and the rewritten value of the slot below it (40_model.md R114). -/
def scaledValue (v prev : Nat) : Nat := if v / 2 ≤ prev then prev + 1 else v / 2

theorem scaleSlots_first (n i prev v : Nat) (vs : List Nat) (hi : i ≤ n) :
    (scaleSlots n i prev (v :: vs)).getD 0 0 = scaledValue v prev := by
  unfold scaleSlots
  rw [if_neg (by omega)]
  simp [scaledValue, Nat.shiftRight_succ]

theorem scaleSlots_next (n i prev : Nat) (l : List Nat) (j : Nat) (hj : i + j + 1 ≤ n) (hl : j + 1 < l.length) :
    (scaleSlots n i prev l).getD (j + 1) 0 = scaledValue (l.getD (j + 1) 0) ((scaleSlots n i prev l).getD j 0) := by
  induction l generalizing i prev j with
  | nil => simp at hl
  | cons v vs ih =>
    unfold scaleSlots
    rw [if_neg (by omega)]
    simp only [List.length_cons] at hl
    cases j with
    | zero =>
      cases vs with
      | nil => simp at hl
      | cons w ws => simpa using scaleSlots_first n (i + 1) _ w ws (by omega)
    | succ j => simpa using ih (i + 1) _ j (by omega) (by omega)

/-- M.SCALE keeps `P[0]` (R114). -/
theorem scale_entry_zero (m : Model) : m.scale.entry 0 = m.entry 0 := by
  unfold scale entry; split
  · rfl
  · rename_i h; simp [h]

/-- The recurrence of M.SCALE (R114). -/
theorem scale_entry_succ (m : Model) (i : Nat) (hn : i + 1 ≤ m.n) (hl : i + 1 < m.p.length) :
    m.scale.entry (i + 1) = scaledValue (m.entry (i + 1)) (m.scale.entry i) := by
  unfold scale entry
  split
  · rename_i h; simp [h] at hl
  · rename_i v vs h
    simp only [h, List.length_cons] at hl
    cases i with
    | zero =>
      cases vs with
      | nil => simp at hl
      | cons w ws => simpa [h] using scaleSlots_first m.n 1 v w ws (by omega)
    | succ i => simpa [h] using scaleSlots_next m.n 1 v vs i (by omega) (by omega)

/-- M.SCALE leaves the slots above `N` alone (R114). -/
theorem scale_entry_above (m : Model) (i : Nat) (hn : m.n < i) : m.scale.entry i = m.entry i := by
  unfold scale entry
  split
  · rfl
  · rename_i v vs h
    cases i with
    | zero => omega
    | succ i => simpa [h] using scaleSlots_above m.n 1 v vs i (by omega)

theorem lt_scaledValue (v prev : Nat) : prev < scaledValue v prev := by unfold scaledValue; split <;> omega

/-! ### M.EXPAND's growing loop -/

@[simp] theorem growSlots_length (a b i prev : Nat) (l : List Nat) : (growSlots a b i prev l).length = l.length := by
  induction l generalizing i prev with
  | nil => rfl
  | cons v vs ih => simp [growSlots, ih]

@[simp] theorem grow_n (m : Model) (n2 : Nat) : (m.grow n2).n = n2 := rfl

@[simp] theorem grow_length (m : Model) (n2 : Nat) : (m.grow n2).p.length = m.p.length := by simp [grow]

theorem growSlots_old (a b i prev : Nat) (l : List Nat) (j : Nat) (hj : i + j ≤ a) :
    (growSlots a b i prev l).getD j 0 = l.getD j 0 := by
  induction l generalizing i prev j with
  | nil => rfl
  | cons v vs ih =>
    unfold growSlots
    rw [if_neg (by omega)]
    cases j with
    | zero => rfl
    | succ j => simpa using ih (i + 1) v j (by omega)

theorem growSlots_above (a b i prev : Nat) (l : List Nat) (j : Nat) (hj : b < i + j) :
    (growSlots a b i prev l).getD j 0 = l.getD j 0 := by
  induction l generalizing i prev j with
  | nil => rfl
  | cons v vs ih =>
    unfold growSlots
    cases j with
    | zero => rw [if_neg (by omega)]; rfl
    | succ j => simpa using ih (i + 1) _ j (by omega)

theorem growSlots_new (a b i prev : Nat) (l : List Nat) (j : Nat) (h1 : a < i + (j + 1)) (h2 : i + (j + 1) ≤ b)
    (hl : j + 1 < l.length) :
    (growSlots a b i prev l).getD (j + 1) 0 = (growSlots a b i prev l).getD j 0 + 1 := by
  induction l generalizing i prev j with
  | nil => simp at hl
  | cons v vs ih =>
    simp only [List.length_cons] at hl
    unfold growSlots
    cases j with
    | zero =>
      cases vs with
      | nil => simp at hl
      | cons w ws =>
        unfold growSlots
        simp [show a < i + 1 by omega, show i + 1 ≤ b by omega]
    | succ j => simpa using ih (i + 1) _ j (by omega) (by omega) (by omega)

/-- M.EXPAND keeps the slots `0..oldN` and those above the new size (40_model.md R117). -/
theorem grow_entry_old (m : Model) (n2 i : Nat) (h : i ≤ m.n ∨ n2 < i) : (m.grow n2).entry i = m.entry i := by
  unfold grow entry
  rcases h with h | h
  · exact growSlots_old _ _ _ _ _ _ (by omega)
  · exact growSlots_above _ _ _ _ _ _ (by omega)

/-- Each new slot is one above the slot below it (40_model.md R117). -/
theorem grow_entry_succ (m : Model) (n2 i : Nat) (h1 : m.n ≤ i) (h2 : i + 1 ≤ n2) (hl : i + 1 < m.p.length) :
    (m.grow n2).entry (i + 1) = (m.grow n2).entry i + 1 := by
  unfold grow entry
  exact growSlots_new _ _ _ _ _ _ (by omega) (by omega) hl

/-- The new slots in closed form: symbol weights 1 above the old total (40_model.md R117). -/
theorem grow_entry_new (m : Model) (n2 k : Nat) (h2 : m.n + k ≤ n2) (hl : m.n + k < m.p.length) :
    (m.grow n2).entry (m.n + k) = m.total + k := by
  induction k with
  | zero => simpa [total] using grow_entry_old m n2 m.n (Or.inl le_rfl)
  | succ k ih =>
    have := grow_entry_succ m n2 (m.n + k) (by omega) (by omega) (by omega)
    rw [show m.n + (k + 1) = m.n + k + 1 from rfl, this, ih (by omega) (by omega)]
    omega

/-! ### Monotone tables -/

/-- `P[0] = 0` and `P` strictly monotone on `0..N`, with every slot `0..N` in the table (10_state.md R34 without the bound on the
total, which does not hold between M.UPDATE or the growing loop and the scaling). -/
structure Monotone (m : Model) : Prop where
  zero : m.entry 0 = 0
  mono : ∀ i, i < m.n → m.entry i < m.entry (i + 1)

theorem Monotone.add_le {m : Model} (h : m.Monotone) {i k : Nat} (hk : i + k ≤ m.n) : m.entry i + k ≤ m.entry (i + k) := by
  induction k with
  | zero => simp
  | succ k ih =>
    have h1 := ih (by omega)
    have h2 := h.mono (i + k) (by omega)
    rw [show i + (k + 1) = i + k + 1 from rfl]
    omega

theorem Monotone.le_total {m : Model} (h : m.Monotone) {i : Nat} (hi : i ≤ m.n) : m.entry i + (m.n - i) ≤ m.total := by
  have := h.add_le (i := i) (k := m.n - i) (by omega)
  rwa [show i + (m.n - i) = m.n by omega] at this

theorem Monotone.strict {m : Model} (h : m.Monotone) {i j : Nat} (hij : i < j) (hj : j ≤ m.n) : m.entry i < m.entry j := by
  have := h.add_le (i := i) (k := j - i) (by omega)
  rw [show i + (j - i) = j by omega] at this
  omega

theorem Monotone.n_le_total {m : Model} (h : m.Monotone) : m.n ≤ m.total := by
  have := h.le_total (i := 0) (by omega)
  omega

/-- M.SCALE gives a strictly monotone table (40_model.md R114). -/
theorem scale_monotone (m : Model) (h0 : m.entry 0 = 0) (hl : m.n < m.p.length) : m.scale.Monotone where
  zero := by rw [scale_entry_zero, h0]
  mono := by
    intro i hi
    rw [scale_n] at hi
    rw [scale_entry_succ m i (by omega) (by omega)]
    exact lt_scaledValue _ _

/-- The bound of 40_model.md R123 on every slot: `P'[i] <= max(i, (P[i] + i - 1) / 2)` for a strictly monotone table. -/
theorem scale_entry_le (m : Model) (h : m.Monotone) (hl : m.n < m.p.length) (i : Nat) (hi : 1 ≤ i) (hin : i ≤ m.n) :
    m.scale.entry i ≤ max i ((m.entry i + i - 1) / 2) := by
  induction i with
  | zero => omega
  | succ i ih =>
    rw [scale_entry_succ m i hin (by omega)]
    have hm := h.mono i (by omega)
    unfold scaledValue
    split
    · rcases Nat.eq_zero_or_pos i with rfl | hpos
      · rw [scale_entry_zero, h.zero]; omega
      · have := ih hpos (by omega)
        omega
    · omega

/-- The bound of 40_model.md R123 on the total. -/
theorem scale_total_le (m : Model) (h : m.Monotone) (hl : m.n < m.p.length) (hn : 1 ≤ m.n) :
    m.scale.total ≤ max m.n ((m.total + m.n - 1) / 2) := by
  simpa [total] using scale_entry_le m h hl m.n hn le_rfl

/-- M.SCALE writes no slot above `max(i, P[i])`; with a monotone table, at most its old value (40_model.md R124). -/
theorem scale_entry_le_old (m : Model) (h : m.Monotone) (hl : m.n < m.p.length) (i : Nat) (hin : i ≤ m.n) :
    m.scale.entry i ≤ m.entry i := by
  rcases Nat.eq_zero_or_pos i with rfl | hpos
  · rw [scale_entry_zero]
  · have h1 := scale_entry_le m h hl i hpos hin
    have h2 := h.add_le (i := 0) (k := i) (by omega)
    rw [Nat.zero_add] at h2
    omega

theorem update_monotone (m : Model) (sym : Nat) (h : m.Monotone) (hl : m.n < m.p.length) : (m.update sym).Monotone where
  zero := by
    rw [update_entry m sym 0 (by omega), if_neg (by omega), h.zero]
  mono := by
    intro i hi
    rw [update_n] at hi
    rw [update_entry m sym i (by omega), update_entry m sym (i + 1) (by omega)]
    have := h.mono i hi
    split <;> split <;> omega

theorem update_total (m : Model) (sym : Nat) (hs : sym < m.n) (hl : m.n < m.p.length) :
    (m.update sym).total = m.total + 1 := by
  unfold total
  rw [update_n, update_entry m sym m.n hl, if_pos ⟨hs, le_rfl⟩]

theorem grow_monotone (m : Model) (n2 : Nat) (h : m.Monotone) (hl : n2 < m.p.length) :
    (m.grow n2).Monotone where
  zero := by rw [grow_entry_old m n2 0 (Or.inl (by omega)), h.zero]
  mono := by
    intro i hi
    rw [grow_n] at hi
    by_cases hc : m.n ≤ i
    · rw [grow_entry_succ m n2 i hc (by omega) (by omega)]; omega
    · rw [grow_entry_old m n2 i (Or.inl (by omega)), grow_entry_old m n2 (i + 1) (Or.inl (by omega))]
      exact h.mono i (by omega)

theorem grow_total (m : Model) (n2 : Nat) (hn : m.n ≤ n2) (hl : n2 < m.p.length) :
    (m.grow n2).total = m.total + (n2 - m.n) := by
  have := grow_entry_new m n2 (n2 - m.n) (by omega) (by omega)
  rwa [show m.n + (n2 - m.n) = n2 by omega] at this

end Model

theorem TableOk.monotone {c : Config} {m : Model} (h : TableOk c m) : m.Monotone := ⟨h.zero, h.mono⟩

/-- `N <= MAX_TOTAL - 1` (10_state.md R34). -/
theorem TableOk.n_lt_maxTotal {c : Config} {m : Model} (h : TableOk c m) : m.n < c.maxTotal :=
  lt_of_le_of_lt h.monotone.n_le_total h.bounded

namespace Model

/-! ### The invariants are kept -/

/-- M.INIT gives a legal table (40_model.md R111). -/
theorem init_ok (c : Config) (m : Model) (n : Nat) (hl : m.p.length = c.nmax + 1) (h1 : 1 ≤ n) (h2 : n ≤ c.nmax)
    (h3 : n < c.maxTotal) : TableOk c (m.init n) where
  n_pos := h1
  n_le := h2
  zero := by rw [init_entry _ _ _ (by omega)]; simp
  mono := by
    intro i hi
    rw [init_n] at hi
    rw [init_entry _ _ _ (by omega), init_entry _ _ _ (by omega), if_pos (by omega), if_pos (by omega)]
    omega
  bounded := by
    show (m.init n).entry n < _
    rw [init_entry _ _ _ (by omega), if_pos le_rfl]
    exact h3

@[simp] theorem scaleMaybe_n (m : Model) (c : Config) : (m.scaleMaybe c).n = m.n := by
  unfold scaleMaybe; split <;> simp

@[simp] theorem scaleMaybe_length (m : Model) (c : Config) : (m.scaleMaybe c).p.length = m.p.length := by
  unfold scaleMaybe; split <;> simp

/-- M.UPDATE then M.SCALE_MAYBE keep the invariants (40_model.md R121). -/
theorem update_scaleMaybe_ok (c : Config) (m : Model) (sym : Nat) (h : TableOk c m) (hl : m.n < m.p.length) (hs : sym < m.n) :
    TableOk c ((m.update sym).scaleMaybe c) := by
  have hm := update_monotone m sym h.monotone hl
  have ht := update_total m sym hs hl
  have hN := h.n_lt_maxTotal
  have hb := h.bounded
  unfold scaleMaybe
  split
  · rename_i hsat
    have hl' : (m.update sym).n < (m.update sym).p.length := by simpa using hl
    have hmono := scale_monotone (m.update sym) hm.zero hl'
    have hle := scale_total_le (m.update sym) hm hl' (by simpa using h.n_pos)
    refine ⟨by simpa using h.n_pos, by simpa using h.n_le, hmono.zero, hmono.mono, ?_⟩
    rw [update_n] at hle
    omega
  · rename_i hlow
    exact ⟨by simpa using h.n_pos, by simpa using h.n_le, hm.zero, hm.mono, by omega⟩

/-- The scaling loop keeps the size, and from a monotone table it ends below `MAX_TOTAL` when its fuel covers the halvings of the
excess of the total over `N` (40_model.md R118, R123). -/
theorem scaleLoop_ok (c : Config) (fuel : Nat) (m : Model) (h : m.Monotone) (hl : m.n < m.p.length) (hn : 1 ≤ m.n)
    (hN : m.n < c.maxTotal) (hf : m.total - m.n < 2 ^ fuel) :
    ∃ m', scaleLoop c fuel m = some m' ∧ m'.Monotone ∧ m'.n = m.n ∧ m'.p.length = m.p.length ∧ m'.total < c.maxTotal ∧
      (∀ i, m'.entry i ≤ m.entry i) ∧ (m.total < c.maxTotal → m' = m) := by
  induction fuel generalizing m with
  | zero =>
    have := h.n_le_total
    refine ⟨m, ?_, h, rfl, rfl, by omega, fun _ => le_rfl, fun _ => rfl⟩
    unfold scaleLoop
    rw [if_neg (by omega)]
  | succ fuel ih =>
    unfold scaleLoop
    split
    · rename_i hsat
      have hle := scale_total_le m h hl hn
      have hm := scale_monotone m h.zero hl
      have h2 := hm.n_le_total
      rw [scale_n] at h2
      obtain ⟨m', h1, h3, h4, h5, h6, h7, -⟩ := ih m.scale hm (by simpa using hl) (by simpa using hn) (by simpa using hN)
        (by rw [scale_n]; rw [pow_succ] at hf; omega)
      refine ⟨m', h1, h3, by simpa using h4, by simpa using h5, h6, ?_, fun hc => by omega⟩
      intro i
      by_cases hi : i ≤ m.n
      · exact le_trans (h7 i) (scale_entry_le_old m h hl i hi)
      · exact le_trans (h7 i) (le_of_eq (scale_entry_above m i (by omega)))
    · exact ⟨m, rfl, h, rfl, rfl, by omega, fun _ => le_rfl, fun _ => rfl⟩

/-- M.EXPAND always ends, keeps the invariants, and when the grown total is below `MAX_TOTAL` it is the growing loop alone
(40_model.md R117, R118, R122). -/
theorem expand_ok (c : Config) (m : Model) (n2 : Nat) (hc : c.Valid) (h : TableOk c m) (hl : m.p.length = c.nmax + 1)
    (hn : m.n < n2) (h2 : n2 ≤ c.nmax) (h3 : n2 < c.maxTotal) :
    ∃ m', m.expand c n2 = some m' ∧ TableOk c m' ∧ m'.n = n2 ∧ m'.p.length = m.p.length ∧
      (∀ i, m'.entry i ≤ (m.grow n2).entry i) ∧ ((m.grow n2).total < c.maxTotal → m' = m.grow n2) := by
  have hm := grow_monotone m n2 h.monotone (by omega)
  have ht := grow_total m n2 (by omega) (by omega)
  have hb := h.bounded
  have hw : c.maxTotal * 2 ≤ 2 ^ c.w := by
    unfold Config.maxTotal Config.lowBit Config.lowBitPos
    rw [← pow_succ]
    exact Nat.pow_le_pow_right (by omega) (by have := hc.w_ge; omega)
  have hfuel : (m.grow n2).total - (m.grow n2).n < 2 ^ c.w := by rw [grow_n]; omega
  have hn1 : 1 ≤ (m.grow n2).n := by rw [grow_n]; omega
  obtain ⟨m', h1, hmono, h4, h5, h6, h7, h8⟩ := scaleLoop_ok c c.w (m.grow n2) hm
    (by rw [grow_n, grow_length]; omega) hn1 (by rw [grow_n]; exact h3) hfuel
  rw [grow_n] at h4
  rw [grow_length] at h5
  exact ⟨m', h1, ⟨by omega, by omega, hmono.zero, hmono.mono, h6⟩, h4, h5, h7, h8⟩

/-! ### M.LOOKUP -/

theorem lookupBelow_some (m : Model) (q k s : Nat) (h : lookupBelow m q k = some s) :
    s < k ∧ m.entry s ≤ q ∧ ∀ j, s < j → j < k → q < m.entry j := by
  induction k with
  | zero => simp [lookupBelow] at h
  | succ k ih =>
    unfold lookupBelow at h
    split at h
    · rename_i hq
      obtain rfl : k = s := by simpa using h
      exact ⟨by omega, hq, fun j h1 h2 => by omega⟩
    · rename_i hq
      obtain ⟨h1, h2, h3⟩ := ih h
      refine ⟨by omega, h2, fun j h4 h5 => ?_⟩
      by_cases hj : j = k
      · subst hj; omega
      · exact h3 j h4 (by omega)

theorem lookupBelow_isSome (m : Model) (q k : Nat) (hk : 1 ≤ k) (h0 : m.entry 0 ≤ q) : ∃ s, lookupBelow m q k = some s := by
  induction k with
  | zero => omega
  | succ k ih =>
    unfold lookupBelow
    split
    · exact ⟨k, rfl⟩
    · rename_i hq
      cases k with
      | zero => omega
      | succ k => exact ih (by omega)

/-- M.LOOKUP returns the symbol whose sub-interval holds `q` (40_model.md R119). -/
theorem lookup_spec (m : Model) (q : Nat) (hn : 1 ≤ m.n) (h0 : m.entry 0 ≤ q) (hq : q < m.total) :
    ∃ s, m.lookup q = some s ∧ s < m.n ∧ m.entry s ≤ q ∧ q < m.entry (s + 1) := by
  obtain ⟨s, hs⟩ := lookupBelow_isSome m q m.n hn h0
  obtain ⟨h1, h2, h3⟩ := lookupBelow_some m q m.n s hs
  refine ⟨s, hs, h1, h2, ?_⟩
  by_cases hc : s + 1 < m.n
  · exact h3 (s + 1) (by omega) hc
  · rw [show s + 1 = m.n by omega]; exact hq

/-- The symbol is unique, so every permitted search gives it (40_model.md R119). -/
theorem lookup_unique (m : Model) (q s : Nat) (h : m.Monotone) (hs : s < m.n) (h1 : m.entry s ≤ q) (h2 : q < m.entry (s + 1)) :
    m.lookup q = some s := by
  have hq : q < m.total := lt_of_lt_of_le h2 (by have := h.le_total (i := s + 1) (by omega); omega)
  obtain ⟨s', e, a1, a2, a3⟩ := lookup_spec m q (by omega) (by rw [h.zero]; omega) hq
  rw [e]
  rcases Nat.lt_trichotomy s s' with hlt | heq | hgt
  · have : m.entry (s + 1) ≤ m.entry s' := by
      rcases Nat.eq_or_lt_of_le (show s + 1 ≤ s' from hlt) with h' | h'
      · rw [h']
      · exact le_of_lt (h.strict h' (by omega))
    omega
  · rw [heq]
  · have : m.entry (s' + 1) ≤ m.entry s := by
      rcases Nat.eq_or_lt_of_le (show s' + 1 ≤ s from hgt) with h' | h'
      · rw [h']
      · exact le_of_lt (h.strict h' (by omega))
    omega

/-! ### M.SAVE_TO and M.LOAD_FROM -/

@[simp] theorem saved_n (m : Model) : m.saved.n = m.n := rfl

theorem saved_entry (m : Model) (i : Nat) (hi : i ≤ m.n) : m.saved.entry i = m.entry i := by
  unfold saved entry
  rw [List.getD_eq_getElem?_getD, List.getD_eq_getElem?_getD, List.getElem?_take, if_pos (by omega)]

@[simp] theorem load_n (m slot : Model) : (m.load slot).n = slot.n := rfl

@[simp] theorem load_length (m slot : Model) : (m.load slot).p.length = m.p.length := by simp [load]

theorem load_entry (m slot : Model) (i : Nat) (h : i < m.p.length) :
    (m.load slot).entry i = if i ≤ slot.n then slot.entry i else m.entry i := by
  unfold load
  rw [entry, mapSlots_getD _ _ _ _ h]
  simp [entry]

theorem saved_ok (c : Config) (m : Model) (h : TableOk c m) : TableOk c m.saved where
  n_pos := h.n_pos
  n_le := h.n_le
  zero := by rw [saved_entry m 0 (by omega), h.zero]
  mono := by
    intro i hi
    rw [saved_n] at hi
    rw [saved_entry m i (by omega), saved_entry m (i + 1) (by omega)]
    exact h.mono i hi
  bounded := by
    show m.saved.entry m.n < _
    rw [saved_entry m m.n le_rfl]; exact h.bounded

theorem load_ok (c : Config) (m slot : Model) (h : TableOk c slot) (hl : m.p.length = c.nmax + 1) :
    TableOk c (m.load slot) where
  n_pos := h.n_pos
  n_le := h.n_le
  zero := by rw [load_entry _ _ _ (by omega), if_pos (by omega), h.zero]
  mono := by
    intro i hi
    rw [load_n] at hi
    have := h.n_le
    rw [load_entry _ _ _ (by omega), load_entry _ _ _ (by omega), if_pos (by omega), if_pos (by omega)]
    exact h.mono i hi
  bounded := by
    have := h.n_le
    show (m.load slot).entry slot.n < _
    rw [load_entry _ _ _ (by omega), if_pos le_rfl]; exact h.bounded

/-! ### Every value written fits its slot (40_model.md R124) -/

/-- The entries of a legal table are below `MAX_TOTAL`, a quarter of the window. -/
theorem entry_lt_maxTotal (c : Config) (m : Model) (h : TableOk c m) (i : Nat) (hi : i ≤ m.n) : m.entry i < c.maxTotal := by
  have := h.monotone.le_total hi
  have := h.bounded
  omega

theorem entry_fits (c : Config) (m : Model) (h : TableOk c m) (i : Nat) (hi : i ≤ m.n) : m.entry i < 2 ^ (c.w - 1) :=
  lt_of_lt_of_le (entry_lt_maxTotal c m h i hi) (Nat.pow_le_pow_right (by omega) (show c.w - 2 ≤ c.w - 1 by omega))

/-- Scaling any number of times keeps the table strictly monotone and raises no entry. -/
theorem scale_iterate (k : Nat) (m : Model) (h : m.Monotone) (hl : m.n < m.p.length) :
    (scale^[k] m).Monotone ∧ (scale^[k] m).n = m.n ∧ (scale^[k] m).p.length = m.p.length ∧
      ∀ i, i ≤ m.n → (scale^[k] m).entry i ≤ m.entry i := by
  induction k with
  | zero => exact ⟨h, rfl, rfl, fun i _ => le_rfl⟩
  | succ k ih =>
    obtain ⟨h1, h2, h3, h4⟩ := ih
    rw [Function.iterate_succ_apply']
    refine ⟨scale_monotone _ h1.zero (by omega), by simpa using h2, by simpa using h3, fun i hi => ?_⟩
    exact le_trans (scale_entry_le_old _ h1 (by omega) i (by omega)) (h4 i hi)

/-- What EXPAND writes before and between its scalings fits. -/
theorem grow_fits (c : Config) (m : Model) (n2 : Nat) (h : TableOk c m) (hl : n2 < m.p.length) (hn : m.n < n2)
    (h2 : n2 < c.maxTotal) (k i : Nat) (hi : i ≤ n2) : (scale^[k] (m.grow n2)).entry i < 2 * c.maxTotal := by
  have hg := grow_monotone m n2 h.monotone hl
  have ht := grow_total m n2 (by omega) hl
  have hb := h.bounded
  have h1 := (scale_iterate k (m.grow n2) hg (by rw [grow_n, grow_length]; exact hl)).2.2.2 i (by rw [grow_n]; exact hi)
  have h3 := hg.le_total (i := i) (by rw [grow_n]; exact hi)
  omega

end Model

end Sys2Proof.Machine
end

