-- ==== Sys2Proof/Laws/RangeArith.lean ====
section
/-! SUPPORT. The bit operations of 41_range_arith.md as arithmetic on the three intervals of R141, and the facts of R147 to R150. -/

namespace Sys2Proof

namespace Config

theorem Valid.two_lowBit {c : Config} (h : c.Valid) : c.hiBit = 2 * c.lowBit := by
  have := h.w_ge
  unfold hiBit lowBit hiBitPos lowBitPos
  rw [← pow_succ', show c.w - 2 + 1 = c.w - 1 by omega]

theorem Valid.two_hiBit {c : Config} (h : c.Valid) : 2 ^ c.w = 2 * c.hiBit := by
  have := h.w_ge
  unfold hiBit hiBitPos
  rw [← pow_succ', show c.w - 1 + 1 = c.w by omega]

theorem lowBit_pos (c : Config) : 0 < c.lowBit := Nat.two_pow_pos _

theorem Valid.lowBit_ge {c : Config} (h : c.Valid) : 2 ≤ c.lowBit := by
  have := h.w_ge
  unfold lowBit lowBitPos
  calc 2 = 2 ^ 1 := rfl
    _ ≤ 2 ^ (c.w - 2) := Nat.pow_le_pow_right (by omega) (by omega)

theorem windowMask_eq (c : Config) : c.windowMask = 2 ^ c.w - 1 := rfl

end Config

namespace Machine

/-! ### One bit of a register -/

theorem and_two_pow_eq (x k : Nat) : x &&& 2 ^ k = x / 2 ^ k % 2 * 2 ^ k := by
  rw [Nat.and_two_pow, Nat.testBit_eq_decide_div_mod_eq]
  rcases Nat.mod_two_eq_zero_or_one (x / 2 ^ k) with h | h <;> simp [h]

theorem or_two_pow_eq (x k : Nat) (h : x / 2 ^ k % 2 = 0) : x ||| 2 ^ k = x + 2 ^ k := by
  have hr : x % 2 ^ k < 2 ^ k := Nat.mod_lt _ (Nat.two_pow_pos k)
  have hx : 2 ^ (k + 1) * (x / 2 ^ k / 2) + x % 2 ^ k = x := by
    have h1 := Nat.div_add_mod x (2 ^ k)
    have h2 := Nat.div_add_mod (x / 2 ^ k) 2
    rw [h, Nat.add_zero] at h2
    rw [pow_succ, Nat.mul_assoc, h2]
    exact h1
  have e1 := Nat.two_pow_add_eq_or_of_lt (i := k + 1) (b := x % 2 ^ k) (by rw [pow_succ]; omega) (x / 2 ^ k / 2)
  have e2 := Nat.two_pow_add_eq_or_of_lt (i := k) hr 1
  have e3 := Nat.two_pow_add_eq_or_of_lt (i := k + 1) (b := 2 ^ k * 1 + x % 2 ^ k) (by rw [pow_succ]; omega) (x / 2 ^ k / 2)
  calc x ||| 2 ^ k = 2 ^ (k + 1) * (x / 2 ^ k / 2) ||| (2 ^ k * 1 ||| x % 2 ^ k) := by
        rw [Nat.mul_one, Nat.or_comm (2 ^ k), ← Nat.or_assoc, ← e1, hx]
    _ = x + 2 ^ k := by rw [← e2, ← e3]; omega

theorem xor_two_pow_clear (x k : Nat) (h : x / 2 ^ k % 2 = 0) : x ^^^ 2 ^ k = x + 2 ^ k := by
  rw [← or_two_pow_eq x k h]
  apply Nat.eq_of_testBit_eq
  intro i
  have h2 : (x &&& 2 ^ k).testBit i = false := by rw [and_two_pow_eq, h, Nat.zero_mul]; exact Nat.zero_testBit i
  rw [Nat.testBit_and] at h2
  rw [Nat.testBit_xor, Nat.testBit_or]
  revert h2
  cases x.testBit i <;> cases (2 ^ k).testBit i <;> simp

theorem xor_two_pow_set (x k : Nat) (h : x / 2 ^ k % 2 = 1) : x ^^^ 2 ^ k = x - 2 ^ k := by
  have hle : 2 ^ k ≤ x := by
    rcases Nat.lt_or_ge x (2 ^ k) with h' | h'
    · rw [Nat.div_eq_of_lt h'] at h; simp at h
    · exact h'
  have hc : (x - 2 ^ k) / 2 ^ k % 2 = 0 := by
    have : x / 2 ^ k = (x - 2 ^ k) / 2 ^ k + 1 := by
      conv_lhs => rw [show x = (x - 2 ^ k) + 2 ^ k by omega]
      rw [Nat.add_div_right _ (Nat.two_pow_pos k)]
    omega
  have := xor_two_pow_clear (x - 2 ^ k) k hc
  rw [show x - 2 ^ k + 2 ^ k = x by omega] at this
  calc x ^^^ 2 ^ k = (x - 2 ^ k ^^^ 2 ^ k) ^^^ 2 ^ k := by rw [this]
    _ = x - 2 ^ k := by rw [Nat.xor_assoc, Nat.xor_self, Nat.xor_zero]

/-! ### The classification -/

section
variable {c : Config} (hc : c.Valid)
include hc

theorem and_hiBit (x : Nat) (hx : x < 2 ^ c.w) : x &&& c.hiBit = if c.hiBit ≤ x then c.hiBit else 0 := by
  have h2 := hc.two_hiBit
  have hp : 0 < c.hiBit := Nat.two_pow_pos _
  show x &&& 2 ^ c.hiBitPos = _
  rw [and_two_pow_eq]
  change x / c.hiBit % 2 * c.hiBit = _
  split
  · rename_i h
    have : x / c.hiBit = 1 := Nat.div_eq_of_lt_le (by omega) (by omega)
    rw [this]; simp
  · rename_i h
    rw [Nat.div_eq_of_lt (by omega)]; simp

/-- Which quarter of the window a value lies in. -/
theorem div_lowBit (x : Nat) (hx : x < 2 ^ c.w) :
    x / c.lowBit = if x < c.lowBit then 0 else if x < c.hiBit then 1 else if x < c.threeQuarter then 2 else 3 := by
  have h1 := hc.two_lowBit
  have h2 := hc.two_hiBit
  have hp := c.lowBit_pos
  unfold Config.threeQuarter
  split
  · exact Nat.div_eq_of_lt (by omega)
  · split
    · exact Nat.div_eq_of_lt_le (by omega) (by omega)
    · split
      · exact Nat.div_eq_of_lt_le (by omega) (by omega)
      · exact Nat.div_eq_of_lt_le (by omega) (by omega)

omit hc in
theorem and_lowBit (x : Nat) : x &&& c.lowBit = x / c.lowBit % 2 * c.lowBit := and_two_pow_eq x c.lowBitPos

/-- The MSB test of R141 in arithmetic. -/
theorem msb_agree_iff (low high : Nat) (hl : low ≤ high) (hh : high < 2 ^ c.w) :
    high &&& c.hiBit = low &&& c.hiBit ↔ high < c.hiBit ∨ c.hiBit ≤ low := by
  have hp : 0 < c.hiBit := Nat.two_pow_pos _
  rw [and_hiBit hc high hh, and_hiBit hc low (by omega)]
  split_ifs <;> omega

/-- The second-MSB tests of R141 in arithmetic, when the MSBs differ. -/
theorem straddle_iff (low high : Nat) (h1 : low < c.hiBit) (h2 : c.hiBit ≤ high) (hh : high < 2 ^ c.w) :
    (low &&& c.lowBit ≠ 0 ∧ high &&& c.lowBit = 0) ↔ c.lowBit ≤ low ∧ high < c.threeQuarter := by
  have hq := c.lowBit_pos
  have a1 := hc.two_lowBit
  have a2 := hc.two_hiBit
  rw [and_lowBit, and_lowBit, div_lowBit hc low (by omega), div_lowBit hc high hh]
  unfold Config.threeQuarter
  split_ifs <;> simp <;> omega

/-- MSB agreement (41_range_arith.md R141 case 1) in arithmetic. -/
theorem classify_msbEq_iff (low high : Nat) (hl : low ≤ high) (hh : high < 2 ^ c.w) :
    classify c low high = .msbEq ↔ high < c.hiBit ∨ c.hiBit ≤ low := by
  rw [← msb_agree_iff hc low high hl hh]
  unfold classify
  split_ifs with h1 h2 <;> simp [h1]

/-- The near-half straddle (41_range_arith.md R141 case 2) in arithmetic. -/
theorem classify_e3_iff (low high : Nat) (hl : low ≤ high) (hh : high < 2 ^ c.w) :
    classify c low high = .e3 ↔ (c.lowBit ≤ low ∧ low < c.hiBit) ∧ (c.hiBit ≤ high ∧ high < c.threeQuarter) := by
  have hm := msb_agree_iff hc low high hl hh
  unfold classify
  by_cases hcase : high < c.hiBit ∨ c.hiBit ≤ low
  · rw [if_pos (hm.2 hcase)]
    constructor
    · intro h; cases h
    · intro h; omega
  · rw [if_neg (mt hm.1 hcase)]
    have hs := straddle_iff hc low high (by omega) (by omega) hh
    split_ifs with h1
    · have := hs.1 h1
      simp only [true_iff]
      omega
    · simp only [false_iff]
      intro h2
      exact h1 (hs.2 ⟨h2.1.1, h2.2.2⟩)

/-- EXIT in arithmetic: exactly the interval invariant of 10_state.md R35. -/
theorem classify_exit_iff (low high : Nat) (hl : low ≤ high) (hh : high < 2 ^ c.w) :
    classify c low high = .exit ↔ IntervalOk c low high := by
  have hm := classify_msbEq_iff hc low high hl hh
  have he := classify_e3_iff hc low high hl hh
  constructor
  · intro h
    rw [h] at hm he
    have a := mt hm.2 (by simp)
    have b := mt he.2 (by simp)
    exact ⟨by omega, hh, by omega, by omega, by omega⟩
  · intro h
    have a1 := h.low_lt; have a2 := h.high_ge; have a3 := h.wide
    cases hk : classify c low high
    · have := hm.1 hk; omega
    · have := he.1 hk; omega
    · rfl

/-! ### The actions as arithmetic (41_range_arith.md R146, R153) -/

omit hc in
theorem shiftLow_eq (x : Nat) : shiftLow c x = 2 * x % 2 ^ c.w := by
  unfold shiftLow Config.windowMask
  rw [Nat.and_two_pow_sub_one_eq_mod, Nat.shiftLeft_succ, Nat.shiftLeft_zero]

omit hc in
theorem double_or_bit (x : Nat) (b : Bool) : x <<< 1 ||| b.toNat = 2 * x + b.toNat := by
  rw [Nat.shiftLeft_succ, Nat.shiftLeft_zero]
  have := Nat.two_pow_add_eq_or_of_lt (i := 1) (b := b.toNat) (by cases b <;> simp) x
  simpa using this.symm

omit hc in
theorem shiftHigh_eq (x : Nat) : shiftHigh c x = (2 * x + 1) % 2 ^ c.w := by
  unfold shiftHigh Config.windowMask
  rw [Nat.and_two_pow_sub_one_eq_mod]
  have := double_or_bit x true
  simp only [Bool.toNat_true] at this
  rw [this]

omit hc in
theorem shiftCode_eq (x : Nat) (b : Bool) : shiftCode c x b = (2 * x + b.toNat) % 2 ^ c.w := by
  unfold shiftCode Config.windowMask
  rw [Nat.and_two_pow_sub_one_eq_mod, double_or_bit]

omit hc in
theorem e3Low_eq (x : Nat) : e3Low c x = x % c.lowBit := by
  unfold e3Low Config.lowBitMask Config.lowBit
  rw [Nat.and_two_pow_sub_one_eq_mod]

theorem e3High_eq (x : Nat) (h1 : c.hiBit ≤ x) (h2 : x < c.threeQuarter) : e3High c x = x + c.lowBit := by
  have a1 := hc.two_lowBit
  have a2 := hc.two_hiBit
  unfold Config.threeQuarter at h2
  have hd := div_lowBit hc x (by omega)
  unfold Config.threeQuarter at hd
  rw [if_neg (by omega), if_neg (by omega), if_pos h2] at hd
  exact or_two_pow_eq x c.lowBitPos (by change x / c.lowBit % 2 = 0; rw [hd])

theorem e3Code_eq (x : Nat) (h1 : c.lowBit ≤ x) (h2 : x < c.threeQuarter) :
    e3Code c x = if x < c.hiBit then x - c.lowBit else x + c.lowBit := by
  have a1 := hc.two_lowBit
  have a2 := hc.two_hiBit
  have hd := div_lowBit hc x (by unfold Config.threeQuarter at h2; omega)
  rw [if_neg (by omega)] at hd
  split
  · rename_i h
    rw [if_pos h] at hd
    exact xor_two_pow_set x c.lowBitPos (by change x / c.lowBit % 2 = 1; rw [hd])
  · rename_i h
    rw [if_neg h, if_pos h2] at hd
    exact xor_two_pow_clear x c.lowBitPos (by change x / c.lowBit % 2 = 0; rw [hd])

omit hc in
/-- Doubling a value after removing an offset below it, when the rest fits half a window. -/
theorem double_mod (x o k w : Nat) (b : Nat) (h1 : o ≤ x) (h2 : 2 * (x - o) + b < w) (h3 : 2 * o = k * w) :
    (2 * x + b) % w = 2 * (x - o) + b := by
  have : 2 * x + b = 2 * (x - o) + b + k * w := by omega
  rw [this, Nat.add_mul_mod_self_right, Nat.mod_eq_of_lt h2]

/-- An MSB_EQ step and its SHIFT: remove 0 or HALF, then double (41_range_arith.md R146). -/
theorem shift_msbEq (low high : Nat) (hl : low ≤ high) (hh : high < 2 ^ c.w) (hk : classify c low high = .msbEq) :
    ∃ o, (o = 0 ∧ high < c.hiBit ∨ o = c.hiBit ∧ c.hiBit ≤ low) ∧
      shiftLow c low = 2 * (low - o) ∧ shiftHigh c high = 2 * (high - o) + 1 ∧
      ∀ code b, low ≤ code → code ≤ high → shiftCode c code b = 2 * (code - o) + b.toNat := by
  have a2 := hc.two_hiBit
  rw [shiftLow_eq, shiftHigh_eq]
  rcases (classify_msbEq_iff hc low high hl hh).1 hk with h | h
  · refine ⟨0, Or.inl ⟨rfl, h⟩, ?_, ?_, ?_⟩
    · simpa using double_mod low 0 0 (2 ^ c.w) 0 (by omega) (by omega) (by omega)
    · exact double_mod high 0 0 (2 ^ c.w) 1 (by omega) (by omega) (by omega)
    · intro code b h1 h2
      rw [shiftCode_eq]
      exact double_mod code 0 0 (2 ^ c.w) b.toNat (by omega) (by cases b <;> simp <;> omega) (by omega)
  · refine ⟨c.hiBit, Or.inr ⟨rfl, h⟩, ?_, ?_, ?_⟩
    · simpa using double_mod low c.hiBit 1 (2 ^ c.w) 0 (by omega) (by omega) (by omega)
    · exact double_mod high c.hiBit 1 (2 ^ c.w) 1 (by omega) (by omega) (by omega)
    · intro code b h1 h2
      rw [shiftCode_eq]
      exact double_mod code c.hiBit 1 (2 ^ c.w) b.toNat (by omega) (by cases b <;> simp <;> omega) (by omega)

/-- An E3 step and its SHIFT: remove QUARTER, then double (41_range_arith.md R153). -/
theorem shift_e3 (low high : Nat) (hl : low ≤ high) (hh : high < 2 ^ c.w) (hk : classify c low high = .e3) :
    shiftLow c (e3Low c low) = 2 * (low - c.lowBit) ∧ shiftHigh c (e3High c high) = 2 * (high - c.lowBit) + 1 ∧
      ∀ code b, low ≤ code → code ≤ high → shiftCode c (e3Code c code) b = 2 * (code - c.lowBit) + b.toNat := by
  have a1 := hc.two_lowBit
  have a2 := hc.two_hiBit
  obtain ⟨⟨h1, h2⟩, h3, h4⟩ := (classify_e3_iff hc low high hl hh).1 hk
  have h4' : high < c.hiBit + c.lowBit := h4
  refine ⟨?_, ?_, ?_⟩
  · have hm : low % c.lowBit = low - c.lowBit := by rw [Nat.mod_eq_sub_mod h1, Nat.mod_eq_of_lt (by omega)]
    rw [shiftLow_eq, e3Low_eq, hm, Nat.mod_eq_of_lt (by omega)]
  · rw [shiftHigh_eq, e3High_eq hc high h3 h4]
    rw [double_mod (high + c.lowBit) c.hiBit 1 (2 ^ c.w) 1 (by omega) (by omega) (by omega)]
    omega
  · intro code b h5 h6
    rw [shiftCode_eq, e3Code_eq hc code (by omega) (by unfold Config.threeQuarter; omega)]
    split
    · rw [Nat.mod_eq_of_lt (by cases b <;> simp <;> omega)]
    · rw [double_mod (code + c.lowBit) c.hiBit 1 (2 ^ c.w) b.toNat (by omega) (by cases b <;> simp <;> omega) (by omega)]
      omega

/-- After EXIT the interval is at least `QUARTER + 2` wide (41_range_arith.md R149). -/
theorem interval_width (low high : Nat) (h : IntervalOk c low high) : c.lowBit + 2 ≤ high - low + 1 := by
  have a1 := hc.two_lowBit
  have b1 := h.low_lt; have b2 := h.high_ge
  have b3 := h.wide
  unfold Config.threeQuarter at b3
  omega

/-- INIT's interval is legal (10_state.md R35). -/
theorem init_interval : IntervalOk c 0 c.windowMask := by
  have a1 := hc.two_lowBit
  have a2 := hc.two_hiBit
  have a3 := hc.lowBit_ge
  unfold Config.windowMask
  exact ⟨by omega, by omega, by omega, by omega, Or.inl (by omega)⟩

/-! ### NARROW and the scaled code -/

omit hc in
/-- Narrowing gives a non-empty sub-interval (41_range_arith.md R148). -/
theorem narrow_within (m : Model) (sym low high : Nat) (hm : m.Monotone) (hs : sym < m.n) (hl : low ≤ high)
    (hr : m.total < high - low + 1) :
    low ≤ (narrow m sym low high).low ∧ (narrow m sym low high).low ≤ (narrow m sym low high).high ∧
      (narrow m sym low high).high ≤ high := by
  have h1 := hm.mono sym hs
  have h2 : m.entry (sym + 1) ≤ m.total := by
    have := hm.le_total (i := sym + 1) (by omega)
    omega
  have ht : 0 < m.total := by omega
  unfold narrow Model.freqHigh Model.freqLow
  simp only
  generalize hrange : high - low + 1 = r at *
  have a1 : r * m.entry (sym + 1) / m.total ≤ r := by
    calc r * m.entry (sym + 1) / m.total ≤ r * m.total / m.total := Nat.div_le_div_right (Nat.mul_le_mul_left r h2)
      _ = r := Nat.mul_div_cancel r ht
  have a2 : r * m.entry sym / m.total + 1 ≤ r * m.entry (sym + 1) / m.total := by
    rw [← Nat.add_div_right _ ht]
    apply Nat.div_le_div_right
    have : r * (m.entry sym + 1) ≤ r * m.entry (sym + 1) := Nat.mul_le_mul_left r h1
    rw [Nat.mul_succ] at this
    omega
  generalize r * m.entry (sym + 1) / m.total = a at *
  generalize r * m.entry sym / m.total = b at *
  refine ⟨by omega, by omega, by omega⟩

omit hc in
/-- The scaled code is below the total (41_range_arith.md R150). -/
theorem scaledCode_lt (m : Model) (low high code : Nat) (h1 : low ≤ code) (h2 : code ≤ high) (ht : 0 < m.total) :
    scaledCode m low high code < m.total := by
  unfold scaledCode
  rw [Nat.div_lt_iff_lt_mul (by omega)]
  have : (code - low + 1) * m.total ≤ (high - low + 1) * m.total := Nat.mul_le_mul_right _ (by omega)
  have hpos : 0 < (code - low + 1) * m.total := Nat.mul_pos (by omega) ht
  rw [Nat.mul_comm m.total]
  omega

omit hc in
/-- `q >= k` exactly when the code is at or above the bound NARROW computes from `k` (41_range_arith.md R150). -/
theorem le_scaledCode_iff (m : Model) (low high code k : Nat) (h1 : low ≤ code) (ht : 0 < m.total) :
    k ≤ scaledCode m low high code ↔ low + (high - low + 1) * k / m.total ≤ code := by
  unfold scaledCode
  have hpos : 0 < (code - low + 1) * m.total := Nat.mul_pos (by omega) ht
  rw [Nat.le_div_iff_mul_le (by omega)]
  have : low + (high - low + 1) * k / m.total ≤ code ↔ (high - low + 1) * k / m.total < code - low + 1 := by omega
  rw [this, Nat.div_lt_iff_lt_mul ht, Nat.mul_comm k]
  omega

omit hc in
/-- The symbol looked up is the one whose narrowed interval holds the code (41_range_arith.md R150). -/
theorem narrow_holds_code (m : Model) (low high code s : Nat) (h1 : low ≤ code) (ht : 0 < m.total)
    (hs1 : m.entry s ≤ scaledCode m low high code) (hs2 : scaledCode m low high code < m.entry (s + 1)) :
    (narrow m s low high).low ≤ code ∧ code ≤ (narrow m s low high).high := by
  have a1 := (le_scaledCode_iff m low high code _ h1 ht).1 hs1
  have a2 := mt (le_scaledCode_iff m low high code _ h1 ht).2 (by omega : ¬ m.entry (s + 1) ≤ scaledCode m low high code)
  unfold narrow Model.freqHigh Model.freqLow
  simp only
  omega

end

end Machine

end Sys2Proof
end

