-- ==== Sys2Proof/Laws/State.lean ====
section
/-! SUPPORT. One lemma per field of the state per named update, each by definition. -/

namespace Sys2Proof.Machine

variable (s : State)

section
variable (x y : Enc)

@[simp] theorem State.withEnc_cfg : (s.withEnc x).cfg = s.cfg := rfl
@[simp] theorem State.withEnc_enc : (s.withEnc x).enc = x := rfl
@[simp] theorem State.withEnc_dec : (s.withEnc x).dec = s.dec := rfl
@[simp] theorem State.withEnc_rst : (s.withEnc x).rst = s.rst := rfl
@[simp] theorem State.withEnc_writer : (s.withEnc x).writer = s.writer := rfl
@[simp] theorem State.withEnc_reader : (s.withEnc x).reader = s.reader := rfl
@[simp] theorem State.withEnc_inputs : (s.withEnc x).inputs = s.inputs := rfl
@[simp] theorem State.withEnc_delivered : (s.withEnc x).delivered = s.delivered := rfl
@[simp] theorem State.withEnc_withEnc : (s.withEnc x).withEnc y = s.withEnc y := rfl
@[simp] theorem State.withEnc_self : s.withEnc s.enc = s := rfl

end

section
variable (x y : Dec)

@[simp] theorem State.withDec_cfg : (s.withDec x).cfg = s.cfg := rfl
@[simp] theorem State.withDec_enc : (s.withDec x).enc = s.enc := rfl
@[simp] theorem State.withDec_dec : (s.withDec x).dec = x := rfl
@[simp] theorem State.withDec_rst : (s.withDec x).rst = s.rst := rfl
@[simp] theorem State.withDec_writer : (s.withDec x).writer = s.writer := rfl
@[simp] theorem State.withDec_reader : (s.withDec x).reader = s.reader := rfl
@[simp] theorem State.withDec_inputs : (s.withDec x).inputs = s.inputs := rfl
@[simp] theorem State.withDec_delivered : (s.withDec x).delivered = s.delivered := rfl
@[simp] theorem State.withDec_withDec : (s.withDec x).withDec y = s.withDec y := rfl
@[simp] theorem State.withDec_self : s.withDec s.dec = s := rfl

end

section
variable (x y : Writer)

@[simp] theorem State.withWriter_cfg : (s.withWriter x).cfg = s.cfg := rfl
@[simp] theorem State.withWriter_enc : (s.withWriter x).enc = s.enc := rfl
@[simp] theorem State.withWriter_dec : (s.withWriter x).dec = s.dec := rfl
@[simp] theorem State.withWriter_rst : (s.withWriter x).rst = s.rst := rfl
@[simp] theorem State.withWriter_writer : (s.withWriter x).writer = x := rfl
@[simp] theorem State.withWriter_reader : (s.withWriter x).reader = s.reader := rfl
@[simp] theorem State.withWriter_inputs : (s.withWriter x).inputs = s.inputs := rfl
@[simp] theorem State.withWriter_delivered : (s.withWriter x).delivered = s.delivered := rfl
@[simp] theorem State.withWriter_withWriter : (s.withWriter x).withWriter y = s.withWriter y := rfl
@[simp] theorem State.withWriter_self : s.withWriter s.writer = s := rfl

end

section
variable (x y : Reader)

@[simp] theorem State.withReader_cfg : (s.withReader x).cfg = s.cfg := rfl
@[simp] theorem State.withReader_enc : (s.withReader x).enc = s.enc := rfl
@[simp] theorem State.withReader_dec : (s.withReader x).dec = s.dec := rfl
@[simp] theorem State.withReader_rst : (s.withReader x).rst = s.rst := rfl
@[simp] theorem State.withReader_writer : (s.withReader x).writer = s.writer := rfl
@[simp] theorem State.withReader_reader : (s.withReader x).reader = x := rfl
@[simp] theorem State.withReader_inputs : (s.withReader x).inputs = s.inputs := rfl
@[simp] theorem State.withReader_delivered : (s.withReader x).delivered = s.delivered := rfl
@[simp] theorem State.withReader_withReader : (s.withReader x).withReader y = s.withReader y := rfl
@[simp] theorem State.withReader_self : s.withReader s.reader = s := rfl

end

section
variable (x y : Bool)

@[simp] theorem State.withRst_cfg : (s.withRst x).cfg = s.cfg := rfl
@[simp] theorem State.withRst_enc : (s.withRst x).enc = s.enc := rfl
@[simp] theorem State.withRst_dec : (s.withRst x).dec = s.dec := rfl
@[simp] theorem State.withRst_rst : (s.withRst x).rst = x := rfl
@[simp] theorem State.withRst_writer : (s.withRst x).writer = s.writer := rfl
@[simp] theorem State.withRst_reader : (s.withRst x).reader = s.reader := rfl
@[simp] theorem State.withRst_inputs : (s.withRst x).inputs = s.inputs := rfl
@[simp] theorem State.withRst_delivered : (s.withRst x).delivered = s.delivered := rfl
@[simp] theorem State.withRst_withRst : (s.withRst x).withRst y = s.withRst y := rfl
@[simp] theorem State.withRst_self : s.withRst s.rst = s := rfl

end

section
variable (x y : List HostEvent)

@[simp] theorem State.withInputs_cfg : (s.withInputs x).cfg = s.cfg := rfl
@[simp] theorem State.withInputs_enc : (s.withInputs x).enc = s.enc := rfl
@[simp] theorem State.withInputs_dec : (s.withInputs x).dec = s.dec := rfl
@[simp] theorem State.withInputs_rst : (s.withInputs x).rst = s.rst := rfl
@[simp] theorem State.withInputs_writer : (s.withInputs x).writer = s.writer := rfl
@[simp] theorem State.withInputs_reader : (s.withInputs x).reader = s.reader := rfl
@[simp] theorem State.withInputs_inputs : (s.withInputs x).inputs = x := rfl
@[simp] theorem State.withInputs_delivered : (s.withInputs x).delivered = s.delivered := rfl
@[simp] theorem State.withInputs_withInputs : (s.withInputs x).withInputs y = s.withInputs y := rfl
@[simp] theorem State.withInputs_self : s.withInputs s.inputs = s := rfl

end

section
variable (x y : List (Half × Response))

@[simp] theorem State.withDelivered_cfg : (s.withDelivered x).cfg = s.cfg := rfl
@[simp] theorem State.withDelivered_enc : (s.withDelivered x).enc = s.enc := rfl
@[simp] theorem State.withDelivered_dec : (s.withDelivered x).dec = s.dec := rfl
@[simp] theorem State.withDelivered_rst : (s.withDelivered x).rst = s.rst := rfl
@[simp] theorem State.withDelivered_writer : (s.withDelivered x).writer = s.writer := rfl
@[simp] theorem State.withDelivered_reader : (s.withDelivered x).reader = s.reader := rfl
@[simp] theorem State.withDelivered_inputs : (s.withDelivered x).inputs = s.inputs := rfl
@[simp] theorem State.withDelivered_delivered : (s.withDelivered x).delivered = x := rfl
@[simp] theorem State.withDelivered_withDelivered : (s.withDelivered x).withDelivered y = s.withDelivered y := rfl
@[simp] theorem State.withDelivered_self : s.withDelivered s.delivered = s := rfl

end

section
variable (e : Enc) (k k2 : Ctl)

@[simp] theorem Enc.withCtl_ctl : (e.withCtl k).ctl = k := rfl
@[simp] theorem Enc.withCtl_mode : (e.withCtl k).mode = e.mode := rfl
@[simp] theorem Enc.withCtl_low : (e.withCtl k).low = e.low := rfl
@[simp] theorem Enc.withCtl_high : (e.withCtl k).high = e.high := rfl
@[simp] theorem Enc.withCtl_underflow : (e.withCtl k).underflow = e.underflow := rfl
@[simp] theorem Enc.withCtl_tmpRange : (e.withCtl k).tmpRange = e.tmpRange := rfl
@[simp] theorem Enc.withCtl_model : (e.withCtl k).model = e.model := rfl
@[simp] theorem Enc.withCtl_slots : (e.withCtl k).slots = e.slots := rfl
@[simp] theorem Enc.withCtl_draws : (e.withCtl k).draws = e.draws := rfl
@[simp] theorem Enc.withCtl_withCtl : (e.withCtl k).withCtl k2 = e.withCtl k2 := rfl

end

section
variable (d : Dec) (k k2 : Ctl)

@[simp] theorem Dec.withCtl_ctl : (d.withCtl k).ctl = k := rfl
@[simp] theorem Dec.withCtl_mode : (d.withCtl k).mode = d.mode := rfl
@[simp] theorem Dec.withCtl_low : (d.withCtl k).low = d.low := rfl
@[simp] theorem Dec.withCtl_high : (d.withCtl k).high = d.high := rfl
@[simp] theorem Dec.withCtl_code : (d.withCtl k).code = d.code := rfl
@[simp] theorem Dec.withCtl_tmpRange : (d.withCtl k).tmpRange = d.tmpRange := rfl
@[simp] theorem Dec.withCtl_model : (d.withCtl k).model = d.model := rfl
@[simp] theorem Dec.withCtl_slots : (d.withCtl k).slots = d.slots := rfl
@[simp] theorem Dec.withCtl_draws : (d.withCtl k).draws = d.draws := rfl
@[simp] theorem Dec.withCtl_withCtl : (d.withCtl k).withCtl k2 = d.withCtl k2 := rfl

end

/-- The reset state of a configuration is the reset of both units. -/
@[simp] theorem State.resetIn_enc (c : Config) : (State.resetIn c).enc = Enc.reset c 0 := rfl
@[simp] theorem State.resetIn_dec (c : Config) : (State.resetIn c).dec = Dec.reset c 0 := rfl
@[simp] theorem State.resetIn_cfg (c : Config) : (State.resetIn c).cfg = c := rfl
@[simp] theorem State.resetIn_rst (c : Config) : (State.resetIn c).rst = false := rfl

end Sys2Proof.Machine
end

