-- ==== Sys2Proof/Laws/Streams.lean ====
section
/-! SUPPORT. What a run of beats of the two bit ports does (20_memory.md R56 to R63). -/

namespace Sys2Proof.Machine

namespace Writer

@[simp] theorem store_bound (w : Writer) (b : Bool) : (w.store b).bound = w.bound := rfl
@[simp] theorem store_script (w : Writer) (b : Bool) : (w.store b).script = w.script := rfl
@[simp] theorem store_after (w : Writer) (b : Bool) : (w.store b).after = w.after := rfl
@[simp] theorem store_accepted (w : Writer) (b : Bool) : (w.store b).accepted = w.accepted ++ [b] := rfl

theorem answer_eq (w : Writer) :
    w.answer = (if w.bound then w.script.headD w.after else .never,
      { w with script := if w.bound then w.script.tail else w.script }) := by
  unfold answer
  split
  · split
    · rename_i h; cases w; simp_all
    · rename_i a l h; simp [h]
  · rfl

/-- A detached writer completes no beat (70_reset_and_hazards.md R268). -/
theorem answer_detached (w : Writer) (h : w.bound = false) : w.answer = (.never, w) := by simp [answer, h]

@[simp] theorem answer_accepted (w : Writer) : w.answer.2.accepted = w.accepted := by rw [answer_eq]
@[simp] theorem answer_bound (w : Writer) : w.answer.2.bound = w.bound := by rw [answer_eq]
@[simp] theorem answer_after (w : Writer) : w.answer.2.after = w.after := by rw [answer_eq]

/-- One bit of `emitAll`, by the answer to its beat. -/
theorem emitAll_cons (b : Bool) (bs : List Bool) (w : Writer) :
    emitAll (b :: bs) w =
      match w.answer with
      | (.accept, w') => emitAll bs (w'.store b)
      | (.error, w') => (.error, w')
      | (.never, w') => (.stuck b, w') := rfl

/-- A run of emits to a detached writer waits at its first bit, and nothing has happened. -/
theorem emitAll_detached (b : Bool) (bs : List Bool) (w : Writer) (h : w.bound = false) : emitAll (b :: bs) w = (.stuck b, w) := by
  rw [emitAll_cons, answer_detached w h]

/-- What a run of emits can do: the strap and the script's tail rule stay, a prefix of the bits is accepted in order, all of them
when it ends well, and a strict prefix otherwise (20_memory.md R56, R63). -/
theorem emitAll_cases (l : List Bool) (w : Writer) :
    (emitAll l w).2.bound = w.bound ∧ (emitAll l w).2.after = w.after ∧
      ∃ k ≤ l.length, (emitAll l w).2.accepted = w.accepted ++ l.take k ∧
        ((emitAll l w).1 = .done → k = l.length) ∧ ((emitAll l w).1 ≠ .done → k < l.length) := by
  induction l generalizing w with
  | nil => exact ⟨rfl, rfl, 0, le_rfl, by simp [emitAll], fun _ => rfl, fun h => absurd rfl h⟩
  | cons b bs ih =>
    have hb := answer_bound w
    have ha := answer_after w
    have hc := answer_accepted w
    rw [emitAll_cons]
    rcases hw : w.answer with ⟨a, w'⟩
    rw [hw] at hb ha hc
    simp only at hb ha hc
    cases a with
    | accept =>
      obtain ⟨h1, h2, k, hk, h3, h4, h5⟩ := ih (w'.store b)
      refine ⟨by rw [h1, store_bound, hb], by rw [h2, store_after, ha], k + 1, by simpa using hk, ?_, ?_, ?_⟩
      · simp [h3, hc]
      · intro h; rw [h4 h]; rfl
      · intro h; simpa using h5 h
    | error => exact ⟨hb, ha, 0, by simp, by simp [hc], by simp, by simp⟩
    | never => exact ⟨hb, ha, 0, by simp, by simp [hc], by simp, by simp⟩

theorem Accepting.answer {w : Writer} (h : w.Accepting) : w.answer.1 = .accept ∧ w.answer.2.Accepting := by
  obtain ⟨h0, h1, h2⟩ := h
  unfold Writer.answer
  rw [if_pos h0]
  split
  · exact ⟨h1, h0, h1, h2⟩
  · rename_i a l hl
    rw [hl] at h2
    exact ⟨h2 a (by simp), h0, h1, fun x hx => h2 x (by simp [hx])⟩

theorem Accepting.store {w : Writer} (h : w.Accepting) (b : Bool) : (w.store b).Accepting := h

/-- An accepting writer takes every bit, and goes on accepting. -/
theorem Accepting.emitAll {w : Writer} (h : w.Accepting) (l : List Bool) :
    (emitAll l w).1 = .done ∧ (emitAll l w).2.Accepting := by
  induction l generalizing w with
  | nil => exact ⟨rfl, h⟩
  | cons b bs ih =>
    obtain ⟨h1, h2⟩ := h.answer
    rw [emitAll_cons]
    rcases hw : w.answer with ⟨a, w'⟩
    rw [hw] at h1 h2
    simp only at h1 h2
    subst h1
    exact ih (h2.store b)

/-- `write(value, nbits)` is its bits most significant first (20_memory.md R58). -/
theorem fieldBits_length (value n : Nat) : (fieldBits value n).length = n := by
  induction n with
  | zero => rfl
  | succ n ih => simp [fieldBits, ih]

end Writer

namespace Reader

@[simp] theorem consume_bound (r : Reader) (b : Bool) : (r.consume b).bound = r.bound := rfl
@[simp] theorem consume_script (r : Reader) (b : Bool) : (r.consume b).script = r.script := rfl
@[simp] theorem consume_after (r : Reader) (b : Bool) : (r.consume b).after = r.after := rfl
@[simp] theorem consume_taken (r : Reader) (b : Bool) : (r.consume b).taken = r.taken ++ [b] := rfl

theorem answer_eq (r : Reader) :
    r.answer = (if r.bound then r.script.headD r.after else .never,
      { r with script := if r.bound then r.script.tail else r.script }) := by
  unfold answer
  split
  · split
    · rename_i h; cases r; simp_all
    · rename_i a l h; simp [h]
  · rfl

/-- A detached reader completes no beat (70_reset_and_hazards.md R268). -/
theorem answer_detached (r : Reader) (h : r.bound = false) : r.answer = (.never, r) := by simp [answer, h]

@[simp] theorem answer_taken (r : Reader) : r.answer.2.taken = r.taken := by rw [answer_eq]
@[simp] theorem answer_bound (r : Reader) : r.answer.2.bound = r.bound := by rw [answer_eq]
@[simp] theorem answer_after (r : Reader) : r.answer.2.after = r.after := by rw [answer_eq]

theorem takeField_succ (k v : Nat) (r : Reader) :
    takeField (k + 1) v r =
      match r.answer with
      | (.bit b, r') => takeField k (v <<< 1 ||| b.toNat) (r'.consume b)
      | (.error, r') => (.error, v, r')
      | (.never, r') => (.stuck false, v, r') := rfl

/-- A bit string as a number, first bit most significant, continued from `v` (20_memory.md R61). -/
def valueOf (v : Nat) (bs : List Bool) : Nat := bs.foldl (fun a b => a <<< 1 ||| b.toNat) v

/-- What a run of takes can do: the bits taken are appended in order, as many as asked when it ends well and fewer otherwise, and
the value is theirs (20_memory.md R59, R61, R63). -/
theorem takeField_cases (k v : Nat) (r : Reader) :
    (takeField k v r).2.2.bound = r.bound ∧ (takeField k v r).2.2.after = r.after ∧
      ∃ bs : List Bool, (takeField k v r).2.2.taken = r.taken ++ bs ∧ (takeField k v r).2.1 = valueOf v bs ∧
        ((takeField k v r).1 = .done → bs.length = k) ∧ ((takeField k v r).1 ≠ .done → bs.length < k) := by
  induction k generalizing v r with
  | zero => exact ⟨rfl, rfl, [], by simp [takeField], rfl, fun _ => rfl, fun h => absurd rfl h⟩
  | succ k ih =>
    have hb := answer_bound r
    have ha := answer_after r
    have hc := answer_taken r
    rw [takeField_succ]
    rcases hr : r.answer with ⟨a, r'⟩
    rw [hr] at hb ha hc
    simp only at hb ha hc
    cases a with
    | bit b =>
      obtain ⟨h1, h2, bs, h3, h4, h5, h6⟩ := ih (v <<< 1 ||| b.toNat) (r'.consume b)
      refine ⟨by rw [h1, consume_bound, hb], by rw [h2, consume_after, ha], b :: bs, ?_, ?_, ?_, ?_⟩
      · simp [h3, hc]
      · simpa [valueOf] using h4
      · intro h; simp [h5 h]
      · intro h; simpa using h6 h
    | error => exact ⟨hb, ha, [], by simp [hc], rfl, by simp, by simp⟩
    | never => exact ⟨hb, ha, [], by simp [hc], rfl, by simp, by simp⟩

theorem Supplying.answer {r : Reader} (h : r.Supplying) : (∃ b, r.answer.1 = .bit b) ∧ r.answer.2.Supplying := by
  obtain ⟨h0, h1, h2⟩ := h
  unfold Reader.answer
  rw [if_pos h0]
  split
  · exact ⟨h1, h0, h1, h2⟩
  · rename_i a l hl
    rw [hl] at h2
    exact ⟨h2 a (by simp), h0, h1, fun x hx => h2 x (by simp [hx])⟩

theorem Supplying.consume {r : Reader} (h : r.Supplying) (b : Bool) : (r.consume b).Supplying := h

/-- A supplying reader answers every request, and goes on supplying. -/
theorem Supplying.takeField {r : Reader} (h : r.Supplying) (k v : Nat) :
    (takeField k v r).1 = .done ∧ (takeField k v r).2.2.Supplying := by
  induction k generalizing v r with
  | zero => exact ⟨rfl, h⟩
  | succ k ih =>
    obtain ⟨⟨b, h1⟩, h2⟩ := h.answer
    rw [takeField_succ]
    rcases hr : r.answer with ⟨a, r'⟩
    rw [hr] at h1 h2
    simp only at h1 h2
    subst h1
    exact ih (h2.consume b) _

end Reader

end Sys2Proof.Machine
end

