-- ==== Sys2Proof/Laws/Ops.lean ====
section
/-! SUPPORT. What the shared operations do: the response and error operations, and everything the renormalisation loops of the two
units can do (41_range_arith.md R142 to R153). -/

namespace Sys2Proof.Machine

/-! ### Responses and errors -/

@[simp] theorem respondEnc_enc (d : Nat) (s : State) :
    (respondEnc d s).enc = s.enc.withCtl (.responding { status := .ok, data := BitVec.ofNat 64 d }) := rfl
@[simp] theorem respondEnc_dec (d : Nat) (s : State) : (respondEnc d s).dec = s.dec := rfl
@[simp] theorem respondEnc_cfg (d : Nat) (s : State) : (respondEnc d s).cfg = s.cfg := rfl
@[simp] theorem respondEnc_rst (d : Nat) (s : State) : (respondEnc d s).rst = s.rst := rfl
@[simp] theorem respondEnc_writer (d : Nat) (s : State) : (respondEnc d s).writer = s.writer := rfl
@[simp] theorem respondEnc_reader (d : Nat) (s : State) : (respondEnc d s).reader = s.reader := rfl
@[simp] theorem respondEnc_inputs (d : Nat) (s : State) : (respondEnc d s).inputs = s.inputs := rfl
@[simp] theorem respondEnc_delivered (d : Nat) (s : State) : (respondEnc d s).delivered = s.delivered := rfl

@[simp] theorem respondDec_enc (d : Nat) (s : State) : (respondDec d s).enc = s.enc := rfl
@[simp] theorem respondDec_dec (d : Nat) (s : State) :
    (respondDec d s).dec = s.dec.withCtl (.responding { status := .ok, data := BitVec.ofNat 64 d }) := rfl
@[simp] theorem respondDec_cfg (d : Nat) (s : State) : (respondDec d s).cfg = s.cfg := rfl
@[simp] theorem respondDec_rst (d : Nat) (s : State) : (respondDec d s).rst = s.rst := rfl
@[simp] theorem respondDec_writer (d : Nat) (s : State) : (respondDec d s).writer = s.writer := rfl
@[simp] theorem respondDec_reader (d : Nat) (s : State) : (respondDec d s).reader = s.reader := rfl
@[simp] theorem respondDec_inputs (d : Nat) (s : State) : (respondDec d s).inputs = s.inputs := rfl
@[simp] theorem respondDec_delivered (d : Nat) (s : State) : (respondDec d s).delivered = s.delivered := rfl

@[simp] theorem raise_enc_enc (st : Status) (s : State) :
    (raise .enc st s).enc = { s.enc with mode := modeAfter st s.enc.mode, ctl := .responding { status := st, data := 0 } } := rfl
@[simp] theorem raise_enc_dec (st : Status) (s : State) : (raise .enc st s).dec = s.dec := rfl
@[simp] theorem raise_dec_enc (st : Status) (s : State) : (raise .dec st s).enc = s.enc := rfl
@[simp] theorem raise_dec_dec (st : Status) (s : State) :
    (raise .dec st s).dec = { s.dec with mode := modeAfter st s.dec.mode, ctl := .responding { status := st, data := 0 } } := rfl
@[simp] theorem raise_cfg (u : Half) (st : Status) (s : State) : (raise u st s).cfg = s.cfg := by cases u <;> rfl
@[simp] theorem raise_rst (u : Half) (st : Status) (s : State) : (raise u st s).rst = s.rst := by cases u <;> rfl
@[simp] theorem raise_writer (u : Half) (st : Status) (s : State) : (raise u st s).writer = s.writer := by cases u <;> rfl
@[simp] theorem raise_reader (u : Half) (st : Status) (s : State) : (raise u st s).reader = s.reader := by cases u <;> rfl
@[simp] theorem raise_inputs (u : Half) (st : Status) (s : State) : (raise u st s).inputs = s.inputs := by cases u <;> rfl
@[simp] theorem raise_delivered (u : Half) (st : Status) (s : State) : (raise u st s).delivered = s.delivered := by
  cases u <;> rfl

@[simp] theorem stallEnc_enc (cmd : EncBeatCommand) (b : Bool) (s : State) :
    (stallEnc cmd b s).enc = s.enc.withCtl (encStallCtl cmd b s.writer.bound) := rfl
@[simp] theorem stallEnc_dec (cmd : EncBeatCommand) (b : Bool) (s : State) : (stallEnc cmd b s).dec = s.dec := rfl
@[simp] theorem stallEnc_cfg (cmd : EncBeatCommand) (b : Bool) (s : State) : (stallEnc cmd b s).cfg = s.cfg := rfl
@[simp] theorem stallEnc_rst (cmd : EncBeatCommand) (b : Bool) (s : State) : (stallEnc cmd b s).rst = s.rst := rfl
@[simp] theorem stallEnc_writer (cmd : EncBeatCommand) (b : Bool) (s : State) : (stallEnc cmd b s).writer = s.writer := rfl
@[simp] theorem stallEnc_reader (cmd : EncBeatCommand) (b : Bool) (s : State) : (stallEnc cmd b s).reader = s.reader := rfl
@[simp] theorem stallEnc_inputs (cmd : EncBeatCommand) (b : Bool) (s : State) : (stallEnc cmd b s).inputs = s.inputs := rfl
@[simp] theorem stallEnc_delivered (cmd : EncBeatCommand) (b : Bool) (s : State) : (stallEnc cmd b s).delivered = s.delivered := rfl

@[simp] theorem encStallCtl_attached (cmd : EncBeatCommand) (b : Bool) : encStallCtl cmd b true = .offering b := rfl
@[simp] theorem encStallCtl_detached (cmd : EncBeatCommand) (b : Bool) : encStallCtl cmd b false = .offeringDetached b cmd := rfl
@[simp] theorem decStallCtl_attached : decStallCtl true = .requesting := rfl
@[simp] theorem decStallCtl_detached : decStallCtl false = .requestingDetached := rfl

/-- A unit inside a command is neither ready nor responding, and at its own port. -/
theorem encStallCtl_ne (cmd : EncBeatCommand) (b bound : Bool) :
    encStallCtl cmd b bound ≠ .ready ∧ (∀ r, encStallCtl cmd b bound ≠ .responding r) ∧
      encStallCtl cmd b bound ≠ .requesting ∧ encStallCtl cmd b bound ≠ .requestingDetached := by
  cases bound <;> simp

theorem decStallCtl_ne (bound : Bool) :
    decStallCtl bound ≠ .ready ∧ (∀ r, decStallCtl bound ≠ .responding r) ∧
      ∀ b, decStallCtl bound ≠ .offering b ∧ ∀ cmd, decStallCtl bound ≠ .offeringDetached b cmd := by
  cases bound <;> simp

@[simp] theorem stallDec_enc (s : State) : (stallDec s).enc = s.enc := rfl
@[simp] theorem stallDec_dec (s : State) : (stallDec s).dec = s.dec.withCtl (decStallCtl s.reader.bound) := rfl
@[simp] theorem stallDec_cfg (s : State) : (stallDec s).cfg = s.cfg := rfl
@[simp] theorem stallDec_rst (s : State) : (stallDec s).rst = s.rst := rfl
@[simp] theorem stallDec_writer (s : State) : (stallDec s).writer = s.writer := rfl
@[simp] theorem stallDec_reader (s : State) : (stallDec s).reader = s.reader := rfl
@[simp] theorem stallDec_inputs (s : State) : (stallDec s).inputs = s.inputs := rfl
@[simp] theorem stallDec_delivered (s : State) : (stallDec s).delivered = s.delivered := rfl

/-- A refusal keeps the mode (60_exceptions.md R224). -/
theorem modeAfter_refusal (st : Status) (m : Mode) (h : st.isRefusal = true) : modeAfter st m = m := by
  cases st <;> simp_all [modeAfter, Status.isFault, Status.isRefusal]

/-- A fault enters FAULT (60_exceptions.md R225). -/
theorem modeAfter_fault (st : Status) (m : Mode) (h : st.isFault = true) : modeAfter st m = .fault := by
  simp [modeAfter, h]

/-! ### The loop of ENC -/

namespace EncRun

/-- One MSB_EQ step of the loop. -/
theorem renorm_msbEq (c : Config) (emits : Bool) (fuel : Nat) (r : EncRun) (hk : classify c r.low r.high = .msbEq) :
    renorm c emits (fuel + 1) r =
      match r.msbStep c emits with
      | (.done, w) => renorm c emits fuel ((r.settle w).shift c)
      | (.error, w) => (.raised .streamFault, { r with writer := w })
      | (.stuck b, w) => (.stuck b, { r with writer := w }) := by
  rw [renorm, hk] <;> rfl

/-- One E3 step of the loop. -/
theorem renorm_e3 (c : Config) (emits : Bool) (fuel : Nat) (r : EncRun) (hk : classify c r.low r.high = .e3) :
    renorm c emits (fuel + 1) r =
      if r.underflow = c.underflowMax then (.raised .counterOverflow, r)
      else renorm c emits fuel ((r.defer c).shift c) := by
  rw [renorm, hk]

/-- The loop stops at EXIT. -/
theorem renorm_exit (c : Config) (emits : Bool) (fuel : Nat) (r : EncRun) (hk : classify c r.low r.high = .exit) :
    renorm c emits (fuel + 1) r = (.exit, r) := by
  rw [renorm, hk]

/-- What an MSB_EQ step does to the writer: nothing for ENC.EST; for ENC.SYM a prefix of the step's bits is accepted, all of them
when the step ends well. -/
theorem msbStep_cases (c : Config) (emits : Bool) (r : EncRun) :
    (r.msbStep c emits).2.bound = r.writer.bound ∧ (r.msbStep c emits).2.after = r.writer.after ∧
      ∃ bits : List Bool, (r.msbStep c emits).2.accepted = r.writer.accepted ++ bits ∧
        ((r.msbStep c emits).1 = .done → bits = if emits then r.msbBits c else []) ∧
        (emits = false → r.msbStep c emits = (.done, r.writer)) := by
  unfold msbStep
  cases emits with
  | false => exact ⟨rfl, rfl, [], by simp, by simp, fun _ => rfl⟩
  | true =>
    obtain ⟨h1, h2, k, _, h3, h4, _⟩ := Writer.emitAll_cases (r.msbBits c) r.writer
    simp only [↓reduceIte]
    refine ⟨h1, h2, _, h3, ?_, by simp⟩
    intro hd
    rw [h4 hd, List.take_length]

/-- The registers after a step of the loop that goes on, MSB_EQ or E3, satisfy the loop's invariant: the interval stays in the
window, its width doubles (41_range_arith.md R147). -/
theorem shift_step {c : Config} (hc : c.Valid) (low high : Nat) (hl : low ≤ high) (hh : high < 2 ^ c.w) :
    (classify c low high = .msbEq →
      shiftLow c low ≤ shiftHigh c high ∧ shiftHigh c high < 2 ^ c.w ∧
        shiftHigh c high - shiftLow c low + 1 = 2 * (high - low + 1)) ∧
    (classify c low high = .e3 →
      shiftLow c (e3Low c low) ≤ shiftHigh c (e3High c high) ∧ shiftHigh c (e3High c high) < 2 ^ c.w ∧
        shiftHigh c (e3High c high) - shiftLow c (e3Low c low) + 1 = 2 * (high - low + 1)) := by
  have a2 := hc.two_hiBit
  have a1 := hc.two_lowBit
  constructor
  · intro hk
    obtain ⟨o, ho, h1, h2, -⟩ := shift_msbEq hc low high hl hh hk
    rw [h1, h2]
    omega
  · intro hk
    obtain ⟨⟨b1, b2⟩, b3, b4⟩ := (classify_e3_iff hc low high hl hh).1 hk
    obtain ⟨h1, h2, -⟩ := shift_e3 hc low high hl hh hk
    unfold Config.threeQuarter at b4
    rw [h1, h2]
    omega

/-- Everything the loop leaves when it ends at EXIT: a legal interval (41_range_arith.md R147, R149), `underflow` within its width
(10_state.md R26), and the count no more than the pending bits and the shifts allow (R152). -/
theorem renorm_exit_inv {c : Config} (hc : c.Valid) (emits : Bool) (fuel : Nat) (r r' : EncRun)
    (hl : r.low ≤ r.high) (hh : r.high < 2 ^ c.w) (hu : r.underflow ≤ c.underflowMax)
    (hf : 2 ^ c.w ≤ (r.high - r.low + 1) * 2 ^ fuel) (he : renorm c emits fuel r = (.exit, r')) :
    IntervalOk c r'.low r'.high ∧ r'.underflow ≤ c.underflowMax ∧ r.count ≤ r'.count ∧
      r'.count + r'.underflow ≤ r.count + r.underflow + fuel := by
  induction fuel generalizing r with
  | zero =>
    obtain rfl : r = r' := by simpa [renorm] using he
    have hw : r.low = 0 ∧ r.high = c.windowMask := by unfold Config.windowMask; rw [pow_zero] at hf; omega
    refine ⟨?_, hu, le_rfl, by omega⟩
    rw [hw.1, hw.2]
    exact init_interval hc
  | succ fuel ih =>
    cases hk : classify c r.low r.high with
    | exit =>
      rw [renorm_exit _ _ _ _ hk] at he
      obtain rfl : r = r' := by simpa using he
      exact ⟨(classify_exit_iff hc _ _ hl hh).1 hk, hu, le_rfl, by omega⟩
    | e3 =>
      rw [renorm_e3 _ _ _ _ hk] at he
      split at he
      · simp at he
      · rename_i hne
        obtain ⟨s1, s2, s3⟩ := (shift_step hc _ _ hl hh).2 hk
        have := ih ((r.defer c).shift c) s1 s2 (by simp only [shift, defer]; omega) (by
          simp only [shift, defer]
          rw [s3]
          calc 2 ^ c.w ≤ _ := hf
            _ = 2 * (r.high - r.low + 1) * 2 ^ fuel := by rw [pow_succ]; ring) he
        simp only [shift, defer] at this
        exact ⟨this.1, this.2.1, this.2.2.1, by omega⟩
    | msbEq =>
      rw [renorm_msbEq _ _ _ _ hk] at he
      rcases hm : r.msbStep c emits with ⟨e, w⟩
      rw [hm] at he
      cases e with
      | error => simp at he
      | stuck b => simp at he
      | done =>
        obtain ⟨s1, s2, s3⟩ := (shift_step hc _ _ hl hh).1 hk
        have := ih ((r.settle w).shift c) s1 s2 (by simp [shift, settle]) (by
          simp only [shift, settle]
          rw [s3]
          calc 2 ^ c.w ≤ _ := hf
            _ = 2 * (r.high - r.low + 1) * 2 ^ fuel := by rw [pow_succ]; ring) he
        simp only [shift, settle] at this
        exact ⟨this.1, this.2.1, by omega, by omega⟩

/-- Whatever way the loop ends: the writer's strap and rule stay, what it accepted is kept and extended, by exactly `count` bits
when ENC.SYM's loop ends at EXIT, by nothing for ENC.EST (41_range_arith.md R143, R152; 20_memory.md R63); an error is one of the two
faults, a StreamFault or a wait only for ENC.SYM. -/
theorem renorm_cases (c : Config) (emits : Bool) (fuel : Nat) (r : EncRun) :
    (renorm c emits fuel r).2.writer.bound = r.writer.bound ∧ (renorm c emits fuel r).2.writer.after = r.writer.after ∧
      (emits = false → (renorm c emits fuel r).2.writer = r.writer) ∧
      (∃ bits : List Bool, (renorm c emits fuel r).2.writer.accepted = r.writer.accepted ++ bits ∧
        ((renorm c emits fuel r).1 = .exit → emits = true → (renorm c emits fuel r).2.count = r.count + bits.length)) ∧
      (∀ st, (renorm c emits fuel r).1 = .raised st → st = .counterOverflow ∨ st = .streamFault ∧ emits = true) ∧
      (∀ b, (renorm c emits fuel r).1 = .stuck b → emits = true) := by
  induction fuel generalizing r with
  | zero => exact ⟨rfl, rfl, fun _ => rfl, ⟨[], by simp [renorm], by simp [renorm]⟩, by simp [renorm], by simp [renorm]⟩
  | succ fuel ih =>
    cases hk : classify c r.low r.high with
    | exit =>
      rw [renorm_exit _ _ _ _ hk]
      exact ⟨rfl, rfl, fun _ => rfl, ⟨[], by simp, by simp⟩, by simp, by simp⟩
    | e3 =>
      rw [renorm_e3 _ _ _ _ hk]
      split
      · exact ⟨rfl, rfl, fun _ => rfl, ⟨[], by simp, by simp⟩, fun st h => Or.inl (by simpa using h.symm), by simp⟩
      · exact ih ((r.defer c).shift c)
    | msbEq =>
      rw [renorm_msbEq _ _ _ _ hk]
      obtain ⟨h1, h2, bits, h3, h4, h5⟩ := msbStep_cases c emits r
      rcases hm : r.msbStep c emits with ⟨e, w⟩
      rw [hm] at h1 h2 h3 h4 h5
      simp only at h1 h2 h3 h4
      have hemit : e ≠ .done → emits = true := by
        intro he
        by_contra hcon
        have := h5 (by simpa using hcon)
        simp only [Prod.mk.injEq] at this
        exact he this.1
      cases e with
      | error =>
        have := hemit (by simp)
        subst this
        exact ⟨h1, h2, by simp, ⟨bits, h3, by simp⟩, fun st h => Or.inr ⟨by simpa using h.symm, rfl⟩, by simp⟩
      | stuck b =>
        have := hemit (by simp)
        subst this
        exact ⟨h1, h2, by simp, ⟨bits, h3, by simp⟩, by simp, fun _ _ => rfl⟩
      | done =>
        obtain ⟨g1, g2, g3, ⟨bits', g4, g5⟩, g6, g7⟩ := ih ((r.settle w).shift c)
        refine ⟨by simpa [shift, settle, h1] using g1, by simpa [shift, settle, h2] using g2, ?_, ⟨bits ++ bits', ?_, ?_⟩, g6, g7⟩
        · intro hf
          rw [g3 hf]
          have := h5 hf
          simp only [Prod.mk.injEq, true_and] at this
          simpa [shift, settle] using this
        · rw [g4]; simp [shift, settle, h3]
        · intro he1 he2
          have hb := h4 rfl
          rw [if_pos he2] at hb
          rw [g5 he1 he2, hb]
          simp [shift, settle, msbBits]
          omega

/-- The loop ends at EXIT when the writer accepts every bit (or none is emitted) and `underflow` cannot reach its limit. -/
theorem renorm_completes (c : Config) (emits : Bool) (fuel : Nat) (r : EncRun) (hw : emits = true → r.writer.Accepting)
    (hu : r.underflow + fuel ≤ c.underflowMax) :
    ∃ r', renorm c emits fuel r = (.exit, r') ∧ (emits = true → r'.writer.Accepting) := by
  induction fuel generalizing r with
  | zero => exact ⟨r, rfl, hw⟩
  | succ fuel ih =>
    cases hk : classify c r.low r.high with
    | exit => exact ⟨r, renorm_exit _ _ _ _ hk, hw⟩
    | e3 =>
      rw [renorm_e3 _ _ _ _ hk, if_neg (by omega)]
      exact ih _ hw (by simp only [shift, defer]; omega)
    | msbEq =>
      have hd : (r.msbStep c emits).1 = .done ∧ (emits = true → (r.msbStep c emits).2.Accepting) := by
        unfold msbStep
        cases emits with
        | false => simp
        | true => simpa using (hw rfl).emitAll (r.msbBits c)
      rw [renorm_msbEq _ _ _ _ hk]
      rcases hm : r.msbStep c emits with ⟨e, w⟩
      rw [hm] at hd
      obtain ⟨rfl, hd2⟩ := hd
      exact ih _ hd2 (by simp only [shift, settle]; omega)

/-- The loop with a detached writer either waits at its first bit, nothing having happened to the writer, or meets no beat and ends as
it does with any writer (70_reset_and_hazards.md R268). -/
theorem renorm_detached (c : Config) (fuel : Nat) (r : EncRun) (h : r.writer.bound = false) :
    (∃ b r', renorm c true fuel r = (.stuck b, r') ∧ r'.writer = r.writer) ∨
      ∃ (e : LoopEnd) (r' : EncRun), (∀ b, e ≠ .stuck b) ∧
        ∀ w, renorm c true fuel { r with writer := w } = (e, { r' with writer := w }) := by
  induction fuel generalizing r with
  | zero => exact .inr ⟨.exit, r, nofun, fun w => rfl⟩
  | succ fuel ih =>
    cases hk : classify c r.low r.high with
    | exit => exact .inr ⟨.exit, r, nofun, fun w => renorm_exit _ _ _ _ hk⟩
    | msbEq =>
      rw [renorm_msbEq _ _ _ _ hk]
      exact .inl ⟨sharedMsb c r.high, r, by simp [msbStep, msbBits, Writer.emitAll_detached _ _ _ h], rfl⟩
    | e3 =>
      by_cases hu : r.underflow = c.underflowMax
      · exact .inr ⟨.raised .counterOverflow, r, nofun, fun w => by rw [renorm_e3 _ _ _ { r with writer := w } hk]; simp [hu]⟩
      · rcases ih ((r.defer c).shift c) h with ⟨b, r', h1, h2⟩ | ⟨e, r', h0, h1⟩
        · exact .inl ⟨b, r', by rw [renorm_e3 _ _ _ _ hk, if_neg hu]; exact h1, h2⟩
        · refine .inr ⟨e, r', h0, fun w => ?_⟩
          rw [renorm_e3 _ _ _ { r with writer := w } hk, if_neg hu]
          exact h1 w

/-- ENC.EST's loop follows ENC.SYM's: same registers, same count, no bits (42_encoder.md R164, R170). -/
theorem renorm_simulates (c : Config) (fuel : Nat) (r r' : EncRun) (w : Writer) (h : renorm c true fuel r = (.exit, r')) :
    renorm c false fuel { r with writer := w } = (.exit, { r' with writer := w }) := by
  induction fuel generalizing r with
  | zero =>
    obtain rfl : r = r' := by simpa [renorm] using h
    rfl
  | succ fuel ih =>
    cases hk : classify c r.low r.high with
    | exit =>
      rw [renorm_exit _ _ _ _ hk] at h
      obtain rfl : r = r' := by simpa using h
      exact renorm_exit _ _ _ _ hk
    | e3 =>
      rw [renorm_e3 _ _ _ _ hk] at h
      split at h
      · simp at h
      · rename_i hne
        rw [renorm_e3 _ _ _ { r with writer := w } hk, if_neg hne]
        exact ih _ h
    | msbEq =>
      rw [renorm_msbEq _ _ _ _ hk] at h
      rcases hm : r.msbStep c true with ⟨e, w1⟩
      rw [hm] at h
      cases e with
      | error => simp at h
      | stuck b => simp at h
      | done =>
        rw [renorm_msbEq _ _ _ { r with writer := w } hk]
        exact ih ((r.settle w1).shift c) h

end EncRun

/-! ### The loop of DEC -/

namespace DecRun

/-- One step of the loop that is not EXIT: the action, then SHIFT with its take beat (41_range_arith.md R145, R146). -/
theorem renorm_step (c : Config) (fuel : Nat) (r : DecRun) (hk : classify c r.low r.high ≠ .exit) :
    renorm c (fuel + 1) r =
      match r.reader.answer with
      | (.bit b, rd) => renorm c fuel (((r.act c (classify c r.low r.high)).shift c b).withReader (rd.consume b))
      | (.error, rd) => (.raised .streamFault, r.withReader rd)
      | (.never, rd) => (.stuck false, r.withReader rd) := by
  rw [renorm]
  cases h : classify c r.low r.high
  · rfl
  · rfl
  · exact absurd h hk

theorem renorm_exit (c : Config) (fuel : Nat) (r : DecRun) (hk : classify c r.low r.high = .exit) :
    renorm c (fuel + 1) r = (.exit, r) := by
  rw [renorm, hk]

/-- A step of the loop that goes on keeps the interval in the window and the code in the interval, and doubles the width
(10_state.md R36; 41_range_arith.md R147, R150). -/
theorem act_shift_step {c : Config} (hc : c.Valid) (r : DecRun) (b : Bool) (hl : r.low ≤ r.high) (hh : r.high < 2 ^ c.w)
    (h1 : r.low ≤ r.code) (h2 : r.code ≤ r.high) (hk : classify c r.low r.high ≠ .exit) :
    let r' := (r.act c (classify c r.low r.high)).shift c b
    r'.low ≤ r'.code ∧ r'.code ≤ r'.high ∧ r'.high < 2 ^ c.w ∧ r'.high - r'.low + 1 = 2 * (r.high - r.low + 1) := by
  intro r'
  obtain ⟨sm, se⟩ := EncRun.shift_step hc r.low r.high hl hh
  cases hcl : classify c r.low r.high with
  | exit => exact absurd hcl hk
  | msbEq =>
    obtain ⟨t1, t2, t3⟩ := sm hcl
    obtain ⟨o, ho, e1, e2, e3⟩ := shift_msbEq hc r.low r.high hl hh hcl
    have e3' := e3 r.code b h1 h2
    have hr : r' = r.shift c b := by simp [r', hcl, act]
    rw [hr]
    simp only [shift]
    refine ⟨?_, ?_, t2, t3⟩
    · rw [e1, e3']; omega
    · rw [e2, e3']; cases b <;> simp <;> omega
  | e3 =>
    obtain ⟨t1, t2, t3⟩ := se hcl
    obtain ⟨e1, e2, e3⟩ := shift_e3 hc r.low r.high hl hh hcl
    have e3' := e3 r.code b h1 h2
    have hr : r' = (r.defer c).shift c b := by simp [r', hcl, act]
    rw [hr]
    simp only [shift, defer]
    refine ⟨?_, ?_, t2, t3⟩
    · rw [e1, e3']; omega
    · rw [e2, e3']; cases b <;> simp <;> omega

/-- Everything the loop leaves when it ends at EXIT: a legal interval that holds the code (10_state.md R35, R36). -/
theorem renorm_exit_inv {c : Config} (hc : c.Valid) (fuel : Nat) (r r' : DecRun) (hh : r.high < 2 ^ c.w)
    (h1 : r.low ≤ r.code) (h2 : r.code ≤ r.high) (hf : 2 ^ c.w ≤ (r.high - r.low + 1) * 2 ^ fuel)
    (he : renorm c fuel r = (.exit, r')) :
    IntervalOk c r'.low r'.high ∧ r'.low ≤ r'.code ∧ r'.code ≤ r'.high := by
  induction fuel generalizing r with
  | zero =>
    obtain rfl : r = r' := by simpa [renorm] using he
    have hw : r.low = 0 ∧ r.high = c.windowMask := by unfold Config.windowMask; rw [pow_zero] at hf; omega
    refine ⟨?_, h1, h2⟩
    rw [hw.1, hw.2]
    exact init_interval hc
  | succ fuel ih =>
    by_cases hk : classify c r.low r.high = .exit
    · rw [renorm_exit _ _ _ hk] at he
      obtain rfl : r = r' := by simpa using he
      exact ⟨(classify_exit_iff hc _ _ (by omega) hh).1 hk, h1, h2⟩
    · rw [renorm_step _ _ _ hk] at he
      rcases hr : r.reader.answer with ⟨a, rd⟩
      rw [hr] at he
      cases a with
      | error => simp at he
      | never => simp at he
      | bit b =>
        obtain ⟨g1, g2, g3, g4⟩ := act_shift_step hc r b (by omega) hh h1 h2 hk
        refine ih (((r.act c (classify c r.low r.high)).shift c b).withReader (rd.consume b)) g3 g1 g2 ?_ he
        change 2 ^ c.w ≤ (((r.act c (classify c r.low r.high)).shift c b).high - ((r.act c (classify c r.low r.high)).shift c b).low + 1) * 2 ^ fuel
        rw [g4]
        calc 2 ^ c.w ≤ _ := hf
          _ = 2 * (r.high - r.low + 1) * 2 ^ fuel := by rw [pow_succ]; ring

/-- Whatever way the loop ends: the reader's strap and rule stay, at most `fuel` bits are taken, in order, and an error is a
StreamFault (20_memory.md R59, R63; 43_decoder.md R192). -/
theorem renorm_cases (c : Config) (fuel : Nat) (r : DecRun) :
    (renorm c fuel r).2.reader.bound = r.reader.bound ∧ (renorm c fuel r).2.reader.after = r.reader.after ∧
      (∃ bits : List Bool, (renorm c fuel r).2.reader.taken = r.reader.taken ++ bits ∧ bits.length ≤ fuel) ∧
      (∀ st, (renorm c fuel r).1 = .raised st → st = .streamFault) := by
  induction fuel generalizing r with
  | zero => exact ⟨rfl, rfl, ⟨[], by simp [renorm], by simp⟩, by simp [renorm]⟩
  | succ fuel ih =>
    by_cases hk : classify c r.low r.high = .exit
    · rw [renorm_exit _ _ _ hk]
      exact ⟨rfl, rfl, ⟨[], by simp, by simp⟩, by simp⟩
    · have hb := Reader.answer_bound r.reader
      have ha := Reader.answer_after r.reader
      have ht := Reader.answer_taken r.reader
      rw [renorm_step _ _ _ hk]
      rcases hr : r.reader.answer with ⟨a, rd⟩
      rw [hr] at hb ha ht
      simp only at hb ha ht
      cases a with
      | error => exact ⟨hb, ha, ⟨[], by simpa [withReader] using ht, by simp⟩, fun st h => by simpa using h.symm⟩
      | never => exact ⟨hb, ha, ⟨[], by simpa [withReader] using ht, by simp⟩, by simp⟩
      | bit b =>
        obtain ⟨g1, g2, ⟨bits, g3, g4⟩, g5⟩ :=
          ih (((r.act c (classify c r.low r.high)).shift c b).withReader (rd.consume b))
        refine ⟨by simpa [withReader, hb] using g1, by simpa [withReader, ha] using g2, ⟨b :: bits, ?_, by simpa using g4⟩, g5⟩
        rw [g3]
        simp [withReader, ht]

/-- The loop with a detached reader either waits at its first request, nothing having happened to the reader, or needs no bit and ends
as it does with any reader (70_reset_and_hazards.md R268). -/
theorem renorm_detached (c : Config) (fuel : Nat) (r : DecRun) (h : r.reader.bound = false) :
    renorm c fuel r = (.stuck false, r) ∨ ∀ rd, renorm c fuel (r.withReader rd) = (.exit, r.withReader rd) := by
  cases fuel with
  | zero => exact .inr fun rd => rfl
  | succ fuel =>
    by_cases hk : classify c r.low r.high = .exit
    · exact .inr fun rd => renorm_exit _ _ _ hk
    · exact .inl (by rw [renorm_step _ _ _ hk, Reader.answer_detached _ h]; rfl)

/-- The loop ends at EXIT when the reader answers every request. -/
theorem renorm_completes (c : Config) (fuel : Nat) (r : DecRun) (hr : r.reader.Supplying) :
    ∃ r', renorm c fuel r = (.exit, r') ∧ r'.reader.Supplying := by
  induction fuel generalizing r with
  | zero => exact ⟨r, rfl, hr⟩
  | succ fuel ih =>
    by_cases hk : classify c r.low r.high = .exit
    · exact ⟨r, renorm_exit _ _ _ hk, hr⟩
    · obtain ⟨⟨b, h1⟩, h2⟩ := hr.answer
      rw [renorm_step _ _ _ hk]
      rcases hra : r.reader.answer with ⟨a, rd⟩
      rw [hra] at h1 h2
      simp only at h1 h2
      subst h1
      exact ih _ (h2.consume b)

/-- The interval moves as the encoder's does from the same interval, step for step (43_decoder.md R198). -/
theorem renorm_mirrors (c : Config) (fuel : Nat) (r r' : DecRun) (e : EncRun) (e' : EncRun)
    (hl : r.low = e.low) (hh : r.high = e.high) (hd : renorm c fuel r = (.exit, r'))
    (he : EncRun.renorm c false fuel e = (.exit, e')) : r'.low = e'.low ∧ r'.high = e'.high := by
  induction fuel generalizing r e with
  | zero =>
    obtain rfl : r = r' := by simpa [renorm] using hd
    obtain rfl : e = e' := by simpa [EncRun.renorm] using he
    exact ⟨hl, hh⟩
  | succ fuel ih =>
    cases hk : classify c e.low e.high with
    | exit =>
      rw [renorm_exit _ _ _ (by rw [hl, hh]; exact hk)] at hd
      rw [EncRun.renorm_exit _ _ _ _ hk] at he
      obtain rfl : r = r' := by simpa using hd
      obtain rfl : e = e' := by simpa using he
      exact ⟨hl, hh⟩
    | e3 =>
      rw [renorm_step _ _ _ (by rw [hl, hh, hk]; simp)] at hd
      rw [EncRun.renorm_e3 _ _ _ _ hk] at he
      rcases hra : r.reader.answer with ⟨a, rd⟩
      rw [hra] at hd
      split at he
      · simp at he
      · cases a with
        | error => simp at hd
        | never => simp at hd
        | bit b =>
          refine ih _ _ ?_ ?_ hd he <;>
            simp [withReader, hl, hh, hk, act, shift, defer, EncRun.shift, EncRun.defer]
    | msbEq =>
      rw [renorm_step _ _ _ (by rw [hl, hh, hk]; simp)] at hd
      rw [EncRun.renorm_msbEq _ _ _ _ hk] at he
      rcases hra : r.reader.answer with ⟨a, rd⟩
      rw [hra] at hd
      cases a with
      | error => simp at hd
      | never => simp at hd
      | bit b =>
        refine ih _ _ ?_ ?_ hd he <;>
          simp [withReader, hl, hh, hk, act, shift, EncRun.shift, EncRun.settle]

end DecRun

/-- The pre-load of `W` bits fits the window (20_memory.md R61). -/
theorem valueOf_lt (bs : List Bool) (v : Nat) : Reader.valueOf v bs < (v + 1) * 2 ^ bs.length := by
  induction bs generalizing v with
  | nil => simp [Reader.valueOf]
  | cons b bs ih =>
    have h := ih (v <<< 1 ||| b.toNat)
    simp only [Reader.valueOf, List.foldl_cons, List.length_cons] at h ⊢
    refine lt_of_lt_of_le h ?_
    rw [double_or_bit, pow_succ, Nat.mul_comm _ 2, ← Nat.mul_assoc]
    exact Nat.mul_le_mul_right _ (by cases b <;> simp <;> omega)

end Sys2Proof.Machine
end

