-- ==== Sys2Proof/Laws/Encoder.lean ====
section
/-! SUPPORT. What each shared operation of the ENC commands does, and that it keeps the invariants of ENC (10_state.md R34, R35). -/

namespace Sys2Proof.Machine

section
variable (sym : Nat) (r : EncRun) (s : State) (e : Enc) (slot : EncSlot) (h : Nat)

@[simp] theorem encSymbolState_cfg : (encSymbolState sym r s).cfg = s.cfg := rfl
@[simp] theorem encSymbolState_dec : (encSymbolState sym r s).dec = s.dec := rfl
@[simp] theorem encSymbolState_rst : (encSymbolState sym r s).rst = s.rst := rfl
@[simp] theorem encSymbolState_writer : (encSymbolState sym r s).writer = r.writer := rfl
@[simp] theorem encSymbolState_reader : (encSymbolState sym r s).reader = s.reader := rfl
@[simp] theorem encSymbolState_inputs : (encSymbolState sym r s).inputs = s.inputs := rfl
@[simp] theorem encSymbolState_delivered : (encSymbolState sym r s).delivered = s.delivered := rfl
@[simp] theorem encSymbolState_ctl : (encSymbolState sym r s).enc.ctl = s.enc.ctl := rfl
@[simp] theorem encSymbolState_mode : (encSymbolState sym r s).enc.mode = s.enc.mode := rfl
@[simp] theorem encSymbolState_low : (encSymbolState sym r s).enc.low = r.low := rfl
@[simp] theorem encSymbolState_high : (encSymbolState sym r s).enc.high = r.high := rfl
@[simp] theorem encSymbolState_underflow : (encSymbolState sym r s).enc.underflow = r.underflow := rfl
@[simp] theorem encSymbolState_slots : (encSymbolState sym r s).enc.slots = s.enc.slots := rfl
@[simp] theorem encSymbolState_draws : (encSymbolState sym r s).enc.draws = s.enc.draws := rfl
@[simp] theorem encSymbolState_n : (encSymbolState sym r s).enc.model.n = s.enc.model.n := by simp [encSymbolState]
@[simp] theorem encRestored_slots : (encRestored e slot).slots = e.slots := rfl
@[simp] theorem encRestored_ctl : (encRestored e slot).ctl = e.ctl := rfl
@[simp] theorem encRestored_draws : (encRestored e slot).draws = e.draws := rfl
@[simp] theorem encFreeSlot_slots : (encFreeSlot h slot e).slots = e.slots.set h { slot with valid := false } := rfl
@[simp] theorem encFreeSlot_mode : (encFreeSlot h slot e).mode = e.mode := rfl
@[simp] theorem encFreeSlot_ctl : (encFreeSlot h slot e).ctl = e.ctl := rfl
@[simp] theorem encFreeSlot_model : (encFreeSlot h slot e).model = e.model := rfl

end

/-- The three ways a command of ENC can end: wrong mode, a failed check, its effect. -/
theorem encChecked_cases (accepted : Bool) (check : Option Status) (s : State) (effect : Host.Outcome State Fault Refusal) :
    (accepted = false ∧ encChecked accepted check s effect = .next (raise .enc .invalidState s)) ∨
      (accepted = true ∧ ∃ st, check = some st ∧ encChecked accepted check s effect = .next (raise .enc st s)) ∨
      (accepted = true ∧ check = none ∧ encChecked accepted check s effect = effect) := by
  unfold encChecked
  cases accepted with
  | false => exact Or.inl ⟨rfl, rfl⟩
  | true =>
    cases check with
    | none => exact Or.inr (Or.inr ⟨rfl, rfl, rfl⟩)
    | some st => exact Or.inr (Or.inl ⟨rfl, st, rfl, rfl⟩)

/-! ### The checks -/

theorem sizeCheck_cases (c : Config) (n : Nat) :
    (sizeCheck c n = none ↔ n < c.maxTotal ∧ n ≤ c.nmax) ∧
      ∀ st, sizeCheck c n = some st → st = .invalidArgument ∨ st = .outOfMemory := by
  unfold sizeCheck
  split_ifs <;> simp <;> omega

theorem initCheck_none {c : Config} {bound : Bool} {n : Nat} :
    initCheck c bound n = none ↔ 1 ≤ n ∧ bound = true ∧ n < c.maxTotal ∧ n ≤ c.nmax := by
  unfold initCheck
  split_ifs with h1 h2
  · simp; omega
  · simp_all
  · rw [(sizeCheck_cases c n).1]
    simp_all
    omega

theorem initCheck_some {c : Config} {bound : Bool} {n : Nat} {st : Status} (h : initCheck c bound n = some st) :
    st.isRefusal = true := by
  unfold initCheck at h
  split_ifs at h
  · cases h; rfl
  · cases h; rfl
  · rcases (sizeCheck_cases c n).2 st h with rfl | rfl <;> rfl

theorem expandCheck_none {c : Config} {m : Model} {n2 : Nat} :
    expandCheck c m n2 = none ↔ m.n < n2 ∧ n2 < c.maxTotal ∧ n2 ≤ c.nmax := by
  unfold expandCheck
  split_ifs with h1
  · simp; omega
  · rw [(sizeCheck_cases c n2).1]
    omega

theorem expandCheck_some {c : Config} {m : Model} {n2 : Nat} {st : Status} (h : expandCheck c m n2 = some st) :
    st.isRefusal = true := by
  unfold expandCheck at h
  split_ifs at h
  · cases h; rfl
  · rcases (sizeCheck_cases c n2).2 st h with rfl | rfl <;> rfl

theorem symbolCheck_none {m : Model} {sym : Nat} : symbolCheck m sym = none ↔ sym < m.n := by
  unfold symbolCheck
  split_ifs with h <;> simp
  · exact h
  · omega

theorem symbolCheck_some {m : Model} {sym : Nat} {st : Status} (h : symbolCheck m sym = some st) : st = .symbolOutOfRange := by
  unfold symbolCheck at h
  split_ifs at h
  exact (Option.some.inj h).symm

/-- The slot a handle names (20_memory.md R52). -/
theorem encSlotOf_some {c : Config} {e : Enc} {h : Nat} {slot : EncSlot} :
    encSlotOf c e h = some slot ↔ h < c.nsnap ∧ e.slots[h]? = some slot ∧ slot.valid = true := by
  unfold encSlotOf
  by_cases hc : c.nsnap ≤ h
  · rw [if_pos hc]
    simp only [reduceCtorEq, false_iff]
    omega
  · rw [if_neg hc]
    cases hs : e.slots[h]? with
    | none => simp
    | some sl =>
      simp only
      split_ifs with hv
      · simp only [Option.some.injEq]
        constructor
        · rintro rfl; exact ⟨by omega, rfl, hv⟩
        · rintro ⟨-, rfl, -⟩; rfl
      · simp only [Option.some.injEq, false_iff]
        rintro ⟨-, rfl, h3⟩
        exact hv h3

/-! ### The invariants under the small updates -/

section
variable {c : Config} (hc : c.Valid)

theorem Response.ok_of_status_ok (d : Word) : Response.Ok { status := .ok, data := d } := fun h => absurd rfl h

theorem Response.ok_of_zero (st : Status) : Response.Ok { status := st, data := 0 } := fun _ => rfl

/-- Only the position at the ports changes. -/
theorem EncInv.withCtl {e : Enc} (h : EncInv c e) (k : Ctl) (h1 : k ≠ .requesting ∧ k ≠ .requestingDetached) (h2 : ∀ r, k = .responding r → r.Ok) :
    EncInv c (e.withCtl k) :=
  { h with no_request := h1, response_ok := h2 }

/-- Only the number of draws changes. -/
theorem EncInv.withDraws {e : Enc} (h : EncInv c e) (k : Nat) : EncInv c { e with draws := k } := { h with }

/-- A refusal keeps the invariants (60_exceptions.md R224). -/
theorem EncInv.refuse {e : Enc} (h : EncInv c e) (st : Status) (hs : st.isRefusal = true) :
    EncInv c { e with mode := modeAfter st e.mode, ctl := .responding { status := st, data := 0 } } := by
  rw [modeAfter_refusal st e.mode hs]
  exact h.withCtl _ (by simp) (by rintro r ⟨rfl⟩; exact Response.ok_of_zero st)

/-- A fault keeps the invariants: nothing is claimed of the datapath in FAULT (10_state.md R46). -/
theorem EncInv.enterFault {e : Enc} (h : EncInv c e) (st : Status) (hs : st.isFault = true) (hm : e.mode ≠ .uninit) :
    EncInv c { e with mode := modeAfter st e.mode, ctl := .responding { status := st, data := 0 } } := by
  rw [modeAfter_fault st e.mode hs]
  exact { table_length := h.table_length, entries_fit := by simp, slots_length := h.slots_length, slots_ok := h.slots_ok,
          n_le := h.n_le, n_pos := fun _ => h.n_pos hm, table := by simp, interval := by simp, underflow_le := by simp,
          range_le := by simp, flushed_empty := by simp, uninit_regs := by simp, uninit_slots := by simp, no_request := by simp,
          response_ok := by rintro r ⟨rfl⟩; exact Response.ok_of_zero st }

/-- Reset gives a legal ENC (10_state.md R44, R45). -/
theorem Enc.reset_inv (c : Config) (k : Nat) : EncInv c (Enc.reset c k) where
  table_length := by simp [Enc.reset, Model.reset]
  entries_fit := by simp [Enc.reset]
  slots_length := by simp [Enc.reset]
  slots_ok := by
    intro slot hs hv
    simp only [Enc.reset, List.mem_replicate] at hs
    rw [hs.2] at hv
    simp [EncSlot.reset] at hv
  n_le := by simp [Enc.reset, Model.reset]
  n_pos := by simp [Enc.reset]
  table := by simp [Enc.reset]
  interval := by simp [Enc.reset]
  underflow_le := by simp [Enc.reset]
  range_le := by simp [Enc.reset]
  flushed_empty := by simp [Enc.reset]
  uninit_regs := by simp [Enc.reset, Model.reset]
  uninit_slots := by
    intro _ slot hs
    simp only [Enc.reset, List.mem_replicate] at hs
    rw [hs.2]
    rfl
  no_request := by simp [Enc.reset]
  response_ok := by simp [Enc.reset]

/-! ### What each command leaves -/

/-- ENC.INIT leaves a legal READY state (42_encoder.md R160). -/
theorem EncInv.init {e : Enc} (hc : c.Valid) (h : EncInv c e) (n : Nat) (h1 : 1 ≤ n) (h2 : n ≤ c.nmax) (h3 : n < c.maxTotal) :
    EncInv c { e with
      model := e.model.init n, low := 0, high := c.windowMask, underflow := 0, tmpRange := 0, mode := .ready } where
  table_length := by simpa using h.table_length
  entries_fit := fun _ => Model.entry_fits c _ (Model.init_ok c e.model n h.table_length h1 h2 h3)
  slots_length := h.slots_length
  slots_ok := h.slots_ok
  n_le := h2
  n_pos := fun _ => h1
  table := fun _ => Model.init_ok c e.model n h.table_length h1 h2 h3
  interval := fun _ => init_interval hc
  underflow_le := fun _ => Nat.zero_le _
  range_le := fun _ => Nat.zero_le _
  flushed_empty := by simp
  uninit_regs := by simp
  uninit_slots := by simp
  no_request := h.no_request
  response_ok := h.response_ok

/-- A new table in READY. -/
theorem EncInv.withModel {e : Enc} (h : EncInv c e) (m : Model) (hm : e.mode = .ready) (hl : m.p.length = c.nmax + 1)
    (ht : TableOk c m) : EncInv c { e with model := m } :=
  { h with table_length := hl, entries_fit := fun _ => Model.entry_fits c m ht, n_le := ht.n_le, n_pos := fun _ => ht.n_pos, table := fun _ => ht,
           uninit_regs := by simp [hm] }

/-- The table EXPAND leaves is legal (40_model.md R122). -/
theorem expand_legal (hc : c.Valid) (m : Model) (n2 : Nat) (ht : TableOk c m) (hl : m.p.length = c.nmax + 1)
    (h1 : m.n < n2) (h2 : n2 ≤ c.nmax) (h3 : n2 < c.maxTotal) :
    ∃ m', m.expand c n2 = some m' ∧ TableOk c m' ∧ m'.n = n2 ∧ m'.p.length = c.nmax + 1 := by
  obtain ⟨m', e1, e2, e3, e4, -⟩ := Model.expand_ok c m n2 hc ht hl h1 h2 h3
  exact ⟨m', e1, e2, e3, by omega⟩

/-- The loop of a symbol command starts from a legal sub-interval (41_range_arith.md R148, R149). -/
theorem symbol_start (hc : c.Valid) (m : Model) (sym low high : Nat) (ht : TableOk c m) (hi : IntervalOk c low high)
    (hs : sym < m.n) :
    low ≤ (narrow m sym low high).low ∧ (narrow m sym low high).low ≤ (narrow m sym low high).high ∧
      (narrow m sym low high).high ≤ high ∧ (narrow m sym low high).high < 2 ^ c.w ∧
      2 ^ c.w ≤ ((narrow m sym low high).high - (narrow m sym low high).low + 1) * 2 ^ c.w ∧
      (narrow m sym low high).tmpRange ≤ 2 ^ c.w := by
  have hw := interval_width hc low high hi
  have hb := ht.bounded
  have hmt : c.maxTotal = c.lowBit := rfl
  have hn := hi.nonempty
  have hf := hi.fits
  obtain ⟨h1, h2, h3⟩ := narrow_within m sym low high ht.monotone hs (by omega) (by omega)
  refine ⟨h1, h2, h3, by omega, Nat.le_mul_of_pos_left _ (by omega), ?_⟩
  show high - low + 1 ≤ _
  omega

/-- ENC.SYM and ENC.EST leave a legal state when their loop ends at EXIT (42_encoder.md R162, R164). -/
theorem encSymbolState_inv (hc : c.Valid) {s : State} (hcfg : s.cfg = c) (h : EncInv c s.enc) (hm : s.enc.mode = .ready)
    (emits : Bool) (sym : Nat) (hs : sym < s.enc.model.n) (r : EncRun) (hr : encSymbolRun emits sym s = (.exit, r)) :
    EncInv c (encSymbolState sym r s).enc ∧ r.count + r.underflow ≤ s.enc.underflow + c.w := by
  subst hcfg
  have ht := h.table (Or.inl hm)
  have hi := h.interval (Or.inl hm)
  have hl : s.enc.model.n < s.enc.model.p.length := by have := h.table_length; have := h.n_le; omega
  obtain ⟨-, a2, a3, a4, a5, a6⟩ := symbol_start hc s.enc.model sym s.enc.low s.enc.high ht hi hs
  obtain ⟨b1, b2, -, b4⟩ := EncRun.renorm_exit_inv hc emits s.cfg.w _ r a2 a4 (h.underflow_le (Or.inl hm)) a5 hr
  refine ⟨?_, by simpa using b4⟩
  have hu := Model.update_scaleMaybe_ok _ _ _ ht hl hs
  exact { h with
    table_length := by simpa [encSymbolState] using h.table_length
    entries_fit := fun _ => Model.entry_fits _ _ hu
    n_le := by simpa [encSymbolState] using h.n_le
    n_pos := by simpa [encSymbolState] using h.n_pos
    table := fun _ => hu
    interval := fun _ => b1
    underflow_le := fun _ => b2
    range_le := fun _ => a6
    flushed_empty := by simp [encSymbolState, hm]
    uninit_regs := by simp [encSymbolState, hm] }

/-- A snapshot of a legal state is a legal slot (42_encoder.md R165). -/
theorem encSnapshot_ok {e : Enc} (h : EncInv c e) (hm : e.mode = .ready ∨ e.mode = .flushed) : EncSlotOk c (encSnapshot e) where
  table := Model.saved_ok c e.model (h.table hm)
  interval := h.interval hm
  underflow_le := h.underflow_le hm
  flushed_empty := by
    intro hf
    exact h.flushed_empty (by simpa [encSnapshot] using hf)
  range_le := h.range_le hm

/-- Writing one slot. -/
theorem EncInv.withSlot {e : Enc} (h : EncInv c e) (k : Nat) (slot : EncSlot) (hok : slot.valid = true → EncSlotOk c slot)
    (hu : e.mode = .uninit → slot.valid = false) : EncInv c { e with slots := e.slots.set k slot } :=
  { h with
    slots_length := by simpa using h.slots_length
    slots_ok := by
      intro sl hsl hv
      rcases List.mem_or_eq_of_mem_set hsl with hmem | rfl
      · exact h.slots_ok sl hmem hv
      · exact hok hv
    uninit_slots := by
      intro hm sl hsl
      rcases List.mem_or_eq_of_mem_set hsl with hmem | rfl
      · exact h.uninit_slots hm sl hmem
      · exact hu hm }

/-- RESTORE of a valid slot leaves a legal state (42_encoder.md R166). -/
theorem encRestored_inv {e : Enc} (h : EncInv c e) (slot : EncSlot) (hok : EncSlotOk c slot) :
    EncInv c (encRestored e slot) := by
  have hmode : (encRestored e slot).mode ≠ .uninit := by unfold encRestored; simp only; split <;> simp
  exact
    { table_length := by simpa [encRestored] using h.table_length
      entries_fit := fun _ => Model.entry_fits c _ (Model.load_ok c _ _ hok.table h.table_length)
      slots_length := h.slots_length
      slots_ok := h.slots_ok
      n_le := hok.table.n_le
      n_pos := fun _ => hok.table.n_pos
      table := fun _ => Model.load_ok c _ _ hok.table h.table_length
      interval := fun _ => hok.interval
      underflow_le := fun _ => hok.underflow_le
      range_le := fun _ => hok.range_le
      flushed_empty := by
        intro hm
        apply hok.flushed_empty
        by_contra hcon
        simp [encRestored, hcon] at hm
      uninit_regs := fun hm => absurd hm hmode
      uninit_slots := fun hm => absurd hm hmode
      no_request := h.no_request
      response_ok := h.response_ok }

/-- A flush leaves a legal FLUSHED state (42_encoder.md R163). -/
theorem EncInv.flush {e : Enc} (h : EncInv c e) (hm : e.mode = .ready ∨ e.mode = .flushed) :
    EncInv c { e with underflow := 0, mode := .flushed } :=
  { h with
    n_pos := fun _ => h.n_pos (by rcases hm with hm | hm <;> simp [hm])
    entries_fit := fun _ => h.entries_fit hm
    table := fun _ => h.table hm
    interval := fun _ => h.interval hm
    underflow_le := fun _ => Nat.zero_le _
    range_le := fun _ => h.range_le hm
    flushed_empty := fun _ => rfl
    uninit_regs := by simp
    uninit_slots := by simp }

end

end Sys2Proof.Machine
end

