-- ==== Sys2Proof/Laws/Decoder.lean ====
section
/-! SUPPORT. What each shared operation of the DEC commands does, and that it keeps the invariants of DEC (10_state.md R34 to R36). -/

namespace Sys2Proof.Machine

section
variable (sym : Nat) (r : DecRun) (s : State) (d : Dec) (slot : DecSlot) (h : Nat)

@[simp] theorem decSymbolState_cfg : (decSymbolState sym r s).cfg = s.cfg := rfl
@[simp] theorem decSymbolState_enc : (decSymbolState sym r s).enc = s.enc := rfl
@[simp] theorem decSymbolState_rst : (decSymbolState sym r s).rst = s.rst := rfl
@[simp] theorem decSymbolState_writer : (decSymbolState sym r s).writer = s.writer := rfl
@[simp] theorem decSymbolState_reader : (decSymbolState sym r s).reader = r.reader := rfl
@[simp] theorem decSymbolState_inputs : (decSymbolState sym r s).inputs = s.inputs := rfl
@[simp] theorem decSymbolState_delivered : (decSymbolState sym r s).delivered = s.delivered := rfl
@[simp] theorem decSymbolState_ctl : (decSymbolState sym r s).dec.ctl = s.dec.ctl := rfl
@[simp] theorem decSymbolState_mode : (decSymbolState sym r s).dec.mode = s.dec.mode := rfl
@[simp] theorem decSymbolState_low : (decSymbolState sym r s).dec.low = r.low := rfl
@[simp] theorem decSymbolState_high : (decSymbolState sym r s).dec.high = r.high := rfl
@[simp] theorem decSymbolState_code : (decSymbolState sym r s).dec.code = r.code := rfl
@[simp] theorem decSymbolState_slots : (decSymbolState sym r s).dec.slots = s.dec.slots := rfl
@[simp] theorem decSymbolState_draws : (decSymbolState sym r s).dec.draws = s.dec.draws := rfl
@[simp] theorem decSymbolState_n : (decSymbolState sym r s).dec.model.n = s.dec.model.n := by simp [decSymbolState]
@[simp] theorem decRestored_slots : (decRestored d slot).slots = d.slots := rfl
@[simp] theorem decRestored_ctl : (decRestored d slot).ctl = d.ctl := rfl
@[simp] theorem decRestored_mode : (decRestored d slot).mode = .ready := rfl
@[simp] theorem decRestored_draws : (decRestored d slot).draws = d.draws := rfl
@[simp] theorem decFreeSlot_slots : (decFreeSlot h slot d).slots = d.slots.set h { slot with valid := false } := rfl
@[simp] theorem decFreeSlot_mode : (decFreeSlot h slot d).mode = d.mode := rfl
@[simp] theorem decFreeSlot_ctl : (decFreeSlot h slot d).ctl = d.ctl := rfl
@[simp] theorem decFreeSlot_model : (decFreeSlot h slot d).model = d.model := rfl

end

/-- The three ways a command of DEC can end: wrong mode, a failed check, its effect. -/
theorem decChecked_cases (accepted : Bool) (check : Option Status) (s : State) (effect : Host.Outcome State Fault Refusal) :
    (accepted = false ∧ decChecked accepted check s effect = .next (raise .dec .invalidState s)) ∨
      (accepted = true ∧ ∃ st, check = some st ∧ decChecked accepted check s effect = .next (raise .dec st s)) ∨
      (accepted = true ∧ check = none ∧ decChecked accepted check s effect = effect) := by
  unfold decChecked
  cases accepted with
  | false => exact Or.inl ⟨rfl, rfl⟩
  | true =>
    cases check with
    | none => exact Or.inr (Or.inr ⟨rfl, rfl, rfl⟩)
    | some st => exact Or.inr (Or.inl ⟨rfl, st, rfl, rfl⟩)

/-- The slot a handle names (20_memory.md R52). -/
theorem decSlotOf_some {c : Config} {d : Dec} {h : Nat} {slot : DecSlot} :
    decSlotOf c d h = some slot ↔ h < c.nsnap ∧ d.slots[h]? = some slot ∧ slot.valid = true := by
  unfold decSlotOf
  by_cases hc : c.nsnap ≤ h
  · rw [if_pos hc]
    simp only [reduceCtorEq, false_iff]
    omega
  · rw [if_neg hc]
    cases hs : d.slots[h]? with
    | none => simp
    | some sl =>
      simp only
      split_ifs with hv
      · simp only [Option.some.injEq]
        constructor
        · rintro rfl; exact ⟨by omega, rfl, hv⟩
        · rintro ⟨-, rfl, -⟩; rfl
      · simp only [Option.some.injEq, false_iff]
        rintro ⟨-, rfl, h3⟩
        exact hv h3

section
variable {c : Config}

/-- Only the position at the ports changes. -/
theorem DecInv.withCtl {d : Dec} (h : DecInv c d) (k : Ctl)
    (h1 : ∀ b, k ≠ .offering b ∧ ∀ cmd, k ≠ .offeringDetached b cmd) (h2 : ∀ r, k = .responding r → r.Ok) :
    DecInv c (d.withCtl k) :=
  { h with no_offer := h1, response_ok := h2 }

/-- Only the number of draws changes. -/
theorem DecInv.withDraws {d : Dec} (h : DecInv c d) (k : Nat) : DecInv c { d with draws := k } := { h with }

/-- A refusal keeps the invariants (60_exceptions.md R224). -/
theorem DecInv.refuse {d : Dec} (h : DecInv c d) (st : Status) (hs : st.isRefusal = true) :
    DecInv c { d with mode := modeAfter st d.mode, ctl := .responding { status := st, data := 0 } } := by
  rw [modeAfter_refusal st d.mode hs]
  exact h.withCtl _ (by simp) (by rintro r ⟨rfl⟩; exact Response.ok_of_zero st)

/-- A fault keeps the invariants: nothing is claimed of the datapath in FAULT (10_state.md R46). -/
theorem DecInv.enterFault {d : Dec} (h : DecInv c d) (st : Status) (hs : st.isFault = true) (hm : d.mode ≠ .uninit) :
    DecInv c { d with mode := modeAfter st d.mode, ctl := .responding { status := st, data := 0 } } := by
  rw [modeAfter_fault st d.mode hs]
  exact { table_length := h.table_length, entries_fit := by simp, slots_length := h.slots_length, slots_ok := h.slots_ok,
          n_le := h.n_le, n_pos := fun _ => h.n_pos hm, not_flushed := by simp, table := by simp, interval := by simp,
          code_ge := by simp, code_le := by simp, range_le := by simp, uninit_regs := by simp, uninit_slots := by simp,
          no_offer := by simp, response_ok := by rintro r ⟨rfl⟩; exact Response.ok_of_zero st }

/-- A fault of DEC.INIT after M.INIT: `N = n` (10_state.md R46, 43_decoder.md R190). -/
theorem DecInv.initFault {d : Dec} (h : DecInv c d) (n : Nat) (h1 : 1 ≤ n) (h2 : n ≤ c.nmax)
    (st : Status) (hs : st.isFault = true) :
    DecInv c { d with
      model := d.model.init n, mode := modeAfter st d.mode, ctl := .responding { status := st, data := 0 } } := by
  rw [modeAfter_fault st d.mode hs]
  exact { table_length := by simpa using h.table_length
          entries_fit := by simp
          slots_length := h.slots_length, slots_ok := h.slots_ok
          n_le := h2, n_pos := fun _ => h1, not_flushed := by simp, table := by simp, interval := by simp,
          code_ge := by simp, code_le := by simp, range_le := by simp, uninit_regs := by simp, uninit_slots := by simp,
          no_offer := by simp, response_ok := by rintro r ⟨rfl⟩; exact Response.ok_of_zero st }

/-- Reset gives a legal DEC (10_state.md R44, R45). -/
theorem Dec.reset_inv (c : Config) (k : Nat) : DecInv c (Dec.reset c k) where
  table_length := by simp [Dec.reset, Model.reset]
  entries_fit := by simp [Dec.reset]
  slots_length := by simp [Dec.reset]
  slots_ok := by
    intro slot hs hv
    simp only [Dec.reset, List.mem_replicate] at hs
    rw [hs.2] at hv
    simp [DecSlot.reset] at hv
  n_le := by simp [Dec.reset, Model.reset]
  n_pos := by simp [Dec.reset]
  not_flushed := by simp [Dec.reset]
  table := by simp [Dec.reset]
  interval := by simp [Dec.reset]
  code_ge := by simp [Dec.reset]
  code_le := by simp [Dec.reset]
  range_le := by simp [Dec.reset]
  uninit_regs := by simp [Dec.reset, Model.reset]
  uninit_slots := by
    intro _ slot hs
    simp only [Dec.reset, List.mem_replicate] at hs
    rw [hs.2]
    rfl
  no_offer := by simp [Dec.reset]
  response_ok := by simp [Dec.reset]

/-- DEC.INIT leaves a legal READY state, whatever `W` bits the reader gave (43_decoder.md R190). -/
theorem DecInv.init {d : Dec} (hc : c.Valid) (h : DecInv c d) (n code : Nat) (h1 : 1 ≤ n) (h2 : n ≤ c.nmax) (h3 : n < c.maxTotal)
    (h4 : code < 2 ^ c.w) :
    DecInv c { d with
      model := d.model.init n, low := 0, high := c.windowMask, tmpRange := 0, code := code, mode := .ready } where
  table_length := by simpa using h.table_length
  entries_fit := fun _ => Model.entry_fits c _ (Model.init_ok c d.model n h.table_length h1 h2 h3)
  slots_length := h.slots_length
  slots_ok := h.slots_ok
  n_le := h2
  n_pos := fun _ => h1
  not_flushed := by simp
  table := fun _ => Model.init_ok c d.model n h.table_length h1 h2 h3
  interval := fun _ => init_interval hc
  code_ge := fun _ => Nat.zero_le _
  code_le := fun _ => by show code ≤ 2 ^ c.w - 1; omega
  range_le := fun _ => Nat.zero_le _
  uninit_regs := by simp
  uninit_slots := by simp
  no_offer := h.no_offer
  response_ok := h.response_ok

/-- A new table in READY. -/
theorem DecInv.withModel {d : Dec} (h : DecInv c d) (m : Model) (hm : d.mode = .ready) (hl : m.p.length = c.nmax + 1)
    (ht : TableOk c m) : DecInv c { d with model := m } :=
  { h with table_length := hl, entries_fit := fun _ => Model.entry_fits c m ht, n_le := ht.n_le, n_pos := fun _ => ht.n_pos, table := fun _ => ht,
           uninit_regs := by simp [hm] }

/-- From a legal READY state the lookup succeeds, and the symbol's narrowed interval holds the code (41_range_arith.md R150,
60_exceptions.md R238). -/
theorem decodedSymbol_ok {d : Dec} (h : DecInv c d) (hm : d.mode = .ready) :
    ∃ sym, decodedSymbol d = some sym ∧ sym < d.model.n ∧ (narrow d.model sym d.low d.high).low ≤ d.code ∧
      d.code ≤ (narrow d.model sym d.low d.high).high := by
  have ht := h.table hm
  have hpos : 0 < d.model.total := lt_of_lt_of_le ht.n_pos ht.monotone.n_le_total
  have hq := scaledCode_lt d.model d.low d.high d.code (h.code_ge hm) (h.code_le hm) hpos
  obtain ⟨sym, e1, e2, e3, e4⟩ := Model.lookup_spec d.model _ ht.n_pos (by rw [ht.zero]; omega) hq
  obtain ⟨a1, a2⟩ := narrow_holds_code d.model d.low d.high d.code sym (h.code_ge hm) hpos e3 e4
  exact ⟨sym, e1, e2, a1, a2⟩

/-- DEC.SYM leaves a legal state when its loop ended at EXIT (43_decoder.md R192). -/
theorem decSymbolState_inv (hc : c.Valid) {s : State} (hcfg : s.cfg = c) (h : DecInv c s.dec) (hm : s.dec.mode = .ready)
    (sym : Nat) (hs : sym < s.dec.model.n) (h1 : (narrow s.dec.model sym s.dec.low s.dec.high).low ≤ s.dec.code)
    (h2 : s.dec.code ≤ (narrow s.dec.model sym s.dec.low s.dec.high).high) (r : DecRun)
    (hr : decSymbolRun sym s = (.exit, r)) : DecInv c (decSymbolState sym r s).dec := by
  subst hcfg
  have ht := h.table hm
  have hi := h.interval hm
  have hl : s.dec.model.n < s.dec.model.p.length := by have := h.table_length; have := h.n_le; omega
  obtain ⟨-, -, -, a4, a5, a6⟩ := symbol_start hc s.dec.model sym s.dec.low s.dec.high ht hi hs
  obtain ⟨b1, b2, b3⟩ := DecRun.renorm_exit_inv hc s.cfg.w _ r a4 h1 h2 a5 hr
  have hu := Model.update_scaleMaybe_ok _ _ _ ht hl hs
  exact { h with
    table_length := by simpa [decSymbolState] using h.table_length
    entries_fit := fun _ => Model.entry_fits _ _ hu
    n_le := by simpa [decSymbolState] using h.n_le
    n_pos := by simpa [decSymbolState] using h.n_pos
    table := fun _ => hu
    interval := fun _ => b1
    code_ge := fun _ => b2
    code_le := fun _ => b3
    range_le := fun _ => a6
    uninit_regs := by simp [decSymbolState, hm] }

/-- A snapshot of a legal READY state is a legal slot (43_decoder.md R193). -/
theorem decSnapshot_ok {d : Dec} (h : DecInv c d) (hm : d.mode = .ready) : DecSlotOk c (decSnapshot d) where
  table := Model.saved_ok c d.model (h.table hm)
  interval := h.interval hm
  code_ge := h.code_ge hm
  code_le := h.code_le hm
  range_le := h.range_le hm

/-- Writing one slot. -/
theorem DecInv.withSlot {d : Dec} (h : DecInv c d) (k : Nat) (slot : DecSlot) (hok : slot.valid = true → DecSlotOk c slot)
    (hu : d.mode = .uninit → slot.valid = false) : DecInv c { d with slots := d.slots.set k slot } :=
  { h with
    slots_length := by simpa using h.slots_length
    slots_ok := by
      intro sl hsl hv
      rcases List.mem_or_eq_of_mem_set hsl with hmem | rfl
      · exact h.slots_ok sl hmem hv
      · exact hok hv
    uninit_slots := by
      intro hm sl hsl
      rcases List.mem_or_eq_of_mem_set hsl with hmem | rfl
      · exact h.uninit_slots hm sl hmem
      · exact hu hm }

/-- RESTORE of a valid slot leaves a legal state (43_decoder.md R194). -/
theorem decRestored_inv {d : Dec} (h : DecInv c d) (slot : DecSlot) (hok : DecSlotOk c slot) :
    DecInv c (decRestored d slot) where
  table_length := by simpa [decRestored] using h.table_length
  entries_fit := fun _ => Model.entry_fits c _ (Model.load_ok c _ _ hok.table h.table_length)
  slots_length := h.slots_length
  slots_ok := h.slots_ok
  n_le := hok.table.n_le
  n_pos := fun _ => hok.table.n_pos
  not_flushed := by simp [decRestored]
  table := fun _ => Model.load_ok c _ _ hok.table h.table_length
  interval := fun _ => hok.interval
  code_ge := fun _ => hok.code_ge
  code_le := fun _ => hok.code_le
  range_le := fun _ => hok.range_le
  uninit_regs := by simp [decRestored]
  uninit_slots := by simp [decRestored]
  no_offer := h.no_offer
  response_ok := h.response_ok

end

end Sys2Proof.Machine
end

