-- ==== Sys2Proof/Laws/Commands.lean ====
section
/-! SUPPORT. What holds of every command: which kind of status each check and each loop can give, and how a refusal is answered
(60_exceptions.md R220 to R225). -/

namespace Sys2Proof.Machine

/-- The two kinds of status that are not OK exclude each other (60_exceptions.md R220). -/
theorem Status.isFault_eq_not (st : Status) (h : st ≠ .ok) : st.isFault = !st.isRefusal := by
  cases st <;> first | exact absurd rfl h | rfl

/-- A refusal answers `(st, 0)` and changes nothing (R224). -/
theorem raise_of_refusal (u : Half) (st : Status) (s : State) (h : st.isRefusal = true) :
    raise u st s = s.answered u (errorResponse st) := by
  cases u <;> simp [raise, modeAfter_refusal _ _ h, State.answered, errorResponse, State.withEnc, State.withDec]

theorem initCheck_status {c : Config} {bound : Bool} {n : Nat} {st : Status} (h : initCheck c bound n = some st) :
    st = .invalidArgument ∨ st = .outOfMemory := by
  unfold initCheck sizeCheck at h
  split_ifs at h <;> simp_all

theorem expandCheck_status {c : Config} {m : Model} {n : Nat} {st : Status} (h : expandCheck c m n = some st) :
    st = .invalidArgument ∨ st = .outOfMemory := by
  unfold expandCheck sizeCheck at h
  split_ifs at h <;> simp_all

theorem symbolCheck_refusal {m : Model} {sym : Nat} {st : Status} (h : symbolCheck m sym = some st) : st.isRefusal = true := by
  obtain rfl := symbolCheck_some h; rfl

theorem indexCheck_some {n k : Nat} {st : Status} (h : (if n < k then some Status.invalidArgument else none) = some st) :
    n < k ∧ st = .invalidArgument := by
  split_ifs at h with hk
  exact ⟨hk, (Option.some.inj h).symm⟩

/-- What the run of a symbol command of ENC can end with and do to the writer (`EncRun.renorm_cases`). -/
theorem encSymbolRun_cases (emits : Bool) (sym : Nat) (s : State) :
    (encSymbolRun emits sym s).2.writer.bound = s.writer.bound ∧ (encSymbolRun emits sym s).2.writer.after = s.writer.after ∧
      (emits = false → (encSymbolRun emits sym s).2.writer = s.writer) ∧
      (∃ bits : List Bool, (encSymbolRun emits sym s).2.writer.accepted = s.writer.accepted ++ bits ∧
        ((encSymbolRun emits sym s).1 = .exit → emits = true → (encSymbolRun emits sym s).2.count = bits.length)) ∧
      (∀ st, (encSymbolRun emits sym s).1 = .raised st → st = .counterOverflow ∨ st = .streamFault ∧ emits = true) ∧
      (∀ b, (encSymbolRun emits sym s).1 = .stuck b → emits = true) := by
  obtain ⟨h1, h2, h3, ⟨bits, h4, h5⟩, h6, h7⟩ := EncRun.renorm_cases s.cfg emits s.cfg.w
    { low := (narrow s.enc.model sym s.enc.low s.enc.high).low, high := (narrow s.enc.model sym s.enc.low s.enc.high).high,
      underflow := s.enc.underflow, count := 0, writer := s.writer }
  exact ⟨h1, h2, h3, ⟨bits, h4, fun a b => (h5 a b).trans (by simp)⟩, h6, h7⟩

theorem encSymbolRun_raised {emits : Bool} {sym : Nat} {s : State} {st : Status} {r : EncRun}
    (h : encSymbolRun emits sym s = (.raised st, r)) : st = .counterOverflow ∨ st = .streamFault ∧ emits = true :=
  (encSymbolRun_cases emits sym s).2.2.2.2.1 st (by rw [h])

theorem encSymbolRun_fault {emits : Bool} {sym : Nat} {s : State} {st : Status} {r : EncRun}
    (h : encSymbolRun emits sym s = (.raised st, r)) : st.isFault = true := by
  rcases encSymbolRun_raised h with rfl | ⟨rfl, -⟩ <;> rfl

/-- ENC.EST touches no port (42_encoder.md R164). -/
theorem encSymbolRun_est {sym : Nat} {s : State} {e : LoopEnd} {r : EncRun} (h : encSymbolRun false sym s = (e, r)) :
    r.writer = s.writer := by
  have := (encSymbolRun_cases false sym s).2.2.1 rfl
  rwa [h] at this

theorem encSymbolRun_est_moves {sym : Nat} {s : State} {b : Bool} {r : EncRun} (h : encSymbolRun false sym s = (.stuck b, r)) : False :=
  absurd ((encSymbolRun_cases false sym s).2.2.2.2.2 b (by rw [h])) (by simp)

/-- What the run of DEC.SYM can end with and do to the reader (`DecRun.renorm_cases`). -/
theorem decSymbolRun_cases (sym : Nat) (s : State) :
    (decSymbolRun sym s).2.reader.bound = s.reader.bound ∧ (decSymbolRun sym s).2.reader.after = s.reader.after ∧
      (∃ bits : List Bool, (decSymbolRun sym s).2.reader.taken = s.reader.taken ++ bits ∧ bits.length ≤ s.cfg.w) ∧
      (∀ st, (decSymbolRun sym s).1 = .raised st → st = .streamFault) :=
  DecRun.renorm_cases s.cfg s.cfg.w _

theorem decSymbolRun_raised {sym : Nat} {s : State} {st : Status} {r : DecRun} (h : decSymbolRun sym s = (.raised st, r)) :
    st = .streamFault :=
  (decSymbolRun_cases sym s).2.2.2 st (by rw [h])

theorem decSymbolRun_fault {sym : Nat} {s : State} {st : Status} {r : DecRun} (h : decSymbolRun sym s = (.raised st, r)) :
    st.isFault = true := by
  obtain rfl := decSymbolRun_raised h; rfl

end Sys2Proof.Machine
end

