-- ==== Sys2Proof/Laws/Decode.lean ====
section
/-! SUPPORT. The fields of a packed command word, and a word with RSV 0 as the packing of its fields (30_encoding.md R81). -/

namespace Sys2Proof

theorem toNat_packWord {unit op arg : Nat} (f : Bool) (hu : unit < 16) (ho : op < 16) (ha : arg < 2 ^ 32) :
    (packWord unit op f arg).toNat = unit * 2 ^ 60 + op * 2 ^ 56 + f.toNat * 2 ^ 55 + arg := by
  have : f.toNat ≤ 1 := by cases f <;> simp
  simp only [packWord, BitVec.toNat_ofNat]
  omega

section
variable {unit op arg : Nat} (f : Bool) (hu : unit < 16) (ho : op < 16) (ha : arg < 2 ^ 32)
include hu ho ha

theorem unitField_packWord : unitField (packWord unit op f arg) = unit := by
  have : f.toNat ≤ 1 := by cases f <;> simp
  simp only [unitField, bits, toNat_packWord f hu ho ha]
  omega

theorem opField_packWord : opField (packWord unit op f arg) = op := by
  have : f.toNat ≤ 1 := by cases f <;> simp
  simp only [opField, bits, toNat_packWord f hu ho ha]
  omega

theorem flagField_packWord : flagField (packWord unit op f arg) = f := by
  have : f.toNat ≤ 1 := by cases f <;> simp
  simp only [flagField, bits, toNat_packWord f hu ho ha]
  rw [show (unit * 2 ^ 60 + op * 2 ^ 56 + f.toNat * 2 ^ 55 + arg) / 2 ^ 55 % 2 ^ (55 + 1 - 55) = f.toNat by omega]
  cases f <;> simp

theorem rsvField_packWord : rsvField (packWord unit op f arg) = 0 := by
  have : f.toNat ≤ 1 := by cases f <;> simp
  simp only [rsvField, bits, toNat_packWord f hu ho ha]
  omega

theorem argField_packWord : argField (packWord unit op f arg) = arg := by
  have : f.toNat ≤ 1 := by cases f <;> simp
  simp only [argField, bits, toNat_packWord f hu ho ha]
  omega

end

theorem argField_lt (w : Word) : argField w < 2 ^ 32 := Nat.mod_lt _ (by norm_num)

theorem flagField_toNat (w : Word) : (flagField w).toNat = w.toNat / 2 ^ 55 % 2 := by
  unfold flagField bits
  have : w.toNat / 2 ^ 55 % 2 < 2 := Nat.mod_lt _ (by norm_num)
  rw [show 2 ^ (55 + 1 - 55) = 2 from rfl]
  by_cases h : w.toNat / 2 ^ 55 % 2 = 1
  · rw [h]; rfl
  · have h0 : w.toNat / 2 ^ 55 % 2 = 0 := by omega
    rw [h0]; rfl

/-- A word whose RSV is 0 is the packing of its other fields. -/
theorem word_eq_packWord (w : Word) (h : rsvField w = 0) : w = packWord (unitField w) (opField w) (flagField w) (argField w) := by
  have hw := w.isLt
  apply BitVec.eq_of_toNat_eq
  have hu : unitField w < 16 := Nat.mod_lt _ (by norm_num)
  have ho : opField w < 16 := Nat.mod_lt _ (by norm_num)
  rw [toNat_packWord _ hu ho (argField_lt w), flagField_toNat]
  simp only [unitField, opField, argField, rsvField, bits] at *
  omega

end Sys2Proof
end

