-- ==== Sys2Proof/Laws/Loops.lean ====
section
/-! SUPPORT. The machine's loops and the relations of Safety.lean: the classification by bit tests, runs of beats over a whole list of
bits, and the two directions between `renorm` and `EncLoop`, `EncOverflow`, `DecLoop` (41_range_arith.md R141 to R147). -/

namespace Sys2Proof.Machine

/-! ### The classification by bit tests (R141) -/

theorem and_bit_eq_iff (x y k : Nat) : x &&& 2 ^ k = y &&& 2 ^ k ↔ x.testBit k = y.testBit k := by
  have hp := Nat.two_pow_pos k
  rw [Nat.and_two_pow, Nat.and_two_pow]
  cases x.testBit k <;> cases y.testBit k <;> simp; omega

theorem classify_msbEq_bits (c : Config) (low high : Nat) :
    classify c low high = .msbEq ↔ high.testBit (c.w - 1) = low.testBit (c.w - 1) := by
  have h := and_bit_eq_iff high low (c.w - 1)
  unfold classify Config.hiBit Config.hiBitPos
  split_ifs <;> simp_all

theorem classify_e3_bits (c : Config) (low high : Nat) :
    classify c low high = .e3 ↔ high.testBit (c.w - 1) ≠ low.testBit (c.w - 1) ∧
      low.testBit (c.w - 2) = true ∧ high.testBit (c.w - 2) = false := by
  have h := and_bit_eq_iff high low (c.w - 1)
  have h1 : low &&& 2 ^ (c.w - 2) ≠ 0 ↔ low.testBit (c.w - 2) = true := by
    rw [Nat.and_two_pow]; cases low.testBit (c.w - 2) <;> simp
  have h2 : high &&& 2 ^ (c.w - 2) = 0 ↔ high.testBit (c.w - 2) = false := by
    rw [Nat.and_two_pow]; cases high.testBit (c.w - 2) <;> simp
  unfold classify Config.hiBit Config.hiBitPos Config.lowBit Config.lowBitPos
  simp only [h1, h2]
  split_ifs <;> simp_all

theorem classify_exit_bits (c : Config) (low high : Nat) :
    classify c low high = .exit ↔ high.testBit (c.w - 1) ≠ low.testBit (c.w - 1) ∧
      ¬(low.testBit (c.w - 2) = true ∧ high.testBit (c.w - 2) = false) := by
  have h1 := classify_msbEq_bits c low high
  have h2 := classify_e3_bits c low high
  cases h : classify c low high <;> simp_all

theorem sharedMsb_eq {c : Config} (hc : c.Valid) (high : Nat) (hh : high < 2 ^ c.w) : sharedMsb c high = high.testBit (c.w - 1) := by
  have h2 := hc.two_hiBit
  unfold sharedMsb Config.hiBitPos Nat.testBit
  have : high >>> (c.w - 1) < 2 := by
    rw [Nat.shiftRight_eq_div_pow, Nat.div_lt_iff_lt_mul (Nat.two_pow_pos _)]
    change high < 2 * c.hiBit
    omega
  generalize high >>> (c.w - 1) = k at this
  interval_cases k <;> rfl

theorem e3High_of_bit (c : Config) (high : Nat) (h : high.testBit (c.w - 2) = false) : e3High c high = high + 2 ^ (c.w - 2) := by
  apply or_two_pow_eq
  have := Nat.testBit_eq_decide_div_mod_eq (x := high) (i := c.w - 2)
  rw [h] at this
  have h1 : ¬high / 2 ^ (c.w - 2) % 2 = 1 := by simpa using this.symm
  change high / 2 ^ (c.w - 2) % 2 = 0
  omega

/-! ### Runs of beats over a list of bits (20_memory.md R56, R59) -/

namespace Writer

theorem emitAll_append (l1 l2 : List Bool) (w : Writer) :
    emitAll (l1 ++ l2) w = if (emitAll l1 w).1 = .done then emitAll l2 (emitAll l1 w).2 else emitAll l1 w := by
  induction l1 generalizing w with
  | nil => simp [emitAll]
  | cons b bs ih =>
    rw [List.cons_append, emitAll_cons, emitAll_cons]
    rcases w.answer with ⟨a, w'⟩
    cases a with
    | accept => exact ih _
    | error => simp
    | never => simp

theorem coming_succ (w : Writer) (k : Nat) : w.coming (k + 1) = w.answer.1 :: w.answer.2.coming k := by
  rw [answer_eq]
  unfold coming
  by_cases hb : w.bound = true
  · simp only [hb, if_true]
    cases hs : w.script with
    | nil => simp [List.replicate_succ]
    | cons a l =>
      simp only [List.cons_append, List.take_succ_cons, List.headD_cons, List.tail_cons, List.cons.injEq, true_and]
      rw [List.replicate_succ']
      rw [← List.append_assoc, List.take_append_of_le_length]
      simp
  · simp [hb, List.replicate_succ]

theorem past_succ (w : Writer) (k : Nat) (b : Bool) (bits : List Bool) :
    (w.answer.2.store b).past k bits = w.past (k + 1) (b :: bits) := by
  rw [answer_eq]
  by_cases hb : w.bound = true <;> simp [past, store, hb, List.append_assoc]

/-- The writer accepts every one of `bits`. -/
theorem emitAll_accept (bits : List Bool) (w : Writer) (h : w.coming bits.length = List.replicate bits.length .accept) :
    emitAll bits w = (.done, w.past bits.length bits) := by
  induction bits generalizing w with
  | nil => simp [emitAll, past]
  | cons b bs ih =>
    rw [List.length_cons, coming_succ, List.replicate_succ, List.cons.injEq] at h
    rw [emitAll_cons, List.length_cons, ← past_succ]
    rcases hw : w.answer with ⟨a, w'⟩
    rw [hw] at h
    obtain ⟨rfl, h2⟩ := h
    exact ih _ h2

/-- The writer accepts `k` bits and ends the beat after them in another way. -/
theorem emitAll_stop (bits : List Bool) (k : Nat) (a : WriterAnswer) (w : Writer) (hk : k < bits.length) (ha : a ≠ .accept)
    (h : w.coming (k + 1) = List.replicate k .accept ++ [a]) :
    emitAll bits w = (if a = .error then .error else .stuck (bits.getD k false), w.past (k + 1) (bits.take k)) := by
  induction bits generalizing w k with
  | nil => simp at hk
  | cons b bs ih =>
    rw [coming_succ] at h
    rw [emitAll_cons]
    have hp := answer_eq w
    cases k with
    | zero =>
      simp only [List.replicate_zero, List.nil_append, List.cons.injEq] at h
      rcases hw : w.answer with ⟨a', w'⟩
      rw [hw] at h hp
      obtain ⟨rfl, -⟩ := h
      simp only [Prod.mk.injEq] at hp
      cases a' with
      | accept => exact absurd rfl ha
      | error => simp [past, hp.2]
      | never => simp [past, hp.2]
    | succ k =>
      rw [List.replicate_succ, List.cons_append, List.cons.injEq] at h
      rw [List.take_succ_cons, ← past_succ]
      rcases hw : w.answer with ⟨a', w'⟩
      rw [hw] at h
      obtain ⟨rfl, h2⟩ := h
      have := ih k (w'.store b) (by simpa using hk) h2
      simpa using this

theorem Accepting.coming {w : Writer} (h : w.Accepting) (k : Nat) : w.coming k = List.replicate k .accept := by
  induction k generalizing w with
  | zero => simp [Writer.coming]
  | succ k ih =>
    obtain ⟨h1, h2⟩ := h.answer
    rw [coming_succ, h1, ih h2, List.replicate_succ]

theorem Accepting.emitAll_eq {w : Writer} (h : w.Accepting) (bits : List Bool) :
    Writer.emitAll bits w = (.done, w.past bits.length bits) :=
  emitAll_accept bits w (h.coming _)

end Writer

namespace Reader

theorem coming_succ (r : Reader) (k : Nat) : r.coming (k + 1) = r.answer.1 :: r.answer.2.coming k := by
  rw [answer_eq]
  unfold coming
  by_cases hb : r.bound = true
  · simp only [hb, if_true]
    cases hs : r.script with
    | nil => simp [List.replicate_succ]
    | cons a l =>
      simp only [List.cons_append, List.take_succ_cons, List.headD_cons, List.tail_cons, List.cons.injEq, true_and]
      rw [List.replicate_succ']
      rw [← List.append_assoc, List.take_append_of_le_length]
      simp
  · simp [hb, List.replicate_succ]

theorem coming_length (r : Reader) (k : Nat) : (r.coming k).length = k := by unfold coming; split <;> simp

theorem past_succ (r : Reader) (k : Nat) (b : Bool) (bits : List Bool) :
    (r.answer.2.consume b).past k bits = r.past (k + 1) (b :: bits) := by
  rw [answer_eq]
  by_cases hb : r.bound = true <;> simp [past, consume, hb, List.append_assoc]

theorem past_zero (r : Reader) : r.past 0 [] = r := by simp [past]

/-- The value of a bit string continued from `v`, in terms of its own value. -/
theorem valueOf_eq (v : Nat) (bits : List Bool) : valueOf v bits = v * 2 ^ bits.length + bitsValue bits := by
  induction bits generalizing v with
  | nil => simp [valueOf, bitsValue]
  | cons b bs ih =>
    have := ih (v <<< 1 ||| b.toNat)
    simp only [valueOf, List.foldl_cons, bitsValue, List.length_cons] at this ⊢
    rw [this, double_or_bit, pow_succ]
    ring

/-- The reader supplies `bits`. -/
theorem takeField_bits (bits : List Bool) (v : Nat) (r : Reader) (h : r.coming bits.length = bits.map .bit) :
    takeField bits.length v r = (.done, valueOf v bits, r.past bits.length bits) := by
  induction bits generalizing v r with
  | nil => simp [takeField, valueOf, past]
  | cons b bs ih =>
    rw [List.length_cons, coming_succ, List.map_cons, List.cons.injEq] at h
    rw [List.length_cons, takeField_succ, ← past_succ]
    rcases hr : r.answer with ⟨a, r'⟩
    rw [hr] at h
    obtain ⟨rfl, h2⟩ := h
    exact ih _ _ h2

/-- The reader supplies `bits` and ends the next beat in another way. -/
theorem takeField_stop (bits : List Bool) (k v : Nat) (a : ReaderAnswer) (r : Reader) (hk : bits.length < k)
    (ha : ∀ b, a ≠ .bit b) (h : r.coming (bits.length + 1) = bits.map .bit ++ [a]) :
    takeField k v r = (if a = .error then .error else .stuck false, valueOf v bits, r.past (bits.length + 1) bits) := by
  induction bits generalizing v r k with
  | nil =>
    obtain ⟨k, rfl⟩ := Nat.exists_eq_succ_of_ne_zero (by simp at hk; omega : k ≠ 0)
    have hp := answer_eq r
    rw [List.length_nil, coming_succ] at h
    rw [takeField_succ]
    rcases hr : r.answer with ⟨a', r'⟩
    rw [hr] at h hp
    simp only [List.map_nil, List.nil_append, List.cons.injEq] at h
    obtain ⟨rfl, -⟩ := h
    simp only [Prod.mk.injEq] at hp
    cases a' with
    | bit b => exact absurd rfl (ha b)
    | error => simp [past, hp.2, valueOf]
    | never => simp [past, hp.2, valueOf]
  | cons b bs ih =>
    obtain ⟨k, rfl⟩ := Nat.exists_eq_succ_of_ne_zero (by simp at hk; omega : k ≠ 0)
    rw [List.length_cons, coming_succ, List.map_cons, List.cons_append, List.cons.injEq] at h
    rw [List.length_cons, takeField_succ, ← past_succ]
    rcases hr : r.answer with ⟨a', r'⟩
    rw [hr] at h
    obtain ⟨rfl, h2⟩ := h
    exact ih k _ _ (by simpa using hk) h2

theorem Supplying.coming {r : Reader} (h : r.Supplying) (k : Nat) : ∃ bits : List Bool, r.coming k = bits.map .bit := by
  induction k generalizing r with
  | zero => exact ⟨[], by simp [Reader.coming]⟩
  | succ k ih =>
    obtain ⟨⟨b, h1⟩, h2⟩ := h.answer
    obtain ⟨bits, h3⟩ := ih h2
    exact ⟨b :: bits, by rw [coming_succ, h1, h3, List.map_cons]⟩

end Reader

/-! ### ENC's loop -/

namespace EncRun

/-- How `renorm` ends when the loop emits `bits` and then would end as `(e, r')`: the same for ENC.EST, and for ENC.SYM unless a beat
fails first. -/
def afterBits (emits : Bool) (bits : List Bool) (w : Writer) (e : LoopEnd) (r' : EncRun) (res : LoopEnd × EncRun) : Prop :=
  match emits with
  | false => res = (e, { r' with writer := w })
  | true =>
    match w.emitAll bits with
    | (.done, w') => res = (e, { r' with writer := w' })
    | (.error, w') => res.1 = .raised .streamFault ∧ res.2.writer = w'
    | (.stuck b, w') => res.1 = .stuck b ∧ res.2.writer = w'

variable {c : Config} (hc : c.Valid)
include hc

omit hc in
theorem room_of_shift {low high low' high' fuel : Nat} (hw : high' - low' + 1 = 2 * (high - low + 1))
    (hf : 2 ^ c.w ≤ (high - low + 1) * 2 ^ (fuel + 1)) : 2 ^ c.w ≤ (high' - low' + 1) * 2 ^ fuel := by
  rw [hw]
  calc 2 ^ c.w ≤ _ := hf
    _ = 2 * (high - low + 1) * 2 ^ fuel := by rw [pow_succ]; ring

omit hc in
theorem full_of_no_fuel {low high : Nat} (hl : low ≤ high) (hh : high < 2 ^ c.w) (hf : 2 ^ c.w ≤ (high - low + 1) * 2 ^ 0) :
    low = 0 ∧ high = c.windowMask := by
  unfold Config.windowMask
  rw [pow_zero] at hf
  omega

theorem exit_of_no_fuel {low high : Nat} (hl : low ≤ high) (hh : high < 2 ^ c.w) (hf : 2 ^ c.w ≤ (high - low + 1) * 2 ^ 0) :
    classify c low high = .exit := by
  obtain ⟨rfl, rfl⟩ := full_of_no_fuel hl hh hf
  have := init_interval hc
  exact (classify_exit_iff hc _ _ this.nonempty.le this.fits).2 this

/-- From the relation to the machine: whatever the loop of R142 emits and leaves, `renorm` emits and leaves. -/
theorem renorm_of_loop {low high u low' high' u' : Nat} {bits : List Bool} (h : EncLoop c low high u bits low' high' u')
    (emits : Bool) (fuel count : Nat) (w : Writer) (hl : low ≤ high) (hh : high < 2 ^ c.w)
    (hf : 2 ^ c.w ≤ (high - low + 1) * 2 ^ fuel) :
    afterBits emits bits w .exit { low := low', high := high', underflow := u', count := count + bits.length, writer := w }
      (renorm c emits fuel { low := low, high := high, underflow := u, count := count, writer := w }) := by
  induction h generalizing fuel count w with
  | @exit low high u msb straddle =>
    have hk := (classify_exit_bits c low high).2 ⟨msb, straddle⟩
    have : renorm c emits fuel { low := low, high := high, underflow := u, count := count, writer := w } =
        (.exit, { low := low, high := high, underflow := u, count := count, writer := w }) := by
      cases fuel with
      | zero => rfl
      | succ fuel => exact renorm_exit _ _ _ _ hk
    rw [this]
    cases emits <;> simp [afterBits, Writer.emitAll]
  | @msbEq low high u low' high' u' bits msb rest ih =>
    have hk := (classify_msbEq_bits c low high).2 msb
    cases fuel with
    | zero => exact absurd (exit_of_no_fuel hc hl hh hf) (by rw [hk]; simp)
    | succ fuel =>
      obtain ⟨s1, s2, s3⟩ := (shift_step hc low high hl hh).1 hk
      rw [shiftLow_eq, shiftHigh_eq] at s1 s3
      rw [shiftHigh_eq] at s2
      rw [renorm_msbEq _ _ _ _ hk]
      have hb : msbBits c { low := low, high := high, underflow := u, count := count, writer := w } =
          high.testBit (c.w - 1) :: List.replicate u (!high.testBit (c.w - 1)) := by
        simp [msbBits, sharedMsb_eq hc high hh]
      have hlen : count + (high.testBit (c.w - 1) :: List.replicate u (!high.testBit (c.w - 1)) ++ bits).length =
          count + 1 + u + bits.length := by simp; omega
      rw [hlen]
      cases emits with
      | false =>
        have := ih fuel (count + 1 + u) w s1 s2 (room_of_shift s3 hf)
        simpa [afterBits, msbStep, settle, shift, shiftLow_eq, shiftHigh_eq] using this
      | true =>
        simp only [msbStep, if_true, hb, afterBits]
        rw [Writer.emitAll_append]
        rcases hm : w.emitAll (high.testBit (c.w - 1) :: List.replicate u (!high.testBit (c.w - 1))) with ⟨e, w1⟩
        cases e with
        | error => simp
        | stuck b => simp
        | done =>
          have := ih fuel (count + 1 + u) w1 s1 s2 (room_of_shift s3 hf)
          simpa [afterBits, settle, shift, shiftLow_eq, shiftHigh_eq] using this
  | @e3 low high u low' high' u' bits msb straddle room rest ih =>
    have hk := (classify_e3_bits c low high).2 ⟨msb, straddle⟩
    cases fuel with
    | zero => exact absurd (exit_of_no_fuel hc hl hh hf) (by rw [hk]; simp)
    | succ fuel =>
      obtain ⟨s1, s2, s3⟩ := (shift_step hc low high hl hh).2 hk
      rw [shiftLow_eq, shiftHigh_eq, e3Low_eq, e3High_of_bit c high straddle.2] at s1 s3
      rw [shiftHigh_eq, e3High_of_bit c high straddle.2] at s2
      rw [renorm_e3 _ _ _ _ hk, if_neg (show ¬u = c.underflowMax from room)]
      have := ih fuel count w s1 s2 (room_of_shift s3 hf)
      simpa [shift, defer, shiftLow_eq, shiftHigh_eq, e3Low_eq, e3High_of_bit c high straddle.2, Config.lowBit, Config.lowBitPos]
        using this

/-- From the relation to the machine, for a loop that meets a full counter (R144). -/
theorem renorm_of_overflow {low high u : Nat} {bits : List Bool} (h : EncOverflow c low high u bits)
    (emits : Bool) (fuel count : Nat) (w : Writer) (hl : low ≤ high) (hh : high < 2 ^ c.w)
    (hf : 2 ^ c.w ≤ (high - low + 1) * 2 ^ fuel) :
    ∃ r', afterBits emits bits w (.raised .counterOverflow) r'
      (renorm c emits fuel { low := low, high := high, underflow := u, count := count, writer := w }) := by
  induction h generalizing fuel count w with
  | @here low high u msb straddle full =>
    have hk := (classify_e3_bits c low high).2 ⟨msb, straddle⟩
    cases fuel with
    | zero => exact absurd (exit_of_no_fuel hc hl hh hf) (by rw [hk]; simp)
    | succ fuel =>
      rw [renorm_e3 _ _ _ _ hk, if_pos (show u = c.underflowMax from full)]
      exact ⟨{ low := low, high := high, underflow := u, count := count, writer := w },
        by cases emits <;> simp only [afterBits, Writer.emitAll]⟩
  | @msbEq low high u bits msb rest ih =>
    have hk := (classify_msbEq_bits c low high).2 msb
    cases fuel with
    | zero => exact absurd (exit_of_no_fuel hc hl hh hf) (by rw [hk]; simp)
    | succ fuel =>
      obtain ⟨s1, s2, s3⟩ := (shift_step hc low high hl hh).1 hk
      rw [shiftLow_eq, shiftHigh_eq] at s1 s3
      rw [shiftHigh_eq] at s2
      rw [renorm_msbEq _ _ _ _ hk]
      have hb : msbBits c { low := low, high := high, underflow := u, count := count, writer := w } =
          high.testBit (c.w - 1) :: List.replicate u (!high.testBit (c.w - 1)) := by
        simp [msbBits, sharedMsb_eq hc high hh]
      cases emits with
      | false =>
        obtain ⟨r', h'⟩ := ih fuel (count + 1 + u) w s1 s2 (room_of_shift s3 hf)
        exact ⟨r', by simpa [afterBits, msbStep, settle, shift, shiftLow_eq, shiftHigh_eq] using h'⟩
      | true =>
        simp only [msbStep, if_true, hb, afterBits]
        rw [Writer.emitAll_append]
        rcases hm : w.emitAll (high.testBit (c.w - 1) :: List.replicate u (!high.testBit (c.w - 1))) with ⟨e, w1⟩
        cases e with
        | error => exact ⟨{ low := 0, high := 0, underflow := 0, count := 0, writer := w1 }, by simp⟩
        | stuck b => exact ⟨{ low := 0, high := 0, underflow := 0, count := 0, writer := w1 }, by simp⟩
        | done =>
          obtain ⟨r', h'⟩ := ih fuel (count + 1 + u) w1 s1 s2 (room_of_shift s3 hf)
          exact ⟨r', by simpa [afterBits, settle, shift, shiftLow_eq, shiftHigh_eq] using h'⟩
  | @e3 low high u bits msb straddle room rest ih =>
    have hk := (classify_e3_bits c low high).2 ⟨msb, straddle⟩
    cases fuel with
    | zero => exact absurd (exit_of_no_fuel hc hl hh hf) (by rw [hk]; simp)
    | succ fuel =>
      obtain ⟨s1, s2, s3⟩ := (shift_step hc low high hl hh).2 hk
      rw [shiftLow_eq, shiftHigh_eq, e3Low_eq, e3High_of_bit c high straddle.2] at s1 s3
      rw [shiftHigh_eq, e3High_of_bit c high straddle.2] at s2
      rw [renorm_e3 _ _ _ _ hk, if_neg (show ¬u = c.underflowMax from room)]
      obtain ⟨r', h'⟩ := ih fuel count w s1 s2 (room_of_shift s3 hf)
      exact ⟨r', by simpa [shift, defer, shiftLow_eq, shiftHigh_eq, e3Low_eq, e3High_of_bit c high straddle.2, Config.lowBit,
        Config.lowBitPos] using h'⟩

/-- Every legal start ends the loop or meets a full counter. -/
theorem loop_or_overflow (fuel : Nat) (low high u : Nat) (hl : low ≤ high) (hh : high < 2 ^ c.w)
    (hf : 2 ^ c.w ≤ (high - low + 1) * 2 ^ fuel) :
    (∃ bits low' high' u', EncLoop c low high u bits low' high' u' ∧ bits.length + u' ≤ u + fuel) ∨
      ∃ bits, EncOverflow c low high u bits := by
  induction fuel generalizing low high u with
  | zero =>
    obtain ⟨m, s⟩ := (classify_exit_bits c low high).1 (exit_of_no_fuel hc hl hh hf)
    exact .inl ⟨[], low, high, u, .exit m s, by simp⟩
  | succ fuel ih =>
    cases hk : classify c low high with
    | exit =>
      obtain ⟨m, s⟩ := (classify_exit_bits c low high).1 hk
      exact .inl ⟨[], low, high, u, .exit m s, by simp⟩
    | msbEq =>
      obtain ⟨s1, s2, s3⟩ := (shift_step hc low high hl hh).1 hk
      rw [shiftLow_eq, shiftHigh_eq] at s1 s3
      rw [shiftHigh_eq] at s2
      have m := (classify_msbEq_bits c low high).1 hk
      rcases ih _ _ 0 s1 s2 (room_of_shift s3 hf) with ⟨bits, l, h, v, h1, h2⟩ | ⟨bits, h1⟩
      · exact .inl ⟨_, l, h, v, .msbEq m h1, by simp; omega⟩
      · exact .inr ⟨_, .msbEq m h1⟩
    | e3 =>
      obtain ⟨m, s⟩ := (classify_e3_bits c low high).1 hk
      obtain ⟨s1, s2, s3⟩ := (shift_step hc low high hl hh).2 hk
      rw [shiftLow_eq, shiftHigh_eq, e3Low_eq, e3High_of_bit c high s.2] at s1 s3
      rw [shiftHigh_eq, e3High_of_bit c high s.2] at s2
      by_cases hu : u = 2 ^ c.r - 1
      · exact .inr ⟨[], .here m s hu⟩
      · rcases ih _ _ (u + 1) s1 s2 (room_of_shift s3 hf) with ⟨bits, l, h, v, h1, h2⟩ | ⟨bits, h1⟩
        · exact .inl ⟨_, l, h, v, .e3 m s hu h1, by omega⟩
        · exact .inr ⟨_, .e3 m s hu h1⟩

/-- A full counter needs enough E3 steps. -/
theorem overflow_needs {low high u : Nat} {bits : List Bool} (h : EncOverflow c low high u bits) (fuel : Nat)
    (hl : low ≤ high) (hh : high < 2 ^ c.w) (hf : 2 ^ c.w ≤ (high - low + 1) * 2 ^ fuel) : 2 ^ c.r - 1 < u + fuel := by
  induction h generalizing fuel with
  | @here low high u msb straddle full =>
    cases fuel with
    | zero => exact absurd (exit_of_no_fuel hc hl hh hf) (by rw [(classify_e3_bits c low high).2 ⟨msb, straddle⟩]; simp)
    | succ fuel => omega
  | @msbEq low high u bits msb rest ih =>
    have hk := (classify_msbEq_bits c low high).2 msb
    cases fuel with
    | zero => exact absurd (exit_of_no_fuel hc hl hh hf) (by rw [hk]; simp)
    | succ fuel =>
      obtain ⟨s1, s2, s3⟩ := (shift_step hc low high hl hh).1 hk
      rw [shiftLow_eq, shiftHigh_eq] at s1 s3
      rw [shiftHigh_eq] at s2
      have := ih fuel s1 s2 (room_of_shift s3 hf)
      omega
  | @e3 low high u bits msb straddle room rest ih =>
    have hk := (classify_e3_bits c low high).2 ⟨msb, straddle⟩
    cases fuel with
    | zero => exact absurd (exit_of_no_fuel hc hl hh hf) (by rw [hk]; simp)
    | succ fuel =>
      obtain ⟨s1, s2, s3⟩ := (shift_step hc low high hl hh).2 hk
      rw [shiftLow_eq, shiftHigh_eq, e3Low_eq, e3High_of_bit c high straddle.2] at s1 s3
      rw [shiftHigh_eq, e3High_of_bit c high straddle.2] at s2
      have := ih fuel s1 s2 (room_of_shift s3 hf)
      omega

/-- A loop that meets a full counter emits nothing before it: after an MSB_EQ step too few passes are left to fill the counter. -/
theorem overflow_silent {low high u : Nat} {bits : List Bool} (h : EncOverflow c low high u bits) (hl : low ≤ high)
    (hh : high < 2 ^ c.w) : bits = [] := by
  induction h with
  | here => rfl
  | @msbEq low high u bits msb rest ih =>
    obtain ⟨s1, s2, -⟩ := (shift_step hc low high hl hh).1 ((classify_msbEq_bits c low high).2 msb)
    rw [shiftLow_eq, shiftHigh_eq] at s1
    rw [shiftHigh_eq] at s2
    have h1 := overflow_needs hc rest c.w s1 s2 (Nat.le_mul_of_pos_left _ (by omega))
    have h2 : c.w + 1 ≤ c.r := by have := hc.r_ge; have := hc.w_ge; omega
    have h3 := Nat.lt_two_pow_self (n := c.r)
    omega
  | @e3 low high u bits msb straddle room rest ih =>
    obtain ⟨s1, s2, -⟩ := (shift_step hc low high hl hh).2 ((classify_e3_bits c low high).2 ⟨msb, straddle⟩)
    rw [shiftLow_eq, shiftHigh_eq, e3Low_eq, e3High_of_bit c high straddle.2] at s1
    rw [shiftHigh_eq, e3High_of_bit c high straddle.2] at s2
    exact ih s1 s2

end EncRun

/-! ### DEC's loop -/

namespace DecRun

variable {c : Config} (hc : c.Valid)
include hc

/-- From the machine to the relation: a loop that ended at EXIT took the bits of the relation, at most `fuel` of them. -/
theorem loop_of_renorm (fuel : Nat) (r r' : DecRun) (hl : r.low ≤ r.high) (hh : r.high < 2 ^ c.w)
    (hf : 2 ^ c.w ≤ (r.high - r.low + 1) * 2 ^ fuel) (he : renorm c fuel r = (.exit, r')) :
    ∃ bits : List Bool, DecLoop c r.low r.high r.code bits r'.low r'.high r'.code ∧ bits.length ≤ fuel ∧
      r.reader.coming bits.length = bits.map .bit ∧ r'.reader = r.reader.past bits.length bits := by
  induction fuel generalizing r with
  | zero =>
    obtain rfl : r = r' := by simpa [renorm] using he
    obtain ⟨m, s⟩ := (classify_exit_bits c r.low r.high).1 (EncRun.exit_of_no_fuel hc hl hh hf)
    exact ⟨[], .exit m s, by simp, by simp [Reader.coming], by simp [Reader.past]⟩
  | succ fuel ih =>
    by_cases hk : classify c r.low r.high = .exit
    · rw [renorm_exit _ _ _ hk] at he
      obtain rfl : r = r' := by simpa using he
      obtain ⟨m, s⟩ := (classify_exit_bits c r.low r.high).1 hk
      exact ⟨[], .exit m s, by simp, by simp [Reader.coming], by simp [Reader.past]⟩
    · rw [renorm_step _ _ _ hk] at he
      have hsucc := fun k => Reader.coming_succ r.reader k
      have hpast := fun k b bits => Reader.past_succ r.reader k b bits
      rcases hr : r.reader.answer with ⟨a, rd⟩
      rw [hr] at he
      simp only [hr] at hsucc hpast
      cases a with
      | error => simp at he
      | never => simp at he
      | bit b =>
        cases hcl : classify c r.low r.high with
        | exit => exact absurd hcl hk
        | msbEq =>
          obtain ⟨s1, s2, s3⟩ := (EncRun.shift_step hc r.low r.high hl hh).1 hcl
          rw [hcl] at he
          obtain ⟨bits, h1, h2, h3, h4⟩ := ih _ s1 s2 (EncRun.room_of_shift s3 hf) he
          simp only [act, shift, withReader, shiftLow_eq, shiftHigh_eq, shiftCode_eq] at h1 h3 h4
          refine ⟨b :: bits, .msbEq ((classify_msbEq_bits c _ _).1 hcl) h1, by simpa using h2, ?_, ?_⟩
          · rw [List.length_cons, hsucc, List.map_cons, ← h3]; rfl
          · rw [List.length_cons, ← hpast]; exact h4
        | e3 =>
          obtain ⟨s1, s2, s3⟩ := (EncRun.shift_step hc r.low r.high hl hh).2 hcl
          rw [hcl] at he
          obtain ⟨m, s⟩ := (classify_e3_bits c _ _).1 hcl
          obtain ⟨bits, h1, h2, h3, h4⟩ := ih _ s1 s2 (EncRun.room_of_shift s3 hf) he
          simp only [act, shift, defer, withReader, shiftLow_eq, shiftHigh_eq, shiftCode_eq, e3Low_eq,
            e3High_of_bit c r.high s.2, e3Code] at h1 h3 h4
          refine ⟨b :: bits, .e3 m s h1, by simpa using h2, ?_, ?_⟩
          · rw [List.length_cons, hsucc, List.map_cons, ← h3]; rfl
          · rw [List.length_cons, ← hpast]; exact h4

omit hc in
/-- A loop that did not end at EXIT took fewer than `fuel` bits and stopped at the beat after them. -/
theorem renorm_stop (fuel : Nat) (r r' : DecRun) (e : LoopEnd) (he : renorm c fuel r = (e, r')) (hne : e ≠ .exit) :
    ∃ (bits : List Bool) (a : ReaderAnswer), bits.length < fuel ∧ (∀ b, a ≠ .bit b) ∧
      r.reader.coming (bits.length + 1) = bits.map .bit ++ [a] ∧ r'.reader = r.reader.past (bits.length + 1) bits ∧
      e = if a = .error then .raised .streamFault else .stuck false := by
  induction fuel generalizing r with
  | zero => simp [renorm] at he; exact absurd he.1.symm hne
  | succ fuel ih =>
    by_cases hk : classify c r.low r.high = .exit
    · rw [renorm_exit _ _ _ hk] at he
      simp at he; exact absurd he.1.symm hne
    · rw [renorm_step _ _ _ hk] at he
      have hp := Reader.answer_eq r.reader
      have hsucc := fun k => Reader.coming_succ r.reader k
      have hpast := fun k b bits => Reader.past_succ r.reader k b bits
      rcases hr : r.reader.answer with ⟨a, rd⟩
      rw [hr] at he hp
      simp only [hr] at hsucc hpast
      simp only [Prod.mk.injEq] at hp
      cases a with
      | error =>
        simp only [Prod.mk.injEq] at he
        refine ⟨[], .error, by simp, by simp, by rw [List.length_nil, hsucc]; simp [Reader.coming], ?_, by simp [he.1.symm]⟩
        rw [← he.2]; simp [withReader, Reader.past, hp.2]
      | never =>
        simp only [Prod.mk.injEq] at he
        refine ⟨[], .never, by simp, by simp, by rw [List.length_nil, hsucc]; simp [Reader.coming], ?_, by simp [he.1.symm]⟩
        rw [← he.2]; simp [withReader, Reader.past, hp.2]
      | bit b =>
        obtain ⟨bits, a, h1, h2, h3, h4, h5⟩ := ih _ he
        simp only [withReader] at h3 h4
        refine ⟨b :: bits, a, by simpa using h1, h2, ?_, ?_, h5⟩
        · rw [List.length_cons, hsucc, List.map_cons, List.cons_append, ← h3]; rfl
        · rw [List.length_cons, ← hpast]; exact h4

omit hc in
/-- A step whose beat the reader ends without a bit is the last. -/
theorem renorm_halt (fuel : Nat) (r : DecRun) (a : ReaderAnswer) (hk : classify c r.low r.high ≠ .exit) (ha : ∀ b, a ≠ .bit b)
    (hr : r.reader.coming 1 = [a]) :
    renorm c (fuel + 1) r = (if a = .error then .raised .streamFault else .stuck false, r.withReader (r.reader.past 1 [])) := by
  rw [Reader.coming_succ, List.cons.injEq] at hr
  have hp : r.reader.answer.2 = r.reader.past 1 [] := by rw [Reader.answer_eq]; simp [Reader.past]
  rw [renorm_step _ _ _ hk, ← hp]
  rcases hx : r.reader.answer with ⟨a', rd⟩
  rw [hx] at hr
  obtain rfl : a' = a := hr.1
  cases a' with
  | bit b => exact absurd rfl (ha b)
  | error => simp
  | never => simp

omit hc in
/-- A step whose beat gives a bit goes on from the shifted registers. -/
theorem renorm_bit (fuel k : Nat) (r : DecRun) (b : Bool) (l : List ReaderAnswer) (hk : classify c r.low r.high ≠ .exit)
    (hr : r.reader.coming (k + 1) = .bit b :: l) :
    renorm c (fuel + 1) r =
        renorm c fuel (((r.act c (classify c r.low r.high)).shift c b).withReader (r.reader.answer.2.consume b)) ∧
      (r.reader.answer.2.consume b).coming k = l := by
  rw [Reader.coming_succ, List.cons.injEq] at hr
  rw [renorm_step _ _ _ hk]
  rcases hx : r.reader.answer with ⟨a, rd⟩
  rw [hx] at hr
  obtain ⟨rfl, h2⟩ := hr
  exact ⟨rfl, h2⟩

/-- From the relation to the machine: a loop whose bits come ends at EXIT with what the relation says. -/
theorem renorm_of_loop {low high code low' high' code' : Nat} {bits : List Bool} (h : DecLoop c low high code bits low' high' code')
    (fuel : Nat) (rd : Reader) (hl : low ≤ high) (hh : high < 2 ^ c.w) (hf : 2 ^ c.w ≤ (high - low + 1) * 2 ^ fuel)
    (hr : rd.coming bits.length = bits.map .bit) :
    bits.length ≤ fuel ∧ renorm c fuel { low := low, high := high, code := code, reader := rd } =
      (.exit, { low := low', high := high', code := code', reader := rd.past bits.length bits }) := by
  induction h generalizing fuel rd with
  | @exit low high code msb straddle =>
    have hk := (classify_exit_bits c low high).2 ⟨msb, straddle⟩
    have hp : rd.past 0 [] = rd := Reader.past_zero rd
    refine ⟨by simp, ?_⟩
    rw [List.length_nil, hp]
    cases fuel with
    | zero => rfl
    | succ fuel => exact renorm_exit _ _ _ hk
  | @msbEq low high code low' high' code' b bits msb rest ih =>
    have hcl := (classify_msbEq_bits c low high).2 msb
    have hne : classify c low high ≠ .exit := by rw [hcl]; simp
    obtain ⟨s1, s2, s3⟩ := (EncRun.shift_step hc low high hl hh).1 hcl
    rw [shiftLow_eq, shiftHigh_eq] at s1 s3
    rw [shiftHigh_eq] at s2
    cases fuel with
    | zero => exact absurd (EncRun.exit_of_no_fuel hc hl hh hf) hne
    | succ fuel =>
      obtain ⟨e1, e2⟩ := renorm_bit fuel bits.length ⟨low, high, code, rd⟩ b _ hne hr
      obtain ⟨e0, e3⟩ := ih fuel _ s1 s2 (EncRun.room_of_shift s3 hf) e2
      refine ⟨by simpa using e0, ?_⟩
      rw [e1, List.length_cons, ← Reader.past_succ, ← e3, hcl]
      simp [act, shift, withReader, shiftLow_eq, shiftHigh_eq, shiftCode_eq]
  | @e3 low high code low' high' code' b bits msb straddle rest ih =>
    have hcl := (classify_e3_bits c low high).2 ⟨msb, straddle⟩
    have hne : classify c low high ≠ .exit := by rw [hcl]; simp
    obtain ⟨s1, s2, s3⟩ := (EncRun.shift_step hc low high hl hh).2 hcl
    rw [shiftLow_eq, shiftHigh_eq, e3Low_eq, e3High_of_bit c high straddle.2] at s1 s3
    rw [shiftHigh_eq, e3High_of_bit c high straddle.2] at s2
    cases fuel with
    | zero => exact absurd (EncRun.exit_of_no_fuel hc hl hh hf) hne
    | succ fuel =>
      obtain ⟨e1, e2⟩ := renorm_bit fuel bits.length ⟨low, high, code, rd⟩ b _ hne hr
      obtain ⟨e0, e3⟩ := ih fuel _ s1 s2 (EncRun.room_of_shift s3 hf) e2
      refine ⟨by simpa using e0, ?_⟩
      rw [e1, List.length_cons, ← Reader.past_succ, ← e3, hcl]
      simp [act, shift, defer, withReader, shiftLow_eq, shiftHigh_eq, shiftCode_eq, e3Low_eq, e3High_of_bit c high straddle.2,
        e3Code, Config.lowBit, Config.lowBitPos]

/-- From the relation to the machine: a loop that would take `all` stops at the beat after its first `k` bits when the reader ends that
beat without a bit. -/
theorem renorm_of_loop_stop {low high code low' high' code' : Nat} {all : List Bool} (h : DecLoop c low high code all low' high' code')
    (fuel k : Nat) (a : ReaderAnswer) (rd : Reader) (hl : low ≤ high) (hh : high < 2 ^ c.w)
    (hf : 2 ^ c.w ≤ (high - low + 1) * 2 ^ fuel) (hk : k < all.length) (ha : ∀ b, a ≠ .bit b)
    (hr : rd.coming (k + 1) = (all.take k).map .bit ++ [a]) :
    ∃ r', renorm c fuel { low := low, high := high, code := code, reader := rd } =
        (if a = .error then .raised .streamFault else .stuck false, r') ∧ r'.reader = rd.past (k + 1) (all.take k) := by
  induction h generalizing fuel k rd with
  | exit => simp at hk
  | @msbEq low high code low' high' code' b bits msb rest ih =>
    have hcl := (classify_msbEq_bits c low high).2 msb
    have hne : classify c low high ≠ .exit := by rw [hcl]; simp
    obtain ⟨s1, s2, s3⟩ := (EncRun.shift_step hc low high hl hh).1 hcl
    rw [shiftLow_eq, shiftHigh_eq] at s1 s3
    rw [shiftHigh_eq] at s2
    cases fuel with
    | zero => exact absurd (EncRun.exit_of_no_fuel hc hl hh hf) hne
    | succ fuel =>
      cases k with
      | zero => exact ⟨_, renorm_halt fuel ⟨low, high, code, rd⟩ a hne ha hr, rfl⟩
      | succ k =>
        obtain ⟨e1, e2⟩ := renorm_bit fuel (k + 1) ⟨low, high, code, rd⟩ b _ hne hr
        obtain ⟨r', e3, e4⟩ := ih fuel k _ s1 s2 (EncRun.room_of_shift s3 hf) (by simpa using hk) e2
        refine ⟨r', ?_, by rw [e4]; exact Reader.past_succ rd _ b _⟩
        rw [e1, ← e3, hcl]
        simp [act, shift, withReader, shiftLow_eq, shiftHigh_eq, shiftCode_eq]
  | @e3 low high code low' high' code' b bits msb straddle rest ih =>
    have hcl := (classify_e3_bits c low high).2 ⟨msb, straddle⟩
    have hne : classify c low high ≠ .exit := by rw [hcl]; simp
    obtain ⟨s1, s2, s3⟩ := (EncRun.shift_step hc low high hl hh).2 hcl
    rw [shiftLow_eq, shiftHigh_eq, e3Low_eq, e3High_of_bit c high straddle.2] at s1 s3
    rw [shiftHigh_eq, e3High_of_bit c high straddle.2] at s2
    cases fuel with
    | zero => exact absurd (EncRun.exit_of_no_fuel hc hl hh hf) hne
    | succ fuel =>
      cases k with
      | zero => exact ⟨_, renorm_halt fuel ⟨low, high, code, rd⟩ a hne ha hr, rfl⟩
      | succ k =>
        obtain ⟨e1, e2⟩ := renorm_bit fuel (k + 1) ⟨low, high, code, rd⟩ b _ hne hr
        obtain ⟨r', e3, e4⟩ := ih fuel k _ s1 s2 (EncRun.room_of_shift s3 hf) (by simpa using hk) e2
        refine ⟨r', ?_, by rw [e4]; exact Reader.past_succ rd _ b _⟩
        rw [e1, ← e3, hcl]
        simp [act, shift, defer, withReader, shiftLow_eq, shiftHigh_eq, shiftCode_eq, e3Low_eq, e3High_of_bit c high straddle.2,
          e3Code, Config.lowBit, Config.lowBitPos]

end DecRun

end Sys2Proof.Machine
end

