-- ==== Sys2Proof/Laws/PerInstr.lean ====
section
/-! SUPPORT. The family EncodeFields: the word of every command carries its unit in UNIT, 0 in RSV, and is refused by the other unit
(30_encoding.md R81, R85 to R88). -/

namespace Sys2Proof.Laws.EncodeFields

/-- What the word of a well-formed command carries. -/
def Statement (i : Instr) : Prop :=
  i.wellFormed = true →
    unitField (encode i) = i.unit.number ∧ rsvField (encode i) = 0 ∧
      ∀ u, u ≠ i.unit → decode u (encode i) = .error .wrongUnit

/-- From the fields to the refusal on the other port. -/
theorem of_fields (i : Instr) (h1 : unitField (encode i) = i.unit.number) (h2 : rsvField (encode i) = 0) :
    unitField (encode i) = i.unit.number ∧ rsvField (encode i) = 0 ∧
      ∀ u, u ≠ i.unit → decode u (encode i) = .error .wrongUnit := by
  refine ⟨h1, h2, fun u hu => ?_⟩
  have hn : i.unit.number ≠ u.number := by
    intro h
    apply hu
    generalize i.unit = v at h
    cases u <;> cases v <;> first | rfl | exact absurd h (by decide)
  unfold decode
  rw [if_pos (by rw [h1]; exact hn)]

theorem fits {a : Nat} (h : argFits a = true) : a < 2 ^ 32 := of_decide_eq_true h

theorem encInit (n : Nat) : Statement (.encInit n) := fun h =>
  of_fields _ (unitField_packWord _ (by norm_num) (by norm_num) (fits h)) (rsvField_packWord _ (by norm_num) (by norm_num) (fits h))
theorem encExpand (n : Nat) : Statement (.encExpand n) := fun h =>
  of_fields _ (unitField_packWord _ (by norm_num) (by norm_num) (fits h)) (rsvField_packWord _ (by norm_num) (by norm_num) (fits h))
theorem encSym (n : Nat) : Statement (.encSym n) := fun h =>
  of_fields _ (unitField_packWord _ (by norm_num) (by norm_num) (fits h)) (rsvField_packWord _ (by norm_num) (by norm_num) (fits h))
theorem encFlush (f : Bool) : Statement (.encFlush f) := fun _ =>
  of_fields _ (unitField_packWord _ (by norm_num) (by norm_num) (by norm_num))
    (rsvField_packWord _ (by norm_num) (by norm_num) (by norm_num))
theorem encEst (n : Nat) : Statement (.encEst n) := fun h =>
  of_fields _ (unitField_packWord _ (by norm_num) (by norm_num) (fits h)) (rsvField_packWord _ (by norm_num) (by norm_num) (fits h))
theorem encSave : Statement .encSave := fun _ =>
  of_fields _ (unitField_packWord _ (by norm_num) (by norm_num) (by norm_num))
    (rsvField_packWord _ (by norm_num) (by norm_num) (by norm_num))
theorem encRestore (f : Bool) (n : Nat) : Statement (.encRestore f n) := fun h =>
  of_fields _ (unitField_packWord _ (by norm_num) (by norm_num) (fits h)) (rsvField_packWord _ (by norm_num) (by norm_num) (fits h))
theorem encDelete (n : Nat) : Statement (.encDelete n) := fun h =>
  of_fields _ (unitField_packWord _ (by norm_num) (by norm_num) (fits h)) (rsvField_packWord _ (by norm_num) (by norm_num) (fits h))
theorem encReadp (n : Nat) : Statement (.encReadp n) := fun h =>
  of_fields _ (unitField_packWord _ (by norm_num) (by norm_num) (fits h)) (rsvField_packWord _ (by norm_num) (by norm_num) (fits h))
theorem encReadreg (n : Nat) : Statement (.encReadreg n) := fun h =>
  of_fields _ (unitField_packWord _ (by norm_num) (by norm_num) (fits h)) (rsvField_packWord _ (by norm_num) (by norm_num) (fits h))
theorem decInit (n : Nat) : Statement (.decInit n) := fun h =>
  of_fields _ (unitField_packWord _ (by norm_num) (by norm_num) (fits h)) (rsvField_packWord _ (by norm_num) (by norm_num) (fits h))
theorem decExpand (n : Nat) : Statement (.decExpand n) := fun h =>
  of_fields _ (unitField_packWord _ (by norm_num) (by norm_num) (fits h)) (rsvField_packWord _ (by norm_num) (by norm_num) (fits h))
theorem decSym : Statement .decSym := fun _ =>
  of_fields _ (unitField_packWord _ (by norm_num) (by norm_num) (by norm_num))
    (rsvField_packWord _ (by norm_num) (by norm_num) (by norm_num))
theorem decSave : Statement .decSave := fun _ =>
  of_fields _ (unitField_packWord _ (by norm_num) (by norm_num) (by norm_num))
    (rsvField_packWord _ (by norm_num) (by norm_num) (by norm_num))
theorem decRestore (f : Bool) (n : Nat) : Statement (.decRestore f n) := fun h =>
  of_fields _ (unitField_packWord _ (by norm_num) (by norm_num) (fits h)) (rsvField_packWord _ (by norm_num) (by norm_num) (fits h))
theorem decDelete (n : Nat) : Statement (.decDelete n) := fun h =>
  of_fields _ (unitField_packWord _ (by norm_num) (by norm_num) (fits h)) (rsvField_packWord _ (by norm_num) (by norm_num) (fits h))
theorem decReadp (n : Nat) : Statement (.decReadp n) := fun h =>
  of_fields _ (unitField_packWord _ (by norm_num) (by norm_num) (fits h)) (rsvField_packWord _ (by norm_num) (by norm_num) (fits h))
theorem decReadreg (n : Nat) : Statement (.decReadreg n) := fun h =>
  of_fields _ (unitField_packWord _ (by norm_num) (by norm_num) (fits h)) (rsvField_packWord _ (by norm_num) (by norm_num) (fits h))

end Sys2Proof.Laws.EncodeFields
end

