-- ==== Sys2Proof/Machine/Assembler.lean ====
section
/-! DEFINITION. The assembler syntax of one line (30_encoding.md R92), on lists of characters (log 18). -/

namespace Sys2Proof.Machine

/-- What a line of assembler is. -/
inductive AsmLine where
  /-- Nothing but space and comment. -/
  | empty
  | command (i : Instr)
  /-- No command of the grammar. -/
  | bad
  deriving DecidableEq, Repr

/-- White space inside a line. -/
def isBlank (c : Char) : Bool := c == ' ' || c == '\t'

/-- "A comment runs from `;` to the end of the line" (R92). -/
def stripComment (l : List Char) : List Char := l.takeWhile (fun c => !(c == ';'))

/-- A text without the white space at its two ends. -/
def trimBlanks (l : List Char) : List Char := ((l.dropWhile isBlank).reverse.dropWhile isBlank).reverse

/-- The parts of a text between its commas. -/
def splitCommas : List Char → List (List Char)
  | [] => [[]]
  | c :: cs =>
    match splitCommas cs with
    | [] => [[c]]
    | part :: parts => if c == ',' then [] :: part :: parts else (c :: part) :: parts

/-- The value of a digit in a base of at most 16. -/
def digitValue (base : Nat) (c : Char) : Option Nat :=
  let n := c.toNat
  let v := if 48 ≤ n ∧ n ≤ 57 then some (n - 48) else if 97 ≤ n ∧ n ≤ 102 then some (n - 87) else if 65 ≤ n ∧ n ≤ 70 then some (n - 55) else none
  match v with
  | some d => if d < base then some d else none
  | none => none

/-- A run of digits continued from `acc`. -/
def digitsFrom (base : Nat) : Nat → List Char → Option Nat
  | acc, [] => some acc
  | acc, c :: cs =>
    match digitValue base c with
    | some d => digitsFrom base (acc * base + d) cs
    | none => none

/-- A decimal or `0x` hexadecimal natural (R92). -/
def natOf (l : List Char) : Option Nat :=
  match l with
  | [] => none
  | '0' :: 'x' :: d :: ds => digitsFrom 16 0 (d :: ds)
  | d :: ds => digitsFrom 10 0 (d :: ds)

/-- An operand that fits 32 bits: "An operand that does not fit 32 bits cannot be assembled" (R92). -/
def operandOf (l : List Char) : Option Nat :=
  match natOf l with
  | some v => if argFits v then some v else none
  | none => none

/-- The register names of 10_state.md R39, in the order of their numbers. -/
def registerNames : List (List Char) :=
  ["MODE".toList, "N".toList, "LOW".toList, "HIGH".toList, "UNDERFLOW".toList, "CODE".toList, "TMP_RANGE".toList, "TOTAL".toList,
   "SNAP_VALID".toList, "CFG_W".toList, "CFG_R".toList, "CFG_NMAX".toList, "CFG_NSNAP".toList]

/-- A register operand: a number, or a name of 10_state.md R39 (R92). -/
def registerOf (l : List Char) : Option Nat :=
  match operandOf l with
  | some v => some v
  | none => registerNames.findIdx? (fun name => name == l)

/-- A command of one operand. -/
def asmOne (ops : List (List Char)) (read : List Char → Option Nat) (mk : Nat → Instr) : AsmLine :=
  match ops with
  | [a] => match read a with
    | some v => .command (mk v)
    | none => .bad
  | _ => .bad

/-- A command of no operand. -/
def asmNone (ops : List (List Char)) (i : Instr) : AsmLine := if ops.isEmpty then .command i else .bad

/-- RESTORE: a handle, then the keyword `cleanup` or nothing. -/
def asmRestore (ops : List (List Char)) (mk : Bool → Nat → Instr) : AsmLine :=
  match ops with
  | [a] => asmOne [a] operandOf (mk false)
  | [a, k] => if k == "cleanup".toList then asmOne [a] operandOf (mk true) else .bad
  | _ => .bad

/-- FLUSH: the keyword `force` or nothing. -/
def asmFlush (ops : List (List Char)) : AsmLine :=
  match ops with
  | [] => .command (.encFlush false)
  | [k] => if k == "force".toList then .command (.encFlush true) else .bad
  | _ => .bad

/-- A mnemonic with its operands (R92); `ENC.FLUSHF` is `ENC.FLUSH force` (R94). -/
def asmCommand (name : List Char) (ops : List (List Char)) : AsmLine :=
  if name == "ENC.INIT".toList then asmOne ops operandOf .encInit
  else if name == "ENC.EXPAND".toList then asmOne ops operandOf .encExpand
  else if name == "ENC.SYM".toList then asmOne ops operandOf .encSym
  else if name == "ENC.FLUSH".toList then asmFlush ops
  else if name == "ENC.FLUSHF".toList then asmNone ops (.encFlush true)
  else if name == "ENC.EST".toList then asmOne ops operandOf .encEst
  else if name == "ENC.SAVE".toList then asmNone ops .encSave
  else if name == "ENC.RESTORE".toList then asmRestore ops .encRestore
  else if name == "ENC.DELETE".toList then asmOne ops operandOf .encDelete
  else if name == "ENC.READP".toList then asmOne ops operandOf .encReadp
  else if name == "ENC.READREG".toList then asmOne ops registerOf .encReadreg
  else if name == "DEC.INIT".toList then asmOne ops operandOf .decInit
  else if name == "DEC.EXPAND".toList then asmOne ops operandOf .decExpand
  else if name == "DEC.SYM".toList then asmNone ops .decSym
  else if name == "DEC.SAVE".toList then asmNone ops .decSave
  else if name == "DEC.RESTORE".toList then asmRestore ops .decRestore
  else if name == "DEC.DELETE".toList then asmOne ops operandOf .decDelete
  else if name == "DEC.READP".toList then asmOne ops operandOf .decReadp
  else if name == "DEC.READREG".toList then asmOne ops registerOf .decReadreg
  else .bad

/-- One line of assembler (R92). -/
def assembleLine (line : List Char) : AsmLine :=
  let l := trimBlanks (stripComment line)
  if l.isEmpty then .empty
  else
    let rest := trimBlanks (l.dropWhile (fun c => !isBlank c))
    asmCommand (l.takeWhile (fun c => !isBlank c)) (if rest.isEmpty then [] else (splitCommas rest).map trimBlanks)

/-- The command word of one line of assembler. -/
def assembleWord (line : List Char) : Option Word :=
  match assembleLine line with
  | .command i => some (encode i)
  | .empty | .bad => none

end Sys2Proof.Machine
end

