-- ==== Sys2Proof/Tests/Slice0.lean ====
section
/-! SUPPORT. Tests of the model against the spec's own vectors (95_test_vectors.md, by section), the refusals of the well-formedness
checks, and one witness for the hypotheses of each claim. -/

open Sys2Proof Sys2Proof.Machine

namespace Sys2Proof.Tests

/-! ### Well-formedness: each check refuses a term that breaks it (00_scope.md R5 to R8; 30_encoding.md R91, R92) -/

theorem test_valid_reference : Config.reference.valid = true := by decide
theorem test_valid_overflow_config : ({ w := 5, r := 8, nmax := 7, nsnap := 0 } : Config).valid = true := by decide
theorem test_invalid_w_low : ({ w := 2, r := 8, nmax := 1, nsnap := 0 } : Config).valid = false := by decide
theorem test_invalid_w_high : ({ w := 33, r := 64, nmax := 1, nsnap := 0 } : Config).valid = false := by decide
theorem test_invalid_r_low : ({ w := 16, r := 29, nmax := 1, nsnap := 0 } : Config).valid = false := by decide
theorem test_invalid_r_low_small : ({ w := 3, r := 4, nmax := 1, nsnap := 0 } : Config).valid = false := by decide
theorem test_invalid_r_high : ({ w := 16, r := 65, nmax := 1, nsnap := 0 } : Config).valid = false := by decide
theorem test_invalid_nmax_low : ({ w := 16, r := 32, nmax := 0, nsnap := 0 } : Config).valid = false := by decide
theorem test_invalid_nmax_high : ({ w := 5, r := 8, nmax := 8, nsnap := 0 } : Config).valid = false := by decide
theorem test_invalid_nsnap : ({ w := 16, r := 32, nmax := 1, nsnap := 65 } : Config).valid = false := by decide

/-- Every constructor with an ARG operand, at the first value that does not fit. -/
theorem test_ill_formed :
    (Instr.encInit (2 ^ 32)).wellFormed = false ∧ (Instr.encExpand (2 ^ 32)).wellFormed = false ∧
    (Instr.encSym (2 ^ 32)).wellFormed = false ∧ (Instr.encEst (2 ^ 32)).wellFormed = false ∧
    (Instr.encRestore true (2 ^ 32)).wellFormed = false ∧ (Instr.encDelete (2 ^ 32)).wellFormed = false ∧
    (Instr.encReadp (2 ^ 32)).wellFormed = false ∧ (Instr.encReadreg (2 ^ 32)).wellFormed = false ∧
    (Instr.decInit (2 ^ 32)).wellFormed = false ∧ (Instr.decExpand (2 ^ 32)).wellFormed = false ∧
    (Instr.decRestore false (2 ^ 32)).wellFormed = false ∧ (Instr.decDelete (2 ^ 32)).wellFormed = false ∧
    (Instr.decReadp (2 ^ 32)).wellFormed = false ∧ (Instr.decReadreg (2 ^ 32)).wellFormed = false := by decide

theorem test_well_formed : (Instr.encInit (2 ^ 32 - 1)).wellFormed = true ∧ Instr.decSym.wellFormed = true := by decide

/-! ### Decoding: one word per command (95_test_vectors.md §2.3), and the illegal words of the same section -/

theorem test_decode_encInit : decode .enc 0x0100000000000101 = .ok (.encInit 257) := by rfl
theorem test_decode_encExpand : decode .enc 0x0200000000000008 = .ok (.encExpand 8) := by rfl
theorem test_decode_encSym : decode .enc 0x0300000000000048 = .ok (.encSym 72) := by rfl
theorem test_decode_encFlush : decode .enc 0x0400000000000000 = .ok (.encFlush false) := by rfl
theorem test_decode_encFlush_force : decode .enc 0x0480000000000000 = .ok (.encFlush true) := by rfl
theorem test_decode_encEst : decode .enc 0x0500000000000065 = .ok (.encEst 101) := by rfl
theorem test_decode_encSave : decode .enc 0x0600000000000000 = .ok .encSave := by rfl
theorem test_decode_encRestore_cleanup : decode .enc 0x0780000000000000 = .ok (.encRestore true 0) := by rfl
theorem test_decode_encRestore : decode .enc 0x0700000000000003 = .ok (.encRestore false 3) := by rfl
theorem test_decode_encDelete : decode .enc 0x0800000000000001 = .ok (.encDelete 1) := by rfl
theorem test_decode_encReadp : decode .enc 0x0900000000000002 = .ok (.encReadp 2) := by rfl
theorem test_decode_encReadreg : decode .enc 0x0A00000000000004 = .ok (.encReadreg 4) := by rfl
theorem test_decode_decInit : decode .dec 0x1100000000000101 = .ok (.decInit 257) := by rfl
theorem test_decode_decExpand : decode .dec 0x1200000000000008 = .ok (.decExpand 8) := by rfl
theorem test_decode_decSym : decode .dec 0x1300000000000000 = .ok .decSym := by rfl
theorem test_decode_decSave : decode .dec 0x1600000000000000 = .ok .decSave := by rfl
theorem test_decode_decRestore_cleanup : decode .dec 0x1780000000000002 = .ok (.decRestore true 2) := by rfl
theorem test_decode_decDelete : decode .dec 0x1800000000000003 = .ok (.decDelete 3) := by rfl
theorem test_decode_decReadp : decode .dec 0x1900000000000002 = .ok (.decReadp 2) := by rfl
theorem test_decode_decReadreg : decode .dec 0x1A00000000000005 = .ok (.decReadreg 5) := by rfl

theorem test_illegal_enc :
    decode .enc 0x0000000000000000 = .error .reservedOp ∧ decode .enc 0x0B00000000000000 = .error .reservedOp ∧
    decode .enc 0x2100000000000001 = .error .wrongUnit ∧ decode .enc 0x1100000000000004 = .error .wrongUnit ∧
    decode .enc 0x0300000100000000 = .error .rsvNotZero ∧ decode .enc 0x0380000000000000 = .error .flagNotZero ∧
    decode .enc 0x0600000000000001 = .error .argNotZero ∧ decode .enc 0x0400000000000001 = .error .argNotZero :=
  ⟨rfl, rfl, rfl, rfl, rfl, rfl, rfl, rfl⟩

theorem test_illegal_dec :
    decode .dec 0x0300000000000000 = .error .wrongUnit ∧ decode .dec 0x1000000000000000 = .error .reservedOp ∧
    decode .dec 0x1400000000000000 = .error .reservedOp ∧ decode .dec 0x1500000000000000 = .error .reservedOp ∧
    decode .dec 0x1380000000000000 = .error .flagNotZero ∧ decode .dec 0x1300000000000005 = .error .argNotZero ∧
    decode .dec 0x1680000000000000 = .error .flagNotZero := ⟨rfl, rfl, rfl, rfl, rfl, rfl, rfl⟩

/-- The last bit of RSV, and ARG at its greatest value. -/
theorem test_decode_edges :
    decode .enc 0x0340000000000000 = .error .rsvNotZero ∧ decode .dec 0x1AFFFFFFFFFFFFFF = .error .rsvNotZero ∧
    decode .enc 0x01000000FFFFFFFF = .ok (.encInit 4294967295) := ⟨rfl, rfl, rfl⟩

/-- The assembler (30_encoding.md R92, R94; 95_test_vectors.md §2.3). -/
theorem test_assembler :
    assembleWord "ENC.RESTORE 0, cleanup".toList = some 0x0780000000000000 ∧
    assembleWord "DEC.READREG CODE ; comment".toList = some 0x1A00000000000005 ∧
    assembleWord "ENC.FLUSHF".toList = some 0x0480000000000000 ∧
    assembleWord "ENC.INIT 0x101".toList = some 0x0100000000000101 ∧
    assembleWord "ENC.INIT 4294967296".toList = none := by decide +kernel

/-! ### One command each, against the vectors of 95_test_vectors.md -/

/-- A table of the reference configuration that begins with these slots. -/
def table (p : List Nat) : Model := { n := p.length - 1, p := p ++ List.replicate (1024 - p.length) 0 }

/-- The reference machine with ENC in READY. -/
def encAt (low high underflow : Nat) (m : Model) : State :=
  State.reset.withEnc { State.reset.enc with mode := .ready, low := low, high := high, underflow := underflow, model := m }

/-- The reference machine with DEC in READY and the reader's next bits. -/
def decAt (low high code : Nat) (m : Model) (bits : List Bool) : State :=
  (State.reset.withDec { State.reset.dec with mode := .ready, low := low, high := high, code := code, model := m }).withReader
    { State.reset.reader with script := bits.map .bit }

/-- A string of `0` and `1` as bits. -/
def bitsOf (str : String) : List Bool := str.toList.map (fun ch => ch == '1')

/-- A next state with this response of `u` that meets `p`. -/
def answers (o : Host.Outcome State Fault Refusal) (u : Half) (st : Status) (data : Nat) (p : State → Bool) : Bool :=
  match o with
  | .next t => decide (t.ctl u = .responding { status := st, data := BitVec.ofNat 64 data }) && p t
  | .fault _ => false
  | .refused _ => false

/-- ENC's interval and pending count. -/
def encIs (low high underflow : Nat) (t : State) : Bool :=
  decide (t.enc.low = low ∧ t.enc.high = high ∧ t.enc.underflow = underflow)

/-- `P = [0, ..., 257]` with one more from slot 73 on: the table after `ENC.INIT 257`, `ENC.SYM 72`. -/
def helloTable : Model := table ((List.range 258).map (fun i => if 72 < i then i + 1 else i))

/-- §2.4: after reset `ENC.INIT 4`. -/
theorem test_encInit : answers (exec (.encInit 4) State.reset) .enc .ok 0
    (fun t => encIs 0 0xFFFF 0 t && decide (t.enc.model.p.take 5 = [0, 1, 2, 3, 4] ∧ t.enc.mode = .ready)) = true := by
  decide +kernel

/-- §2.4: InvalidArgument wins over OutOfMemory. -/
theorem test_encInit_order : answers (exec (.encInit 20000) State.reset) .enc .invalidArgument 0 (fun _ => true) = true ∧
    answers (exec (.encInit 1024) State.reset) .enc .outOfMemory 0 (fun _ => true) = true := by decide +kernel

/-- §1.6: EXPAND with the corrected scheme of 40_model.md R117. -/
theorem test_encExpand : answers (exec (.encExpand 8) (encAt 0x7618 0xC41F 3 (table [0, 2, 4, 6, 8]))) .enc .ok 0
    (fun t => encIs 0x7618 0xC41F 3 t && decide (t.enc.model.p.take 9 = [0, 2, 4, 6, 8, 9, 10, 11, 12])) = true := by
  decide +kernel

/-- §2.1: M.EXPAND with one scale, and with two. -/
theorem test_expand_scales :
    ((table [0, 16000, 16383]).expand Config.reference 5).map (·.p.take 6) = some [0, 8000, 8191, 8192, 8193, 8194] ∧
    (({ n := 1, p := [0, 7, 0, 0, 0, 0, 0] } : Model).expand { w := 5, r := 8, nmax := 6, nsnap := 0 } 6).map (·.p) =
      some [0, 1, 2, 3, 4, 5, 6] := by decide +kernel

/-- §2.1: M.SCALE with repair. -/
theorem test_scale : (table [0, 1, 2, 3, 16384]).scale.p.take 5 = [0, 1, 2, 3, 8192] ∧
    (table [0, 16381, 16382, 16383, 16384]).scale.p.take 5 = [0, 8190, 8191, 8192, 8193] := by decide +kernel

/-- §1.3, §3.3: the first symbol of "Hello", an MSB_EQ run followed by E3 steps; and the second, whose first step emits the pending
bits. -/
theorem test_encSym : answers (exec (.encSym 72) (encAt 0 0xFFFF 0 (table (List.range 258)))) .enc .ok 4
    (fun t => encIs 0x5C00 0xDB7F 3 t && decide (t.writer.accepted = bitsOf "0100" ∧ t.enc.model = helloTable)) = true ∧
    answers (exec (.encSym 101) (encAt 0x5C00 0xDB7F 3 helloTable)) .enc .ok 11
      (fun t => encIs 0x6800 0xE5FF 0 t && decide (t.writer.accepted = bitsOf "10000001110")) = true := by
  decide +kernel

/-- §2.4: the same symbol estimated: the same count and state, no bit. -/
theorem test_encEst : answers (exec (.encEst 101) (encAt 0x5C00 0xDB7F 3 helloTable)) .enc .ok 11
    (fun t => encIs 0x6800 0xE5FF 0 t && decide (t.writer.accepted = [] ∧ t.enc.model.total = 259)) = true := by decide +kernel

/-- §2.5: both values of the first bit. -/
theorem test_encFlush : answers (exec (.encFlush false) (encAt 0x4CC8 0xD54F 1 (table [0, 3, 4, 6, 7]))) .enc .ok 3
    (fun t => encIs 0x4CC8 0xD54F 0 t && decide (t.writer.accepted = bitsOf "100" ∧ t.enc.mode = .flushed)) = true ∧
    answers (exec (.encFlush false) (encAt 0x0DD0 0xA9FF 0 (table [0, 1, 2]))) .enc .ok 2
      (fun t => decide (t.writer.accepted = bitsOf "01")) = true := by decide +kernel

/-- §2.5: a writer error on the first emit. -/
theorem test_encFlush_error :
    answers (exec (.encFlush false) ((encAt 0 0xFFFF 0 (table [0, 1, 2])).withWriter { State.reset.writer with script := [.error] }))
      .enc .streamFault 0 (fun t => decide (t.writer.accepted = [] ∧ t.enc.mode = .fault ∧ t.enc.model.n = 2)) = true := by
  decide +kernel

/-- §2.8: the 96th symbol of the overflow run. -/
theorem test_encSym_overflow :
    answers (exec (.encSym 2) ((State.resetIn { w := 5, r := 8, nmax := 7, nsnap := 0 }).withEnc
      { Enc.reset { w := 5, r := 8, nmax := 7, nsnap := 0 } 0 with
        mode := .ready, low := 0x08, high := 0x1F, underflow := 253, model := { n := 7, p := List.range 8 } }))
      .enc .counterOverflow 0 (fun t => decide (t.enc.mode = .fault ∧ t.writer.accepted = [])) = true := by decide +kernel

/-- The reference machine with ENC in READY and these slots valid. -/
def encSlots (valid : List Bool) : State :=
  (encAt 0 0xFFFF 0 (table [0, 1, 2])).withEnc
    { (encAt 0 0xFFFF 0 (table [0, 1, 2])).enc with
      slots := valid.map (fun v => { EncSlot.reset with valid := v, low := 7, high := 0xF000, underflow := 5, model := table [0, 9] }) }

/-- §2.4: the lowest free handle; OutOfMemory when there is none. -/
theorem test_encSave : answers (exec .encSave (encSlots [true, false, true, false])) .enc .ok 1
    (fun t => decide (t.enc.slots.map (·.valid) = [true, true, true, false] ∧ (t.enc.slots.getD 1 EncSlot.reset).high = 0xFFFF)) = true ∧
    answers (exec .encSave (encSlots [true, true, true, true])) .enc .outOfMemory 0 (fun _ => true) = true := by decide +kernel

/-- §1.5, §2.4: the state of the slot comes back and cleanup frees it; `h >= NSNAP` is refused. -/
theorem test_encRestore : answers (exec (.encRestore true 2) (encSlots [true, false, true, false])) .enc .ok 0
    (fun t => encIs 7 0xF000 5 t && decide (t.enc.model.p.take 3 = [0, 9, 2] ∧ t.enc.model.n = 1 ∧
      t.enc.slots.map (·.valid) = [true, false, false, false])) = true ∧
    answers (exec (.encRestore false 4) (encSlots [true, true, true, true])) .enc .invalidArgument 0 (fun _ => true) = true := by
  decide +kernel

/-- §2.4, P4: DELETE of a valid and of a free slot. -/
theorem test_encDelete : answers (exec (.encDelete 2) (encSlots [true, false, true, false])) .enc .ok 0
    (fun t => decide (t.enc.slots.map (·.valid) = [true, false, false, false]) && encIs 0 0xFFFF 0 t) = true ∧
    answers (exec (.encDelete 1) (encSlots [true, false, true, false])) .enc .invalidArgument 0 (fun _ => true) = true := by
  decide +kernel

/-- §2.4: after `ENC.INIT 2`, `ENC.SYM 0`; above `N` is refused. -/
theorem test_encReadp : answers (exec (.encReadp 2) (encAt 0 0xFFFF 0 (table [0, 2, 3]))) .enc .ok 3 (fun _ => true) = true ∧
    answers (exec (.encReadp 3) (encAt 0 0xFFFF 0 (table [0, 2, 3]))) .enc .invalidArgument 0 (fun _ => true) = true := by
  decide +kernel

/-- §2.4: registers after reset, and the register of DEC alone. -/
theorem test_encReadreg : answers (exec (.encReadreg 3) State.reset) .enc .ok 0xFFFF (fun _ => true) = true ∧
    answers (exec (.encReadreg 7) State.reset) .enc .invalidState 0 (fun _ => true) = true ∧
    answers (exec (.encReadreg 5) State.reset) .enc .invalidArgument 0 (fun _ => true) = true ∧
    answers (exec (.encReadreg 8) (encSlots [true, false, true, true])) .enc .ok 13 (fun _ => true) = true := by decide +kernel

/-- §2.7: the first 16 bits of the stream of §1.3, the first the most significant. -/
theorem test_decInit :
    answers (exec (.decInit 257) (State.reset.withReader { State.reset.reader with script := (bitsOf "010010000001110100").map .bit }))
      .dec .ok 0 (fun t => decide (t.dec.code = 0x481D ∧ t.reader.taken.length = 16 ∧ t.dec.mode = .ready)) = true := by
  decide +kernel

/-- §2.7: an error on the 5th take. -/
theorem test_decInit_error :
    answers (exec (.decInit 4) (State.reset.withReader
      { State.reset.reader with script := [.bit true, .bit false, .bit true, .bit true, .error] }))
      .dec .streamFault 0 (fun t => decide (t.dec.mode = .fault ∧ t.dec.model.n = 4 ∧ t.reader.taken = bitsOf "1011")) = true := by
  decide +kernel

/-- §1.6, §2.7: the decoder's EXPAND. -/
theorem test_decExpand : answers (exec (.decExpand 8) (decAt 0x7618 0xC41F 0xAF94 (table [0, 2, 4, 6, 8]) [])) .dec .ok 0
    (fun t => decide (t.dec.model.p.take 9 = [0, 2, 4, 6, 8, 9, 10, 11, 12] ∧ t.dec.code = 0xAF94)) = true := by decide +kernel

/-- §1.3: the first symbol decoded. -/
theorem test_decSym :
    answers (exec .decSym (decAt 0 0xFFFF 0x481D (table (List.range 258)) (bitsOf "001110110111"))) .dec .ok 72
      (fun t => decide (t.dec.low = 0x5C00 ∧ t.dec.high = 0xDB7F ∧ t.dec.code = 0x8E9D ∧ t.dec.model = helloTable ∧
        t.reader.taken.length = 7)) = true := by decide +kernel

/-- §1.6: the fifth symbol, after the growth. -/
theorem test_decSym_grown :
    answers (exec .decSym (decAt 0x7618 0xC41F 0xAF94 (table [0, 2, 4, 6, 8, 9, 10, 11, 12]) (bitsOf "0100"))) .dec .ok 4
      (fun t => decide (t.dec.low = 0x21D0 ∧ t.dec.high = 0x89DF ∧ t.dec.code = 0x7944 ∧ t.dec.tmpRange = 0x4E08)) = true := by
  decide +kernel

/-- §2.7: SAVE keeps the code, RESTORE brings it back. -/
theorem test_decSave_decRestore :
    answers (exec .decSave (decAt 0x5C00 0xDB7F 0x8E9D helloTable [])) .dec .ok 0
      (fun t => answers (exec (.decRestore true 0) (t.withDec { t.dec with low := 0, code := 0 })) .dec .ok 0
        (fun x => decide (x.dec.low = 0x5C00 ∧ x.dec.code = 0x8E9D ∧ x.dec.model.total = 258 ∧
          x.dec.slots.map (·.valid) = [false, false, false, false]))) = true := by decide +kernel

/-- §2.7: DELETE of a free slot, READP and READREG. -/
theorem test_decDelete : answers (exec (.decDelete 3) (decAt 0x5C00 0xDB7F 0x8E9D helloTable [])) .dec .invalidArgument 0
    (fun _ => true) = true := by decide +kernel

theorem test_decReadp : answers (exec (.decReadp 257) (decAt 0x5C00 0xDB7F 0x8E9D helloTable [])) .dec .ok 258
    (fun _ => true) = true := by decide +kernel

theorem test_decReadreg : answers (exec (.decReadreg 5) (decAt 0x5C00 0xDB7F 0x8E9D helloTable [])) .dec .ok 0x8E9D
    (fun _ => true) = true ∧
    answers (exec (.decReadreg 4) (decAt 0x5C00 0xDB7F 0x8E9D helloTable [])) .dec .invalidArgument 0 (fun _ => true) = true := by
  decide +kernel

/-- §2.8: IllegalCommand wins over InvalidState, InvalidState over SymbolOutOfRange. -/
theorem test_precedence : answers (accept .enc 0x0380000000000005 State.reset) .enc .illegalCommand 0 (fun _ => true) = true ∧
    answers (exec (.encSym 9) State.reset) .enc .invalidState 0 (fun _ => true) = true := by decide +kernel

/-- §1.3: the packing of the first 16 bits of the stream, `48 1D`. -/
theorem test_medium : ({ State.reset.writer with accepted := bitsOf "0100100000011101" } : Writer).medium = [0x48, 0x1D] := by
  decide +kernel

/-- §3.3: the cost bracket `ENC.COST 101, 108` gives 20. -/
theorem test_cost : ((costOf [101, 108] (encAt 0x5C00 0xDB7F 3 helloTable)).map (fun r => (r.status, r.value))) = some (.ok, 20) := by
  decide +kernel

/-- The first step after reset runs the word placed for it. -/
theorem test_step : answers (step (State.reset.withFetchWord 64 0x1300000000000000)) .dec .invalidState 0
    (fun t => decide (t.inputs = [])) = true := by decide +kernel

/-! ### Witnesses: states and operands that meet the hypotheses of each claim -/

/-- A small configuration: `W = 5`, so `MAX_TOTAL = 8`. -/
def small : Config := { w := 5, r := 8, nmax := 6, nsnap := 2 }

/-- The same with the widest range register. -/
def small64 : Config := { w := 5, r := 64, nmax := 6, nsnap := 2 }

theorem small_valid : small.Valid := by constructor <;> decide

theorem small64_valid : small64.Valid := by constructor <;> decide

/-- Both units READY with three symbols, as INIT leaves them. -/
def liveIn (c : Config) : State :=
  { State.resetIn c with
    enc := { Enc.reset c 0 with
      model := (Model.reset c).init 3, low := 0, high := c.windowMask, underflow := 0, tmpRange := 0, mode := .ready }
    dec := { Dec.reset c 0 with
      model := (Model.reset c).init 3, low := 0, high := c.windowMask, tmpRange := 0, code := 0, mode := .ready } }

/-- Both units READY in the small configuration. -/
def live : State := liveIn small

theorem liveIn_inv {c : Config} (hc : c.Valid) (h1 : 3 ≤ c.nmax) (h2 : 3 < c.maxTotal) : Inv (liveIn c) where
  cfg := hc
  enc := (Enc.reset_inv c 0).init hc 3 (by decide) h1 h2
  dec := (Dec.reset_inv c 0).init hc 3 0 (by decide) h1 h2 (Nat.two_pow_pos _)
  enc_waits := by intro b cmd h; simp [liveIn, Enc.reset] at h
  dec_waits := by intro h; simp [liveIn, Dec.reset] at h
  held := by simp [liveIn, State.resetIn]

theorem live_inv : Inv live := liveIn_inv small_valid (by decide) (by decide)

/-- ENC with `k` pending bits. -/
def pendingIn (c : Config) (k : Nat) : State := { liveIn c with enc := { (liveIn c).enc with underflow := k } }

theorem pendingIn_inv {c : Config} (hc : c.Valid) (h1 : 3 ≤ c.nmax) (h2 : 3 < c.maxTotal) (k : Nat) (hk : k ≤ c.underflowMax) :
    EncInv c (pendingIn c k).enc :=
  { (liveIn_inv hc h1 h2).enc with
    underflow_le := fun _ => hk
    flushed_empty := by intro h; simp [pendingIn, liveIn] at h
    uninit_regs := by intro h; simp [pendingIn, liveIn] at h }

/-- The machine with one slot of each unit saved. -/
def slotted : State :=
  { live with
    enc := { live.enc with slots := live.enc.slots.set 0 (encSnapshot live.enc) }
    dec := { live.dec with slots := live.dec.slots.set 0 (decSnapshot live.dec) } }

theorem slotted_inv : Inv slotted where
  cfg := small_valid
  enc := live_inv.enc.withSlot 0 _ (fun _ => encSnapshot_ok live_inv.enc (Or.inl rfl)) (by intro h; simp [live, liveIn] at h)
  dec := live_inv.dec.withSlot 0 _ (fun _ => decSnapshot_ok live_inv.dec rfl) (by intro h; simp [live, liveIn] at h)
  enc_waits := live_inv.enc_waits
  dec_waits := live_inv.dec_waits
  held := by simp [slotted, live, liveIn, State.resetIn]

/-- Both units in FAULT. -/
def faulted : State := { live with enc := { live.enc with mode := .fault }, dec := { live.dec with mode := .fault } }

/-- ENC in FLUSHED. -/
def flushed : State := { live with enc := { live.enc with mode := .flushed } }

/-- `s` with these answers of the writer and the reader. -/
def scripted (s : State) (ws : List WriterAnswer) (rs : List ReaderAnswer) : State :=
  { s with writer := { s.writer with script := ws }, reader := { s.reader with script := rs } }

theorem scripted_inv {s : State} (h : Inv s) (ws : List WriterAnswer) (rs : List ReaderAnswer) : Inv (scripted s ws rs) :=
  ⟨h.cfg, h.enc, h.dec, h.enc_waits, h.dec_waits, h.held⟩

/-- `s` with the writer and the reader detached. -/
def detached (s : State) : State :=
  { s with writer := { s.writer with bound := false }, reader := { s.reader with bound := false } }

/-- The outcome is a next state that meets `p`. -/
def holds (o : Host.Outcome State Fault Refusal) (p : State → Bool) : Bool :=
  match o with
  | .next t => p t
  | .fault _ => false
  | .refused _ => false

theorem next_of_holds {o : Host.Outcome State Fault Refusal} {p : State → Bool} (h : holds o p = true) :
    ∃ t, o = .next t ∧ p t = true := by
  cases o with
  | next t => exact ⟨t, rfl, h⟩
  | fault => simp [holds] at h
  | refused => simp [holds] at h

/-- The response on offer has this status. -/
def hasStatus (u : Half) (st : Status) (t : State) : Bool :=
  match t.ctl u with
  | .responding r => decide (r.status = st)
  | .ready | .offering _ | .requesting | .offeringDetached _ _ | .requestingDetached => false

theorem responding_of_hasStatus {u : Half} {st : Status} {t : State} (h : hasStatus u st t = true) :
    ∃ r, t.ctl u = .responding r ∧ r.status = st := by
  unfold hasStatus at h
  split at h
  · exact ⟨_, ‹_›, by simpa using h⟩
  all_goals simp at h

/-- A command that ends with this status. -/
theorem ends_with {i : Instr} {s : State} {u : Half} {st : Status} (h : holds (exec i s) (hasStatus u st) = true) :
    ∃ t r, exec i s = .next t ∧ t.ctl u = .responding r ∧ r.status = st := by
  obtain ⟨t, h1, h2⟩ := next_of_holds h
  obtain ⟨r, h3, h4⟩ := responding_of_hasStatus h2
  exact ⟨t, r, h1, h3, h4⟩

theorem live_accepting : live.writer.Accepting := ⟨rfl, rfl, by simp [live, liveIn, State.resetIn]⟩

theorem live_supplying : live.reader.Supplying := ⟨rfl, ⟨false, rfl⟩, by simp [live, liveIn, State.resetIn]⟩

/-- The table `[0, 1, 2, 7]` of the small configuration: one short of the scale threshold. -/
def nearFull : Model := { n := 3, p := [0, 1, 2, 7, 0, 0, 0] }

theorem nearFull_ok : TableOk small nearFull :=
  { n_pos := by decide, n_le := by decide, zero := by decide, mono := by decide, bounded := by decide }

theorem full_interval : IntervalOk small 0 31 := init_interval small_valid

theorem narrow_interval : IntervalOk small 7 16 := by constructor <;> decide

theorem witness_DecodeAndEncodeAgree :
    (Instr.encRestore true (2 ^ 32 - 1)).wellFormed = true ∧ decode .dec 0x17800000FFFFFFFF = .ok (.decRestore true (2 ^ 32 - 1)) :=
  ⟨by decide, rfl⟩

theorem witness_CommandsAreTheMaskRows :
    decode .dec 0x1780000000000002 = .ok (.decRestore true 2) ∧ (0x1780000000000002 : Word) &&& 0xFF7FFFFF00000000 = 0x1700000000000000 :=
  ⟨rfl, rfl⟩

/-- A word for each of the five conditions, and a legal word of each kind. -/
theorem witness_IllegalWordsAreRefused :
    (∀ (u : Half) (w : Word), (live.withInputs [.offer u w]).inputs = .offer u w :: [] ∧ (live.withInputs [.offer u w]).rst = false ∧
      (live.withInputs [.offer u w]).ctl u = .ready) ∧
    unitField 0x2100000000000001 ≠ Half.enc.number ∧ opField 0x0B00000000000000 = 11 ∧ opField 0x1400000000000000 = 4 ∧
    rsvField 0x0300000100000000 ≠ 0 ∧ flagField 0x0380000000000000 = true ∧ flagField 0x1780000000000000 = true ∧
    argField 0x0600000000000001 ≠ 0 ∧ argField 0x0300000000000000 = 0 := by
  refine ⟨?_, by decide, by decide, by decide, by decide, by decide, by decide, by decide, by decide⟩
  intro u w
  cases u <;> exact ⟨rfl, rfl, rfl⟩

theorem witness_StepRunsDecodedInstruction :
    (live.withInputs [.offer .enc 0x0300000000000001]).rst = false ∧
    (live.withInputs [.offer .enc 0x0300000000000001]).ctl .enc = .ready ∧
    decode .enc 0x0300000000000001 = .ok (.encSym 1) := ⟨rfl, rfl, rfl⟩

theorem witness_NoCommandBeforeTheResponse :
    ((live.withInputs [.offer .enc 0]).withRst true).rst = true ∧
    (stallEnc (.sym 0) true (live.withInputs [.offer .enc 0])).ctl .enc ≠ .ready ∧
    ∃ t, exec (.encSym 1) live = .next t := by
  refine ⟨rfl, by decide, ?_⟩
  obtain ⟨t, h, -⟩ := next_of_holds (o := exec (.encSym 1) live) (p := fun _ => true) (by decide +kernel)
  exact ⟨t, h⟩

theorem witness_ResponseIsDelivered :
    (respondEnc 5 (live.withInputs [.take .enc])).rst = false ∧
    (respondEnc 5 (live.withInputs [.take .enc])).ctl .enc = .responding (okResponse 5) ∧
    (∀ r, (live.withInputs [.take .dec]).ctl .dec ≠ .responding r) := by
  refine ⟨rfl, rfl, ?_⟩
  intro r
  simp [State.ctl, live, liveIn, Dec.reset]

theorem witness_EveryCommandResponds : Inv live ∧ live.writer.Answering ∧ live.reader.Answering :=
  ⟨live_inv, ⟨rfl, by decide, by simp [live, liveIn, State.resetIn]⟩, ⟨rfl, by decide, by simp [live, liveIn, State.resetIn]⟩⟩

theorem witness_ResetGivesTheResetValues : (live.withInputs [.reset true]).inputs = .reset true :: [] := rfl

theorem witness_OutputsUnderReset :
    (((State.resetIn small).withRst true).withInputs [.reset false]).rst = true ∧
    Inv (((State.resetIn small).withRst true).withInputs [.reset false]) :=
  ⟨rfl, small_valid, Enc.reset_inv small 0, Dec.reset_inv small 0, nofun, nofun, fun _ => ⟨⟨rfl, rfl⟩, rfl, rfl⟩⟩

theorem witness_StuckUntilReset :
    (∃ t, step (stallEnc (.sym 0) true (live.withInputs [.take .enc])) = .next t) ∧
    (stallEnc (.sym 0) true (live.withInputs [.take .enc])).enc.ctl = .offering true ∧
    (∃ t, step (stallDec (live.withInputs [.reset true])) = .next t) ∧
    (stallDec (live.withInputs [.reset true])).dec.ctl = .requesting ∧
    (∃ t, step (stallEnc (.sym 0) true (detached (live.withInputs [.bindReader true]))) = .next t) ∧
    (stallEnc (.sym 0) true (detached (live.withInputs [.bindReader true]))).enc.ctl = .offeringDetached true (.sym 0) ∧
    (∃ t, step (stallDec (detached (live.withInputs [.bindWriter true]))) = .next t) ∧
    (stallDec (detached (live.withInputs [.bindWriter true]))).dec.ctl = .requestingDetached :=
  ⟨⟨_, rfl⟩, rfl, ⟨_, rfl⟩, rfl, ⟨_, rfl⟩, rfl, ⟨_, rfl⟩, rfl⟩

theorem witness_ResetIsLegal : small.Valid := small_valid

theorem witness_StepKeepsTheInvariant :
    Inv (live.withInputs [.offer .enc 0x0300000000000001]) ∧
    ∃ t, step (live.withInputs [.offer .enc 0x0300000000000001]) = .next t := by
  refine ⟨⟨live_inv.cfg, live_inv.enc, live_inv.dec, live_inv.enc_waits, live_inv.dec_waits, live_inv.held⟩, ?_⟩
  obtain ⟨t, h, -⟩ := next_of_holds (o := step (live.withInputs [.offer .enc 0x0300000000000001])) (p := fun _ => true)
    (by decide +kernel)
  exact ⟨t, h⟩

theorem witness_LegalStatesStep : Inv live := live_inv

theorem witness_RefusalsChangeNothing :
    (∃ t r, exec (.encInit 0) live = .next t ∧ t.ctl .enc = .responding r ∧ r.status.isRefusal = true) ∧
    decode .enc 0 = .error .reservedOp := by
  obtain ⟨t, r, h1, h2, h3⟩ := ends_with (i := .encInit 0) (s := live) (u := .enc) (st := .invalidArgument) (by decide +kernel)
  exact ⟨⟨t, r, h1, h2, by rw [h3]; rfl⟩, rfl⟩

theorem witness_FaultsEnterFault :
    (∃ t r, exec (.decInit 4) (scripted live [] [.error]) = .next t ∧ t.ctl .dec = .responding r ∧ r.status.isFault = true) ∧
    (∃ t r, exec (.encSym 1) (pendingIn small 255) = .next t ∧ t.ctl .enc = .responding r ∧ r.status.isFault = true) := by
  obtain ⟨t, r, h1, h2, h3⟩ := ends_with (i := .decInit 4) (s := scripted live [] [.error]) (u := .dec) (st := .streamFault)
    (by decide +kernel)
  obtain ⟨t', r', g1, g2, g3⟩ := ends_with (i := .encSym 1) (s := pendingIn small 255) (u := .enc) (st := .counterOverflow)
    (by decide +kernel)
  exact ⟨⟨t, r, h1, h2, by rw [h3]; rfl⟩, ⟨t', r', g1, g2, by rw [g3]; rfl⟩⟩

theorem witness_FaultIsLeftByInitOrReset :
    faulted.mode .enc = .fault ∧ faulted.mode .dec = .fault ∧
    (∃ t, step (faulted.withInputs [.offer .enc 0x0100000000000002]) = .next t ∧ t.mode .enc ≠ .fault) ∧
    (∃ t, step (faulted.withInputs [.offer .dec 0x1100000000000002]) = .next t ∧ t.mode .dec ≠ .fault) ∧
    (∃ t, step (faulted.withInputs [.reset true]) = .next t ∧ t.mode .enc ≠ .fault) := by
  obtain ⟨t, h1, h2⟩ := next_of_holds (o := step (faulted.withInputs [.offer .enc 0x0100000000000002]))
    (p := fun t => decide (t.mode .enc ≠ .fault)) (by decide +kernel)
  obtain ⟨t', g1, g2⟩ := next_of_holds (o := step (faulted.withInputs [.offer .dec 0x1100000000000002]))
    (p := fun t => decide (t.mode .dec ≠ .fault)) (by decide +kernel)
  obtain ⟨t'', k1, k2⟩ := next_of_holds (o := step (faulted.withInputs [.reset true]))
    (p := fun t => decide (t.mode .enc ≠ .fault)) (by decide +kernel)
  exact ⟨rfl, rfl, ⟨t, h1, by simpa using h2⟩, ⟨t', g1, by simpa using g2⟩, ⟨t'', k1, by simpa using k2⟩⟩

/-- A mode not accepted; an accepted command that ends with InvalidState; READREG TOTAL in UNINIT. -/
theorem witness_ModeAcceptance :
    faulted.mode .enc ∉ [Mode.ready] ∧
    (∃ t r, exec (.decReadreg 7) (State.resetIn small) = .next t ∧ t.ctl .dec = .responding r ∧ r.status = .invalidState) ∧
    (State.resetIn small).mode .dec ∈ [Mode.uninit, .ready, .flushed, .fault] ∧ (State.resetIn small).mode .enc = .uninit :=
  ⟨by decide, ends_with (by decide +kernel), by decide, rfl⟩

theorem witness_StatusesOfCommands :
    ∃ t r, exec (.encSym 3) live = .next t ∧ t.ctl .enc = .responding r ∧ r.status ≠ .ok := by
  obtain ⟨t, r, h1, h2, h3⟩ := ends_with (i := .encSym 3) (s := live) (u := .enc) (st := .symbolOutOfRange) (by decide +kernel)
  exact ⟨t, r, h1, h2, by rw [h3]; decide⟩

/-- Each cause at its boundary: the size 8 = `MAX_TOTAL` and 7 = `NMAX + 1`, the growth to `N` itself, the handle `NSNAP` and a free
slot, no free slot, the index `N + 1`, the register numbers 4, 5 and 13. -/
theorem witness_ArgumentRefusals :
    (2 ^ (small.w - 2) ≤ 8 ∧ (7 ≠ 0 ∧ live.writer.bound = true ∧ live.reader.bound = true ∧ 7 < 2 ^ (small.w - 2) ∧ small.nmax < 7)) ∧
    { live.writer with bound := false }.bound = false ∧
    (live.mode .enc = .ready ∧ live.mode .dec = .ready ∧ 3 ≤ live.enc.model.n ∧ 3 ≤ live.dec.model.n ∧ live.enc.model.n < 7) ∧
    small.nsnap ≤ 2 ∧ (∀ slot, live.enc.slots[0]? = some slot → slot.valid = false) ∧
    (∀ slot, live.dec.slots[0]? = some slot → slot.valid = false) ∧ live.enc.mode ≠ .fault ∧
    (∀ slot ∈ (encSlots [true, true, true, true]).enc.slots, slot.valid = true) ∧ (encSlots [true, true, true, true]).enc.mode = .ready ∧
    (∀ slot ∈ [decSnapshot live.dec, decSnapshot live.dec], slot.valid = true) ∧
    live.enc.model.n < 4 ∧ live.dec.model.n < 4 := by
  refine ⟨by decide, rfl, by decide, by decide, ?_, ?_, by decide, by decide +kernel, rfl, by decide, by decide, by decide⟩
  · intro slot h
    simp only [live, liveIn, State.resetIn, Enc.reset, small, List.replicate, List.getElem?_cons_zero, Option.some.injEq] at h
    subst h; rfl
  · intro slot h
    simp only [live, liveIn, State.resetIn, Dec.reset, small, List.replicate, List.getElem?_cons_zero, Option.some.injEq] at h
    subst h; rfl

theorem witness_SymbolOutOfRange : live.enc.mode = .ready ∧ live.enc.model.n ≤ 3 := by decide

/-- Commands of both units that answer, with and without bits. -/
theorem witness_next_states :
    (∃ t, exec (.encSym 0) live = .next t) ∧ (∃ t, exec .decSym live = .next t) ∧ (∃ t, exec (.encRestore true 0) slotted = .next t) ∧
    (∃ t, exec (.decRestore true 0) slotted = .next t) ∧
    ∃ t, step (live.withInputs [.offer .dec 0x1300000000000000]) = .next t := by
  obtain ⟨a, ha, -⟩ := next_of_holds (o := exec (.encSym 0) live) (p := fun _ => true) (by decide +kernel)
  obtain ⟨b, hb, -⟩ := next_of_holds (o := exec .decSym live) (p := fun _ => true) (by decide +kernel)
  obtain ⟨d, hd, -⟩ := next_of_holds (o := exec (.encRestore true 0) slotted) (p := fun _ => true) (by decide +kernel)
  obtain ⟨e, he, -⟩ := next_of_holds (o := exec (.decRestore true 0) slotted) (p := fun _ => true) (by decide +kernel)
  obtain ⟨f, hf, -⟩ := next_of_holds (o := step (live.withInputs [.offer .dec 0x1300000000000000])) (p := fun _ => true)
    (by decide +kernel)
  exact ⟨⟨a, ha⟩, ⟨b, hb⟩, ⟨d, hd⟩, ⟨e, he⟩, ⟨f, hf⟩⟩

theorem witness_UnitsAreIndependent :
    (Instr.encSym 0).unit = .enc ∧ (∃ t, exec (.encSym 0) live = .next t) ∧ Instr.decSym.unit = .dec ∧ ∃ t, exec .decSym live = .next t :=
  ⟨rfl, witness_next_states.1, rfl, witness_next_states.2.1⟩

theorem witness_StrapsAreSampledByInit :
    (∀ n, Instr.encSym 0 ≠ .encInit n ∧ Instr.encSym 0 ≠ .decInit n) ∧ live.writer.bound = true ∧ live.reader.bound = true ∧
    (∃ t, exec (.encSym 0) live = .next t) ∧ (live.withInputs [.bindWriter false]).inputs = .bindWriter false :: [] ∧
    (live.withInputs [.bindReader false]).inputs = .bindReader false :: [] ∧
    (stallEnc (.sym 0) false (detached (live.withInputs [.bindWriter true]))).inputs = .bindWriter true :: [] ∧
    (stallEnc (.sym 0) false (detached (live.withInputs [.bindWriter true]))).enc.ctl = .offeringDetached false (.sym 0) ∧
    (stallDec (detached (live.withInputs [.bindReader true]))).inputs = .bindReader true :: [] ∧
    (stallDec (detached (live.withInputs [.bindReader true]))).dec.ctl = .requestingDetached :=
  ⟨fun n => by simp, rfl, rfl, witness_next_states.1, rfl, rfl, rfl, rfl, rfl, rfl⟩

/-- 70_reset_and_hazards.md R268: with writer and reader detached in mid-session ENC.SYM 0 waits at its first bit, 0, DEC.SYM at its first
request, and no bit has passed. -/
theorem test_detached_waits :
    holds (exec (.encSym 0) (detached live)) (fun t => decide (t.offeredBit = some false ∧ t.response .enc = none ∧
      t.cmdReady .enc = false ∧ t.writer = (detached live).writer)) = true ∧
    holds (exec .decSym (detached live)) (fun t => decide (t.bitRequest = true ∧ t.response .dec = none ∧
      t.cmdReady .dec = false ∧ t.reader = (detached live).reader)) = true := by decide +kernel

/-- The same units go on when they are attached again (70_reset_and_hazards.md R260, R268). -/
theorem test_attached_again_goes_on :
    holds (step (stallEnc (.sym 0) false (detached (live.withInputs [.bindWriter true]))))
      (fun t => decide (t.response .enc = some (okResponse 1) ∧ t.writer.accepted = [false])) = true ∧
    holds (step (stallDec (detached (live.withInputs [.bindReader true]))))
      (fun t => decide (t.response .dec = some (okResponse 0) ∧ t.reader.taken = [false])) = true := by decide +kernel

theorem witness_WhoMovesBits : ∃ t, exec .decSym live = .next t := witness_next_states.2.1

theorem witness_StreamsOnlyGrow : ∃ t, step (live.withInputs [.offer .dec 0x1300000000000000]) = .next t :=
  witness_next_states.2.2.2.2

theorem witness_OnlySaveWritesSlots :
    (∃ t, exec (.encRestore true 0) slotted = .next t) ∧ Instr.encRestore true 0 ≠ .encSave ∧ Instr.encRestore true 0 ≠ .decSave ∧
    slotted.enc.slots[0]? = some (encSnapshot live.enc) := ⟨witness_next_states.2.2.1, by decide, by decide, by decide⟩

/-- The first and the last symbol of the table. -/
theorem witness_UpdateRaisesOneWeight :
    nearFull.n < nearFull.p.length ∧ (∀ i, i < nearFull.n → nearFull.entry i < nearFull.entry (i + 1)) ∧ 0 < nearFull.n ∧
    2 < nearFull.n := by decide

theorem witness_ScaleHalvesWithRepair :
    nearFull.n < nearFull.p.length ∧ 1 ≤ nearFull.n ∧ nearFull.entry 0 = 0 ∧
    ∀ i, i < nearFull.n → nearFull.entry i < nearFull.entry (i + 1) := by decide

theorem witness_SymbolKeepsTheTable : TableOk small nearFull ∧ nearFull.n < nearFull.p.length ∧ 2 < nearFull.n :=
  ⟨nearFull_ok, by decide, by decide⟩

theorem witness_ExpandGrowsTheTable :
    small.Valid ∧ TableOk small nearFull ∧ nearFull.p.length = small.nmax + 1 ∧ nearFull.n < 6 ∧ 6 ≤ small.nmax :=
  ⟨small_valid, nearFull_ok, by decide, by decide, by decide⟩

theorem witness_LookupIsUnique : TableOk small nearFull ∧ 0 < nearFull.total ∧ 6 < nearFull.total :=
  ⟨nearFull_ok, by decide, by decide⟩

/-- The least and the greatest interval of each class. -/
theorem witness_ClassifyByQuarters :
    small.Valid ∧ 31 < 2 ^ small.w ∧ classify small 0 15 = .msbEq ∧ classify small 16 31 = .msbEq ∧ classify small 8 23 = .e3 ∧
    classify small 15 16 = .e3 ∧ classify small 7 16 = .exit ∧ classify small 8 24 = .exit :=
  ⟨small_valid, by decide, by decide, by decide, by decide, by decide, by decide, by decide⟩

theorem witness_NarrowStaysInside :
    small.Valid ∧ TableOk small nearFull ∧ IntervalOk small 7 16 ∧ IntervalOk small 0 31 ∧ 0 < nearFull.n ∧ 2 + 1 = nearFull.n :=
  ⟨small_valid, nearFull_ok, narrow_interval, full_interval, by decide, by decide⟩

theorem witness_E3IsTheTextbookStep :
    small.Valid ∧ 8 ≤ 8 ∧ 8 ≤ 23 ∧ 23 < 2 ^ small.w ∧ classify small 8 23 = .e3 :=
  ⟨small_valid, by decide, by decide, by decide, by decide⟩

theorem witness_LoopReachesExit :
    small.Valid ∧
    (∃ r', EncRun.renorm small true small.w { low := 14, high := 17, underflow := 1, count := 0, writer := live.writer } = (.exit, r')) ∧
    ∃ r', DecRun.renorm small small.w { low := 14, high := 14, code := 14, reader := live.reader } = (.exit, r') :=
  ⟨small_valid, ⟨_, rfl⟩, ⟨_, rfl⟩⟩

/-- The code at both ends of the interval. -/
theorem witness_ScaledCodeFindsTheSymbol : TableOk small nearFull ∧ 7 ≤ 7 ∧ 7 ≤ 16 ∧ 16 ≤ 16 :=
  ⟨nearFull_ok, by decide, by decide, by decide⟩

theorem witness_EncInitStartsASession :
    faulted.enc.model.p.length = small.nmax + 1 ∧ 1 ≤ 6 ∧ 6 ≤ small.nmax ∧ 6 < 2 ^ (small.w - 2) ∧ faulted.writer.bound = true := by
  decide

theorem witness_ExpandGrowsTheAlphabet :
    small.Valid ∧ 6 ≤ small.nmax ∧ EncInv small live.enc ∧ live.enc.mode = .ready ∧ live.enc.model.n < 6 ∧ DecInv small live.dec ∧
    live.dec.mode = .ready ∧ live.dec.model.n < 6 ∧ live.enc.model.total + (6 - live.enc.model.n) < 2 ^ (small.w - 2) ∧
    live.dec.model.total + (6 - live.dec.model.n) < 2 ^ (small.w - 2) :=
  ⟨small_valid, by decide, live_inv.enc, rfl, by decide, live_inv.dec, rfl, by decide, by decide, by decide⟩

/-- The loop of symbol 0 from the whole interval: one MSB_EQ step after `k` pending bits. -/
theorem first_symbol_loop (c : Config) (hc : c.w = 5) (k : Nat) :
    EncLoop c (0 + 32 * 0 / 3) (0 + 32 * 1 / 3 - 1) k (false :: List.replicate k true ++ []) 0 19 0 := by
  have h : EncLoop c (2 * 0 % 2 ^ c.w) ((2 * 9 + 1) % 2 ^ c.w) 0 [] 0 19 0 := by
    rw [hc]
    exact EncLoop.exit (by rw [hc]; decide) (by rw [hc]; decide)
  have := EncLoop.msbEq (c := c) (low := 0) (high := 9) (u := k) (by rw [hc]; decide) h
  rw [hc] at this
  exact this

/-- The greatest pending count of the first clause, with the last symbol; a full pending count whose loop ends all the same. -/
theorem witness_EncSymEncodesASymbol :
    small.Valid ∧ EncInv small (pendingIn small 250).enc ∧ (pendingIn small 250).enc.mode = .ready ∧ 2 < (pendingIn small 250).enc.model.n ∧
    (pendingIn small 250).writer.Accepting ∧ (pendingIn small 250).enc.underflow + small.w ≤ 2 ^ small.r - 1 ∧
    EncInv small (pendingIn small 255).enc ∧
    ∃ bits, EncLoop small (0 + 32 * 0 / 3) (0 + 32 * 1 / 3 - 1) 255 bits 0 19 0 ∧
      (pendingIn small 255).writer.coming bits.length = List.replicate bits.length .accept ∧ bits.length < 2 ^ 64 :=
  ⟨small_valid, pendingIn_inv small_valid (by decide) (by decide) 250 (by decide), rfl, by decide, live_accepting, by decide,
    pendingIn_inv small_valid (by decide) (by decide) 255 (by decide), _, first_symbol_loop small rfl 255,
    Writer.Accepting.coming live_accepting _,
    by rw [List.append_nil, List.length_cons, List.length_replicate]; omega⟩

theorem witness_EncEstGivesTheCost :
    small.Valid ∧ EncInv small (pendingIn small 250).enc ∧ (pendingIn small 250).enc.mode = .ready ∧ 2 < (pendingIn small 250).enc.model.n ∧
    (pendingIn small 250).enc.underflow + small.w ≤ 2 ^ small.r - 1 ∧ EncInv small (pendingIn small 255).enc ∧
    ∃ bits, EncLoop small (0 + 32 * 0 / 3) (0 + 32 * 1 / 3 - 1) 255 bits 0 19 0 ∧ bits.length < 2 ^ 64 :=
  ⟨small_valid, pendingIn_inv small_valid (by decide) (by decide) 250 (by decide), rfl, by decide, by decide,
    pendingIn_inv small_valid (by decide) (by decide) 255 (by decide), _, first_symbol_loop small rfl 255,
    by rw [List.append_nil, List.length_cons, List.length_replicate]; omega⟩

theorem witness_CostLaw : ∃ t r, exec (.encSym 0) live = .next t ∧ t.ctl .enc = .responding r ∧ r.status = .ok :=
  ends_with (by decide +kernel)

/-- An error, and no answer, at the second of the bits `0 1 1` of symbol 0 with two bits pending; symbol 1 with a full counter. -/
theorem witness_EncSymStreamError :
    small.Valid ∧ EncInv small (pendingIn small 2).enc ∧ (pendingIn small 2).enc.mode = .ready ∧ 0 < (pendingIn small 2).enc.model.n ∧
    EncLoop small (0 + 32 * 0 / 3) (0 + 32 * 1 / 3 - 1) 2 [false, true, true] 0 19 0 ∧ 1 < [false, true, true].length ∧
    (scripted (pendingIn small 2) [.accept, .error] []).writer.coming 2 = List.replicate 1 .accept ++ [.error] ∧
    (scripted (pendingIn small 2) [.accept, .never] []).writer.coming 2 = List.replicate 1 .accept ++ [.never] ∧
    EncInv small (pendingIn small 255).enc ∧ 1 < (pendingIn small 255).enc.model.n ∧
    EncOverflow small (0 + 32 * 1 / 3) (0 + 32 * 2 / 3 - 1) 255 [] ∧
    (detached (pendingIn small 2)).writer.coming 1 = List.replicate 0 .accept ++ [.never] :=
  ⟨small_valid, pendingIn_inv small_valid (by decide) (by decide) 2 (by decide), rfl, by decide, first_symbol_loop small rfl 2,
    by decide, rfl, rfl, pendingIn_inv small_valid (by decide) (by decide) 255 (by decide), by decide,
    EncOverflow.here (by decide) (by decide) (by decide), rfl⟩

/-- Symbol 1 from the whole interval meets an E3 step at once; a count of `2^64` bits in the widest configuration. -/
theorem witness_CounterOverflowInTheLoop :
    small.Valid ∧ EncInv small (pendingIn small 255).enc ∧ (pendingIn small 255).enc.mode = .ready ∧
    1 < (pendingIn small 255).enc.model.n ∧ EncOverflow small (0 + 32 * 1 / 3) (0 + 32 * 2 / 3 - 1) 255 [] ∧
    small64.Valid ∧ EncInv small64 (pendingIn small64 (2 ^ 64 - 1)).enc ∧
    (∃ bits : List Bool, 2 ^ 64 ≤ bits.length ∧ EncLoop small64 (0 + 32 * 0 / 3) (0 + 32 * 1 / 3 - 1) (2 ^ 64 - 1) bits 0 19 0) ∧
    (pendingIn small 255).writer.Accepting := by
  refine ⟨small_valid, pendingIn_inv small_valid (by decide) (by decide) 255 (by decide), rfl, by decide,
    EncOverflow.here (by decide) (by decide) (by decide), small64_valid,
    pendingIn_inv small64_valid (by decide) (by decide) _ (by decide), ⟨_, ?_, first_symbol_loop small64 rfl (2 ^ 64 - 1)⟩,
    live_accepting⟩
  rw [List.append_nil, List.length_cons, List.length_replicate]
  omega

theorem witness_EncFlushTerminates :
    flushed.enc.mode = .flushed ∧ flushed.writer.Accepting ∧ (pendingIn small 254).enc.mode = .ready ∧
    (pendingIn small 254).writer.Accepting ∧ (pendingIn small 254).enc.underflow ≠ 2 ^ small.r - 1 ∧
    (pendingIn small 254).enc.underflow + 2 < 2 ^ 64 ∧ flushed.enc.underflow + 2 < 2 ^ 64 :=
  ⟨rfl, live_accepting, rfl, live_accepting, by decide, by decide, by decide⟩

/-- `underflow` at its limit; a count of `2^64`; an error at the last of three bits; no answer at the first, from a writer on line and from a
detached one. -/
theorem witness_EncFlushFaults :
    (pendingIn small 255).enc.mode = .ready ∧ (pendingIn small 255).enc.underflow = 2 ^ small.r - 1 ∧
    (pendingIn small64 (2 ^ 64 - 2)).enc.underflow ≠ 2 ^ small64.r - 1 ∧
    2 ^ 64 ≤ (pendingIn small64 (2 ^ 64 - 2)).enc.underflow + 2 ∧ (pendingIn small64 (2 ^ 64 - 2)).writer.Accepting ∧
    2 < (pendingIn small 1).enc.underflow + 2 ∧
    (scripted (pendingIn small 1) [.accept, .accept, .error] []).writer.coming 3 = List.replicate 2 .accept ++ [.error] ∧
    (scripted (pendingIn small 1) [.never] []).writer.coming 1 = List.replicate 0 .accept ++ [.never] ∧
    (detached (pendingIn small 1)).writer.coming 1 = List.replicate 0 .accept ++ [.never] :=
  ⟨rfl, by decide, by decide, by decide, ⟨rfl, rfl, by simp [pendingIn, liveIn, State.resetIn]⟩, by decide, rfl, rfl, rfl⟩

/-- The second slot, the first being taken. -/
theorem witness_SaveFillsTheLowestFreeSlot :
    1 < small.nsnap ∧ slotted.enc.mode = .ready ∧ slotted.dec.mode = .ready ∧
    (slotted.enc.slots.map (·.valid)) = [true, false] ∧ (slotted.dec.slots.map (·.valid)) = [true, false] := by decide

theorem witness_RestoreLoadsTheSlot :
    0 < small.nsnap ∧ slotted.enc.slots[0]? = some (encSnapshot live.enc) ∧ (encSnapshot live.enc).valid = true ∧
    slotted.enc.mode ≠ .fault ∧ (encSnapshot live.enc).model.n < slotted.enc.model.p.length ∧
    slotted.dec.slots[0]? = some (decSnapshot live.dec) ∧ (decSnapshot live.dec).valid = true ∧ slotted.dec.mode = .ready ∧
    (decSnapshot live.dec).model.n < slotted.dec.model.p.length := by decide

theorem witness_DeleteFreesTheSlot :
    0 < small.nsnap ∧ slotted.enc.slots[0]? = some (encSnapshot live.enc) ∧ (encSnapshot live.enc).valid = true ∧
    slotted.dec.slots[0]? = some (decSnapshot live.dec) ∧ (decSnapshot live.dec).valid = true := by decide

/-- Both ends of the table. -/
theorem witness_ReadpReadsTheTable :
    live.enc.mode = .ready ∧ flushed.enc.mode = .flushed ∧ live.dec.mode = .ready ∧ 0 ≤ live.enc.model.n ∧ 3 ≤ live.enc.model.n ∧
    3 ≤ live.dec.model.n ∧ EncInv small live.enc ∧ DecInv small live.dec :=
  ⟨rfl, rfl, rfl, by decide, by decide, by decide, live_inv.enc, live_inv.dec⟩

theorem witness_ReadregReadsTheMap :
    slotted.enc.slots.length = small.nsnap ∧ slotted.dec.slots.length = small.nsnap ∧ slotted.enc.mode ≠ .fault ∧
    slotted.dec.mode ≠ .fault ∧ slotted.enc.mode = .ready ∧ slotted.dec.mode = .ready := by decide

theorem witness_ReadregInFault : faulted.enc.mode = .fault ∧ faulted.dec.mode = .fault := ⟨rfl, rfl⟩

theorem witness_DecInitStartsASession :
    faulted.dec.model.p.length = small.nmax + 1 ∧ 1 ≤ 6 ∧ 6 ≤ small.nmax ∧ 6 < 2 ^ (small.w - 2) ∧
    (scripted faulted [] [.bit true, .bit false, .bit true]).reader.bound = true ∧
    (scripted faulted [] [.bit true, .bit false, .bit true]).reader.coming small.w = [true, false, true, false, false].map .bit := by
  decide

/-- The last of the `W` beats, and the first. -/
theorem witness_DecInitStreamError :
    1 ≤ 3 ∧ 3 ≤ small.nmax ∧ 3 < 2 ^ (small.w - 2) ∧ live.reader.bound = true ∧ [true, true, false, true].length < small.w ∧
    (scripted live [] [.bit true, .bit true, .bit false, .bit true, .error]).reader.coming 5 =
      [true, true, false, true].map .bit ++ [.error] ∧
    (scripted live [] [.never]).reader.coming 1 = ([] : List Bool).map .bit ++ [.never] := by decide

theorem witness_DecSymDecodesASymbol :
    small.Valid ∧ DecInv small live.dec ∧ live.dec.mode = .ready ∧ live.reader.Supplying ∧ 0 < live.dec.model.n ∧
    live.dec.model.entry 0 ≤ ((live.dec.code - live.dec.low + 1) * live.dec.model.total - 1) / (live.dec.high - live.dec.low + 1) ∧
    ((live.dec.code - live.dec.low + 1) * live.dec.model.total - 1) / (live.dec.high - live.dec.low + 1) < live.dec.model.entry 1 ∧
    DecLoop small (0 + 32 * 0 / 3) (0 + 32 * 1 / 3 - 1) 0 [true] 0 19 1 ∧
    (scripted live [] [.bit true, .error]).reader.coming 1 = [true].map .bit :=
  ⟨small_valid, live_inv.dec, rfl, live_supplying, by decide, by decide, by decide,
    DecLoop.msbEq (by decide) (DecLoop.exit (by decide) (by decide)), rfl⟩

/-- Symbol 0 from the whole interval takes one bit; an error, and no answer, at that bit; a run that ends with StreamFault. -/
theorem witness_DecSymStreamError :
    small.Valid ∧ DecInv small live.dec ∧ live.dec.mode = .ready ∧ 0 < live.dec.model.n ∧
    live.dec.model.entry 0 ≤ ((live.dec.code - live.dec.low + 1) * live.dec.model.total - 1) / (live.dec.high - live.dec.low + 1) ∧
    ((live.dec.code - live.dec.low + 1) * live.dec.model.total - 1) / (live.dec.high - live.dec.low + 1) < live.dec.model.entry 1 ∧
    DecLoop small (0 + 32 * 0 / 3) (0 + 32 * 1 / 3 - 1) 0 [true] 0 19 1 ∧ 0 < [true].length ∧
    (scripted live [] [.error]).reader.coming 1 = ([true].take 0).map .bit ++ [.error] ∧
    (scripted live [] [.never]).reader.coming 1 = ([true].take 0).map .bit ++ [.never] ∧
    (detached live).reader.coming 1 = ([true].take 0).map .bit ++ [.never] ∧
    ∃ t r, exec .decSym (scripted live [] [.error]) = .next t ∧ t.ctl .dec = .responding r ∧ r.status = .streamFault :=
  ⟨small_valid, live_inv.dec, rfl, by decide, by decide, by decide,
    DecLoop.msbEq (by decide) (DecLoop.exit (by decide) (by decide)), by decide, rfl, rfl, rfl, ends_with (by decide +kernel)⟩

theorem witness_DecodeMirrorsEncode :
    small.Valid ∧ EncInv small live.enc ∧ DecInv small live.dec ∧ live.enc.mode = .ready ∧ live.dec.mode = .ready ∧
    0 < live.enc.model.n ∧ live.dec.low = live.enc.low ∧ live.dec.high = live.enc.high ∧ live.dec.model = live.enc.model ∧
    live.enc.model.freqLow 0 ≤ scaledCode live.dec.model live.dec.low live.dec.high live.dec.code ∧
    scaledCode live.dec.model live.dec.low live.dec.high live.dec.code < live.enc.model.freqHigh 0 ∧
    (∃ t r, exec (.encSym 0) live = .next t ∧ t.ctl .enc = .responding r ∧ r.status = .ok) ∧
    ∃ t r, exec .decSym live = .next t ∧ t.ctl .dec = .responding r ∧ r.status = .ok :=
  ⟨small_valid, live_inv.enc, live_inv.dec, rfl, rfl, by decide, rfl, rfl, rfl, by decide, by decide, ends_with (by decide +kernel),
    ends_with (by decide +kernel)⟩

/-- The session of the round-trip witness. -/
def session : List SessionOp := [.sym 1, .sym 2, .expand 4, .sym 3, .sym 0]

/-- The bits the session gives from `live`. -/
def sessionBits : List Bool :=
  match issueAll (.encInit 3 :: (session.map SessionOp.encode ++ [.encFlush false])) live with
  | some (_, t) => t.writer.accepted
  | none => []

/-- The result of the session meets `p`. -/
theorem issued_of {cmds : List Instr} {s : State} {p : List Response → State → Bool}
    (h : (match issueAll cmds s with | some (rs, t) => p rs t | none => false) = true) :
    ∃ rs t, issueAll cmds s = some (rs, t) ∧ p rs t = true := by
  cases hi : issueAll cmds s with
  | none => rw [hi] at h; simp at h
  | some x => rw [hi] at h; exact ⟨x.1, x.2, rfl, h⟩

theorem witness_RoundTrip :
    Inv live ∧ Inv (scripted live [] (sessionBits.map .bit)) ∧
    (∃ rs t, issueAll (.encInit 3 :: (session.map SessionOp.encode ++ [.encFlush false])) live = some (rs, t) ∧
      (∀ r ∈ rs, r.status = .ok) ∧ t.writer.accepted = live.writer.accepted ++ sessionBits) ∧
    (scripted live [] (sessionBits.map .bit)).cmdReady .dec = true ∧ (scripted live [] (sessionBits.map .bit)).reader.bound = true ∧
    (scripted live [] (sessionBits.map .bit)).reader.Supplying ∧
    (scripted live [] (sessionBits.map .bit)).reader.coming sessionBits.length = sessionBits.map .bit := by
  refine ⟨live_inv, scripted_inv live_inv _ _, ?_, rfl, rfl, ⟨rfl, ⟨false, rfl⟩, ?_⟩, ?_⟩
  · obtain ⟨rs, t, h1, h2⟩ := issued_of (cmds := .encInit 3 :: (session.map SessionOp.encode ++ [.encFlush false])) (s := live)
      (p := fun rs t => rs.all (fun r => decide (r.status = .ok)) && decide (t.writer.accepted = live.writer.accepted ++ sessionBits))
      (by decide +kernel)
    simp only [Bool.and_eq_true, List.all_eq_true, decide_eq_true_eq] at h2
    exact ⟨rs, t, h1, h2.1, h2.2⟩
  · intro a ha
    simp only [scripted, List.mem_map] at ha
    obtain ⟨b, -, rfl⟩ := ha
    exact ⟨b, rfl⟩
  · simp [Reader.coming, scripted, live, liveIn, State.resetIn]

/-- The machine after these commands, if they all answer. -/
def afterAll (cmds : List Instr) (s : State) : State :=
  match issueAll cmds s with
  | some (_, t) => t
  | none => s

/-- The commands of the snapshot witness, between SAVE and RESTORE. -/
def detour : List Instr := [.encSym 2, .encEst 0, .encSave]

/-- Slot 0 of ENC is valid after these commands, if they all answer. -/
def keepsSlot (cmds : List Instr) (s : State) : Bool :=
  match issueAll cmds s with
  | some (_, z) => (z.enc.slots.take 1).all (·.valid) && decide (z.enc.slots.length = 2)
  | none => true

theorem slot_of_keepsSlot {cmds : List Instr} {s z : State} {rs : List Response} (h : keepsSlot cmds s = true)
    (hi : issueAll cmds s = some (rs, z)) : ∃ slot, z.enc.slots[0]? = some slot ∧ slot.valid = true := by
  rw [keepsSlot, hi] at h
  simp only [Bool.and_eq_true, decide_eq_true_eq] at h
  obtain ⟨h1, h2⟩ := h
  cases hz : z.enc.slots with
  | nil => rw [hz] at h2; simp at h2
  | cons slot l => rw [hz] at h1; exact ⟨slot, rfl, by simpa using h1⟩

theorem witness_SnapshotLaw :
    Inv live ∧ issue .encSave live = some (okResponse 0, afterAll [.encSave] live) ∧ 0 < small.nsnap ∧
    (∀ i ∈ detour, i.unit = .enc) ∧
    (∃ rs, issueAll detour (afterAll [.encSave] live) = some (rs, afterAll detour (afterAll [.encSave] live))) ∧
    (∀ k rs' z, issueAll (detour.take k) (afterAll [.encSave] live) = some (rs', z) →
      ∃ slot, z.enc.slots[0]? = some slot ∧ slot.valid = true) ∧
    (afterAll detour (afterAll [.encSave] live)).enc.mode ≠ .fault ∧
    ∃ y, issue (.encRestore true 0) (afterAll detour (afterAll [.encSave] live)) = some (okResponse 0, y) := by
  refine ⟨live_inv, by decide +kernel, by decide, by decide, ?_, ?_, by decide +kernel, ?_⟩
  · obtain ⟨rs, t, h1, -⟩ := issued_of (cmds := detour) (s := afterAll [.encSave] live) (p := fun _ _ => true) (by decide +kernel)
    have h2 : afterAll detour (afterAll [.encSave] live) = t := by rw [afterAll, h1]
    exact ⟨rs, by rw [h2]; exact h1⟩
  · intro k rs' z h
    refine slot_of_keepsSlot ?_ h
    rcases k with _ | _ | _ | k
    · decide +kernel
    · decide +kernel
    · decide +kernel
    · have : detour.take (k + 3) = detour := by simp [detour]
      rw [this]
      decide +kernel
  · obtain ⟨rs, t, h1, h2⟩ := issued_of (cmds := [.encRestore true 0]) (s := afterAll detour (afterAll [.encSave] live))
      (p := fun rs _ => decide (rs = [okResponse 0])) (by decide +kernel)
    simp only [issueAll] at h1
    cases hi : issue (.encRestore true 0) (afterAll detour (afterAll [.encSave] live)) with
    | none => rw [hi] at h1; simp at h1
    | some x =>
      rw [hi] at h1
      simp only [Option.some.injEq, Prod.mk.injEq] at h1
      obtain ⟨rfl, rfl⟩ := h1
      have : x.1 = okResponse 0 := by simpa using h2
      exact ⟨x.2, by rw [← this]⟩

theorem witness_CostBracketRestores : Inv live ∧ ∃ res, costOf [0, 1] live = some res ∧ res.status = .ok := by
  refine ⟨live_inv, ?_⟩
  have h : (match costOf [0, 1] live with | some res => decide (res.status = .ok) | none => false) = true := by decide +kernel
  cases hc : costOf [0, 1] live with
  | none => rw [hc] at h; simp at h
  | some res => rw [hc] at h; exact ⟨res, rfl, by simpa using h⟩

/-- The last bit of a byte, and the first of the next. -/
theorem witness_FirstBitIsTheMsb :
    ({ live.writer with accepted := bitsOf "000000011" } : Writer).accepted[8 * 0 + 7]? = some true ∧
    ({ live.writer with accepted := bitsOf "000000011" } : Writer).accepted[8 * 1 + 0]? = some true := by decide

end Sys2Proof.Tests
end

section
/-! SUPPORT. What a command can reach: the parameters, its own unit and that unit's collaborator, and nothing else
(10_state.md R20, 60_exceptions.md R234). -/

namespace Sys2Proof.Machine

/-- `f` applied to the next state; a fault or a refusal stays. -/
def mapNext (f : State → State) : Host.Outcome State Fault Refusal → Host.Outcome State Fault Refusal
  | .next t => .next (f t)
  | .fault r => .fault r
  | .refused r => .refused r

theorem mapNext_next_of_eq {f : State → State} {o : Host.Outcome State Fault Refusal} {t : State} (h : o = .next t) :
    mapNext f o = .next (f t) := by
  rw [h, mapNext]

/-- The side of `s` that a command of ENC works on (the parameters, ENC, the writer), with everything else taken from `x`. -/
def State.encSideIn (x s : State) : State := { x with cfg := s.cfg, enc := s.enc, writer := s.writer }

/-- The side of `s` that a command of DEC works on (the parameters, DEC, the reader), with everything else taken from `x`. -/
def State.decSideIn (x s : State) : State := { x with cfg := s.cfg, dec := s.dec, reader := s.reader }

section
variable (x s : State)

@[simp] theorem State.encSideIn_cfg : (x.encSideIn s).cfg = s.cfg := rfl
@[simp] theorem State.encSideIn_enc : (x.encSideIn s).enc = s.enc := rfl
@[simp] theorem State.encSideIn_writer : (x.encSideIn s).writer = s.writer := rfl
@[simp] theorem State.encSideIn_dec : (x.encSideIn s).dec = x.dec := rfl
@[simp] theorem State.encSideIn_reader : (x.encSideIn s).reader = x.reader := rfl
@[simp] theorem State.encSideIn_rst : (x.encSideIn s).rst = x.rst := rfl
@[simp] theorem State.encSideIn_self : s.encSideIn s = s := rfl
@[simp] theorem State.decSideIn_cfg : (x.decSideIn s).cfg = s.cfg := rfl
@[simp] theorem State.decSideIn_dec : (x.decSideIn s).dec = s.dec := rfl
@[simp] theorem State.decSideIn_reader : (x.decSideIn s).reader = s.reader := rfl
@[simp] theorem State.decSideIn_enc : (x.decSideIn s).enc = x.enc := rfl
@[simp] theorem State.decSideIn_writer : (x.decSideIn s).writer = x.writer := rfl
@[simp] theorem State.decSideIn_rst : (x.decSideIn s).rst = x.rst := rfl
@[simp] theorem State.decSideIn_self : s.decSideIn s = s := rfl

end

section
variable (x s : State) (accepted : Bool) (check : Option Status)

theorem encChecked_encSideIn {effect effect' : Host.Outcome State Fault Refusal} (h : effect' = mapNext x.encSideIn effect) :
    encChecked accepted check (x.encSideIn s) effect' = mapNext x.encSideIn (encChecked accepted check s effect) := by
  subst h
  cases accepted with
  | false => rfl
  | true => cases check <;> rfl

theorem encChecked_next_encSideIn {t t' : State} (h : t' = x.encSideIn t) :
    encChecked accepted check (x.encSideIn s) (.next t') = mapNext x.encSideIn (encChecked accepted check s (.next t)) :=
  encChecked_encSideIn x s accepted check (congrArg _ h)

theorem decChecked_decSideIn {effect effect' : Host.Outcome State Fault Refusal} (h : effect' = mapNext x.decSideIn effect) :
    decChecked accepted check (x.decSideIn s) effect' = mapNext x.decSideIn (decChecked accepted check s effect) := by
  subst h
  cases accepted with
  | false => rfl
  | true => cases check <;> rfl

theorem decChecked_next_decSideIn {t t' : State} (h : t' = x.decSideIn t) :
    decChecked accepted check (x.decSideIn s) (.next t') = mapNext x.decSideIn (decChecked accepted check s (.next t)) :=
  decChecked_decSideIn x s accepted check (congrArg _ h)

end

section
variable (x s : State)

theorem encSymbol_encSideIn (emits : Bool) (sym : Nat) :
    encSymbol emits sym (x.encSideIn s) = x.encSideIn (encSymbol emits sym s) := by
  have hrun : encSymbolRun emits sym (x.encSideIn s) = encSymbolRun emits sym s := rfl
  unfold encSymbol
  rw [hrun]
  rcases encSymbolRun emits sym s with ⟨_ | st | b, r⟩
  · rw [apply_ite x.encSideIn]; rfl
  · rfl
  · rfl

theorem encFlushRun_encSideIn (force : Bool) : encFlushRun force (x.encSideIn s) = x.encSideIn (encFlushRun force s) := by
  unfold encFlushRun
  simp only [State.encSideIn_cfg, State.encSideIn_enc, State.encSideIn_writer, apply_ite x.encSideIn]
  refine ite_congr rfl (fun _ => rfl) fun _ => ?_
  rcases s.writer.emitAll (flushBits s.cfg s.enc) with ⟨_ | _ | b, w⟩
  · rw [apply_ite x.encSideIn]; rfl
  · rfl
  · rfl

theorem decInitRun_decSideIn (n : Nat) : decInitRun n (x.decSideIn s) = x.decSideIn (decInitRun n s) := by
  unfold decInitRun
  simp only [State.decSideIn_cfg, State.decSideIn_reader]
  rcases s.reader.takeField s.cfg.w 0 with ⟨_ | _ | b, v, rd⟩ <;> rfl

theorem decSymbol_decSideIn (sym : Nat) : decSymbol sym (x.decSideIn s) = x.decSideIn (decSymbol sym s) := by
  have hrun : decSymbolRun sym (x.decSideIn s) = decSymbolRun sym s := rfl
  unfold decSymbol
  rw [hrun]
  rcases decSymbolRun sym s with ⟨_ | st | b, r⟩ <;> rfl

/-- A command of ENC reads and writes the parameters, ENC and the writer alone. -/
theorem exec_encSideIn (i : Instr) (hi : i.unit = .enc) : exec i (x.encSideIn s) = mapNext x.encSideIn (exec i s) := by
  cases i with
  | encInit n =>
    simp only [exec, execEncInit, State.encSideIn_cfg, State.encSideIn_enc, State.encSideIn_writer]
    exact encChecked_next_encSideIn x s _ _ rfl
  | encExpand n2 =>
    simp only [exec, execEncExpand, State.encSideIn_cfg, State.encSideIn_enc]
    refine encChecked_encSideIn x s _ _ ?_
    cases s.enc.model.expand s.cfg n2 <;> rfl
  | encSym sym =>
    simp only [exec, execEncSym, State.encSideIn_enc]
    exact encChecked_next_encSideIn x s _ _ (encSymbol_encSideIn x s true sym)
  | encFlush force =>
    simp only [exec, execEncFlush, State.encSideIn_enc]
    refine encChecked_next_encSideIn x s _ _ ?_
    rw [apply_ite x.encSideIn, encFlushRun_encSideIn]
    rfl
  | encEst sym =>
    simp only [exec, execEncEst, State.encSideIn_enc]
    exact encChecked_next_encSideIn x s _ _ (encSymbol_encSideIn x s false sym)
  | encSave =>
    simp only [exec, execEncSave, State.encSideIn_cfg, State.encSideIn_enc]
    refine encChecked_next_encSideIn x s _ _ ?_
    cases encFreeHandle s.cfg s.enc <;> rfl
  | encRestore cleanup h =>
    simp only [exec, execEncRestore, State.encSideIn_cfg, State.encSideIn_enc]
    refine encChecked_next_encSideIn x s _ _ ?_
    cases encSlotOf s.cfg s.enc h <;> rfl
  | encDelete h =>
    simp only [exec, execEncDelete, State.encSideIn_cfg, State.encSideIn_enc]
    refine encChecked_next_encSideIn x s _ _ ?_
    cases encSlotOf s.cfg s.enc h <;> rfl
  | encReadp idx =>
    simp only [exec, execEncReadp, State.encSideIn_enc]
    exact encChecked_next_encSideIn x s _ _ rfl
  | encReadreg reg =>
    simp only [exec, execEncReadreg, State.encSideIn_cfg, State.encSideIn_enc]
    refine encChecked_next_encSideIn x s _ _ ?_
    rcases encRegister s.cfg s.enc reg with _ | ⟨width, value⟩
    · rfl
    · rw [apply_ite x.encSideIn]; rfl
  | decInit | decExpand | decSym | decSave | decRestore | decDelete | decReadp | decReadreg => cases hi

/-- A command of DEC reads and writes the parameters, DEC and the reader alone. -/
theorem exec_decSideIn (i : Instr) (hi : i.unit = .dec) : exec i (x.decSideIn s) = mapNext x.decSideIn (exec i s) := by
  cases i with
  | decInit n =>
    simp only [exec, execDecInit, State.decSideIn_cfg, State.decSideIn_dec, State.decSideIn_reader]
    exact decChecked_next_decSideIn x s _ _ (decInitRun_decSideIn x s n)
  | decExpand n2 =>
    simp only [exec, execDecExpand, State.decSideIn_cfg, State.decSideIn_dec]
    refine decChecked_decSideIn x s _ _ ?_
    cases s.dec.model.expand s.cfg n2 <;> rfl
  | decSym =>
    simp only [exec, execDecSym, State.decSideIn_dec]
    refine decChecked_decSideIn x s _ _ ?_
    simp only [decSymbol_decSideIn]
    cases decodedSymbol s.dec <;> rfl
  | decSave =>
    simp only [exec, execDecSave, State.decSideIn_cfg, State.decSideIn_dec]
    refine decChecked_next_decSideIn x s _ _ ?_
    cases decFreeHandle s.cfg s.dec <;> rfl
  | decRestore cleanup h =>
    simp only [exec, execDecRestore, State.decSideIn_cfg, State.decSideIn_dec]
    refine decChecked_next_decSideIn x s _ _ ?_
    cases decSlotOf s.cfg s.dec h <;> rfl
  | decDelete h =>
    simp only [exec, execDecDelete, State.decSideIn_cfg, State.decSideIn_dec]
    refine decChecked_next_decSideIn x s _ _ ?_
    cases decSlotOf s.cfg s.dec h <;> rfl
  | decReadp idx =>
    simp only [exec, execDecReadp, State.decSideIn_dec]
    exact decChecked_next_decSideIn x s _ _ rfl
  | decReadreg reg =>
    simp only [exec, execDecReadreg, State.decSideIn_cfg, State.decSideIn_dec]
    refine decChecked_next_decSideIn x s _ _ ?_
    rcases decRegister s.cfg s.dec reg with _ | ⟨width, value⟩
    · rfl
    · rw [apply_ite x.decSideIn]; rfl
  | encInit | encExpand | encSym | encFlush | encEst | encSave | encRestore | encDelete | encReadp | encReadreg => cases hi

end

/-- A command of ENC leaves everything as it was but the parameters, ENC and the writer. -/
theorem exec_enc_frame {i : Instr} {s t : State} (hi : i.unit = .enc) (h : exec i s = .next t) : t = s.encSideIn t := by
  have hs := exec_encSideIn s s i hi
  rw [State.encSideIn_self, h] at hs
  exact Host.Outcome.next.inj hs

/-- A command of DEC leaves everything as it was but the parameters, DEC and the reader. -/
theorem exec_dec_frame {i : Instr} {s t : State} (hi : i.unit = .dec) (h : exec i s = .next t) : t = s.decSideIn t := by
  have hs := exec_decSideIn s s i hi
  rw [State.decSideIn_self, h] at hs
  exact Host.Outcome.next.inj hs

/-- Settles O22: with `s` itself, in other surroundings, as the state around the command's own side (`exec_encSideIn`,
`exec_decSideIn`). -/
theorem unitsAreIndependent : Obligations.UnitsAreIndependent := by
  intro i s t h
  refine ⟨fun hi => ?_, fun hi => ?_⟩
  · have hframe := exec_enc_frame hi h
    refine ⟨by rw [hframe, State.encSideIn_dec], by rw [hframe, State.encSideIn_reader], fun d r => ?_⟩
    have hrun := exec_encSideIn { s with dec := d, reader := r } s i hi
    rw [mapNext_next_of_eq h] at hrun
    rw [hframe]
    exact hrun
  · have hframe := exec_dec_frame hi h
    refine ⟨by rw [hframe, State.decSideIn_enc], by rw [hframe, State.decSideIn_writer], fun e w => ?_⟩
    have hrun := exec_decSideIn { s with enc := e, writer := w } s i hi
    rw [mapNext_next_of_eq h] at hrun
    rw [hframe]
    exact hrun

end Sys2Proof.Machine
end

section
/-! SUPPORT. What `Inv` says of each unit on its own side (the unit and its collaborator), and that every command keeps it there
(10_state.md R21, R29, R34 to R36). -/

namespace Sys2Proof.Machine

/-! ### The modes a command is accepted in (60_exceptions.md R226) -/

section
variable {m : Mode}

theorem accepts_encExpand_iff {n2 : Nat} : accepts (.encExpand n2) m = true ↔ m = .ready := by cases m <;> simp [accepts]
theorem accepts_encSym_iff {sym : Nat} : accepts (.encSym sym) m = true ↔ m = .ready := by cases m <;> simp [accepts]
theorem accepts_encEst_iff {sym : Nat} : accepts (.encEst sym) m = true ↔ m = .ready := by cases m <;> simp [accepts]
theorem accepts_encFlush_iff {force : Bool} : accepts (.encFlush force) m = true ↔ m = .ready ∨ m = .flushed := by
  cases m <;> simp [accepts]
theorem accepts_encSave_iff : accepts .encSave m = true ↔ m = .ready ∨ m = .flushed := by cases m <;> simp [accepts]
theorem accepts_decExpand_iff {n2 : Nat} : accepts (.decExpand n2) m = true ↔ m = .ready := by cases m <;> simp [accepts]
theorem accepts_decSym_iff : accepts .decSym m = true ↔ m = .ready := by cases m <;> simp [accepts]
theorem accepts_decSave_iff : accepts .decSave m = true ↔ m = .ready := by cases m <;> simp [accepts]

end

/-! ### ENC -/

/-- What `Inv` says of ENC and the writer, in the configuration `c`. -/
structure EncSideOk (c : Config) (s : State) : Prop where
  cfg : s.cfg = c
  inv : EncInv c s.enc
  waits : ∀ b cmd, s.enc.ctl = .offeringDetached b cmd → s.writer.bound = false ∧ cmd.Accepted s.enc

section
variable {c : Config} {s t : State} {st : Status} {data : Nat} {b : Bool} {cmd : EncBeatCommand}

theorem EncSideOk.of_not_waiting (hcfg : s.cfg = c) (h : EncInv c s.enc) (hctl : ∀ b cmd, s.enc.ctl ≠ .offeringDetached b cmd) :
    EncSideOk c s :=
  ⟨hcfg, h, fun b cmd hk => absurd hk (hctl b cmd)⟩

theorem respondEnc_ok (hcfg : s.cfg = c) (h : EncInv c s.enc) : EncSideOk c (respondEnc data s) :=
  .of_not_waiting hcfg (h.withCtl _ (by simp) (by rintro r ⟨rfl⟩; exact Response.ok_of_status_ok _)) (by simp)

theorem raise_enc_refusal_ok (hcfg : s.cfg = c) (h : EncInv c s.enc) (hst : st.isRefusal = true) :
    EncSideOk c (raise .enc st s) :=
  .of_not_waiting hcfg (h.refuse st hst) (by simp)

theorem raise_enc_fault_ok (hcfg : s.cfg = c) (h : EncInv c s.enc) (hst : st.isFault = true)
    (hm : s.enc.mode ≠ .uninit) : EncSideOk c (raise .enc st s) :=
  .of_not_waiting hcfg (h.enterFault st hst hm) (by simp)

/-- ENC left at a beat keeps the registers of before the command, which its state accepts (log 6, log 19). -/
theorem stallEnc_ok (hcfg : s.cfg = c) (h : EncInv c s.enc) (hcmd : cmd.Accepted s.enc) :
    EncSideOk c (stallEnc cmd b s) := by
  obtain ⟨-, hresp, hreq⟩ := encStallCtl_ne cmd b s.writer.bound
  refine ⟨hcfg, h.withCtl _ hreq fun r hr => absurd hr (hresp r), fun b' cmd' hk => ?_⟩
  cases hb : s.writer.bound with
  | true => simp [hb] at hk
  | false =>
    simp only [stallEnc_enc, hb, Enc.withCtl_ctl, encStallCtl_detached, Ctl.offeringDetached.injEq] at hk
    obtain ⟨-, rfl⟩ := hk
    exact ⟨hb, by cases cmd <;> exact hcmd⟩

/-- A command of ENC keeps ENC's side when its checks give refusals and its effect keeps it. -/
theorem encChecked_ok {accepted : Bool} {check : Option Status} {effect : Host.Outcome State Fault Refusal}
    (hcfg : s.cfg = c) (h : EncInv c s.enc) (ht : encChecked accepted check s effect = .next t)
    (hcheck : ∀ st, check = some st → st.isRefusal = true)
    (heffect : accepted = true → check = none → effect = .next t → EncSideOk c t) : EncSideOk c t := by
  rcases encChecked_cases accepted check s effect with ⟨-, e⟩ | ⟨-, st, hst, e⟩ | ⟨ha, hn, e⟩
  · obtain rfl := Host.Outcome.next.inj (e.symm.trans ht)
    exact raise_enc_refusal_ok hcfg h rfl
  · obtain rfl := Host.Outcome.next.inj (e.symm.trans ht)
    exact raise_enc_refusal_ok hcfg h (hcheck st hst)
  · exact heffect ha hn (e.symm.trans ht)

theorem encFreeSlot_inv {e : Enc} (h : EncInv c e) (k : Nat) (slot : EncSlot) : EncInv c (encFreeSlot k slot e) :=
  h.withSlot k _ (by simp) (fun _ => rfl)

theorem EncInv.slot_ok {e : Enc} (h : EncInv c e) {k : Nat} {slot : EncSlot} (hs : encSlotOf c e k = some slot) :
    EncSlotOk c slot := by
  obtain ⟨-, hget, hvalid⟩ := encSlotOf_some.1 hs
  exact h.slots_ok slot (List.mem_of_getElem? hget) hvalid

/-- The symbol step of ENC, by the three ends of its loop (42_encoder.md R162, R164). -/
theorem encSymbol_ok (hc : c.Valid) (hcfg : s.cfg = c) (h : EncInv c s.enc) (hm : s.enc.mode = .ready) (emits : Bool) {sym : Nat}
    (hsym : sym < s.enc.model.n) : EncSideOk c (encSymbol emits sym s) := by
  have huninit : s.enc.mode ≠ .uninit := by simp [hm]
  unfold encSymbol
  rcases hr : encSymbolRun emits sym s with ⟨_ | st | b, r⟩
  · have hinv := (encSymbolState_inv hc hcfg h hm emits sym hsym r hr).1
    dsimp only
    split
    · exact raise_enc_fault_ok hcfg hinv rfl huninit
    · exact respondEnc_ok hcfg hinv
  · exact raise_enc_fault_ok hcfg h (encSymbolRun_fault hr) huninit
  · exact stallEnc_ok hcfg h ⟨hm, hsym⟩

/-- The flush procedure, by the end of its beats (42_encoder.md R163). -/
theorem encFlushRun_ok (hcfg : s.cfg = c) (h : EncInv c s.enc) {force : Bool} (hcmd : (EncBeatCommand.flush force).Accepted s.enc) :
    EncSideOk c (encFlushRun force s) := by
  have hm : s.enc.mode = .ready ∨ s.enc.mode = .flushed := hcmd.imp_right And.left
  have huninit : s.enc.mode ≠ .uninit := by rcases hm with hm | hm <;> simp [hm]
  unfold encFlushRun
  split
  · exact raise_enc_fault_ok hcfg h rfl huninit
  · rcases s.writer.emitAll (flushBits s.cfg s.enc) with ⟨_ | _ | b, w⟩
    · dsimp only
      split
      · exact raise_enc_fault_ok hcfg (h.flush hm) rfl (by simp)
      · exact respondEnc_ok hcfg (h.flush hm)
    · exact raise_enc_fault_ok hcfg h rfl huninit
    · exact stallEnc_ok hcfg h hcmd

/-- Every command of ENC keeps ENC's side of the invariant. -/
theorem exec_enc_ok (hc : c.Valid) (hcfg : s.cfg = c) (h : EncInv c s.enc) {i : Instr} (hi : i.unit = .enc)
    (ht : exec i s = .next t) : EncSideOk c t := by
  subst hcfg
  cases i with
  | encInit n =>
    simp only [exec, execEncInit] at ht
    refine encChecked_ok rfl h ht (fun _ => initCheck_some) fun _ hn he => ?_
    obtain ⟨h1, -, h2, h3⟩ := initCheck_none.1 hn
    obtain rfl := Host.Outcome.next.inj he
    exact respondEnc_ok rfl (h.init hc n h1 h3 h2)
  | encExpand n2 =>
    simp only [exec, execEncExpand] at ht
    refine encChecked_ok rfl h ht (fun _ => expandCheck_some) fun ha hn he => ?_
    have hm := accepts_encExpand_iff.1 ha
    obtain ⟨h1, h2, h3⟩ := expandCheck_none.1 hn
    obtain ⟨m, hexp, hok, -, hlen⟩ := expand_legal hc s.enc.model n2 (h.table (.inl hm)) h.table_length h1 h3 h2
    rw [hexp] at he
    obtain rfl := Host.Outcome.next.inj he
    exact respondEnc_ok rfl (h.withModel m hm hlen hok)
  | encSym sym =>
    simp only [exec, execEncSym] at ht
    refine encChecked_ok rfl h ht (fun _ => symbolCheck_refusal) fun ha hn he => ?_
    obtain rfl := Host.Outcome.next.inj he
    exact encSymbol_ok hc rfl h (accepts_encSym_iff.1 ha) true (symbolCheck_none.1 hn)
  | encFlush force =>
    simp only [exec, execEncFlush] at ht
    refine encChecked_ok rfl h ht (by simp) fun ha _ he => ?_
    obtain rfl := Host.Outcome.next.inj he
    split
    · exact respondEnc_ok rfl h
    · rename_i hnop
      refine encFlushRun_ok rfl h ((accepts_encFlush_iff.1 ha).imp_right fun hf => ⟨hf, ?_⟩)
      simpa [hf] using hnop
  | encEst sym =>
    simp only [exec, execEncEst] at ht
    refine encChecked_ok rfl h ht (fun _ => symbolCheck_refusal) fun ha hn he => ?_
    obtain rfl := Host.Outcome.next.inj he
    exact encSymbol_ok hc rfl h (accepts_encEst_iff.1 ha) false (symbolCheck_none.1 hn)
  | encSave =>
    simp only [exec, execEncSave] at ht
    refine encChecked_ok rfl h ht (by simp) fun ha _ he => ?_
    have hm := accepts_encSave_iff.1 ha
    obtain rfl := Host.Outcome.next.inj he
    split
    · exact raise_enc_refusal_ok rfl h rfl
    · rename_i k _
      exact respondEnc_ok rfl (h.withSlot k _ (fun _ => encSnapshot_ok h hm) (by rcases hm with hm | hm <;> simp [hm]))
  | encRestore cleanup k =>
    simp only [exec, execEncRestore] at ht
    refine encChecked_ok rfl h ht (by simp) fun _ _ he => ?_
    obtain rfl := Host.Outcome.next.inj he
    split
    · exact raise_enc_refusal_ok rfl h rfl
    · rename_i slot hs
      have hrestored := encRestored_inv h slot (h.slot_ok hs)
      refine respondEnc_ok rfl ?_
      cases cleanup with
      | false => exact hrestored
      | true => exact encFreeSlot_inv hrestored k slot
  | encDelete k =>
    simp only [exec, execEncDelete] at ht
    refine encChecked_ok rfl h ht (by simp) fun _ _ he => ?_
    obtain rfl := Host.Outcome.next.inj he
    split
    · exact raise_enc_refusal_ok rfl h rfl
    · exact respondEnc_ok rfl (encFreeSlot_inv h k _)
  | encReadp idx =>
    simp only [exec, execEncReadp] at ht
    refine encChecked_ok rfl h ht (fun st hst => by rw [(indexCheck_some hst).2]; rfl) fun _ _ he => ?_
    obtain rfl := Host.Outcome.next.inj he
    exact respondEnc_ok rfl h
  | encReadreg reg =>
    simp only [exec, execEncReadreg] at ht
    refine encChecked_ok rfl h ht (by simp) fun _ _ he => ?_
    obtain rfl := Host.Outcome.next.inj he
    split
    · exact raise_enc_refusal_ok rfl h rfl
    · split
      · exact respondEnc_ok rfl (h.withDraws _)
      · exact respondEnc_ok rfl h
  | decInit | decExpand | decSym | decSave | decRestore | decDelete | decReadp | decReadreg => cases hi

end

/-! ### DEC -/

/-- What `Inv` says of DEC and the reader, in the configuration `c`. -/
structure DecSideOk (c : Config) (s : State) : Prop where
  cfg : s.cfg = c
  inv : DecInv c s.dec
  waits : s.dec.ctl = .requestingDetached → s.reader.bound = false ∧ s.dec.mode = .ready

section
variable {c : Config} {s t : State} {st : Status} {data : Nat}

theorem DecSideOk.of_not_waiting (hcfg : s.cfg = c) (h : DecInv c s.dec) (hctl : s.dec.ctl ≠ .requestingDetached) :
    DecSideOk c s :=
  ⟨hcfg, h, fun hk => absurd hk hctl⟩

theorem respondDec_ok (hcfg : s.cfg = c) (h : DecInv c s.dec) : DecSideOk c (respondDec data s) :=
  .of_not_waiting hcfg (h.withCtl _ (by simp) (by rintro r ⟨rfl⟩; exact Response.ok_of_status_ok _)) (by simp)

theorem raise_dec_refusal_ok (hcfg : s.cfg = c) (h : DecInv c s.dec) (hst : st.isRefusal = true) :
    DecSideOk c (raise .dec st s) :=
  .of_not_waiting hcfg (h.refuse st hst) (by simp)

theorem raise_dec_fault_ok (hcfg : s.cfg = c) (h : DecInv c s.dec) (hst : st.isFault = true)
    (hm : s.dec.mode ≠ .uninit) : DecSideOk c (raise .dec st s) :=
  .of_not_waiting hcfg (h.enterFault st hst hm) (by simp)

/-- DEC left at a request keeps the registers of before the command; only DEC.SYM, in READY, meets a detached reader (log 6, log 19). -/
theorem stallDec_ok (hcfg : s.cfg = c) (h : DecInv c s.dec) (hm : s.reader.bound = false → s.dec.mode = .ready) :
    DecSideOk c (stallDec s) := by
  obtain ⟨-, hresp, hoff⟩ := decStallCtl_ne s.reader.bound
  refine ⟨hcfg, h.withCtl _ hoff fun r hr => absurd hr (hresp r), fun hk => ?_⟩
  cases hb : s.reader.bound with
  | true => simp [hb] at hk
  | false => exact ⟨hb, hm hb⟩

/-- A command of DEC keeps DEC's side when its checks give refusals and its effect keeps it. -/
theorem decChecked_ok {accepted : Bool} {check : Option Status} {effect : Host.Outcome State Fault Refusal}
    (hcfg : s.cfg = c) (h : DecInv c s.dec) (ht : decChecked accepted check s effect = .next t)
    (hcheck : ∀ st, check = some st → st.isRefusal = true)
    (heffect : accepted = true → check = none → effect = .next t → DecSideOk c t) : DecSideOk c t := by
  rcases decChecked_cases accepted check s effect with ⟨-, e⟩ | ⟨-, st, hst, e⟩ | ⟨ha, hn, e⟩
  · obtain rfl := Host.Outcome.next.inj (e.symm.trans ht)
    exact raise_dec_refusal_ok hcfg h rfl
  · obtain rfl := Host.Outcome.next.inj (e.symm.trans ht)
    exact raise_dec_refusal_ok hcfg h (hcheck st hst)
  · exact heffect ha hn (e.symm.trans ht)

theorem decFreeSlot_inv {d : Dec} (h : DecInv c d) (k : Nat) (slot : DecSlot) : DecInv c (decFreeSlot k slot d) :=
  h.withSlot k _ (by simp) (fun _ => rfl)

theorem DecInv.slot_ok {d : Dec} (h : DecInv c d) {k : Nat} {slot : DecSlot} (hs : decSlotOf c d k = some slot) :
    DecSlotOk c slot := by
  obtain ⟨-, hget, hvalid⟩ := decSlotOf_some.1 hs
  exact h.slots_ok slot (List.mem_of_getElem? hget) hvalid

/-- The pre-loaded window fits its width (20_memory.md R61). -/
theorem takeField_lt {k v : Nat} {r r' : Reader} (h : r.takeField k 0 = (.done, v, r')) : v < 2 ^ k := by
  obtain ⟨-, -, bits, -, hv, hlen, -⟩ := Reader.takeField_cases k 0 r
  rw [h] at hv hlen
  have hlt := valueOf_lt bits 0
  rw [← hv, hlen rfl] at hlt
  simpa using hlt

/-- DEC.INIT past its checks, by the end of its beats (43_decoder.md R190). -/
theorem decInitRun_ok (hc : c.Valid) (hcfg : s.cfg = c) (h : DecInv c s.dec) {n : Nat} (hn : initCheck c s.reader.bound n = none) :
    DecSideOk c (decInitRun n s) := by
  subst hcfg
  obtain ⟨h1, hbound, h2, h3⟩ := initCheck_none.1 hn
  have hkeep := (Reader.takeField_cases s.cfg.w 0 s.reader).1
  unfold decInitRun
  rcases hr : s.reader.takeField s.cfg.w 0 with ⟨_ | _ | b, code, rd⟩
  · exact respondDec_ok rfl (h.init hc n code h1 h3 h2 (takeField_lt hr))
  · exact .of_not_waiting rfl (h.initFault n h1 h3 _ rfl) (by simp)
  · rw [hr, hbound] at hkeep
    exact stallDec_ok rfl h fun hdet => absurd (hkeep.symm.trans hdet) (by decide)

/-- DEC.SYM once its symbol is known, by the three ends of its loop (43_decoder.md R192). -/
theorem decSymbol_ok (hc : c.Valid) (hcfg : s.cfg = c) (h : DecInv c s.dec) (hm : s.dec.mode = .ready) {sym : Nat}
    (hsym : sym < s.dec.model.n) (hlow : (narrow s.dec.model sym s.dec.low s.dec.high).low ≤ s.dec.code)
    (hhigh : s.dec.code ≤ (narrow s.dec.model sym s.dec.low s.dec.high).high) : DecSideOk c (decSymbol sym s) := by
  unfold decSymbol
  rcases hr : decSymbolRun sym s with ⟨_ | st | b, r⟩
  · exact respondDec_ok hcfg (decSymbolState_inv hc hcfg h hm sym hsym hlow hhigh r hr)
  · exact raise_dec_fault_ok hcfg h (decSymbolRun_fault hr) (by simp [hm])
  · exact stallDec_ok hcfg h fun _ => hm

/-- Every command of DEC keeps DEC's side of the invariant. -/
theorem exec_dec_ok (hc : c.Valid) (hcfg : s.cfg = c) (h : DecInv c s.dec) {i : Instr} (hi : i.unit = .dec)
    (ht : exec i s = .next t) : DecSideOk c t := by
  subst hcfg
  cases i with
  | decInit n =>
    simp only [exec, execDecInit] at ht
    refine decChecked_ok rfl h ht (fun _ => initCheck_some) fun _ hn he => ?_
    obtain rfl := Host.Outcome.next.inj he
    exact decInitRun_ok hc rfl h hn
  | decExpand n2 =>
    simp only [exec, execDecExpand] at ht
    refine decChecked_ok rfl h ht (fun _ => expandCheck_some) fun ha hn he => ?_
    have hm := accepts_decExpand_iff.1 ha
    obtain ⟨h1, h2, h3⟩ := expandCheck_none.1 hn
    obtain ⟨m, hexp, hok, -, hlen⟩ := expand_legal hc s.dec.model n2 (h.table hm) h.table_length h1 h3 h2
    rw [hexp] at he
    obtain rfl := Host.Outcome.next.inj he
    exact respondDec_ok rfl (h.withModel m hm hlen hok)
  | decSym =>
    simp only [exec, execDecSym] at ht
    refine decChecked_ok rfl h ht (by simp) fun ha _ he => ?_
    have hm := accepts_decSym_iff.1 ha
    obtain ⟨sym, hsome, hsym, hlow, hhigh⟩ := decodedSymbol_ok h hm
    rw [hsome] at he
    obtain rfl := Host.Outcome.next.inj he
    exact decSymbol_ok hc rfl h hm hsym hlow hhigh
  | decSave =>
    simp only [exec, execDecSave] at ht
    refine decChecked_ok rfl h ht (by simp) fun ha _ he => ?_
    have hm := accepts_decSave_iff.1 ha
    obtain rfl := Host.Outcome.next.inj he
    split
    · exact raise_dec_refusal_ok rfl h rfl
    · rename_i k _
      exact respondDec_ok rfl (h.withSlot k _ (fun _ => decSnapshot_ok h hm) (by simp [hm]))
  | decRestore cleanup k =>
    simp only [exec, execDecRestore] at ht
    refine decChecked_ok rfl h ht (by simp) fun _ _ he => ?_
    obtain rfl := Host.Outcome.next.inj he
    split
    · exact raise_dec_refusal_ok rfl h rfl
    · rename_i slot hs
      have hrestored := decRestored_inv h slot (h.slot_ok hs)
      refine respondDec_ok rfl ?_
      cases cleanup with
      | false => exact hrestored
      | true => exact decFreeSlot_inv hrestored k slot
  | decDelete k =>
    simp only [exec, execDecDelete] at ht
    refine decChecked_ok rfl h ht (by simp) fun _ _ he => ?_
    obtain rfl := Host.Outcome.next.inj he
    split
    · exact raise_dec_refusal_ok rfl h rfl
    · exact respondDec_ok rfl (decFreeSlot_inv h k _)
  | decReadp idx =>
    simp only [exec, execDecReadp] at ht
    refine decChecked_ok rfl h ht (fun st hst => by rw [(indexCheck_some hst).2]; rfl) fun _ _ he => ?_
    obtain rfl := Host.Outcome.next.inj he
    exact respondDec_ok rfl h
  | decReadreg reg =>
    simp only [exec, execDecReadreg] at ht
    refine decChecked_ok rfl h ht (by simp) fun _ _ he => ?_
    obtain rfl := Host.Outcome.next.inj he
    split
    · exact raise_dec_refusal_ok rfl h rfl
    · split
      · exact respondDec_ok rfl (h.withDraws _)
      · exact respondDec_ok rfl h
  | encInit | encExpand | encSym | encFlush | encEst | encSave | encRestore | encDelete | encReadp | encReadreg => cases hi

end

end Sys2Proof.Machine
end

section
/-! SUPPORT. The invariant of the machine is the two sides together; reset gives it and every act of the host keeps it. -/

namespace Sys2Proof.Machine

section
variable {s t : State}

theorem Inv.encSide (h : Inv s) : EncSideOk s.cfg s := ⟨rfl, h.enc, h.enc_waits⟩

theorem Inv.decSide (h : Inv s) : DecSideOk s.cfg s := ⟨rfl, h.dec, h.dec_waits⟩

/-- The invariant from its two sides, both in the configuration `c`. -/
theorem Inv.of_sides {c : Config} (hc : c.Valid) (he : EncSideOk c s) (hd : DecSideOk c s)
    (hheld : s.rst = true → (s.enc.mode = .uninit ∧ s.enc.ctl = .ready) ∧ s.dec.mode = .uninit ∧ s.dec.ctl = .ready) : Inv s := by
  obtain ⟨rfl, he, hew⟩ := he
  exact ⟨hc, he, hd.inv, hew, hd.waits, hheld⟩

/-- The invariant of a state that is not held in reset, from its two sides. -/
theorem Inv.of_sides_running {c : Config} (hc : c.Valid) (he : EncSideOk c s) (hd : DecSideOk c s) (hr : s.rst = false) :
    Inv s :=
  .of_sides hc he hd fun h => by simp [hr] at h

/-- The invariant says nothing of the host's own plans. -/
theorem Inv.withInputs (h : Inv s) (l : List HostEvent) : Inv (s.withInputs l) :=
  ⟨h.cfg, h.enc, h.dec, h.enc_waits, h.dec_waits, h.held⟩

/-- A unit that is not ready is not held in reset. -/
theorem Inv.rst_of_enc_busy (h : Inv s) (hctl : s.enc.ctl ≠ .ready) : s.rst = false :=
  Bool.eq_false_iff.2 fun hr => hctl (h.held hr).1.2

theorem Inv.rst_of_dec_busy (h : Inv s) (hctl : s.dec.ctl ≠ .ready) : s.rst = false :=
  Bool.eq_false_iff.2 fun hr => hctl (h.held hr).2.2

/-! ### Reset -/

theorem reference_valid : Config.reference.Valid := by constructor <;> decide

theorem resetIn_inv {c : Config} (hc : c.Valid) : Inv (State.resetIn c) :=
  .of_sides_running hc (.of_not_waiting rfl (Enc.reset_inv c 0) (by simp [Enc.reset]))
    (.of_not_waiting rfl (Dec.reset_inv c 0) (by simp [Dec.reset])) rfl

/-- An edge with `rst = 1` leaves both units at their reset values (70_reset_and_hazards.md R250). -/
theorem resetUnits_inv (h : Inv s) : Inv ((resetUnits s).withRst true) :=
  .of_sides h.cfg (.of_not_waiting rfl (Enc.reset_inv s.cfg _) (by simp [resetUnits, Enc.reset]))
    (.of_not_waiting rfl (Dec.reset_inv s.cfg _) (by simp [resetUnits, Dec.reset]))
    fun _ => ⟨⟨rfl, rfl⟩, rfl, rfl⟩

theorem Inv.release (h : Inv s) : Inv (s.withRst false) :=
  ⟨h.cfg, h.enc, h.dec, h.enc_waits, h.dec_waits, by simp⟩

/-! ### Commands -/

/-- A command of ENC, from a state whose ENC need not be at rest, leaves a legal machine. -/
theorem exec_enc_inv {i : Instr} (ht : exec i s = .next t) (hi : i.unit = .enc) (hr : s.rst = false) (hc : s.cfg.Valid)
    (he : EncInv s.cfg s.enc) (hd : DecSideOk s.cfg s) : Inv t ∧ t.cfg = s.cfg := by
  have hside := exec_enc_ok hc rfl he hi ht
  have hframe := exec_enc_frame hi ht
  refine ⟨.of_sides_running hc hside ?_ (by rw [hframe, State.encSideIn_rst, hr]), hside.cfg⟩
  obtain ⟨-, hinv, hwaits⟩ := hd
  refine ⟨hside.cfg, ?_, ?_⟩
  · rw [hframe, State.encSideIn_dec]; exact hinv
  · rw [hframe, State.encSideIn_dec, State.encSideIn_reader]; exact hwaits

/-- A command of DEC, from a state whose DEC need not be at rest, leaves a legal machine. -/
theorem exec_dec_inv {i : Instr} (ht : exec i s = .next t) (hi : i.unit = .dec) (hr : s.rst = false) (hc : s.cfg.Valid)
    (he : EncSideOk s.cfg s) (hd : DecInv s.cfg s.dec) : Inv t ∧ t.cfg = s.cfg := by
  have hside := exec_dec_ok hc rfl hd hi ht
  have hframe := exec_dec_frame hi ht
  refine ⟨.of_sides_running hc ?_ hside (by rw [hframe, State.decSideIn_rst, hr]), hside.cfg⟩
  obtain ⟨-, hinv, hwaits⟩ := he
  refine ⟨hside.cfg, ?_, ?_⟩
  · rw [hframe, State.decSideIn_enc]; exact hinv
  · rw [hframe, State.decSideIn_enc, State.decSideIn_writer]; exact hwaits

/-- Every command leaves a legal machine. -/
theorem exec_inv (h : Inv s) (hr : s.rst = false) {i : Instr} (ht : exec i s = .next t) : Inv t ∧ t.cfg = s.cfg := by
  cases hi : i.unit with
  | enc => exact exec_enc_inv ht hi hr h.cfg h.enc h.decSide
  | dec => exact exec_dec_inv ht hi hr h.cfg h.encSide h.dec

/-! ### The ports -/

/-- Of an accepted word: a command, or an illegal word, which ends as a refusal (30_encoding.md R88). -/
theorem accept_inv (h : Inv s) (hr : s.rst = false) {u : Half} {word : Word} (ht : accept u word s = .next t) :
    Inv t ∧ t.cfg = s.cfg := by
  unfold accept at ht
  split at ht
  · exact exec_inv h hr ht
  · obtain rfl := Host.Outcome.next.inj ht
    refine ⟨?_, raise_cfg ..⟩
    cases u with
    | enc => exact .of_sides_running h.cfg (raise_enc_refusal_ok rfl h.enc rfl) ⟨rfl, h.dec, h.dec_waits⟩ hr
    | dec => exact .of_sides_running h.cfg ⟨rfl, h.enc, h.enc_waits⟩ (raise_dec_refusal_ok rfl h.dec rfl) hr

theorem freePort_enc_inv {c : Config} (h : EncInv c s.enc) : EncInv c (freePort .enc s).enc := h.withCtl .ready (by simp) (by simp)

theorem freePort_dec_inv {c : Config} (h : DecInv c s.dec) : DecInv c (freePort .dec s).dec := h.withCtl .ready (by simp) (by simp)

/-- Taking a response makes its unit ready again (30_encoding.md R82, R83). -/
theorem deliver_inv (h : Inv s) (u : Half) (r : Response) : Inv (deliver u r s) := by
  cases u with
  | enc =>
    exact .of_sides h.cfg (.of_not_waiting rfl (freePort_enc_inv h.enc) (by simp [deliver, freePort]))
      ⟨rfl, h.dec, h.dec_waits⟩ fun hr => ⟨⟨(h.held hr).1.1, rfl⟩, (h.held hr).2⟩
  | dec =>
    exact .of_sides h.cfg ⟨rfl, h.enc, h.enc_waits⟩
      (.of_not_waiting rfl (freePort_dec_inv h.dec) (by simp [deliver, freePort])) fun hr => ⟨(h.held hr).1, (h.held hr).2.1, rfl⟩

/-- An ENC that waits for its writer goes on when the writer is attached again (70_reset_and_hazards.md R268). -/
theorem setWriterBound_resumes {b : Bool} {cmd : EncBeatCommand} (hctl : s.enc.ctl = .offeringDetached b cmd) :
    setWriterBound true s = exec cmd.instr (freePort .enc (s.withWriter { s.writer with bound := true })) := by
  simp [setWriterBound, hctl]

/-- Otherwise the strap changes alone. -/
theorem setWriterBound_alone {level : Bool} (hctl : level = true → ∀ b cmd, s.enc.ctl ≠ .offeringDetached b cmd) :
    setWriterBound level s = .next (s.withWriter { s.writer with bound := level }) := by
  unfold setWriterBound
  split
  · rename_i b cmd hk
    cases level with
    | true => exact absurd hk (hctl rfl b cmd)
    | false => rfl
  all_goals rfl

/-- A DEC that waits for its reader goes on when the reader is attached again (70_reset_and_hazards.md R268). -/
theorem setReaderBound_resumes (hctl : s.dec.ctl = .requestingDetached) :
    setReaderBound true s = exec .decSym (freePort .dec (s.withReader { s.reader with bound := true })) := by
  simp [setReaderBound, hctl]

/-- Otherwise the strap changes alone. -/
theorem setReaderBound_alone {level : Bool} (hctl : level = true → s.dec.ctl ≠ .requestingDetached) :
    setReaderBound level s = .next (s.withReader { s.reader with bound := level }) := by
  unfold setReaderBound
  split
  · rename_i hk
    cases level with
    | true => exact absurd hk (hctl rfl)
    | false => rfl
  all_goals rfl

theorem setWriterBound_inv (h : Inv s) {level : Bool} (ht : setWriterBound level s = .next t) : Inv t ∧ t.cfg = s.cfg := by
  by_cases hgo : level = true ∧ ∃ b cmd, s.enc.ctl = .offeringDetached b cmd
  · obtain ⟨rfl, b, cmd, hctl⟩ := hgo
    rw [setWriterBound_resumes hctl] at ht
    have hunit : cmd.instr.unit = .enc := by cases cmd <;> rfl
    have hr := h.rst_of_enc_busy (by simp [hctl])
    have hrun := exec_enc_inv ht hunit hr h.cfg (freePort_enc_inv h.enc) ⟨rfl, h.dec, h.dec_waits⟩
    exact hrun
  · have hlow : ∀ b cmd, s.enc.ctl = .offeringDetached b cmd → level = false := fun b cmd hk =>
      Bool.eq_false_iff.2 fun hl => hgo ⟨hl, b, cmd, hk⟩
    rw [setWriterBound_alone fun hl b cmd hk => hgo ⟨hl, b, cmd, hk⟩] at ht
    obtain rfl := Host.Outcome.next.inj ht
    exact ⟨⟨h.cfg, h.enc, h.dec, fun b cmd hk => ⟨hlow b cmd hk, (h.enc_waits b cmd hk).2⟩, h.dec_waits, h.held⟩, rfl⟩

theorem setReaderBound_inv (h : Inv s) {level : Bool} (ht : setReaderBound level s = .next t) : Inv t ∧ t.cfg = s.cfg := by
  by_cases hgo : level = true ∧ s.dec.ctl = .requestingDetached
  · obtain ⟨rfl, hctl⟩ := hgo
    rw [setReaderBound_resumes hctl] at ht
    have hr := h.rst_of_dec_busy (by simp [hctl])
    have hrun := exec_dec_inv ht rfl hr h.cfg ⟨rfl, h.enc, h.enc_waits⟩ (freePort_dec_inv h.dec)
    exact hrun
  · have hlow : s.dec.ctl = .requestingDetached → level = false := fun hk => Bool.eq_false_iff.2 fun hl => hgo ⟨hl, hk⟩
    rw [setReaderBound_alone fun hl hk => hgo ⟨hl, hk⟩] at ht
    obtain rfl := Host.Outcome.next.inj ht
    exact ⟨⟨h.cfg, h.enc, h.dec, h.enc_waits, fun hk => ⟨hlow hk, (h.dec_waits hk).2⟩, h.held⟩, rfl⟩

/-- Every act of the host keeps the invariant and the parameters. -/
theorem edge_inv (h : Inv s) {ev : HostEvent} (ht : edge ev s = .next t) : Inv t ∧ t.cfg = s.cfg := by
  cases ev with
  | offer u word =>
    simp only [edge] at ht
    split at ht
    · rename_i hready
      have hr : s.rst = false := by
        simp only [State.cmdReady, Bool.and_eq_true, Bool.not_eq_true'] at hready
        exact hready.1
      exact accept_inv h hr ht
    · obtain rfl := Host.Outcome.next.inj ht
      exact ⟨h, rfl⟩
  | take u =>
    simp only [edge] at ht
    split at ht
    · rename_i r _
      obtain rfl := Host.Outcome.next.inj ht
      exact ⟨deliver_inv h u r, by cases u <;> rfl⟩
    · obtain rfl := Host.Outcome.next.inj ht
      exact ⟨h, rfl⟩
  | reset level =>
    obtain rfl := Host.Outcome.next.inj ht
    cases level with
    | true => exact ⟨resetUnits_inv h, rfl⟩
    | false => exact ⟨h.release, rfl⟩
  | bindWriter level => exact setWriterBound_inv h ht
  | bindReader level => exact setReaderBound_inv h ht

end

/-- Settles O12, by the reset of each unit. -/
theorem resetIsLegal : Obligations.ResetIsLegal :=
  ⟨fun _ => resetIn_inv, resetIn_inv reference_valid⟩

/-- Settles O13, by the acts of the host (`edge_inv`): a command keeps its own side of the invariant (`exec_enc_ok`, `exec_dec_ok`) and
leaves the other side alone (`exec_enc_frame`, `exec_dec_frame`). -/
theorem stepKeepsTheInvariant : Obligations.StepKeepsTheInvariant := by
  intro s t h ht
  unfold step at ht
  split at ht
  · obtain rfl := Host.Outcome.next.inj ht
    exact ⟨h, rfl⟩
  · rename_i rest _
    have hedge := edge_inv (h.withInputs rest) ht
    exact hedge

end Sys2Proof.Machine
end

section
/-! SUPPORT. What every command can do to the modes, the slots, the sizes and the streams (60_exceptions.md R224, R225, R227;
10_state.md R32, R33; 20_memory.md R63). -/

namespace Sys2Proof.Machine

/-! ### Slots that a command may free and not write -/

/-- The slots of `l'` are those of `l`, each related to the one it was by `kept`. -/
def SlotsKept {α : Type} (kept : α → α → Prop) (l l' : List α) : Prop :=
  l'.length = l.length ∧ ∀ (h : Nat) (old new : α), l[h]? = some old → l'[h]? = some new → kept old new

theorem SlotsKept.refl {α : Type} {kept : α → α → Prop} (hrefl : ∀ a, kept a a) (l : List α) : SlotsKept kept l l := by
  refine ⟨rfl, fun h old new hold hnew => ?_⟩
  obtain rfl := Option.some.inj (hold.symm.trans hnew)
  exact hrefl old

/-- One slot is replaced by one that keeps it. -/
theorem SlotsKept.set {α : Type} {kept : α → α → Prop} (hrefl : ∀ a, kept a a) {l : List α} {k : Nat} {a b : α}
    (hk : l[k]? = some a) (hab : kept a b) : SlotsKept kept l (l.set k b) := by
  refine ⟨List.length_set, fun h old new hold hnew => ?_⟩
  by_cases hkh : k = h
  · subst hkh
    obtain rfl := Option.some.inj (hk.symm.trans hold)
    rw [List.getElem?_set_self (List.getElem?_eq_some_iff.1 hk).1] at hnew
    obtain rfl := Option.some.inj hnew
    exact hab
  · rw [List.getElem?_set_ne hkh] at hnew
    exact (SlotsKept.refl hrefl l).2 h old new hold hnew

/-- The contents stay, and `valid` is not set (10_state.md R32, R33). -/
def EncSlot.Kept (old new : EncSlot) : Prop := { new with valid := old.valid } = old ∧ (new.valid = true → old.valid = true)

/-- The contents stay, and `valid` is not set (10_state.md R32, R33). -/
def DecSlot.Kept (old new : DecSlot) : Prop := { new with valid := old.valid } = old ∧ (new.valid = true → old.valid = true)

theorem EncSlot.Kept.refl (slot : EncSlot) : slot.Kept slot := ⟨rfl, id⟩
theorem DecSlot.Kept.refl (slot : DecSlot) : slot.Kept slot := ⟨rfl, id⟩

theorem encFreeSlot_kept {c : Config} {e : Enc} {k : Nat} {slot : EncSlot} (hs : encSlotOf c e k = some slot) :
    SlotsKept EncSlot.Kept e.slots (e.slots.set k { slot with valid := false }) :=
  .set EncSlot.Kept.refl (encSlotOf_some.1 hs).2.1 ⟨rfl, nofun⟩

theorem decFreeSlot_kept {c : Config} {d : Dec} {k : Nat} {slot : DecSlot} (hs : decSlotOf c d k = some slot) :
    SlotsKept DecSlot.Kept d.slots (d.slots.set k { slot with valid := false }) :=
  .set DecSlot.Kept.refl (decSlotOf_some.1 hs).2.1 ⟨rfl, nofun⟩

/-! ### What raising an error does to its unit -/

section
variable (u : Half) (st : Status) (s : State)

@[simp] theorem raise_ctl : (raise u st s).ctl u = .responding (errorResponse st) := by cases u <;> rfl
@[simp] theorem raise_mode : (raise u st s).mode u = modeAfter st (s.mode u) := by cases u <;> rfl
@[simp] theorem raise_enc_slots : (raise u st s).enc.slots = s.enc.slots := by cases u <;> rfl
@[simp] theorem raise_dec_slots : (raise u st s).dec.slots = s.dec.slots := by cases u <;> rfl
@[simp] theorem raise_enc_model : (raise u st s).enc.model = s.enc.model := by cases u <;> rfl
@[simp] theorem raise_dec_model : (raise u st s).dec.model = s.dec.model := by cases u <;> rfl

end

/-! ### How a command can end -/

/-- INIT of a unit. -/
def initOf : Half → Nat → Instr
  | .enc => .encInit
  | .dec => .decInit

/-- DEC's `N` after a fault of the command: DEC.INIT has set it, no other command has (10_state.md R46). -/
def sizeAtFault (i : Instr) (old : Nat) : Nat :=
  match i with
  | .decInit n => n
  | _ => old

/-- `x` keeps the slots of `s`, and the bits exchanged. -/
structure Progress (s x : State) : Prop where
  accepted : s.writer.accepted <+: x.writer.accepted
  taken : s.reader.taken <+: x.reader.taken
  encSlots : x.enc.slots = s.enc.slots
  decSlots : x.dec.slots = s.dec.slots

/-- How the command `i`, run from `s`, can leave the machine `t`. -/
inductive CommandEnd (i : Instr) (s t : State) : Prop where
  | refused (st : Status) (hst : st.isRefusal = true) (ht : t = raise i.unit st s)
  | faulted (st : Status) (x : State) (hst : st.isFault = true) (hx : Progress s x) (henc : x.enc.model.n = s.enc.model.n)
      (hdec : x.dec.model.n = sizeAtFault i s.dec.model.n) (ht : t = raise i.unit st x)
  | stalled (ht : Progress s t) (hmode : t.mode i.unit = s.mode i.unit) (hctl : ∀ r, t.ctl i.unit ≠ .responding r)
  | completed (data : Nat) (hctl : t.ctl i.unit = .responding (okResponse data))
      (haccepted : s.writer.accepted <+: t.writer.accepted) (htaken : s.reader.taken <+: t.reader.taken)
      (hslots : i ≠ .encSave → i ≠ .decSave →
        SlotsKept EncSlot.Kept s.enc.slots t.enc.slots ∧ SlotsKept DecSlot.Kept s.dec.slots t.dec.slots)
      (hmode : s.mode i.unit = .fault →
        t.mode i.unit = .fault ∨ data = 0 ∧ t.mode i.unit = .ready ∧ ∃ n, i = initOf i.unit n)

section
variable {i : Instr} {s t x : State}

theorem Progress.refl (s : State) : Progress s s := ⟨List.prefix_rfl, List.prefix_rfl, rfl, rfl⟩

theorem Progress.slotsKept (h : Progress s x) :
    SlotsKept EncSlot.Kept s.enc.slots x.enc.slots ∧ SlotsKept DecSlot.Kept s.dec.slots x.dec.slots := by
  rw [h.encSlots, h.decSlots]
  exact ⟨.refl EncSlot.Kept.refl _, .refl DecSlot.Kept.refl _⟩

/-- A command of ENC ends as a refusal of its checks, or as its effect does. -/
theorem CommandEnd.of_encChecked (hi : i.unit = .enc) {accepted : Bool} {check : Option Status}
    {effect : Host.Outcome State Fault Refusal} (ht : encChecked accepted check s effect = .next t)
    (hcheck : ∀ st, check = some st → st.isRefusal = true)
    (heffect : accepted = true → effect = .next t → CommandEnd i s t) : CommandEnd i s t := by
  rcases encChecked_cases accepted check s effect with ⟨-, e⟩ | ⟨-, st, hst, e⟩ | ⟨ha, -, e⟩
  · exact .refused _ rfl (by rw [hi]; exact Host.Outcome.next.inj (ht.symm.trans e))
  · exact .refused st (hcheck st hst) (by rw [hi]; exact Host.Outcome.next.inj (ht.symm.trans e))
  · exact heffect ha (e.symm.trans ht)

/-- A command of DEC ends as a refusal of its checks, or as its effect does. -/
theorem CommandEnd.of_decChecked (hi : i.unit = .dec) {accepted : Bool} {check : Option Status}
    {effect : Host.Outcome State Fault Refusal} (ht : decChecked accepted check s effect = .next t)
    (hcheck : ∀ st, check = some st → st.isRefusal = true)
    (heffect : accepted = true → effect = .next t → CommandEnd i s t) : CommandEnd i s t := by
  rcases decChecked_cases accepted check s effect with ⟨-, e⟩ | ⟨-, st, hst, e⟩ | ⟨ha, -, e⟩
  · exact .refused _ rfl (by rw [hi]; exact Host.Outcome.next.inj (ht.symm.trans e))
  · exact .refused st (hcheck st hst) (by rw [hi]; exact Host.Outcome.next.inj (ht.symm.trans e))
  · exact heffect ha (e.symm.trans ht)

end

/-! ### The symbol steps, the flush and the pre-load -/

section
variable {i : Instr} {s x : State} {st : Status}

/-- More bits accepted, no slot written. -/
theorem Progress.of_accepted {bits : List Bool} (hw : x.writer.accepted = s.writer.accepted ++ bits) (hr : x.reader = s.reader)
    (henc : x.enc.slots = s.enc.slots) (hdec : x.dec.slots = s.dec.slots) : Progress s x :=
  ⟨⟨bits, hw.symm⟩, by rw [hr], henc, hdec⟩

/-- More bits taken, no slot written. -/
theorem Progress.of_taken {bits : List Bool} (hr : x.reader.taken = s.reader.taken ++ bits) (hw : x.writer = s.writer)
    (henc : x.enc.slots = s.enc.slots) (hdec : x.dec.slots = s.dec.slots) : Progress s x :=
  ⟨by rw [hw], ⟨bits, hr.symm⟩, henc, hdec⟩

theorem sizeAtFault_of_enc (hi : i.unit = .enc) (old : Nat) : sizeAtFault i old = old := by
  cases i with
  | decInit n => cases hi
  | _ => rfl

/-- A fault of ENC, which keeps both sizes. -/
theorem CommandEnd.enc_faulted (hi : i.unit = .enc) (hst : st.isFault = true) (hx : Progress s x)
    (henc : x.enc.model.n = s.enc.model.n) (hdec : x.dec = s.dec) : CommandEnd i s (raise .enc st x) :=
  .faulted st x hst hx henc (by rw [hdec, sizeAtFault_of_enc hi]) (by rw [hi])

/-- ENC waits at a beat. -/
theorem CommandEnd.enc_stalled (hi : i.unit = .enc) {cmd : EncBeatCommand} {b : Bool} (hx : Progress s x)
    (hmode : x.enc.mode = s.enc.mode) : CommandEnd i s (stallEnc cmd b x) :=
  .stalled ⟨hx.accepted, hx.taken, hx.encSlots, hx.decSlots⟩ (by rw [hi]; exact hmode)
    (by rw [hi]; exact (encStallCtl_ne _ _ _).2.1)

/-- ENC completes. -/
theorem CommandEnd.enc_completed (hi : i.unit = .enc) {data : Nat} (hw : s.writer.accepted <+: x.writer.accepted)
    (hr : x.reader = s.reader) (hdec : x.dec = s.dec) (hslots : i ≠ .encSave → SlotsKept EncSlot.Kept s.enc.slots x.enc.slots)
    (hmode : s.enc.mode = .fault → x.enc.mode = .fault ∨ data = 0 ∧ x.enc.mode = .ready ∧ ∃ n, i = .encInit n) :
    CommandEnd i s (respondEnc data x) := by
  refine .completed data (by rw [hi]; rfl) hw (by rw [respondEnc_reader, hr]) (fun he _ => ⟨hslots he, ?_⟩) (by rw [hi]; exact hmode)
  rw [respondEnc_dec, hdec]
  exact .refl DecSlot.Kept.refl _

/-- A fault of DEC. -/
theorem CommandEnd.dec_faulted (hi : i.unit = .dec) (hst : st.isFault = true) (hx : Progress s x) (henc : x.enc = s.enc)
    (hdec : x.dec.model.n = sizeAtFault i s.dec.model.n) : CommandEnd i s (raise .dec st x) :=
  .faulted st x hst hx (by rw [henc]) hdec (by rw [hi])

/-- DEC waits at a request. -/
theorem CommandEnd.dec_stalled (hi : i.unit = .dec) (hx : Progress s x) (hmode : x.dec.mode = s.dec.mode) :
    CommandEnd i s (stallDec x) :=
  .stalled ⟨hx.accepted, hx.taken, hx.encSlots, hx.decSlots⟩ (by rw [hi]; exact hmode) (by rw [hi]; exact (decStallCtl_ne _).2.1)

/-- DEC completes. -/
theorem CommandEnd.dec_completed (hi : i.unit = .dec) {data : Nat} (hr : s.reader.taken <+: x.reader.taken)
    (hw : x.writer = s.writer) (henc : x.enc = s.enc) (hslots : i ≠ .decSave → SlotsKept DecSlot.Kept s.dec.slots x.dec.slots)
    (hmode : s.dec.mode = .fault → x.dec.mode = .fault ∨ data = 0 ∧ x.dec.mode = .ready ∧ ∃ n, i = .decInit n) :
    CommandEnd i s (respondDec data x) := by
  refine .completed data (by rw [hi]; rfl) (by rw [respondDec_writer, hw]) hr (fun _ hd => ⟨?_, hslots hd⟩) (by rw [hi]; exact hmode)
  rw [respondDec_enc, henc]
  exact .refl EncSlot.Kept.refl _

/-- The symbol step of ENC, by the three ends of its loop (42_encoder.md R162, R164). -/
theorem encSymbol_end (hi : i.unit = .enc) (hm : s.enc.mode = .ready) (emits : Bool) (sym : Nat) :
    CommandEnd i s (encSymbol emits sym s) := by
  obtain ⟨-, -, -, ⟨bits, hbits, -⟩, -, -⟩ := encSymbolRun_cases emits sym s
  unfold encSymbol
  rcases hr : encSymbolRun emits sym s with ⟨_ | st | b, r⟩ <;> rw [hr] at hbits <;> dsimp only
  · have hx : Progress s (encSymbolState sym r s) := .of_accepted hbits rfl rfl rfl
    split
    · exact .enc_faulted hi rfl hx (encSymbolState_n ..) rfl
    · exact .enc_completed hi hx.accepted rfl rfl (fun _ => .refl EncSlot.Kept.refl _) (by simp [hm])
  · exact .enc_faulted hi (encSymbolRun_fault hr) (.of_accepted hbits rfl rfl rfl) rfl rfl
  · exact .enc_stalled hi (.of_accepted hbits rfl rfl rfl) rfl

/-- The flush procedure, by the end of its beats (42_encoder.md R163). -/
theorem encFlushRun_end (hi : i.unit = .enc) (hm : s.enc.mode ≠ .fault) (force : Bool) : CommandEnd i s (encFlushRun force s) := by
  obtain ⟨-, -, k, -, hbits, -, -⟩ := Writer.emitAll_cases (flushBits s.cfg s.enc) s.writer
  unfold encFlushRun
  split
  · exact .enc_faulted hi rfl (.refl s) rfl rfl
  · rcases hw : s.writer.emitAll (flushBits s.cfg s.enc) with ⟨_ | _ | b, w⟩ <;> rw [hw] at hbits <;> dsimp only
    · split
      · exact .enc_faulted hi rfl (.of_accepted hbits rfl rfl rfl) rfl rfl
      · exact .enc_completed hi ⟨_, hbits.symm⟩ rfl rfl (fun _ => .refl EncSlot.Kept.refl _) (fun hf => absurd hf hm)
    · exact .enc_faulted hi rfl (.of_accepted hbits rfl rfl rfl) rfl rfl
    · exact .enc_stalled hi (.of_accepted hbits rfl rfl rfl) rfl

/-- DEC.INIT past its checks, by the end of its beats (43_decoder.md R190; 10_state.md R46). -/
theorem decInitRun_end (n : Nat) : CommandEnd (.decInit n) s (decInitRun n s) := by
  obtain ⟨-, -, bits, hbits, -, -, -⟩ := Reader.takeField_cases s.cfg.w 0 s.reader
  unfold decInitRun
  rcases hr : s.reader.takeField s.cfg.w 0 with ⟨_ | _ | b, code, rd⟩ <;> rw [hr] at hbits <;> dsimp only
  · exact .dec_completed rfl ⟨_, hbits.symm⟩ rfl rfl (fun _ => .refl DecSlot.Kept.refl _)
      (fun _ => .inr ⟨rfl, rfl, n, rfl⟩)
  · exact .dec_faulted rfl rfl (.of_taken hbits rfl rfl rfl) rfl rfl
  · exact .dec_stalled rfl (.of_taken hbits rfl rfl rfl) rfl

/-- DEC.SYM once its symbol is known, by the three ends of its loop (43_decoder.md R192). -/
theorem decSymbol_end (hm : s.dec.mode = .ready) (sym : Nat) : CommandEnd .decSym s (decSymbol sym s) := by
  obtain ⟨-, -, ⟨bits, hbits, -⟩, -⟩ := decSymbolRun_cases sym s
  unfold decSymbol
  rcases hr : decSymbolRun sym s with ⟨_ | st | b, r⟩ <;> rw [hr] at hbits <;> dsimp only
  · exact .dec_completed rfl ⟨_, hbits.symm⟩ rfl rfl (fun _ => .refl DecSlot.Kept.refl _) (by simp [hm])
  · exact .dec_faulted rfl (decSymbolRun_fault hr) (.of_taken hbits rfl rfl rfl) rfl rfl
  · exact .dec_stalled rfl (.of_taken hbits rfl rfl rfl) rfl

end

/-! ### Every command -/

section
variable {s t : State}

/-- How every command of ENC can end. -/
theorem exec_enc_end {i : Instr} (hi : i.unit = .enc) (ht : exec i s = .next t) : CommandEnd i s t := by
  have hsame := SlotsKept.refl EncSlot.Kept.refl s.enc.slots
  cases i with
  | encInit n =>
    simp only [exec, execEncInit] at ht
    refine .of_encChecked rfl ht (fun _ => initCheck_some) fun _ he => ?_
    obtain rfl := Host.Outcome.next.inj he
    exact .enc_completed rfl List.prefix_rfl rfl rfl (fun _ => hsame) fun _ => .inr ⟨rfl, rfl, n, rfl⟩
  | encExpand n2 =>
    simp only [exec, execEncExpand] at ht
    refine .of_encChecked rfl ht (fun _ => expandCheck_some) fun _ he => ?_
    split at he
    · obtain rfl := Host.Outcome.next.inj he
      exact .enc_completed rfl List.prefix_rfl rfl rfl (fun _ => hsame) .inl
    · cases he
  | encSym sym =>
    simp only [exec, execEncSym] at ht
    refine .of_encChecked rfl ht (fun _ => symbolCheck_refusal) fun ha he => ?_
    obtain rfl := Host.Outcome.next.inj he
    exact encSymbol_end rfl (accepts_encSym_iff.1 ha) true sym
  | encFlush force =>
    simp only [exec, execEncFlush] at ht
    refine .of_encChecked rfl ht (by simp) fun ha he => ?_
    obtain rfl := Host.Outcome.next.inj he
    split
    · exact .enc_completed rfl List.prefix_rfl rfl rfl (fun _ => hsame) .inl
    · exact encFlushRun_end rfl (by rcases accepts_encFlush_iff.1 ha with hm | hm <;> simp [hm]) force
  | encEst sym =>
    simp only [exec, execEncEst] at ht
    refine .of_encChecked rfl ht (fun _ => symbolCheck_refusal) fun ha he => ?_
    obtain rfl := Host.Outcome.next.inj he
    exact encSymbol_end rfl (accepts_encEst_iff.1 ha) false sym
  | encSave =>
    simp only [exec, execEncSave] at ht
    refine .of_encChecked rfl ht (by simp) fun _ he => ?_
    obtain rfl := Host.Outcome.next.inj he
    split
    · exact .refused _ rfl rfl
    · exact .enc_completed rfl List.prefix_rfl rfl rfl (fun hsave => absurd rfl hsave) .inl
  | encRestore cleanup k =>
    simp only [exec, execEncRestore] at ht
    refine .of_encChecked rfl ht (by simp) fun ha he => ?_
    obtain rfl := Host.Outcome.next.inj he
    split
    · exact .refused _ rfl rfl
    · rename_i slot hs
      have hm : s.enc.mode ≠ .fault := fun hf => by simp [hf, accepts] at ha
      refine .enc_completed rfl List.prefix_rfl rfl rfl (fun _ => ?_) fun hf => absurd hf hm
      cases cleanup with
      | false => exact hsame
      | true => exact encFreeSlot_kept hs
  | encDelete k =>
    simp only [exec, execEncDelete] at ht
    refine .of_encChecked rfl ht (by simp) fun _ he => ?_
    obtain rfl := Host.Outcome.next.inj he
    split
    · exact .refused _ rfl rfl
    · rename_i slot hs
      exact .enc_completed rfl List.prefix_rfl rfl rfl (fun _ => encFreeSlot_kept hs) .inl
  | encReadp idx =>
    simp only [exec, execEncReadp] at ht
    refine .of_encChecked rfl ht (fun st hst => by rw [(indexCheck_some hst).2]; rfl) fun _ he => ?_
    obtain rfl := Host.Outcome.next.inj he
    exact .enc_completed rfl List.prefix_rfl rfl rfl (fun _ => hsame) .inl
  | encReadreg reg =>
    simp only [exec, execEncReadreg] at ht
    refine .of_encChecked rfl ht (by simp) fun _ he => ?_
    obtain rfl := Host.Outcome.next.inj he
    split
    · exact .refused _ rfl rfl
    · split
      · exact .enc_completed rfl List.prefix_rfl rfl rfl (fun _ => hsame) .inl
      · exact .enc_completed rfl List.prefix_rfl rfl rfl (fun _ => hsame) .inl
  | decInit | decExpand | decSym | decSave | decRestore | decDelete | decReadp | decReadreg => cases hi

/-- How every command of DEC can end. -/
theorem exec_dec_end {i : Instr} (hi : i.unit = .dec) (ht : exec i s = .next t) : CommandEnd i s t := by
  have hsame := SlotsKept.refl DecSlot.Kept.refl s.dec.slots
  cases i with
  | decInit n =>
    simp only [exec, execDecInit] at ht
    refine .of_decChecked rfl ht (fun _ => initCheck_some) fun _ he => ?_
    obtain rfl := Host.Outcome.next.inj he
    exact decInitRun_end n
  | decExpand n2 =>
    simp only [exec, execDecExpand] at ht
    refine .of_decChecked rfl ht (fun _ => expandCheck_some) fun _ he => ?_
    split at he
    · obtain rfl := Host.Outcome.next.inj he
      exact .dec_completed rfl List.prefix_rfl rfl rfl (fun _ => hsame) .inl
    · cases he
  | decSym =>
    simp only [exec, execDecSym] at ht
    refine .of_decChecked rfl ht (by simp) fun ha he => ?_
    split at he
    · obtain rfl := Host.Outcome.next.inj he
      exact decSymbol_end (accepts_decSym_iff.1 ha) _
    · cases he
  | decSave =>
    simp only [exec, execDecSave] at ht
    refine .of_decChecked rfl ht (by simp) fun _ he => ?_
    obtain rfl := Host.Outcome.next.inj he
    split
    · exact .refused _ rfl rfl
    · exact .dec_completed rfl List.prefix_rfl rfl rfl (fun hsave => absurd rfl hsave) .inl
  | decRestore cleanup k =>
    simp only [exec, execDecRestore] at ht
    refine .of_decChecked rfl ht (by simp) fun ha he => ?_
    obtain rfl := Host.Outcome.next.inj he
    split
    · exact .refused _ rfl rfl
    · rename_i slot hs
      have hm : s.dec.mode ≠ .fault := fun hf => by simp [hf, accepts] at ha
      refine .dec_completed rfl List.prefix_rfl rfl rfl (fun _ => ?_) fun hf => absurd hf hm
      cases cleanup with
      | false => exact hsame
      | true => exact decFreeSlot_kept hs
  | decDelete k =>
    simp only [exec, execDecDelete] at ht
    refine .of_decChecked rfl ht (by simp) fun _ he => ?_
    obtain rfl := Host.Outcome.next.inj he
    split
    · exact .refused _ rfl rfl
    · rename_i slot hs
      exact .dec_completed rfl List.prefix_rfl rfl rfl (fun _ => decFreeSlot_kept hs) .inl
  | decReadp idx =>
    simp only [exec, execDecReadp] at ht
    refine .of_decChecked rfl ht (fun st hst => by rw [(indexCheck_some hst).2]; rfl) fun _ he => ?_
    obtain rfl := Host.Outcome.next.inj he
    exact .dec_completed rfl List.prefix_rfl rfl rfl (fun _ => hsame) .inl
  | decReadreg reg =>
    simp only [exec, execDecReadreg] at ht
    refine .of_decChecked rfl ht (by simp) fun _ he => ?_
    obtain rfl := Host.Outcome.next.inj he
    split
    · exact .refused _ rfl rfl
    · split
      · exact .dec_completed rfl List.prefix_rfl rfl rfl (fun _ => hsame) .inl
      · exact .dec_completed rfl List.prefix_rfl rfl rfl (fun _ => hsame) .inl
  | encInit | encExpand | encSym | encFlush | encEst | encSave | encRestore | encDelete | encReadp | encReadreg => cases hi

/-- How every command can end. -/
theorem exec_end {i : Instr} (ht : exec i s = .next t) : CommandEnd i s t := by
  cases hi : i.unit with
  | enc => exact exec_enc_end hi ht
  | dec => exact exec_dec_end hi ht

end

section
variable {i : Instr} {s t : State}

/-- Bits exchanged stay exchanged (20_memory.md R63). -/
theorem CommandEnd.streams (h : CommandEnd i s t) :
    s.writer.accepted <+: t.writer.accepted ∧ s.reader.taken <+: t.reader.taken := by
  cases h with
  | refused st _ ht => simp [ht]
  | faulted st x _ hx _ _ ht =>
    rw [ht, raise_writer, raise_reader]
    exact ⟨hx.accepted, hx.taken⟩
  | stalled ht => exact ⟨ht.accepted, ht.taken⟩
  | completed _ _ haccepted htaken => exact ⟨haccepted, htaken⟩

/-- Only SAVE writes a slot (10_state.md R32, R33). -/
theorem CommandEnd.slotsKept (h : CommandEnd i s t) (henc : i ≠ .encSave) (hdec : i ≠ .decSave) :
    SlotsKept EncSlot.Kept s.enc.slots t.enc.slots ∧ SlotsKept DecSlot.Kept s.dec.slots t.dec.slots := by
  cases h with
  | refused st _ ht =>
    rw [ht, raise_enc_slots, raise_dec_slots]
    exact (Progress.refl s).slotsKept
  | faulted st x _ hx _ _ ht =>
    rw [ht, raise_enc_slots, raise_dec_slots]
    exact hx.slotsKept
  | stalled ht => exact ht.slotsKept
  | completed _ _ _ _ hslots => exact hslots henc hdec

/-- Of all commands only a successful INIT leaves FAULT (60_exceptions.md R227). -/
theorem CommandEnd.leaves_fault (h : CommandEnd i s t) (hs : s.mode i.unit = .fault) (hleft : t.mode i.unit ≠ .fault) :
    t.ctl i.unit = .responding (okResponse 0) ∧ t.mode i.unit = .ready ∧ ∃ n, i = initOf i.unit n := by
  cases h with
  | refused st hst ht => exact absurd (by rw [ht, raise_mode, modeAfter_refusal st _ hst, hs]) hleft
  | faulted st x hst _ _ _ ht => exact absurd (by rw [ht, raise_mode, modeAfter_fault st _ hst]) hleft
  | stalled _ hmode => exact absurd (hmode.trans hs) hleft
  | completed data hctl _ _ _ hmode =>
    rcases hmode hs with hf | ⟨rfl, hready, hinit⟩
    · exact absurd hf hleft
    · exact ⟨hctl, hready, hinit⟩

end

theorem Status.isFault_of_isRefusal {st : Status} (h : st.isRefusal = true) : st.isFault = false := by
  have hok : st ≠ .ok := by rintro rfl; cases h
  rw [Status.isFault_eq_not st hok, h]
  rfl

/-- Settles O16, by the four ways a command can end (`exec_end`): only one of them answers a fault. -/
theorem faultsEnterFault : Obligations.FaultsEnterFault := by
  intro i s t r hexec hctl hfault
  cases exec_end hexec with
  | refused st hst ht =>
    rw [ht, raise_ctl, Ctl.responding.injEq] at hctl
    subst hctl
    exact absurd hfault (by simp [errorResponse, Status.isFault_of_isRefusal hst])
  | faulted st x hst hx henc hdec ht =>
    have hr := hctl
    rw [ht, raise_ctl, Ctl.responding.injEq] at hr
    rw [ht, raise_mode, modeAfter_fault st _ hst, ← hr]
    simp only [raise_enc_slots, raise_dec_slots, raise_writer, raise_reader, raise_enc_model, raise_dec_model]
    exact ⟨trivial, rfl, hx.encSlots, hx.decSlots, hx.accepted, hx.taken, henc, hdec⟩
  | stalled _ _ hnone => exact absurd hctl (hnone r)
  | completed data hdone =>
    rw [hdone, Ctl.responding.injEq] at hctl
    subst hctl
    cases hfault

/-- Settles O26, by the four ways a command can end (`exec_end`): `SlotsKept` is the statement about each unit's slots. -/
theorem onlySaveWritesSlots : Obligations.OnlySaveWritesSlots :=
  fun _ _ _ hexec henc hdec => (exec_end hexec).slotsKept henc hdec

end Sys2Proof.Machine
end

section
/-! SUPPORT. What a step can do, as the act of the host or the command it runs, and what that leaves of the modes and the streams
(60_exceptions.md R227; 20_memory.md R63; 10_state.md R45). -/

namespace Sys2Proof.Machine

/-! ### The unit of a decoded command (30_encoding.md R85, R86) -/

section
variable {u : Half} {w : Word} {i : Instr}

theorem withArg_unit {mk : Nat → Instr} (hmk : ∀ a, (mk a).unit = u) (h : withArg w mk = .ok i) : i.unit = u := by
  unfold withArg at h
  split_ifs at h
  obtain rfl := Except.ok.inj h
  exact hmk _

theorem withNothing_unit {j : Instr} (hj : j.unit = u) (h : withNothing w j = .ok i) : i.unit = u := by
  unfold withNothing at h
  split_ifs at h
  obtain rfl := Except.ok.inj h
  exact hj

theorem withFlag_unit {mk : Bool → Instr} (hmk : ∀ f, (mk f).unit = u) (h : withFlag w mk = .ok i) : i.unit = u := by
  unfold withFlag at h
  split_ifs at h
  obtain rfl := Except.ok.inj h
  exact hmk _

theorem withFlagArg_unit {mk : Bool → Nat → Instr} (hmk : ∀ f a, (mk f a).unit = u) (h : withFlagArg w mk = .ok i) :
    i.unit = u := by
  unfold withFlagArg at h
  split_ifs at h
  obtain rfl := Except.ok.inj h
  exact hmk _ _

theorem decodeEnc_unit (h : decodeEnc w = .ok i) : i.unit = .enc := by
  unfold decodeEnc at h
  split at h
  case h_4 => exact withFlag_unit (fun _ => rfl) h
  case h_6 => exact withNothing_unit rfl h
  case h_7 => exact withFlagArg_unit (fun _ _ => rfl) h
  case h_11 => cases h
  all_goals exact withArg_unit (fun _ => rfl) h

theorem decodeDec_unit (h : decodeDec w = .ok i) : i.unit = .dec := by
  unfold decodeDec at h
  split at h
  case h_3 | h_4 => exact withNothing_unit rfl h
  case h_5 => exact withFlagArg_unit (fun _ _ => rfl) h
  case h_9 => cases h
  all_goals exact withArg_unit (fun _ => rfl) h

/-- A word that a unit reads as a command is a command of that unit. -/
theorem decode_unit (h : decode u w = .ok i) : i.unit = u := by
  unfold decode at h
  split_ifs at h
  cases u with
  | enc => exact decodeEnc_unit h
  | dec => exact decodeDec_unit h

end

/-! ### What a step can do -/

/-- Modes and streams are the same in `x` as in `s`. -/
structure Unmoved (s x : State) : Prop where
  mode : ∀ u, x.mode u = s.mode u
  accepted : x.writer.accepted = s.writer.accepted
  taken : x.reader.taken = s.reader.taken

section
variable {s t : State}

theorem Unmoved.refl (s : State) : Unmoved s s := ⟨fun _ => rfl, rfl, rfl⟩

theorem raise_unmoved (u : Half) {st : Status} (hst : st.isRefusal = true) (s : State) : Unmoved s (raise u st s) := by
  rw [raise_of_refusal u st s hst]
  exact ⟨fun u' => by cases u <;> cases u' <;> rfl, by cases u <;> rfl, by cases u <;> rfl⟩

theorem Unmoved.freePort {x : State} (h : Unmoved s x) (u : Half) : Unmoved s (freePort u x) := by
  cases u with
  | enc => exact ⟨fun u => by rw [← h.mode u]; cases u <;> rfl, h.accepted, h.taken⟩
  | dec => exact ⟨fun u => by rw [← h.mode u]; cases u <;> rfl, h.accepted, h.taken⟩

theorem deliver_unmoved (u : Half) (r : Response) (s : State) : Unmoved s (deliver u r s) :=
  have hsame : Unmoved s (s.withDelivered (s.delivered ++ [(u, r)])) := ⟨fun _ => rfl, rfl, rfl⟩
  hsame.freePort u

/-- A strap is no mode and no stream. -/
theorem writerBound_unmoved (s : State) (level : Bool) : Unmoved s (s.withWriter { s.writer with bound := level }) :=
  ⟨fun _ => rfl, rfl, rfl⟩

theorem readerBound_unmoved (s : State) (level : Bool) : Unmoved s (s.withReader { s.reader with bound := level }) :=
  ⟨fun _ => rfl, rfl, rfl⟩

/-- The mode of the other unit. -/
theorem exec_mode_of_ne {i : Instr} (ht : exec i s = .next t) {u : Half} (hu : u ≠ i.unit) : t.mode u = s.mode u := by
  cases hi : i.unit with
  | enc =>
    obtain rfl : u = .dec := by cases u <;> simp_all
    rw [exec_enc_frame hi ht]; rfl
  | dec =>
    obtain rfl : u = .enc := by cases u <;> simp_all
    rw [exec_dec_frame hi ht]; rfl

/-- An act of the host leaves modes and streams alone, or runs a command from a state that has them (an INIT only when the host offered its
word), or resets the units. -/
theorem edge_cases {ev : HostEvent} (ht : edge ev s = .next t) :
    Unmoved s t ∨
      (∃ x i, Unmoved s x ∧ exec i x = .next t ∧
        ((∃ w, ev = .offer i.unit w ∧ decode i.unit w = .ok i) ∨ ∀ n, i ≠ initOf i.unit n)) ∨
      ev = .reset true ∧ t = (resetUnits s).withRst true := by
  cases ev with
  | offer u w =>
    simp only [edge, accept] at ht
    split at ht
    · split at ht
      · rename_i i hdec
        obtain rfl := decode_unit hdec
        exact .inr (.inl ⟨s, i, .refl s, ht, .inl ⟨w, rfl, hdec⟩⟩)
      · obtain rfl := Host.Outcome.next.inj ht
        exact .inl (raise_unmoved u rfl s)
    · obtain rfl := Host.Outcome.next.inj ht
      exact .inl (.refl s)
  | take u =>
    simp only [edge] at ht
    split at ht
    · obtain rfl := Host.Outcome.next.inj ht
      exact .inl (deliver_unmoved u _ s)
    · obtain rfl := Host.Outcome.next.inj ht
      exact .inl (.refl s)
  | reset level =>
    obtain rfl := Host.Outcome.next.inj ht
    cases level with
    | true => exact .inr (.inr ⟨rfl, rfl⟩)
    | false => exact .inl ⟨fun _ => rfl, rfl, rfl⟩
  | bindWriter level =>
    by_cases hgo : level = true ∧ ∃ b cmd, s.enc.ctl = .offeringDetached b cmd
    · obtain ⟨rfl, b, cmd, hctl⟩ := hgo
      simp only [edge, setWriterBound_resumes hctl] at ht
      refine .inr (.inl ⟨_, cmd.instr, (writerBound_unmoved s true).freePort .enc, ht, .inr fun n => ?_⟩)
      cases cmd <;> exact nofun
    · simp only [edge, setWriterBound_alone fun hl b cmd hk => hgo ⟨hl, b, cmd, hk⟩] at ht
      obtain rfl := Host.Outcome.next.inj ht
      exact .inl (writerBound_unmoved s level)
  | bindReader level =>
    by_cases hgo : level = true ∧ s.dec.ctl = .requestingDetached
    · obtain ⟨rfl, hctl⟩ := hgo
      simp only [edge, setReaderBound_resumes hctl] at ht
      exact .inr (.inl ⟨_, .decSym, (readerBound_unmoved s true).freePort .dec, ht, .inr fun n => nofun⟩)
    · simp only [edge, setReaderBound_alone fun hl hk => hgo ⟨hl, hk⟩] at ht
      obtain rfl := Host.Outcome.next.inj ht
      exact .inl (readerBound_unmoved s level)

/-- A step does nothing, or is the next act of the host (log 8). -/
theorem step_cases (ht : step s = .next t) :
    t = s ∨ ∃ ev rest, s.inputs = ev :: rest ∧ edge ev (s.withInputs rest) = .next t := by
  unfold step at ht
  split at ht
  · exact .inl (Host.Outcome.next.inj ht).symm
  · rename_i ev rest hin
    exact .inr ⟨ev, rest, hin, ht⟩

theorem Unmoved.streams (h : Unmoved s t) : s.writer.accepted <+: t.writer.accepted ∧ s.reader.taken <+: t.reader.taken := by
  rw [h.accepted, h.taken]
  exact ⟨List.prefix_rfl, List.prefix_rfl⟩

end

/-- Settles O17, by what an act of the host can do (`edge_cases`) and the one end of a command that leaves FAULT
(`CommandEnd.leaves_fault`). -/
theorem faultIsLeftByInitOrReset : Obligations.FaultIsLeftByInitOrReset := by
  intro s t ht u hs hleft
  rcases step_cases ht with rfl | ⟨ev, rest, hin, hedge⟩
  · exact absurd hs hleft
  rcases edge_cases hedge with hsame | ⟨x, i, hx, hexec, hwhy⟩ | ⟨rfl, rfl⟩
  · exact absurd ((hsame.mode u).trans hs) hleft
  · have hxs : x.mode u = .fault := (hx.mode u).trans hs
    by_cases hu : u = i.unit
    · subst hu
      obtain ⟨hctl, hready, n, hn⟩ := (exec_end hexec).leaves_fault hxs hleft
      rcases hwhy with ⟨w, rfl, hdec⟩ | hnot
      · refine .inl ⟨w, n, rest, hin, hdec.trans (congrArg _ (hn.trans ?_)), hctl, hready⟩
        cases i.unit <;> rfl
      · exact absurd hn (hnot n)
    · exact absurd ((exec_mode_of_ne hexec hu).trans hxs) hleft
  · exact .inr ⟨rest, hin, by cases u <;> rfl⟩

/-- Settles O25, by what an act of the host can do (`edge_cases`). -/
theorem streamsOnlyGrow : Obligations.StreamsOnlyGrow := by
  intro s t ht
  rcases step_cases ht with rfl | ⟨ev, rest, -, hedge⟩
  · exact (Unmoved.refl t).streams
  rcases edge_cases hedge with hsame | ⟨x, i, hx, hexec, -⟩ | ⟨-, rfl⟩
  · exact hsame.streams
  · have hgrown := (exec_end hexec).streams
    rw [hx.accepted, hx.taken] at hgrown
    exact hgrown
  · exact (Unmoved.refl s).streams

end Sys2Proof.Machine
end

section
/-! SUPPORT. The commands that read: READP and READREG, in the modes in which they are accepted (20_memory.md R50, 10_state.md R39,
R40). -/

namespace Sys2Proof.Machine

/-! ### Commands that answer and change nothing -/

theorem respondEnc_eq_answered (data : Nat) (s : State) : respondEnc data s = s.answered .enc (okResponse data) := rfl

theorem respondDec_eq_answered (data : Nat) (s : State) : respondDec data s = s.answered .dec (okResponse data) := rfl

theorem encChecked_passed {accepted : Bool} {check : Option Status} (ha : accepted = true) (hcheck : check = none) (s : State)
    (effect : Host.Outcome State Fault Refusal) : encChecked accepted check s effect = effect := by
  rw [ha, hcheck]; rfl

theorem decChecked_passed {accepted : Bool} {check : Option Status} (ha : accepted = true) (hcheck : check = none) (s : State)
    (effect : Host.Outcome State Fault Refusal) : decChecked accepted check s effect = effect := by
  rw [ha, hcheck]; rfl

section
variable {s : State} {k width v : Nat}

/-! ### READP -/

theorem accepts_encReadp_iff {m : Mode} : accepts (.encReadp k) m = true ↔ m = .ready ∨ m = .flushed := by
  cases m <;> simp [accepts]

theorem accepts_decReadp_iff {m : Mode} : accepts (.decReadp k) m = true ↔ m = .ready := by cases m <;> simp [accepts]

/-- READP of an index in range (42_encoder.md R168). -/
theorem exec_encReadp (hm : s.enc.mode = .ready ∨ s.enc.mode = .flushed) (hk : k ≤ s.enc.model.n) :
    exec (.encReadp k) s = .next (s.answered .enc (okResponse (s.enc.model.entry k))) :=
  encChecked_passed (accepts_encReadp_iff.2 hm) (if_neg (by omega)) s _

/-- READP of an index in range (43_decoder.md R196). -/
theorem exec_decReadp (hm : s.dec.mode = .ready) (hk : k ≤ s.dec.model.n) :
    exec (.decReadp k) s = .next (s.answered .dec (okResponse (s.dec.model.entry k))) :=
  decChecked_passed (accepts_decReadp_iff.2 hm) (if_neg (by omega)) s _

/-- The two ends of what READP can read from a legal table: `P[0] = 0`, and every entry is below `MAX_TOTAL` (10_state.md R34). -/
theorem TableOk.entry_ends {c : Config} {m : Model} (h : TableOk c m) (hk : k ≤ m.n) :
    (k = 0 → m.entry k = 0) ∧ m.entry k < 2 ^ (c.w - 2) :=
  ⟨fun h0 => h0 ▸ h.zero, Model.entry_lt_maxTotal c m h k hk⟩

/-! ### READREG -/

theorem accepts_encReadreg {m : Mode} (h : ¬(k = 7 ∧ m = .uninit)) :
    (accepts (.encReadreg k) m && !decide (k = 7 ∧ m = .uninit)) = true := by simp [accepts, h]

theorem accepts_decReadreg {m : Mode} (h : ¬(k = 7 ∧ m = .uninit)) :
    (accepts (.decReadreg k) m && !decide (k = 7 ∧ m = .uninit)) = true := by simp [accepts, h]

/-- READREG of a register that holds a value (42_encoder.md R169). -/
theorem exec_encReadreg_held (hreg : encRegister s.cfg s.enc k = some (width, v)) (htotal : ¬(k = 7 ∧ s.enc.mode = .uninit))
    (hheld : ¬(s.enc.mode = .fault ∧ isDatapathRegister k = true)) :
    exec (.encReadreg k) s = .next (s.answered .enc (okResponse v)) := by
  rw [exec, execEncReadreg, encChecked_passed (accepts_encReadreg htotal) rfl, hreg]
  dsimp only
  rw [if_neg hheld, respondEnc_eq_answered]

/-- READREG of a register that holds a value (43_decoder.md R197). -/
theorem exec_decReadreg_held (hreg : decRegister s.cfg s.dec k = some (width, v)) (htotal : ¬(k = 7 ∧ s.dec.mode = .uninit))
    (hheld : ¬(s.dec.mode = .fault ∧ isDatapathRegister k = true)) :
    exec (.decReadreg k) s = .next (s.answered .dec (okResponse v)) := by
  rw [exec, execDecReadreg, decChecked_passed (accepts_decReadreg htotal) rfl, hreg]
  dsimp only
  rw [if_neg hheld, respondDec_eq_answered]

/-- READREG of a register that holds no value, in FAULT: some value of the register's width (10_state.md R40, R46; log 4). -/
theorem exec_encReadreg_free (hreg : encRegister s.cfg s.enc k = some (width, v)) (hm : s.enc.mode = .fault)
    (hdata : isDatapathRegister k = true) :
    ∃ v' draws, v' < 2 ^ width ∧
      exec (.encReadreg k) s = .next { s with enc := { s.enc with draws := draws, ctl := .responding (okResponse v') } } := by
  refine ⟨(Config.freeEncDraw s.enc.draws).toNat % 2 ^ width, s.enc.draws + 1, Nat.mod_lt _ (Nat.two_pow_pos _), ?_⟩
  rw [exec, execEncReadreg, encChecked_passed (accepts_encReadreg (by simp [hm])) rfl, hreg]
  dsimp only
  rw [if_pos ⟨hm, hdata⟩]
  rfl

/-- READREG of a register that holds no value, in FAULT: some value of the register's width (10_state.md R40, R46; log 4). -/
theorem exec_decReadreg_free (hreg : decRegister s.cfg s.dec k = some (width, v)) (hm : s.dec.mode = .fault)
    (hdata : isDatapathRegister k = true) :
    ∃ v' draws, v' < 2 ^ width ∧
      exec (.decReadreg k) s = .next { s with dec := { s.dec with draws := draws, ctl := .responding (okResponse v') } } := by
  refine ⟨(Config.freeDecDraw s.dec.draws).toNat % 2 ^ width, s.dec.draws + 1, Nat.mod_lt _ (Nat.two_pow_pos _), ?_⟩
  rw [exec, execDecReadreg, decChecked_passed (accepts_decReadreg (by simp [hm])) rfl, hreg]
  dsimp only
  rw [if_pos ⟨hm, hdata⟩]
  rfl

end

/-! ### SNAP_VALID (10_state.md R39) -/

theorem validMask_testBit (l : List Bool) (h : Nat) : (validMask l).testBit h = l.getD h false := by
  induction l generalizing h with
  | nil => simp [validMask]
  | cons v vs ih =>
    cases h with
    | zero =>
      rw [validMask, Nat.testBit_zero]
      cases v <;> simp
    | succ h =>
      have hhalf : (v.toNat + 2 * validMask vs) / 2 = validMask vs := by have := v.toNat_le; omega
      rw [validMask, Nat.testBit_succ, hhalf, ih]
      rfl

/-- Bit `h` of the mask is the `valid` bit of slot `h`. -/
theorem validMask_map_testBit {α : Type} (valid : α → Bool) (l : List α) (h : Nat) :
    (validMask (l.map valid)).testBit h = true ↔ ∃ slot, l[h]? = some slot ∧ valid slot = true := by
  rw [validMask_testBit, List.getD_eq_getElem?_getD, List.getElem?_map]
  cases l[h]? <;> simp

/-- Settles O49, by READP of an index in range and the ends of a legal table. -/
theorem readpReadsTheTable : Obligations.ReadpReadsTheTable := by
  refine fun k s => ⟨fun hm hk => ⟨exec_encReadp hm hk, fun h => ?_⟩, fun hm hk => ⟨exec_decReadp hm hk, fun h => ?_⟩⟩
  · exact (h.table hm).entry_ends hk
  · exact (h.table hm).entry_ends hk

/-- Settles O50, by the rows of the register map: none of them is a datapath register in FAULT, or TOTAL in UNINIT. -/
theorem readregReadsTheMap : Obligations.ReadregReadsTheMap := by
  intro s henc hdec
  refine ⟨validMask ((s.enc.slots.take s.cfg.nsnap).map (·.valid)), validMask ((s.dec.slots.take s.cfg.nsnap).map (·.valid)),
    ?_, ?_, fun k v hrow => ?_, fun k v hrow => ?_⟩
  · rw [List.take_of_length_le henc.le]
    exact validMask_map_testBit _ _
  · rw [List.take_of_length_le hdec.le]
    exact validMask_map_testBit _ _
  · simp only [List.mem_cons, List.not_mem_nil, or_false, Prod.mk.injEq] at hrow
    rcases hrow with hrow | ⟨hm, hrow⟩ | ⟨hm, rfl, rfl⟩
    · rcases hrow with ⟨rfl, rfl⟩ | ⟨rfl, rfl⟩ | ⟨rfl, rfl⟩ | ⟨rfl, rfl⟩ | ⟨rfl, rfl⟩ | ⟨rfl, rfl⟩ | ⟨rfl, rfl⟩ <;>
        exact exec_encReadreg_held rfl (by simp) (by simp [isDatapathRegister])
    · rcases hrow with ⟨rfl, rfl⟩ | ⟨rfl, rfl⟩ | ⟨rfl, rfl⟩ | ⟨rfl, rfl⟩ <;>
        exact exec_encReadreg_held rfl (by simp) fun h => hm h.1
    · exact exec_encReadreg_held rfl (by rcases hm with hm | hm <;> simp [hm]) (by rcases hm with hm | hm <;> simp [hm])
  · simp only [List.mem_cons, List.not_mem_nil, or_false, Prod.mk.injEq] at hrow
    rcases hrow with hrow | ⟨hm, hrow⟩ | ⟨hm, rfl, rfl⟩
    · rcases hrow with ⟨rfl, rfl⟩ | ⟨rfl, rfl⟩ | ⟨rfl, rfl⟩ | ⟨rfl, rfl⟩ | ⟨rfl, rfl⟩ | ⟨rfl, rfl⟩ | ⟨rfl, rfl⟩ <;>
        exact exec_decReadreg_held rfl (by simp) (by simp [isDatapathRegister])
    · rcases hrow with ⟨rfl, rfl⟩ | ⟨rfl, rfl⟩ | ⟨rfl, rfl⟩ | ⟨rfl, rfl⟩ <;>
        exact exec_decReadreg_held rfl (by simp) fun h => hm h.1
    · exact exec_decReadreg_held rfl (by simp [hm]) (by simp [hm])

/-- Settles O51, by the datapath rows of the register map. -/
theorem readregInFault : Obligations.ReadregInFault := by
  refine fun s => ⟨fun hm k width hrow => ?_, fun hm k width hrow => ?_⟩
  · simp only [List.mem_cons, List.not_mem_nil, or_false, Prod.mk.injEq] at hrow
    rcases hrow with ⟨rfl, rfl⟩ | ⟨rfl, rfl⟩ | ⟨rfl, rfl⟩ | ⟨rfl, rfl⟩ | ⟨rfl, rfl⟩ <;> exact exec_encReadreg_free rfl hm rfl
  · simp only [List.mem_cons, List.not_mem_nil, or_false, Prod.mk.injEq] at hrow
    rcases hrow with ⟨rfl, rfl⟩ | ⟨rfl, rfl⟩ | ⟨rfl, rfl⟩ | ⟨rfl, rfl⟩ | ⟨rfl, rfl⟩ <;> exact exec_decReadreg_free rfl hm rfl

end Sys2Proof.Machine
end

section
/-! SUPPORT. DEC.INIT past its checks, by how the reader ends its `W` take beats (43_decoder.md R190; 70_reset_and_hazards.md R265). -/

namespace Sys2Proof.Machine

section
variable {n : Nat} {s : State} {code : Nat} {rd : Reader}

/-- DEC.INIT whose checks pass runs. -/
theorem exec_decInit_passed (h1 : 1 ≤ n) (h2 : n ≤ s.cfg.nmax) (h3 : n < 2 ^ (s.cfg.w - 2)) (hbound : s.reader.bound = true) :
    exec (.decInit n) s = .next (decInitRun n s) :=
  decChecked_passed rfl (initCheck_none.2 ⟨h1, hbound, h3, h2⟩) s _

/-- A take beat that fails: M.INIT has been done, the bits before it are taken (10_state.md R46). -/
theorem decInitRun_error (hr : s.reader.takeField s.cfg.w 0 = (.error, code, rd)) :
    decInitRun n s = raise .dec .streamFault ((s.withReader rd).withDec { s.dec with model := s.dec.model.init n }) := by
  rw [decInitRun, hr]

/-- A take beat that an attached reader never completes (70_reset_and_hazards.md R260). -/
theorem decInitRun_stuck {b : Bool} (hr : s.reader.takeField s.cfg.w 0 = (.stuck b, code, rd)) (hbound : rd.bound = true) :
    decInitRun n s = (s.withReader rd).withDec (s.dec.withCtl .requesting) := by
  rw [decInitRun, hr]
  dsimp only
  rw [stallDec, State.withReader_reader, hbound]
  rfl

end

/-- Settles O53, by the run of takes that stops at its first beat without a bit (`Reader.takeField_stop`). -/
theorem decInitStreamError : Obligations.DecInitStreamError := by
  intro n bits s h1 h2 h3 hbound hlen
  rw [exec_decInit_passed h1 h2 h3 hbound]
  refine ⟨fun hcoming => ?_, fun hcoming => ?_⟩
  · rw [decInitRun_error (Reader.takeField_stop bits _ 0 .error s.reader hlen nofun hcoming)]
    exact ⟨{ s.dec with
      model := s.dec.model.init n, mode := .fault, ctl := .responding (errorResponse .streamFault) }, rfl, rfl, rfl, rfl, rfl⟩
  · rw [decInitRun_stuck (Reader.takeField_stop bits _ 0 .never s.reader hlen nofun hcoming) hbound]
    exact ⟨s.dec.withCtl .requesting, rfl, rfl⟩

end Sys2Proof.Machine
end

section
/-! SUPPORT. One symbol on both sides: tables that agree in the slots in use stay so, and the two renormalisation loops, run from one
interval, go through the same steps (41_range_arith.md R142, R152; 43_decoder.md R198; 10_state.md R38). -/

namespace Sys2Proof.Machine

/-! ### Tables that agree in the slots in use -/

/-- The same size, and the same entries in the slots `0..N`. -/
structure Model.Agree (m m' : Model) : Prop where
  n : m'.n = m.n
  entry : ∀ i, i ≤ m.n → m'.entry i = m.entry i

namespace Model.Agree

variable {m m' : Model} (h : m.Agree m')
include h

theorem total : m'.total = m.total := by
  unfold Model.total
  rw [h.n, h.entry m.n le_rfl]

theorem narrow {sym : Nat} (hs : sym < m.n) (low high : Nat) : narrow m' sym low high = narrow m sym low high := by
  unfold Machine.narrow Model.freqHigh Model.freqLow
  rw [h.total, h.entry sym hs.le, h.entry (sym + 1) hs]

theorem update (sym : Nat) (hl : m.n < m.p.length) (hl' : m.n < m'.p.length) : (m.update sym).Agree (m'.update sym) := by
  refine ⟨h.n, fun i hi => ?_⟩
  rw [Model.update_n] at hi
  rw [Model.update_entry m sym i (by omega), Model.update_entry m' sym i (by omega), h.n, h.entry i hi]

theorem scale (hl : m.n < m.p.length) (hl' : m.n < m'.p.length) : m.scale.Agree m'.scale := by
  refine ⟨by simp [h.n], fun i hi => ?_⟩
  rw [Model.scale_n] at hi
  induction i with
  | zero => rw [Model.scale_entry_zero, Model.scale_entry_zero, h.entry 0 hi]
  | succ i ih =>
    rw [Model.scale_entry_succ m i hi (by omega), Model.scale_entry_succ m' i (by rw [h.n]; exact hi) (by omega),
      h.entry (i + 1) hi, ih (by omega)]

theorem scaleMaybe (c : Config) (hl : m.n < m.p.length) (hl' : m.n < m'.p.length) :
    (m.scaleMaybe c).Agree (m'.scaleMaybe c) := by
  unfold Model.scaleMaybe
  rw [h.total]
  split
  · exact h.scale hl hl'
  · exact h

/-- What a symbol step does to the two tables (40_model.md R121). -/
theorem afterSymbol (c : Config) (sym : Nat) (hl : m.n < m.p.length) (hl' : m.n < m'.p.length) :
    ((m.update sym).scaleMaybe c).Agree ((m'.update sym).scaleMaybe c) :=
  (h.update sym hl hl').scaleMaybe c (by simpa using hl) (by simpa using hl')

end Model.Agree

/-! ### The two loops -/

/-- From one interval ENC's loop and DEC's reach one interval, and DEC takes a bit for every bit that ENC emits or puts off. -/
theorem EncLoop.mirrored {c : Config} {low high u code el eh u' dl dh code' : Nat} {emitted taken : List Bool}
    (henc : EncLoop c low high u emitted el eh u') (hdec : DecLoop c low high code taken dl dh code') :
    dl = el ∧ dh = eh ∧ taken.length + u = emitted.length + u' := by
  induction henc generalizing code taken with
  | exit msb straddle =>
    cases hdec with
    | exit => exact ⟨rfl, rfl, rfl⟩
    | msbEq msb' => exact absurd msb' msb
    | e3 _ straddle' => exact absurd straddle' straddle
  | msbEq msb _ ih =>
    cases hdec with
    | exit msb' => exact absurd msb msb'
    | msbEq _ rest =>
      obtain ⟨hl, hh, hbits⟩ := ih rest
      exact ⟨hl, hh, by simp; omega⟩
    | e3 msb' => exact absurd msb msb'
  | e3 msb straddle _ _ ih =>
    cases hdec with
    | exit _ straddle' => exact absurd straddle straddle'
    | msbEq msb' => exact absurd msb' msb
    | e3 _ _ rest =>
      obtain ⟨hl, hh, hbits⟩ := ih rest
      exact ⟨hl, hh, by simp; omega⟩

/-- From the machine to the relation: a loop of ENC that ended at EXIT emitted the bits of the relation, and counted them. -/
theorem EncRun.loop_of_renorm {c : Config} (hc : c.Valid) (fuel : Nat) (r r' : EncRun) (hl : r.low ≤ r.high)
    (hh : r.high < 2 ^ c.w) (hf : 2 ^ c.w ≤ (r.high - r.low + 1) * 2 ^ fuel) (he : renorm c true fuel r = (.exit, r')) :
    ∃ bits : List Bool, EncLoop c r.low r.high r.underflow bits r'.low r'.high r'.underflow ∧
      r'.count = r.count + bits.length := by
  have hest := renorm_simulates c fuel r r' r.writer he
  rcases loop_or_overflow hc fuel r.low r.high r.underflow hl hh hf with ⟨bits, low, high, u, hloop, -⟩ | ⟨bits, hover⟩
  · have hrun := renorm_of_loop hc hloop false fuel r.count r.writer hl hh hf
    have hend := Prod.mk.inj (hest.symm.trans hrun)
    simp only [EncRun.mk.injEq] at hend
    obtain ⟨-, rfl, rfl, rfl, hcount, -⟩ := hend
    exact ⟨bits, hloop, hcount⟩
  · obtain ⟨x, hrun⟩ := renorm_of_overflow hc hover false fuel r.count r.writer hl hh hf
    exact absurd (Prod.mk.inj (hest.symm.trans hrun)).1 nofun

/-! ### Symbol commands that end with OK -/

section
variable {s t : State} {sym : Nat} {r : Response}

/-- ENC.SYM that ends with OK: its loop ended at EXIT, and the answer is its count. -/
theorem exec_encSym_ok (hm : s.enc.mode = .ready) (hs : sym < s.enc.model.n) (ht : exec (.encSym sym) s = .next t)
    (hctl : t.enc.ctl = .responding r) (hr : r.status = .ok) :
    ∃ run, encSymbolRun true sym s = (.exit, run) ∧ r.data.toNat = run.count ∧
      t = respondEnc run.count (encSymbolState sym run s) := by
  rw [exec, execEncSym, encChecked_passed (accepts_encSym_iff.2 hm) (symbolCheck_none.2 hs)] at ht
  obtain rfl := Host.Outcome.next.inj ht
  unfold encSymbol at hctl ⊢
  rcases hrun : encSymbolRun true sym s with ⟨_ | st | b, run⟩ <;> rw [hrun] at hctl <;> dsimp only at hctl ⊢
  · split at hctl
    · obtain rfl := Ctl.responding.inj hctl
      cases hr
    · rename_i hcount
      obtain rfl := Ctl.responding.inj hctl
      exact ⟨run, rfl, Nat.mod_eq_of_lt (by unfold countMax at hcount; omega), by rw [if_neg hcount]⟩
  · obtain rfl := Ctl.responding.inj hctl
    obtain rfl : st = .ok := hr
    exact absurd (encSymbolRun_fault hrun) (by decide)
  · exact absurd hctl ((encStallCtl_ne _ _ _).2.1 r)

/-- DEC.SYM that ends with OK, once its symbol is known: its loop ended at EXIT, and the answer is the symbol. -/
theorem exec_decSym_ok (hm : s.dec.mode = .ready) (hs : decodedSymbol s.dec = some sym) (ht : exec .decSym s = .next t)
    (hctl : t.dec.ctl = .responding r) (hr : r.status = .ok) :
    ∃ run, decSymbolRun sym s = (.exit, run) ∧ r = okResponse sym ∧ t = respondDec sym (decSymbolState sym run s) := by
  rw [exec, execDecSym, decChecked_passed (accepts_decSym_iff.2 hm) rfl, hs] at ht
  obtain rfl := Host.Outcome.next.inj ht
  unfold decSymbol at hctl ⊢
  rcases hrun : decSymbolRun sym s with ⟨_ | st | b, run⟩ <;> rw [hrun] at hctl <;> dsimp only at hctl ⊢
  · exact ⟨run, rfl, (Ctl.responding.inj hctl).symm, rfl⟩
  · obtain rfl := Ctl.responding.inj hctl
    obtain rfl : st = .ok := hr
    exact absurd (decSymbolRun_fault hrun) (by decide)
  · exact absurd hctl ((decStallCtl_ne _).2.1 r)

end

/-- Settles O56, by the two loops as relations (`EncLoop.mirrored`) and the tables that agree (`Model.Agree`). -/
theorem decodeMirrorsEncode : Obligations.DecodeMirrorsEncode := by
  intro sym s t t' r r' hc hinvE hinvD hmE hmD hsym hlow hhigh hn hentry hq1 hq2 hexecE hctlE hrE hexecD hctlD hrD
  have hagree : s.enc.model.Agree s.dec.model := ⟨hn, hentry⟩
  have htable := hinvE.table (.inl hmE)
  have hlenE : s.enc.model.n < s.enc.model.p.length := by have := hinvE.table_length; have := hinvE.n_le; omega
  have hlenD : s.enc.model.n < s.dec.model.p.length := by have := hinvD.table_length; have := hinvE.n_le; omega
  have hfound : decodedSymbol s.dec = some sym :=
    Model.lookup_unique _ _ _ (hinvD.table hmD).monotone (hn ▸ hsym) (by rw [hentry sym hsym.le]; exact hq1)
      (by rw [hentry (sym + 1) hsym]; exact hq2)
  obtain ⟨run, hrun, hdata, rfl⟩ := exec_encSym_ok hmE hsym hexecE hctlE hrE
  obtain ⟨run', hrun', rfl, rfl⟩ := exec_decSym_ok hmD hfound hexecD hctlD hrD
  have hnarrow : narrow s.dec.model sym s.dec.low s.dec.high = narrow s.enc.model sym s.enc.low s.enc.high := by
    rw [hlow, hhigh, hagree.narrow hsym]
  obtain ⟨-, hle, -, hfits, hfuel, -⟩ := symbol_start hc s.enc.model sym s.enc.low s.enc.high htable (hinvE.interval (.inl hmE)) hsym
  obtain ⟨emitted, hloop, hcount⟩ := EncRun.loop_of_renorm hc _ _ _ hle hfits hfuel hrun
  simp only [decSymbolRun, hnarrow] at hrun'
  obtain ⟨taken, hloop', -, -, hreader⟩ := DecRun.loop_of_renorm hc _ _ _ hle hfits hfuel hrun'
  obtain ⟨hl, hh, hbits : taken.length + s.enc.underflow = emitted.length + run.underflow⟩ := hloop.mirrored hloop'
  have hafter := hagree.afterSymbol s.cfg sym hlenE hlenD
  refine ⟨rfl, hl, hh, congrArg Narrowed.tmpRange hnarrow, hafter.n, hafter.entry, ?_⟩
  have htaken : run'.reader.taken.length = s.reader.taken.length + taken.length := by simp [hreader, Reader.past]
  change run'.reader.taken.length + s.enc.underflow = s.reader.taken.length + r.data.toNat + run.underflow
  dsimp only at hcount
  omega

end Sys2Proof.Machine
end

section
/-! SUPPORT. What every command leaves at the ports: its own unit not ready, and the bit ports alone unless it has beats (20_memory.md R62;
30_encoding.md R82, R83). -/

namespace Sys2Proof.Machine

/-- The commands with beats at a bit port (20_memory.md R62). -/
def movesBits : Instr → Bool
  | .encSym _ | .encFlush _ | .decInit _ | .decSym => true
  | .encInit _ | .encExpand _ | .encEst _ | .encSave | .encRestore _ _ | .encDelete _ | .encReadp _ | .encReadreg _
  | .decExpand _ | .decSave | .decRestore _ _ | .decDelete _ | .decReadp _ | .decReadreg _ => false

/-- The writer and the reader of `x` are those of `s`, when `i` is a command without beats. -/
def QuietUnlessBeats (i : Instr) (s x : State) : Prop := movesBits i = false → x.writer = s.writer ∧ x.reader = s.reader

/-- What the command `i`, run from `s`, leaves at the ports in `t`. -/
structure PortsAfter (i : Instr) (s t : State) : Prop where
  busy : t.ctl i.unit ≠ .ready
  quiet : QuietUnlessBeats i s t

section
variable {i : Instr} {s t x : State}

theorem QuietUnlessBeats.same (hw : x.writer = s.writer) (hr : x.reader = s.reader) : QuietUnlessBeats i s x := fun _ => ⟨hw, hr⟩

theorem QuietUnlessBeats.moves (hi : movesBits i = true) : QuietUnlessBeats i s x := fun h => by simp [hi] at h

/-! ### The operations a command can end with -/

theorem PortsAfter.raise {u : Half} (hi : i.unit = u) {st : Status} (hx : QuietUnlessBeats i s x) : PortsAfter i s (raise u st x) := by
  subst hi
  exact ⟨by rw [raise_ctl]; exact nofun, by unfold QuietUnlessBeats; rwa [raise_writer, raise_reader]⟩

theorem PortsAfter.respondEnc (hi : i.unit = .enc) {data : Nat} (hx : QuietUnlessBeats i s x) :
    PortsAfter i s (respondEnc data x) :=
  ⟨by rw [hi]; exact nofun, hx⟩

theorem PortsAfter.respondDec (hi : i.unit = .dec) {data : Nat} (hx : QuietUnlessBeats i s x) :
    PortsAfter i s (respondDec data x) :=
  ⟨by rw [hi]; exact nofun, hx⟩

theorem PortsAfter.stallEnc (hi : i.unit = .enc) {cmd : EncBeatCommand} {b : Bool} (hx : QuietUnlessBeats i s x) :
    PortsAfter i s (stallEnc cmd b x) :=
  ⟨by rw [hi]; exact (encStallCtl_ne _ _ _).1, hx⟩

theorem PortsAfter.stallDec (hi : i.unit = .dec) (hx : QuietUnlessBeats i s x) : PortsAfter i s (stallDec x) :=
  ⟨by rw [hi]; exact (decStallCtl_ne _).1, hx⟩

/-- A command of ENC ends as its checks refuse it, or as its effect does. -/
theorem PortsAfter.of_encChecked (hi : i.unit = .enc) {accepted : Bool} {check : Option Status}
    {effect : Host.Outcome State Fault Refusal} (ht : encChecked accepted check s effect = .next t)
    (heffect : effect = .next t → PortsAfter i s t) : PortsAfter i s t := by
  rcases encChecked_cases accepted check s effect with ⟨-, e⟩ | ⟨-, st, -, e⟩ | ⟨-, -, e⟩ <;> rw [e] at ht
  · exact Host.Outcome.next.inj ht ▸ .raise hi (.same rfl rfl)
  · exact Host.Outcome.next.inj ht ▸ .raise hi (.same rfl rfl)
  · exact heffect ht

theorem PortsAfter.of_encChecked_next (hi : i.unit = .enc) {accepted : Bool} {check : Option Status}
    (ht : encChecked accepted check s (.next x) = .next t) (hx : PortsAfter i s x) : PortsAfter i s t :=
  .of_encChecked hi ht fun h => Host.Outcome.next.inj h ▸ hx

/-- A command of DEC ends as its checks refuse it, or as its effect does. -/
theorem PortsAfter.of_decChecked (hi : i.unit = .dec) {accepted : Bool} {check : Option Status}
    {effect : Host.Outcome State Fault Refusal} (ht : decChecked accepted check s effect = .next t)
    (heffect : effect = .next t → PortsAfter i s t) : PortsAfter i s t := by
  rcases decChecked_cases accepted check s effect with ⟨-, e⟩ | ⟨-, st, -, e⟩ | ⟨-, -, e⟩ <;> rw [e] at ht
  · exact Host.Outcome.next.inj ht ▸ .raise hi (.same rfl rfl)
  · exact Host.Outcome.next.inj ht ▸ .raise hi (.same rfl rfl)
  · exact heffect ht

theorem PortsAfter.of_decChecked_next (hi : i.unit = .dec) {accepted : Bool} {check : Option Status}
    (ht : decChecked accepted check s (.next x) = .next t) (hx : PortsAfter i s x) : PortsAfter i s t :=
  .of_decChecked hi ht fun h => Host.Outcome.next.inj h ▸ hx

/-! ### The commands with a loop or with beats -/

/-- The symbol step of ENC, whose loop leaves the writer alone when it emits nothing (42_encoder.md R162, R164). -/
theorem encSymbol_ports (hi : i.unit = .enc) {emits : Bool} (hemits : movesBits i = emits) (sym : Nat) :
    PortsAfter i s (encSymbol emits sym s) := by
  have hsilent := (encSymbolRun_cases emits sym s).2.2.1
  unfold encSymbol
  rcases hrun : encSymbolRun emits sym s with ⟨_ | st | b, r⟩ <;> rw [hrun] at hsilent <;> dsimp only
  · have hx : QuietUnlessBeats i s (encSymbolState sym r s) := fun h => ⟨hsilent (hemits ▸ h), rfl⟩
    split
    · exact .raise hi hx
    · exact .respondEnc hi hx
  · exact .raise hi fun h => ⟨hsilent (hemits ▸ h), rfl⟩
  · exact .stallEnc hi fun h => ⟨hsilent (hemits ▸ h), rfl⟩

theorem encFlushRun_ports (force : Bool) : PortsAfter (.encFlush force) s (encFlushRun force s) := by
  unfold encFlushRun
  split
  · exact .raise rfl (.moves rfl)
  rcases s.writer.emitAll (flushBits s.cfg s.enc) with ⟨_ | _ | b, w⟩ <;> dsimp only
  · split
    · exact .raise rfl (.moves rfl)
    · exact .respondEnc rfl (.moves rfl)
  · exact .raise rfl (.moves rfl)
  · exact .stallEnc rfl (.moves rfl)

theorem decInitRun_ports (n : Nat) : PortsAfter (.decInit n) s (decInitRun n s) := by
  unfold decInitRun
  rcases s.reader.takeField s.cfg.w 0 with ⟨_ | _ | b, code, rd⟩
  · exact .respondDec rfl (.moves rfl)
  · exact .raise rfl (.moves rfl)
  · exact .stallDec rfl (.moves rfl)

theorem decSymbol_ports (sym : Nat) : PortsAfter .decSym s (decSymbol sym s) := by
  unfold decSymbol
  rcases decSymbolRun sym s with ⟨_ | st | b, r⟩
  · exact .respondDec rfl (.moves rfl)
  · exact .raise rfl (.moves rfl)
  · exact .stallDec rfl (.moves rfl)

/-! ### Every command -/

/-- What every command of ENC leaves at the ports. -/
theorem exec_enc_ports {i : Instr} (hi : i.unit = .enc) (ht : exec i s = .next t) : PortsAfter i s t := by
  cases i with
  | encInit n =>
    simp only [exec, execEncInit] at ht
    exact .of_encChecked_next rfl ht (.respondEnc rfl (.same rfl rfl))
  | encExpand n2 =>
    simp only [exec, execEncExpand] at ht
    refine .of_encChecked rfl ht fun he => ?_
    split at he
    · exact Host.Outcome.next.inj he ▸ .respondEnc rfl (.same rfl rfl)
    · cases he
  | encSym sym =>
    simp only [exec, execEncSym] at ht
    exact .of_encChecked_next rfl ht (encSymbol_ports rfl rfl sym)
  | encFlush force =>
    simp only [exec, execEncFlush] at ht
    refine .of_encChecked_next rfl ht ?_
    split
    · exact .respondEnc rfl (.moves rfl)
    · exact encFlushRun_ports force
  | encEst sym =>
    simp only [exec, execEncEst] at ht
    exact .of_encChecked_next rfl ht (encSymbol_ports rfl rfl sym)
  | encSave =>
    simp only [exec, execEncSave] at ht
    refine .of_encChecked_next rfl ht ?_
    split
    · exact .raise rfl (.same rfl rfl)
    · exact .respondEnc rfl (.same rfl rfl)
  | encRestore cleanup k =>
    simp only [exec, execEncRestore] at ht
    refine .of_encChecked_next rfl ht ?_
    split
    · exact .raise rfl (.same rfl rfl)
    · exact .respondEnc rfl (.same rfl rfl)
  | encDelete k =>
    simp only [exec, execEncDelete] at ht
    refine .of_encChecked_next rfl ht ?_
    split
    · exact .raise rfl (.same rfl rfl)
    · exact .respondEnc rfl (.same rfl rfl)
  | encReadp idx =>
    simp only [exec, execEncReadp] at ht
    exact .of_encChecked_next rfl ht (.respondEnc rfl (.same rfl rfl))
  | encReadreg reg =>
    simp only [exec, execEncReadreg] at ht
    refine .of_encChecked_next rfl ht ?_
    split
    · exact .raise rfl (.same rfl rfl)
    · split
      · exact .respondEnc rfl (.same rfl rfl)
      · exact .respondEnc rfl (.same rfl rfl)
  | decInit | decExpand | decSym | decSave | decRestore | decDelete | decReadp | decReadreg => cases hi

/-- What every command of DEC leaves at the ports. -/
theorem exec_dec_ports {i : Instr} (hi : i.unit = .dec) (ht : exec i s = .next t) : PortsAfter i s t := by
  cases i with
  | decInit n =>
    simp only [exec, execDecInit] at ht
    exact .of_decChecked_next rfl ht (decInitRun_ports n)
  | decExpand n2 =>
    simp only [exec, execDecExpand] at ht
    refine .of_decChecked rfl ht fun he => ?_
    split at he
    · exact Host.Outcome.next.inj he ▸ .respondDec rfl (.same rfl rfl)
    · cases he
  | decSym =>
    simp only [exec, execDecSym] at ht
    refine .of_decChecked rfl ht fun he => ?_
    split at he
    · exact Host.Outcome.next.inj he ▸ decSymbol_ports _
    · cases he
  | decSave =>
    simp only [exec, execDecSave] at ht
    refine .of_decChecked_next rfl ht ?_
    split
    · exact .raise rfl (.same rfl rfl)
    · exact .respondDec rfl (.same rfl rfl)
  | decRestore cleanup k =>
    simp only [exec, execDecRestore] at ht
    refine .of_decChecked_next rfl ht ?_
    split
    · exact .raise rfl (.same rfl rfl)
    · exact .respondDec rfl (.same rfl rfl)
  | decDelete k =>
    simp only [exec, execDecDelete] at ht
    refine .of_decChecked_next rfl ht ?_
    split
    · exact .raise rfl (.same rfl rfl)
    · exact .respondDec rfl (.same rfl rfl)
  | decReadp idx =>
    simp only [exec, execDecReadp] at ht
    exact .of_decChecked_next rfl ht (.respondDec rfl (.same rfl rfl))
  | decReadreg reg =>
    simp only [exec, execDecReadreg] at ht
    refine .of_decChecked_next rfl ht ?_
    split
    · exact .raise rfl (.same rfl rfl)
    · split
      · exact .respondDec rfl (.same rfl rfl)
      · exact .respondDec rfl (.same rfl rfl)
  | encInit | encExpand | encSym | encFlush | encEst | encSave | encRestore | encDelete | encReadp | encReadreg => cases hi

/-- What every command leaves at the ports. -/
theorem exec_ports (ht : exec i s = .next t) : PortsAfter i s t := by
  cases hi : i.unit with
  | enc => exact exec_enc_ports hi ht
  | dec => exact exec_dec_ports hi ht

/-- The other unit's position at its ports (60_exceptions.md R234). -/
theorem exec_ctl_of_ne (ht : exec i s = .next t) {u : Half} (hu : u ≠ i.unit) : t.ctl u = s.ctl u := by
  cases hi : i.unit with
  | enc =>
    obtain rfl : u = .dec := by cases u <;> simp_all
    rw [exec_enc_frame hi ht]; rfl
  | dec =>
    obtain rfl : u = .enc := by cases u <;> simp_all
    rw [exec_dec_frame hi ht]; rfl

theorem exec_enc_keeps_reader (hi : i.unit = .enc) (ht : exec i s = .next t) : t.reader = s.reader := by
  rw [exec_enc_frame hi ht, State.encSideIn_reader]

theorem exec_dec_keeps_writer (hi : i.unit = .dec) (ht : exec i s = .next t) : t.writer = s.writer := by
  rw [exec_dec_frame hi ht, State.decSideIn_writer]

/-- What the host does next is no part of the ready signal (30_encoding.md R82). -/
theorem State.withInputs_cmdReady (s : State) (l : List HostEvent) (u : Half) : (s.withInputs l).cmdReady u = s.cmdReady u := by
  cases u <;> rfl

/-- A word offered to a unit that is not ready, or under reset, is no beat (30_encoding.md R82; 70_reset_and_hazards.md R251). -/
theorem step_offer_of_not_ready {u : Half} {w : Word} {rest : List HostEvent} (hin : s.inputs = .offer u w :: rest)
    (hready : s.cmdReady u = false) : step s = .next (s.withInputs rest) := by
  rw [step, hin]
  exact if_neg (by rw [State.withInputs_cmdReady, hready]; exact Bool.false_ne_true)

end

/-- Settles O24, by what every command leaves at the ports (`exec_ports`), and by the other side's frame for the four commands with
beats. -/
theorem whoMovesBits : Obligations.WhoMovesBits := by
  intro i s t ht
  cases i with
  | encSym sym => exact ⟨.inr (.inl ⟨sym, rfl⟩), .inl (exec_enc_keeps_reader rfl ht)⟩
  | encFlush force => exact ⟨.inr (.inr ⟨force, rfl⟩), .inl (exec_enc_keeps_reader rfl ht)⟩
  | decInit n => exact ⟨.inl (exec_dec_keeps_writer rfl ht), .inr (.inl ⟨n, rfl⟩)⟩
  | decSym => exact ⟨.inl (exec_dec_keeps_writer rfl ht), .inr (.inr rfl)⟩
  | _ =>
    obtain ⟨hwriter, hreader⟩ := (exec_ports ht).quiet rfl
    exact ⟨.inl hwriter, .inl hreader⟩

/-- Settles O6, by the ready signal for the offer, and by what every command leaves at the ports (`exec_ports`). -/
theorem noCommandBeforeTheResponse : Obligations.NoCommandBeforeTheResponse := by
  refine ⟨fun u w rest s hin hbusy => step_offer_of_not_ready hin ?_,
    fun i s t ht => ⟨(exec_ports ht).busy, fun u => exec_ctl_of_ne ht⟩⟩
  rcases hbusy with hrst | hctl
  · simp [State.cmdReady, hrst]
  · simp [State.cmdReady, hctl]

end Sys2Proof.Machine
end

section
/-! SUPPORT. DEC.INIT whose reader supplies the `W` bits of the window (20_memory.md R61; 43_decoder.md R190). -/

namespace Sys2Proof.Machine

/-- M.INIT on the whole table, slots that do not exist included (40_model.md R111). -/
theorem Model.init_entry_of_fits {m : Model} {n : Nat} (hn : n < m.p.length) (i : Nat) :
    (m.init n).entry i = if i ≤ n then i else m.entry i := by
  by_cases hi : i < m.p.length
  · exact Model.init_entry m n i hi
  · rw [if_neg (by omega), Model.entry, Model.entry, List.getD_eq_default _ _ (by rw [Model.init_length]; omega),
      List.getD_eq_default _ _ (by omega)]

/-- `read(nbits)` of a reader that supplies `bits` gives their value (20_memory.md R61). -/
theorem Reader.takeField_value {k : Nat} {bits : List Bool} {r : Reader} (h : r.coming k = bits.map .bit) :
    r.takeField k 0 = (.done, bitsValue bits, r.past k bits) := by
  obtain rfl : bits.length = k := by rw [← r.coming_length k, h, List.length_map]
  rw [Reader.takeField_bits bits 0 r h, Reader.valueOf_eq, Nat.zero_mul, Nat.zero_add]

/-- Settles O52, by the run of takes that gets all its bits (`Reader.takeField_value`). -/
theorem decInitStartsASession : Obligations.DecInitStartsASession := by
  intro n bits s hlen h1 h2 h3 hbound hcoming
  refine ⟨s.dec.model.init n, rfl, (Model.init_length _ n).trans hlen, Model.init_entry_of_fits (by omega), ?_⟩
  rw [exec_decInit_passed h1 h2 h3 hbound, decInitRun, Reader.takeField_value hcoming]
  rfl

end Sys2Proof.Machine
end

section
/-! SUPPORT. The writer's packing of bits into bytes (20_memory.md R57). -/

namespace Sys2Proof.Machine

/-- The number whose binary digits, most significant first, are `f 0`, …, `f (n - 1)`. -/
def packMsbFirst (f : Nat → Bool) (n : Nat) : Nat := (List.range n).foldl (fun v j => 2 * v + (f j).toNat) 0

theorem packMsbFirst_succ (f : Nat → Bool) (n : Nat) : packMsbFirst f (n + 1) = Nat.bit (f n) (packMsbFirst f n) := by
  rw [packMsbFirst, List.range_succ, List.foldl_append, Nat.bit_val]
  rfl

theorem packMsbFirst_testBit (f : Nat → Bool) {n j : Nat} (hj : j < n) : (packMsbFirst f n).testBit (n - 1 - j) = f j := by
  induction n with
  | zero => cases hj
  | succ n ih =>
    rw [packMsbFirst_succ]
    rcases Nat.lt_succ_iff_lt_or_eq.1 hj with hlt | rfl
    · rw [show n + 1 - 1 - j = (n - 1 - j) + 1 by omega, Nat.testBit_bit_succ, ih hlt]
    · rw [show j + 1 - 1 - j = 0 by omega, Nat.testBit_bit_zero]

/-- The bit that ends up at position `k` of the medium: the accepted one, or the writer's own choice past the last (log 14). -/
def Writer.mediumBit (w : Writer) (k : Nat) : Bool := w.accepted.getD k (Config.freePad k)

theorem Writer.mediumByte_eq (w : Writer) (k : Nat) :
    w.mediumByte k = BitVec.ofNat 8 (packMsbFirst (fun j => w.mediumBit (8 * k + j)) 8) := rfl

/-- Bit `7 - j` of byte `k` is bit `8k + j` of the medium. -/
theorem Writer.mediumByte_getLsbD (w : Writer) (k : Nat) {j : Nat} (hj : j < 8) :
    (w.mediumByte k).getLsbD (7 - j) = w.mediumBit (8 * k + j) := by
  have hfits : 7 - j < 8 := by omega
  rw [mediumByte_eq, BitVec.getLsbD_ofNat, decide_eq_true hfits, Bool.true_and]
  exact packMsbFirst_testBit (fun j => w.mediumBit (8 * k + j)) hj

theorem Writer.medium_length (w : Writer) : w.medium.length = (w.accepted.length + 7) / 8 := by simp [medium]

theorem Writer.medium_getElem? (w : Writer) {k : Nat} (hk : k < w.medium.length) : w.medium[k]? = some (w.mediumByte k) := by
  rw [medium_length] at hk
  simp [medium, hk]

/-- Settles O60, by where a bit of the medium stands in its byte (`Writer.mediumByte_getLsbD`). -/
theorem firstBitIsTheMsb : Obligations.FirstBitIsTheMsb := by
  intro w k j b hj hb
  obtain ⟨hlt, -⟩ := List.getElem?_eq_some_iff.1 hb
  have hk : k < w.medium.length := by rw [w.medium_length]; omega
  refine ⟨?_, hk, w.medium_getElem? hk⟩
  rw [w.mediumByte_getLsbD k hj, Writer.mediumBit, List.getD_eq_getElem?_getD, hb, Option.getD_some]

end Sys2Proof.Machine
end

section
/-! SUPPORT. Decoding by fields: a unit reads the command `i` from a word exactly when the word's fields are those of `i`
(30_encoding.md R81, R85 to R88). -/

namespace Sys2Proof

/-! ### The fields of a command -/

/-- OP of a command (R85, R86). -/
def Instr.opcode : Instr → Nat
  | .encInit _ | .decInit _ => 0x1
  | .encExpand _ | .decExpand _ => 0x2
  | .encSym _ | .decSym => 0x3
  | .encFlush _ => 0x4
  | .encEst _ => 0x5
  | .encSave | .decSave => 0x6
  | .encRestore _ _ | .decRestore _ _ => 0x7
  | .encDelete _ | .decDelete _ => 0x8
  | .encReadp _ | .decReadp _ => 0x9
  | .encReadreg _ | .decReadreg _ => 0xA

/-- F of a command, 0 where it must be (R88). -/
def Instr.flag : Instr → Bool
  | .encFlush f | .encRestore f _ | .decRestore f _ => f
  | .encInit _ | .encExpand _ | .encSym _ | .encEst _ | .encSave | .encDelete _ | .encReadp _ | .encReadreg _
  | .decInit _ | .decExpand _ | .decSym | .decSave | .decDelete _ | .decReadp _ | .decReadreg _ => false

/-- ARG of a command, 0 where it must be (R88). -/
def Instr.arg : Instr → Nat
  | .encInit a | .encExpand a | .encSym a | .encEst a | .encRestore _ a | .encDelete a | .encReadp a | .encReadreg a
  | .decInit a | .decExpand a | .decRestore _ a | .decDelete a | .decReadp a | .decReadreg a => a
  | .encFlush _ | .encSave | .decSym | .decSave => 0

theorem encode_eq_packWord (i : Instr) : encode i = packWord i.unit.number i.opcode i.flag i.arg := by cases i <;> rfl

theorem Instr.wellFormed_iff (i : Instr) : i.wellFormed = true ↔ i.arg < 2 ^ 32 := by
  cases i <;> simp [wellFormed, arg, argFits]

theorem Half.number_lt (u : Half) : u.number < 16 := by cases u <;> decide

theorem Half.number_injective : Function.Injective Half.number := fun u v h => by
  cases u <;> cases v <;> simp [Half.number] at h ⊢

theorem Instr.opcode_lt (i : Instr) : i.opcode < 16 := by cases i <;> simp [opcode]

/-- `w` has the fields of the command `i`, RSV 0. -/
structure Spells (w : Word) (i : Instr) : Prop where
  unit : unitField w = i.unit.number
  op : opField w = i.opcode
  rsv : rsvField w = 0
  flag : flagField w = i.flag
  arg : argField w = i.arg

section
variable {w : Word} {i : Instr}

/-- The word of a command has its fields. -/
theorem encode_spells (h : i.wellFormed = true) : Spells (encode i) i := by
  have hu := i.unit.number_lt
  have ho := i.opcode_lt
  have ha := i.wellFormed_iff.1 h
  rw [encode_eq_packWord]
  exact ⟨unitField_packWord _ hu ho ha, opField_packWord _ hu ho ha, rsvField_packWord _ hu ho ha, flagField_packWord _ hu ho ha,
    argField_packWord _ hu ho ha⟩

theorem Spells.wellFormed (h : Spells w i) : i.wellFormed = true := i.wellFormed_iff.2 (h.arg ▸ argField_lt w)

/-- A word with the fields of a command is the command's word. -/
theorem Spells.encode_eq (h : Spells w i) : encode i = w := by
  rw [encode_eq_packWord, ← h.unit, ← h.op, ← h.flag, ← h.arg]
  exact (word_eq_packWord w h.rsv).symm

/-! ### The must-be-0 rules (R88) -/

theorem withArg_ok_iff {mk : Nat → Instr} :
    withArg w mk = .ok i ↔ rsvField w = 0 ∧ flagField w = false ∧ mk (argField w) = i := by
  unfold withArg
  split_ifs <;> simp_all

theorem withNothing_ok_iff {j : Instr} :
    withNothing w j = .ok i ↔ rsvField w = 0 ∧ flagField w = false ∧ argField w = 0 ∧ j = i := by
  unfold withNothing
  split_ifs <;> simp_all

theorem withFlag_ok_iff {mk : Bool → Instr} :
    withFlag w mk = .ok i ↔ rsvField w = 0 ∧ argField w = 0 ∧ mk (flagField w) = i := by
  unfold withFlag
  split_ifs <;> simp_all

theorem withFlagArg_ok_iff {mk : Bool → Nat → Instr} :
    withFlagArg w mk = .ok i ↔ rsvField w = 0 ∧ mk (flagField w) (argField w) = i := by
  unfold withFlagArg
  split_ifs <;> simp_all

/-! ### The decoder -/

theorem decodeEnc_ok_spells (hu : unitField w = 0) (h : decodeEnc w = .ok i) : Spells w i := by
  unfold decodeEnc at h
  split at h <;> rename_i hop
  case h_4 => obtain ⟨hrsv, harg, rfl⟩ := withFlag_ok_iff.1 h; exact ⟨hu, hop, hrsv, rfl, harg⟩
  case h_6 => obtain ⟨hrsv, hflag, harg, rfl⟩ := withNothing_ok_iff.1 h; exact ⟨hu, hop, hrsv, hflag, harg⟩
  case h_7 => obtain ⟨hrsv, rfl⟩ := withFlagArg_ok_iff.1 h; exact ⟨hu, hop, hrsv, rfl, rfl⟩
  case h_11 => cases h
  all_goals obtain ⟨hrsv, hflag, rfl⟩ := withArg_ok_iff.1 h; exact ⟨hu, hop, hrsv, hflag, rfl⟩

theorem decodeDec_ok_spells (hu : unitField w = 1) (h : decodeDec w = .ok i) : Spells w i := by
  unfold decodeDec at h
  split at h <;> rename_i hop
  case h_3 | h_4 => obtain ⟨hrsv, hflag, harg, rfl⟩ := withNothing_ok_iff.1 h; exact ⟨hu, hop, hrsv, hflag, harg⟩
  case h_5 => obtain ⟨hrsv, rfl⟩ := withFlagArg_ok_iff.1 h; exact ⟨hu, hop, hrsv, rfl, rfl⟩
  case h_9 => cases h
  all_goals obtain ⟨hrsv, hflag, rfl⟩ := withArg_ok_iff.1 h; exact ⟨hu, hop, hrsv, hflag, rfl⟩

theorem decode_enc_of_unitField (h : unitField w = 0) : decode .enc w = decodeEnc w := if_neg (not_not.2 h)

theorem decode_dec_of_unitField (h : unitField w = 1) : decode .dec w = decodeDec w := if_neg (not_not.2 h)

/-- A word that carries another unit's number is refused for its UNIT (R88). -/
theorem decode_wrongUnit {u : Half} (h : unitField w ≠ u.number) : decode u w = .error .wrongUnit := if_pos h

/-- A unit reads a command of its own from every word that spells one. -/
theorem Spells.decode_eq (h : Spells w i) : decode i.unit w = .ok i := by
  obtain ⟨hu, hop, hrsv, hflag, harg⟩ := h
  cases i with
  | encFlush f =>
    simp only [Instr.unit, decode_enc_of_unitField hu, decodeEnc, hop, Instr.opcode]
    exact withFlag_ok_iff.2 ⟨hrsv, harg, congrArg _ hflag⟩
  | encSave =>
    simp only [Instr.unit, decode_enc_of_unitField hu, decodeEnc, hop, Instr.opcode]
    exact withNothing_ok_iff.2 ⟨hrsv, hflag, harg, rfl⟩
  | encRestore f a =>
    simp only [Instr.unit, decode_enc_of_unitField hu, decodeEnc, hop, Instr.opcode]
    exact withFlagArg_ok_iff.2 ⟨hrsv, congrArg₂ _ hflag harg⟩
  | encInit | encExpand | encSym | encEst | encDelete | encReadp | encReadreg =>
    simp only [Instr.unit, decode_enc_of_unitField hu, decodeEnc, hop, Instr.opcode]
    exact withArg_ok_iff.2 ⟨hrsv, hflag, congrArg _ harg⟩
  | decSym | decSave =>
    simp only [Instr.unit, decode_dec_of_unitField hu, decodeDec, hop, Instr.opcode]
    exact withNothing_ok_iff.2 ⟨hrsv, hflag, harg, rfl⟩
  | decRestore f a =>
    simp only [Instr.unit, decode_dec_of_unitField hu, decodeDec, hop, Instr.opcode]
    exact withFlagArg_ok_iff.2 ⟨hrsv, congrArg₂ _ hflag harg⟩
  | decInit | decExpand | decDelete | decReadp | decReadreg =>
    simp only [Instr.unit, decode_dec_of_unitField hu, decodeDec, hop, Instr.opcode]
    exact withArg_ok_iff.2 ⟨hrsv, hflag, congrArg _ harg⟩

/-- A unit reads the command `i` from a word exactly when `i` is its own and the word spells it. -/
theorem decode_ok_iff {u : Half} : decode u w = .ok i ↔ i.unit = u ∧ Spells w i := by
  constructor
  · intro h
    refine ⟨Machine.decode_unit h, ?_⟩
    by_cases hu : unitField w = u.number
    · cases u with
      | enc => exact decodeEnc_ok_spells hu (decode_enc_of_unitField hu ▸ h)
      | dec => exact decodeDec_ok_spells hu (decode_dec_of_unitField hu ▸ h)
    · cases (decode_wrongUnit hu).symm.trans h
  · rintro ⟨rfl, h⟩
    exact h.decode_eq

end

/-- Settles O1: a unit reads a command exactly from the words that spell it (`decode_ok_iff`), and the command's word is the only one
that does (`encode_spells`, `Spells.encode_eq`). -/
theorem decodeAndEncodeAgree : Obligations.DecodeAndEncodeAgree := by
  refine ⟨fun i hi => ⟨(encode_spells hi).decode_eq, fun u hu => decode_wrongUnit ?_⟩, fun u w i h => ?_⟩
  · rw [(encode_spells hi).unit]
    exact fun hn => hu (Half.number_injective hn.symm)
  · obtain ⟨hunit, hspells⟩ := decode_ok_iff.1 h
    exact ⟨hunit, hspells.wellFormed, hspells.encode_eq⟩

end Sys2Proof
end

section
/-! SUPPORT. The masks of R87 as conditions on the fields of R81. -/

namespace Sys2Proof

/-- The mask of the bits `hi` down to `lo`. -/
def fieldMask (hi lo : Nat) : Word := BitVec.ofNat 64 ((2 ^ (hi + 1 - lo) - 1) <<< lo)

section
variable {w v : Word} {hi lo : Nat}

theorem fieldMask_toNat (hhi : hi < 64) (hlo : lo ≤ hi) : (fieldMask hi lo).toNat = (2 ^ (hi + 1 - lo) - 1) <<< lo := by
  have hfits : (2 ^ (hi + 1 - lo) - 1) * 2 ^ lo < 2 ^ 64 :=
    calc (2 ^ (hi + 1 - lo) - 1) * 2 ^ lo < 2 ^ (hi + 1 - lo) * 2 ^ lo :=
          Nat.mul_lt_mul_of_pos_right (Nat.sub_lt (Nat.two_pow_pos _) one_pos) (Nat.two_pow_pos _)
      _ = 2 ^ (hi + 1) := by rw [← pow_add]; congr 1; omega
      _ ≤ 2 ^ 64 := Nat.pow_le_pow_right two_pos hhi
  rw [fieldMask, BitVec.toNat_ofNat, Nat.shiftLeft_eq, Nat.mod_eq_of_lt hfits]

/-- Under the mask of a field only the field is left, where it stands. -/
theorem and_fieldMask_toNat (hhi : hi < 64) (hlo : lo ≤ hi) : (w &&& fieldMask hi lo).toNat = bits w hi lo <<< lo := by
  rw [BitVec.toNat_and, fieldMask_toNat hhi hlo]
  refine Nat.eq_of_testBit_eq fun k => ?_
  rw [Nat.testBit_and, Nat.testBit_shiftLeft, Nat.testBit_shiftLeft, bits, ← Nat.and_two_pow_sub_one_eq_mod, Nat.testBit_and,
    Nat.testBit_div_two_pow]
  by_cases hk : lo ≤ k
  · rw [Nat.sub_add_cancel hk]
    simp [hk]
  · simp [hk]

theorem and_fieldMask_eq_iff (hhi : hi < 64) (hlo : lo ≤ hi) :
    w &&& fieldMask hi lo = v &&& fieldMask hi lo ↔ bits w hi lo = bits v hi lo := by
  rw [← BitVec.toNat_inj, and_fieldMask_toNat hhi hlo, and_fieldMask_toNat hhi hlo, Nat.shiftLeft_eq, Nat.shiftLeft_eq]
  exact Nat.mul_left_inj (Nat.two_pow_pos lo).ne'

/-- Two words agree under a mask of two parts exactly when they agree under each. -/
theorem and_or_eq_iff {a b : Word} : w &&& (a ||| b) = v &&& (a ||| b) ↔ w &&& a = v &&& a ∧ w &&& b = v &&& b := by
  constructor
  · intro h
    have hpart : ∀ m : Word, (a ||| b) &&& m = m → w &&& m = v &&& m := fun m hm => by
      rw [← hm, ← BitVec.and_assoc, h, BitVec.and_assoc]
    exact ⟨hpart a (by ext k; simp +contextual), hpart b (by ext k; simp +contextual)⟩
  · rintro ⟨ha, hb⟩
    rw [BitVec.and_or_distrib_left, BitVec.and_or_distrib_left, ha, hb]

theorem flagField_eq_iff : flagField w = flagField v ↔ bits w 55 55 = bits v 55 55 := by
  have hbit : ∀ x : Word, bits x 55 55 < 2 := fun x => Nat.mod_lt _ two_pos
  have hw := hbit w
  have hv := hbit v
  rw [flagField, flagField, decide_eq_decide]
  omega

/-- F is bit 55 (R81). -/
theorem flagField_eq_getLsbD (w : Word) : flagField w = w.getLsbD 55 := (Nat.testBit_eq_decide_div_mod_eq ..).symm

/-- ARG is bits 31 to 0 (R81). -/
theorem argField_eq_mod (w : Word) : argField w = w.toNat % 2 ^ 32 := by rw [argField, bits, pow_zero, Nat.div_one]

theorem spells_iff {i : Instr} :
    Spells w i ↔ (unitField w = i.unit.number ∧ opField w = i.opcode ∧ rsvField w = 0) ∧ flagField w = i.flag ∧ argField w = i.arg :=
  ⟨fun h => ⟨⟨h.unit, h.op, h.rsv⟩, h.flag, h.arg⟩, fun ⟨⟨hu, ho, hr⟩, hf, ha⟩ => ⟨hu, ho, hr, hf, ha⟩⟩

/-! ### The rows of R87, by the operands of the command -/

theorem and_opMask_eq_iff :
    w &&& 0xFF7FFFFF00000000 = v &&& 0xFF7FFFFF00000000 ↔
      unitField w = unitField v ∧ opField w = opField v ∧ rsvField w = rsvField v := by
  rw [show (0xFF7FFFFF00000000 : Word) = fieldMask 63 60 ||| (fieldMask 59 56 ||| fieldMask 54 32) by decide, and_or_eq_iff,
    and_or_eq_iff, and_fieldMask_eq_iff (by decide) (by decide), and_fieldMask_eq_iff (by decide) (by decide),
    and_fieldMask_eq_iff (by decide) (by decide)]
  rfl

theorem and_flagMask_eq_iff : w &&& fieldMask 55 55 = v &&& fieldMask 55 55 ↔ flagField w = flagField v := by
  rw [and_fieldMask_eq_iff (by decide) (by decide), flagField_eq_iff]

theorem and_argMask_eq_iff : w &&& fieldMask 31 0 = v &&& fieldMask 31 0 ↔ argField w = argField v :=
  and_fieldMask_eq_iff (by decide) (by decide)

section
variable {i : Instr} (hv : packWord i.unit.number i.opcode false 0 = v)
include hv

/-- The match word of a command carries its UNIT and OP, and 0 elsewhere. -/
theorem match_fields :
    unitField v = i.unit.number ∧ opField v = i.opcode ∧ rsvField v = 0 ∧ flagField v = false ∧ argField v = 0 := by
  have hu := i.unit.number_lt
  have ho := i.opcode_lt
  subst hv
  exact ⟨unitField_packWord _ hu ho (by decide), opField_packWord _ hu ho (by decide), rsvField_packWord _ hu ho (by decide),
    flagField_packWord _ hu ho (by decide), argField_packWord _ hu ho (by decide)⟩

/-- The row of a command with both operands. -/
theorem spells_iff_flagArgRow (hm : v &&& 0xFF7FFFFF00000000 = v) :
    Spells w i ↔ w &&& 0xFF7FFFFF00000000 = v ∧ i.flag = w.getLsbD 55 ∧ i.arg = w.toNat % 2 ^ 32 := by
  obtain ⟨hu, ho, hr, -, -⟩ := match_fields hv
  rw [← hm, and_opMask_eq_iff, hu, ho, hr, ← flagField_eq_getLsbD, ← argField_eq_mod,
    eq_comm (a := i.flag), eq_comm (a := i.arg)]
  exact spells_iff

/-- The row of a command that takes ARG alone. -/
theorem spells_iff_argRow (hf : i.flag = false) (hm : v &&& 0xFFFFFFFF00000000 = v) :
    Spells w i ↔ w &&& 0xFFFFFFFF00000000 = v ∧ i.arg = w.toNat % 2 ^ 32 := by
  obtain ⟨hu, ho, hr, hflag, -⟩ := match_fields hv
  rw [← hm, show (0xFFFFFFFF00000000 : Word) = 0xFF7FFFFF00000000 ||| fieldMask 55 55 by decide, and_or_eq_iff, and_opMask_eq_iff,
    and_flagMask_eq_iff, hu, ho, hr, hflag.trans hf.symm, ← argField_eq_mod, and_assoc,
    eq_comm (a := i.arg)]
  exact spells_iff

/-- The row of a command that takes F alone. -/
theorem spells_iff_flagRow (ha : i.arg = 0) (hm : v &&& 0xFF7FFFFFFFFFFFFF = v) :
    Spells w i ↔ w &&& 0xFF7FFFFFFFFFFFFF = v ∧ i.flag = w.getLsbD 55 := by
  obtain ⟨hu, ho, hr, -, harg⟩ := match_fields hv
  rw [← hm, show (0xFF7FFFFFFFFFFFFF : Word) = 0xFF7FFFFF00000000 ||| fieldMask 31 0 by decide, and_or_eq_iff, and_opMask_eq_iff,
    and_argMask_eq_iff, hu, ho, hr, harg.trans ha.symm, ← flagField_eq_getLsbD,
    and_right_comm, and_assoc, eq_comm (a := i.flag)]
  exact spells_iff

/-- The row of a command that takes no operand. -/
theorem spells_iff_plainRow (hf : i.flag = false) (ha : i.arg = 0) : Spells w i ↔ w &&& 0xFFFFFFFFFFFFFFFF = v := by
  have hword : encode i = v := by rw [encode_eq_packWord, hf, ha, hv]
  rw [show (0xFFFFFFFFFFFFFFFF : Word) = BitVec.allOnes 64 by decide, BitVec.and_allOnes]
  constructor
  · exact fun h => h.encode_eq.symm.trans hword
  · rintro rfl
    exact hword ▸ encode_spells (i.wellFormed_iff.2 (by rw [ha]; decide))

end

end

/-- Settles O2: a unit reads a command exactly from the words that spell it (`decode_ok_iff`), and spelling it is meeting its row. -/
theorem commandsAreTheMaskRows : Obligations.CommandsAreTheMaskRows := by
  intro u w i
  rw [decode_ok_iff]
  cases i with
  | encFlush => exact and_congr eq_comm (spells_iff_flagRow (by simp only [Instr.unit, Instr.opcode]; decide) rfl (by decide))
  | encSave | decSym | decSave => exact and_congr eq_comm (spells_iff_plainRow (by decide) rfl rfl)
  | encRestore | decRestore =>
    exact and_congr eq_comm (spells_iff_flagArgRow (by simp only [Instr.unit, Instr.opcode]; decide) (by decide))
  | _ => exact and_congr eq_comm (spells_iff_argRow (by simp only [Instr.unit, Instr.opcode]; decide) rfl (by decide))

end Sys2Proof
end

section
/-! SUPPORT. A word offered to a unit that is ready, and a response taken (30_encoding.md R82, R83, R88). -/

namespace Sys2Proof.Machine

section
variable {u : Half} {w : Word} {rest : List HostEvent} {s : State}

/-- A word offered to a ready unit is accepted (R82). -/
theorem step_offer_of_ready (hin : s.inputs = .offer u w :: rest) (hr : s.rst = false) (hctl : s.ctl u = .ready) :
    step s = accept u w (s.withInputs rest) := by
  rw [step, hin]
  exact if_pos (by rw [State.withInputs_cmdReady, State.cmdReady, hr, hctl]; rfl)

theorem accept_of_ok {i : Instr} (h : decode u w = .ok i) : accept u w s = exec i s := by rw [accept, h]

/-- An illegal word changes nothing but the response on offer (R88). -/
theorem accept_of_error {e : Illegal} (h : decode u w = .error e) :
    accept u w s = .next (s.answered u (errorResponse .illegalCommand)) := by
  rw [accept, h, raise_of_refusal u .illegalCommand s rfl]

/-- The response on offer is delivered when the host takes it (R83). -/
theorem step_take_of_responding {r : Response} (hin : s.inputs = .take u :: rest) (hr : s.rst = false)
    (hctl : s.ctl u = .responding r) : step s = .next (deliver u r (s.withInputs rest)) := by
  have hresp : (s.withInputs rest).response u = some r := by
    have hctl' : (s.withInputs rest).ctl u = .responding r := by rw [← hctl]; cases u <;> rfl
    rw [State.response, State.withInputs_rst, hr, hctl']
    rfl
  rw [step, hin]
  dsimp only [edge]
  rw [hresp]

/-- With no response on offer, that edge is no beat (R83). -/
theorem step_take_of_silent (hin : s.inputs = .take u :: rest) (hctl : ∀ r, s.ctl u ≠ .responding r) :
    step s = .next (s.withInputs rest) := by
  have hresp : (s.withInputs rest).response u = none := by
    have hctl' : (s.withInputs rest).ctl u = s.ctl u := by cases u <;> rfl
    rw [State.response, hctl']
    split
    · rfl
    · split
      · rename_i r hk
        exact absurd hk (hctl r)
      all_goals rfl
  rw [step, hin]
  dsimp only [edge]
  rw [hresp]

end

/-- Settles O5. -/
theorem stepRunsDecodedInstruction : Obligations.StepRunsDecodedInstruction := fun _ _ _ _ _ hin hr hctl hdec =>
  (step_offer_of_ready hin hr hctl).trans (accept_of_ok hdec)

/-- Settles O7: putting the response back on offer undoes the freeing of the port, and nothing else has changed. -/
theorem responseIsDelivered : Obligations.ResponseIsDelivered := by
  refine fun u rest s hin hr => ⟨fun r hctl => ⟨_, step_take_of_responding hin hr hctl, ?_⟩, step_take_of_silent hin⟩
  cases u with
  | enc =>
    have henc : { s.enc with ctl := .responding r } = s.enc := by rw [← show s.enc.ctl = .responding r from hctl]
    exact ⟨rfl, rfl, congrArg (fun e => { s with enc := e, inputs := rest, delivered := s.delivered ++ [(Half.enc, r)] }) henc⟩
  | dec =>
    have hdec : { s.dec with ctl := .responding r } = s.dec := by rw [← show s.dec.ctl = .responding r from hctl]
    exact ⟨rfl, rfl, congrArg (fun d => { s with dec := d, inputs := rest, delivered := s.delivered ++ [(Half.dec, r)] }) hdec⟩

end Sys2Proof.Machine
end

section
/-! SUPPORT. The five conditions of R88 are the words that spell no command. -/

namespace Sys2Proof

/-- The OPs of a unit (30_encoding.md R85, R86). -/
def Half.opcodes : Half → List Nat
  | .enc => [1, 2, 3, 4, 5, 6, 7, 8, 9, 10]
  | .dec => [1, 2, 3, 6, 7, 8, 9, 10]

/-- The OPs of a unit whose commands take F (R85 to R88). -/
def Half.flagOpcodes : Half → List Nat
  | .enc => [4, 7]
  | .dec => [7]

/-- The OPs of a unit whose commands take no ARG (R85 to R88). -/
def Half.plainOpcodes : Half → List Nat
  | .enc => [4, 6]
  | .dec => [3, 6]

/-- None of the five conditions of R88 holds. -/
structure Legal (u : Half) (w : Word) : Prop where
  unit : unitField w = u.number
  op : opField w ∈ u.opcodes
  rsv : rsvField w = 0
  flag : flagField w = true → opField w ∈ u.flagOpcodes
  arg : argField w ≠ 0 → opField w ∉ u.plainOpcodes

theorem Instr.opcode_mem (i : Instr) : i.opcode ∈ i.unit.opcodes := by cases i <;> simp [unit, opcode, Half.opcodes]

theorem Instr.opcode_mem_of_flag {i : Instr} (h : i.flag = true) : i.opcode ∈ i.unit.flagOpcodes := by
  cases i <;> simp_all [unit, opcode, flag, Half.flagOpcodes]

theorem Instr.opcode_notMem_of_arg {i : Instr} (h : i.arg ≠ 0) : i.opcode ∉ i.unit.plainOpcodes := by
  cases i <;> simp_all [unit, opcode, arg, Half.plainOpcodes]

/-- Each OP of a unit is that of one command, which takes every F and ARG that R88 allows with it. -/
theorem exists_instr {u : Half} {op a : Nat} {f : Bool} (ho : op ∈ u.opcodes) (hf : f = true → op ∈ u.flagOpcodes)
    (ha : a ≠ 0 → op ∉ u.plainOpcodes) : ∃ i : Instr, i.unit = u ∧ i.opcode = op ∧ i.flag = f ∧ i.arg = a := by
  have hnoflag : op ∉ u.flagOpcodes → false = f := fun h => (Bool.eq_false_iff.2 (mt hf h)).symm
  have hnoarg : op ∈ u.plainOpcodes → 0 = a := fun h => (not_not.1 fun h0 => ha h0 h).symm
  cases u with
  | enc =>
    simp only [Half.opcodes, List.mem_cons, List.not_mem_nil, or_false] at ho
    rcases ho with rfl | rfl | rfl | rfl | rfl | rfl | rfl | rfl | rfl | rfl
    · exact ⟨.encInit a, rfl, rfl, hnoflag (by decide), rfl⟩
    · exact ⟨.encExpand a, rfl, rfl, hnoflag (by decide), rfl⟩
    · exact ⟨.encSym a, rfl, rfl, hnoflag (by decide), rfl⟩
    · exact ⟨.encFlush f, rfl, rfl, rfl, hnoarg (by decide)⟩
    · exact ⟨.encEst a, rfl, rfl, hnoflag (by decide), rfl⟩
    · exact ⟨.encSave, rfl, rfl, hnoflag (by decide), hnoarg (by decide)⟩
    · exact ⟨.encRestore f a, rfl, rfl, rfl, rfl⟩
    · exact ⟨.encDelete a, rfl, rfl, hnoflag (by decide), rfl⟩
    · exact ⟨.encReadp a, rfl, rfl, hnoflag (by decide), rfl⟩
    · exact ⟨.encReadreg a, rfl, rfl, hnoflag (by decide), rfl⟩
  | dec =>
    simp only [Half.opcodes, List.mem_cons, List.not_mem_nil, or_false] at ho
    rcases ho with rfl | rfl | rfl | rfl | rfl | rfl | rfl | rfl
    · exact ⟨.decInit a, rfl, rfl, hnoflag (by decide), rfl⟩
    · exact ⟨.decExpand a, rfl, rfl, hnoflag (by decide), rfl⟩
    · exact ⟨.decSym, rfl, rfl, hnoflag (by decide), hnoarg (by decide)⟩
    · exact ⟨.decSave, rfl, rfl, hnoflag (by decide), hnoarg (by decide)⟩
    · exact ⟨.decRestore f a, rfl, rfl, rfl, rfl⟩
    · exact ⟨.decDelete a, rfl, rfl, hnoflag (by decide), rfl⟩
    · exact ⟨.decReadp a, rfl, rfl, hnoflag (by decide), rfl⟩
    · exact ⟨.decReadreg a, rfl, rfl, hnoflag (by decide), rfl⟩

/-- A word that spells a command meets none of the five conditions. -/
theorem Spells.legal {w : Word} {i : Instr} (h : Spells w i) : Legal i.unit w where
  unit := h.unit
  op := h.op ▸ i.opcode_mem
  rsv := h.rsv
  flag hf := h.op ▸ Instr.opcode_mem_of_flag (h.flag ▸ hf)
  arg ha := h.op ▸ Instr.opcode_notMem_of_arg (h.arg ▸ ha)

/-- A word that meets none of the five conditions is a command of the unit. -/
theorem Legal.decode_ok {u : Half} {w : Word} (h : Legal u w) : ∃ i, decode u w = .ok i := by
  obtain ⟨i, rfl, hop, hflag, harg⟩ := exists_instr h.op h.flag h.arg
  exact ⟨i, Spells.decode_eq ⟨h.unit, hop.symm, h.rsv, hflag.symm, harg.symm⟩⟩

/-- Any other word is illegal. -/
theorem decode_error_of_not_legal {u : Half} {w : Word} (h : ¬Legal u w) : ∃ e, decode u w = .error e := by
  cases hdec : decode u w with
  | error e => exact ⟨e, rfl⟩
  | ok i =>
    obtain ⟨rfl, hspells⟩ := decode_ok_iff.1 hdec
    exact absurd hspells.legal h

/-- Settles O3, by the words that the decoder refuses (`decode_error_of_not_legal`) and those it reads (`Legal.decode_ok`). -/
theorem illegalWordsAreRefused : Obligations.IllegalWordsAreRefused := by
  intro u w rest s hin hr hctl legal
  have hlegal : legal ↔ Legal u w := by
    cases u <;> exact ⟨fun ⟨h1, h2, h3, h4, h5⟩ => ⟨h1, h2, h3, h4, h5⟩, fun ⟨h1, h2, h3, h4, h5⟩ => ⟨h1, h2, h3, h4, h5⟩⟩
  rw [Machine.step_offer_of_ready hin hr hctl, hlegal]
  refine ⟨fun h => ?_, fun h => ?_⟩
  · obtain ⟨e, he⟩ := decode_error_of_not_legal h
    exact Machine.accept_of_error he
  · obtain ⟨i, hi⟩ := h.decode_ok
    exact ⟨i, hi, Machine.accept_of_ok hi⟩

/-- Settles O4: each sample word is the word of its command (`decodeAndEncodeAgree`); the last three carry no OP, or not the unit's
number, or no OP of the unit. -/
theorem sampleWordsDecode : Obligations.SampleWordsDecode :=
  have hread : ∀ i : Instr, i.wellFormed = true → decode i.unit (encode i) = .ok i := fun i hi =>
    (decodeAndEncodeAgree.1 i hi).1
  ⟨hread (.encInit 257) rfl, hread (.encSym 72) rfl, hread (.encFlush true) rfl, hread (.encRestore true 0) rfl,
    hread (.encReadreg 4) rfl, hread .decSym rfl, hread (.decRestore true 2) rfl, hread (.decReadreg 5) rfl, rfl, rfl, rfl⟩

end Sys2Proof
end

section
/-! SUPPORT. A writer and a reader that complete every beat leave no command waiting, and a legal state raises no internal fault: every
command responds (30_encoding.md R83; 70_reset_and_hazards.md R260). -/

namespace Sys2Proof.Machine

/-! ### Beats that are all completed -/

section
variable {w : Writer}

theorem Writer.Answering.answer (h : w.Answering) : w.answer.1 ≠ .never ∧ w.answer.2.Answering := by
  obtain ⟨hbound, hafter, hscript⟩ := h
  unfold Writer.answer
  rw [if_pos hbound]
  split
  · exact ⟨hafter, hbound, hafter, hscript⟩
  · rename_i a l hl
    rw [hl] at hscript
    exact ⟨hscript a List.mem_cons_self, hbound, hafter, fun x hx => hscript x (List.mem_cons_of_mem _ hx)⟩

theorem Writer.Answering.store (h : w.Answering) (b : Bool) : (w.store b).Answering := h

theorem Writer.Answering.emitAll (h : w.Answering) (l : List Bool) :
    (∀ b, (emitAll l w).1 ≠ .stuck b) ∧ (emitAll l w).2.Answering := by
  induction l generalizing w with
  | nil => exact ⟨nofun, h⟩
  | cons b bs ih =>
    obtain ⟨hnever, hnext⟩ := h.answer
    rw [emitAll_cons]
    rcases hw : w.answer with ⟨_ | _ | _, w'⟩ <;> rw [hw] at hnever hnext
    · exact ih (hnext.store b)
    · exact ⟨nofun, hnext⟩
    · exact absurd rfl hnever

end

section
variable {r : Reader}

theorem Reader.Answering.answer (h : r.Answering) : r.answer.1 ≠ .never ∧ r.answer.2.Answering := by
  obtain ⟨hbound, hafter, hscript⟩ := h
  unfold Reader.answer
  rw [if_pos hbound]
  split
  · exact ⟨hafter, hbound, hafter, hscript⟩
  · rename_i a l hl
    rw [hl] at hscript
    exact ⟨hscript a List.mem_cons_self, hbound, hafter, fun x hx => hscript x (List.mem_cons_of_mem _ hx)⟩

theorem Reader.Answering.consume (h : r.Answering) (b : Bool) : (r.consume b).Answering := h

theorem Reader.Answering.takeField (h : r.Answering) (k v : Nat) : ∀ b, (takeField k v r).1 ≠ .stuck b := by
  induction k generalizing v r with
  | zero => exact nofun
  | succ k ih =>
    obtain ⟨hnever, hnext⟩ := h.answer
    rw [takeField_succ]
    rcases hr : r.answer with ⟨b | _ | _, r'⟩ <;> rw [hr] at hnever hnext
    · exact ih (hnext.consume b) _
    · exact nofun
    · exact absurd rfl hnever

end

theorem EncRun.renorm_not_stuck (c : Config) (emits : Bool) (fuel : Nat) (r : EncRun) (h : r.writer.Answering) :
    ∀ b, (renorm c emits fuel r).1 ≠ .stuck b := by
  induction fuel generalizing r with
  | zero => exact nofun
  | succ fuel ih =>
    cases hk : classify c r.low r.high with
    | exit => rw [renorm_exit _ _ _ _ hk]; exact nofun
    | e3 =>
      rw [renorm_e3 _ _ _ _ hk]
      split
      · exact nofun
      · exact ih _ h
    | msbEq =>
      have hstep : (∀ b, (r.msbStep c emits).1 ≠ .stuck b) ∧ (r.msbStep c emits).2.Answering := by
        cases emits with
        | false => exact ⟨nofun, h⟩
        | true => exact h.emitAll (r.msbBits c)
      rw [renorm_msbEq _ _ _ _ hk]
      rcases hm : r.msbStep c emits with ⟨_ | _ | b, w⟩ <;> rw [hm] at hstep
      · exact ih _ hstep.2
      · exact nofun
      · exact absurd rfl (hstep.1 b)

theorem DecRun.renorm_not_stuck (c : Config) (fuel : Nat) (r : DecRun) (h : r.reader.Answering) :
    ∀ b, (renorm c fuel r).1 ≠ .stuck b := by
  induction fuel generalizing r with
  | zero => exact nofun
  | succ fuel ih =>
    by_cases hk : classify c r.low r.high = .exit
    · rw [renorm_exit _ _ _ hk]; exact nofun
    · obtain ⟨hnever, hnext⟩ := h.answer
      rw [renorm_step _ _ _ hk]
      rcases hr : r.reader.answer with ⟨b | _ | _, rd⟩ <;> rw [hr] at hnever hnext
      · exact ih _ (hnext.consume b)
      · exact nofun
      · exact absurd rfl hnever

/-! ### Ends with a response -/

/-- The command goes on to a state in which `u` has a response on offer. -/
def Responds (u : Half) (o : Host.Outcome State Fault Refusal) : Prop := ∃ t r, o = .next t ∧ t.ctl u = .responding r

section
variable {s : State}

theorem responds_raise (u : Half) (st : Status) (s : State) : Responds u (.next (raise u st s)) := ⟨_, _, rfl, raise_ctl u st s⟩

theorem responds_respondEnc (data : Nat) (s : State) : Responds .enc (.next (respondEnc data s)) := ⟨_, _, rfl, rfl⟩

theorem responds_respondDec (data : Nat) (s : State) : Responds .dec (.next (respondDec data s)) := ⟨_, _, rfl, rfl⟩

/-- A command of ENC responds when its checks refuse it, and else as its effect does. -/
theorem encChecked_responds {accepted : Bool} {check : Option Status} {effect : Host.Outcome State Fault Refusal}
    (h : accepted = true → check = none → Responds .enc effect) : Responds .enc (encChecked accepted check s effect) := by
  rcases encChecked_cases accepted check s effect with ⟨-, e⟩ | ⟨-, st, -, e⟩ | ⟨ha, hn, e⟩ <;> rw [e]
  · exact responds_raise ..
  · exact responds_raise ..
  · exact h ha hn

/-- A command of DEC responds when its checks refuse it, and else as its effect does. -/
theorem decChecked_responds {accepted : Bool} {check : Option Status} {effect : Host.Outcome State Fault Refusal}
    (h : accepted = true → check = none → Responds .dec effect) : Responds .dec (decChecked accepted check s effect) := by
  rcases decChecked_cases accepted check s effect with ⟨-, e⟩ | ⟨-, st, -, e⟩ | ⟨ha, hn, e⟩ <;> rw [e]
  · exact responds_raise ..
  · exact responds_raise ..
  · exact h ha hn

theorem encSymbol_responds (hw : s.writer.Answering) (emits : Bool) (sym : Nat) : Responds .enc (.next (encSymbol emits sym s)) := by
  have hrun : ∀ b, (encSymbolRun emits sym s).1 ≠ .stuck b := EncRun.renorm_not_stuck _ _ _ _ hw
  unfold encSymbol
  rcases hr : encSymbolRun emits sym s with ⟨_ | st | b, r⟩ <;> dsimp only
  · split
    · exact responds_raise ..
    · exact responds_respondEnc ..
  · exact responds_raise ..
  · exact absurd (by rw [hr]) (hrun b)

theorem encFlushRun_responds (hw : s.writer.Answering) (force : Bool) : Responds .enc (.next (encFlushRun force s)) := by
  have hrun := (hw.emitAll (flushBits s.cfg s.enc)).1
  unfold encFlushRun
  split
  · exact responds_raise ..
  rcases hr : s.writer.emitAll (flushBits s.cfg s.enc) with ⟨_ | _ | b, w⟩ <;> dsimp only
  · split
    · exact responds_raise ..
    · exact responds_respondEnc ..
  · exact responds_raise ..
  · exact absurd (by rw [hr]) (hrun b)

theorem decInitRun_responds (hr : s.reader.Answering) (n : Nat) : Responds .dec (.next (decInitRun n s)) := by
  have hrun := hr.takeField s.cfg.w 0
  unfold decInitRun
  rcases htake : s.reader.takeField s.cfg.w 0 with ⟨_ | _ | b, code, rd⟩
  · exact responds_respondDec ..
  · exact responds_raise ..
  · exact absurd (by rw [htake]) (hrun b)

theorem decSymbol_responds (hr : s.reader.Answering) (sym : Nat) : Responds .dec (.next (decSymbol sym s)) := by
  have hrun : ∀ b, (decSymbolRun sym s).1 ≠ .stuck b := DecRun.renorm_not_stuck _ _ _ hr
  unfold decSymbol
  rcases hloop : decSymbolRun sym s with ⟨_ | st | b, r⟩
  · exact responds_respondDec ..
  · exact responds_raise ..
  · exact absurd (by rw [hloop]) (hrun b)

/-- Every command of ENC responds. -/
theorem exec_enc_responds (hinv : Inv s) (hw : s.writer.Answering) {i : Instr} (hi : i.unit = .enc) : Responds .enc (exec i s) := by
  cases i with
  | encInit | encReadp =>
    simp only [exec, execEncInit, execEncReadp]
    exact encChecked_responds fun _ _ => responds_respondEnc ..
  | encExpand n2 =>
    simp only [exec, execEncExpand]
    refine encChecked_responds fun ha hn => ?_
    obtain ⟨h1, h2, h3⟩ := expandCheck_none.1 hn
    obtain ⟨m, hexp, -⟩ :=
      expand_legal hinv.cfg s.enc.model n2 (hinv.enc.table (.inl (accepts_encExpand_iff.1 ha))) hinv.enc.table_length h1 h3 h2
    rw [hexp]
    exact responds_respondEnc ..
  | encSym | encEst =>
    simp only [exec, execEncSym, execEncEst]
    exact encChecked_responds fun _ _ => encSymbol_responds hw ..
  | encFlush force =>
    simp only [exec, execEncFlush]
    refine encChecked_responds fun _ _ => ?_
    split
    · exact responds_respondEnc ..
    · exact encFlushRun_responds hw force
  | encSave | encRestore | encDelete =>
    simp only [exec, execEncSave, execEncRestore, execEncDelete]
    refine encChecked_responds fun _ _ => ?_
    split
    · exact responds_raise ..
    · exact responds_respondEnc ..
  | encReadreg =>
    simp only [exec, execEncReadreg]
    refine encChecked_responds fun _ _ => ?_
    split
    · exact responds_raise ..
    · split
      · exact responds_respondEnc ..
      · exact responds_respondEnc ..
  | decInit | decExpand | decSym | decSave | decRestore | decDelete | decReadp | decReadreg => cases hi

/-- Every command of DEC responds. -/
theorem exec_dec_responds (hinv : Inv s) (hr : s.reader.Answering) {i : Instr} (hi : i.unit = .dec) : Responds .dec (exec i s) := by
  cases i with
  | decInit n =>
    simp only [exec, execDecInit]
    exact decChecked_responds fun _ _ => decInitRun_responds hr n
  | decExpand n2 =>
    simp only [exec, execDecExpand]
    refine decChecked_responds fun ha hn => ?_
    obtain ⟨h1, h2, h3⟩ := expandCheck_none.1 hn
    obtain ⟨m, hexp, -⟩ :=
      expand_legal hinv.cfg s.dec.model n2 (hinv.dec.table (accepts_decExpand_iff.1 ha)) hinv.dec.table_length h1 h3 h2
    rw [hexp]
    exact responds_respondDec ..
  | decSym =>
    simp only [exec, execDecSym]
    refine decChecked_responds fun ha _ => ?_
    obtain ⟨sym, hsome, -⟩ := decodedSymbol_ok hinv.dec (accepts_decSym_iff.1 ha)
    rw [hsome]
    exact decSymbol_responds hr sym
  | decReadp =>
    simp only [exec, execDecReadp]
    exact decChecked_responds fun _ _ => responds_respondDec ..
  | decSave | decRestore | decDelete =>
    simp only [exec, execDecSave, execDecRestore, execDecDelete]
    refine decChecked_responds fun _ _ => ?_
    split
    · exact responds_raise ..
    · exact responds_respondDec ..
  | decReadreg =>
    simp only [exec, execDecReadreg]
    refine decChecked_responds fun _ _ => ?_
    split
    · exact responds_raise ..
    · split
      · exact responds_respondDec ..
      · exact responds_respondDec ..
  | encInit | encExpand | encSym | encFlush | encEst | encSave | encRestore | encDelete | encReadp | encReadreg => cases hi

end

/-- Settles O8: the commands with beats are never left at one, EXPAND's scaling loop ends and DEC.SYM's lookup finds a symbol. -/
theorem everyCommandResponds : Obligations.EveryCommandResponds := by
  intro i s hinv hw hr
  cases hi : i.unit with
  | enc => exact exec_enc_responds hinv hw hi
  | dec => exact exec_dec_responds hinv hr hi

end Sys2Proof.Machine
end

section
/-! SUPPORT. The commands the host issues one after another (30_encoding.md R94): what a command that answers has done, and the bracket of
ENC.COST from SAVE to RESTORE. -/

namespace Sys2Proof.Machine

/-! ### One command issued and answered -/

section
variable {i : Instr} {s t : State} {r : Response}

theorem ctl_of_response {u : Half} (h : s.response u = some r) : s.ctl u = .responding r := by
  unfold State.response at h
  split at h
  · cases h
  · split at h
    · rename_i hctl
      rw [hctl, Option.some.inj h]
    all_goals cases h

/-- A command that answers ran on a ready unit, and its response has been taken. -/
theorem issue_some (h : issue i s = some (r, t)) :
    s.rst = false ∧ ∃ x, exec i s = .next x ∧ x.ctl i.unit = .responding r ∧ t = deliver i.unit r x := by
  unfold issue at h
  split at h
  · rename_i hready
    have hrst : s.rst = false := by
      simp only [State.cmdReady, Bool.and_eq_true, Bool.not_eq_true'] at hready
      exact hready.1
    split at h
    · rename_i x hexec
      split at h
      · rename_i r' hresp
        obtain ⟨rfl, rfl⟩ := Prod.mk.inj (Option.some.inj h)
        exact ⟨hrst, x, hexec, ctl_of_response hresp, rfl⟩
      · cases h
    all_goals cases h
  · cases h

@[simp] theorem deliver_enc_enc (r : Response) (s : State) : (deliver .enc r s).enc = s.enc.withCtl .ready := rfl
@[simp] theorem deliver_cfg (u : Half) (r : Response) (s : State) : (deliver u r s).cfg = s.cfg := by cases u <;> rfl
@[simp] theorem deliver_writer (u : Half) (r : Response) (s : State) : (deliver u r s).writer = s.writer := by cases u <;> rfl

/-- A command issued from a legal state leaves one. -/
theorem issue_inv (hinv : Inv s) (h : issue i s = some (r, t)) : Inv t ∧ t.cfg = s.cfg := by
  obtain ⟨hrst, x, hexec, -, rfl⟩ := issue_some h
  obtain ⟨hx, hcfg⟩ := exec_inv hinv hrst hexec
  exact ⟨deliver_inv hx _ r, by rw [deliver_cfg, hcfg]⟩

/-- A command without beats leaves the writer alone. -/
theorem issue_quiet (hi : movesBits i = false) (h : issue i s = some (r, t)) : t.writer = s.writer := by
  obtain ⟨-, x, hexec, -, rfl⟩ := issue_some h
  rw [deliver_writer, ((exec_ports hexec).quiet hi).1]

/-! ### SAVE, EST and RESTORE that answer -/

/-- A command of ENC without operand checks that answers OK passed its mode check. -/
theorem encChecked_answers_ok {accepted : Bool} {effect : Host.Outcome State Fault Refusal}
    (h : encChecked accepted none s effect = .next t) (hctl : t.enc.ctl = .responding r) (hr : r.status = .ok) :
    accepted = true ∧ effect = .next t := by
  cases accepted with
  | false =>
    obtain rfl := Host.Outcome.next.inj h
    obtain rfl := Ctl.responding.inj hctl
    cases hr
  | true => exact ⟨rfl, h⟩

/-- The handle that SAVE takes is that of a free slot (42_encoder.md R165). -/
theorem encFreeHandle_some {c : Config} {e : Enc} {k : Nat} (h : encFreeHandle c e = some k) :
    k < c.nsnap ∧ ∃ slot, e.slots[k]? = some slot ∧ slot.valid = false := by
  obtain ⟨hk, hfree, -⟩ := List.findIdx?_eq_some_iff_getElem.1 h
  rw [List.length_take] at hk
  refine ⟨by omega, e.slots[k]'(by omega), List.getElem?_eq_getElem _, ?_⟩
  simpa using hfree

/-- SAVE that answers OK (42_encoder.md R165). -/
theorem issue_encSave_ok (h : issue .encSave s = some (r, t)) (hr : r.status = .ok) :
    (s.enc.mode = .ready ∨ s.enc.mode = .flushed) ∧ ∃ k, r = okResponse k ∧ encFreeHandle s.cfg s.enc = some k ∧
      t.enc.slots = s.enc.slots.set k (encSnapshot s.enc) := by
  obtain ⟨-, x, hexec, hctl, rfl⟩ := issue_some h
  rw [exec, execEncSave] at hexec
  obtain ⟨ha, he⟩ := encChecked_answers_ok hexec hctl hr
  refine ⟨accepts_encSave_iff.1 ha, ?_⟩
  obtain rfl := Host.Outcome.next.inj he
  cases hk : encFreeHandle s.cfg s.enc with
  | none =>
    simp only [hk] at hctl
    obtain rfl := Ctl.responding.inj hctl
    cases hr
  | some k =>
    simp only [hk] at hctl
    exact ⟨k, (Ctl.responding.inj hctl).symm, rfl, rfl⟩

/-- A symbol step of ENC leaves the slots alone. -/
theorem encSymbol_slots (emits : Bool) (sym : Nat) (s : State) : (encSymbol emits sym s).enc.slots = s.enc.slots := by
  unfold encSymbol
  rcases encSymbolRun emits sym s with ⟨_ | st | b, r⟩
  · dsimp only
    split <;> rfl
  · rfl
  · rfl

theorem issue_encEst_slots {sym : Nat} (h : issue (.encEst sym) s = some (r, t)) : t.enc.slots = s.enc.slots := by
  obtain ⟨-, x, hexec, -, rfl⟩ := issue_some h
  rw [exec, execEncEst] at hexec
  change x.enc.slots = s.enc.slots
  rcases encChecked_cases (accepts (.encEst sym) s.enc.mode) (symbolCheck s.enc.model sym) s (.next (encSymbol false sym s)) with
    ⟨-, e⟩ | ⟨-, st, -, e⟩ | ⟨-, -, e⟩ <;> obtain rfl := Host.Outcome.next.inj (e.symm.trans hexec)
  · rfl
  · rfl
  · exact encSymbol_slots false sym s

/-- RESTORE with cleanup that answers OK (42_encoder.md R166). -/
theorem issue_encRestore_ok {k : Nat} (h : issue (.encRestore true k) s = some (r, t)) (hr : r.status = .ok) :
    ∃ slot, s.enc.slots[k]? = some slot ∧ t.enc = (encFreeSlot k slot (encRestored s.enc slot)).withCtl .ready := by
  obtain ⟨-, x, hexec, hctl, rfl⟩ := issue_some h
  rw [exec, execEncRestore] at hexec
  obtain ⟨-, he⟩ := encChecked_answers_ok hexec hctl hr
  obtain rfl := Host.Outcome.next.inj he
  cases hk : encSlotOf s.cfg s.enc k with
  | none =>
    simp only [hk] at hctl
    obtain rfl := Ctl.responding.inj hctl
    cases hr
  | some slot => exact ⟨slot, (encSlotOf_some.1 hk).2.1, rfl⟩

end

/-! ### The estimates -/

/-- ENC.EST keeps the parameters, the invariant, the slots and the writer; so do any number of them. -/
structure Estimated (s t : State) : Prop where
  inv : Inv t
  cfg : t.cfg = s.cfg
  slots : t.enc.slots = s.enc.slots
  writer : t.writer = s.writer

theorem issueAll_estimated {syms : List Nat} {s t : State} {rs : List Response} (hinv : Inv s)
    (h : issueAll (syms.map .encEst) s = some (rs, t)) : Estimated s t := by
  induction syms generalizing s rs with
  | nil =>
    obtain ⟨-, rfl⟩ := Prod.mk.inj (Option.some.inj h)
    exact ⟨hinv, rfl, rfl, rfl⟩
  | cons sym syms ih =>
    rw [List.map_cons, issueAll] at h
    split at h
    · cases h
    · rename_i r x hx
      split at h
      · cases h
      · rename_i rs' y hy
        obtain ⟨-, rfl⟩ := Prod.mk.inj (Option.some.inj h)
        obtain ⟨hinvx, hcfg⟩ := issue_inv hinv hx
        obtain ⟨hinvy, hcfg', hslots, hwriter⟩ := ih hinvx hy
        exact ⟨hinvy, hcfg'.trans hcfg, hslots.trans (issue_encEst_slots hx), hwriter.trans (issue_quiet rfl hx)⟩

/-- The estimates of ENC.COST that end with OK were all answered, and their data are summed (R94). -/
theorem estSum_ok {syms : List Nat} {acc : Nat} {s : State} {res : HostResult Nat} (h : estSum syms acc s = some res)
    (hres : res.status = .ok) :
    ∃ rs, issueAll (syms.map .encEst) s = some (rs, res.state) ∧ res.value = acc + (rs.map (·.data.toNat)).sum := by
  induction syms generalizing acc s with
  | nil =>
    obtain rfl := Option.some.inj h
    exact ⟨[], rfl, rfl⟩
  | cons sym syms ih =>
    rw [estSum] at h
    split at h
    · cases h
    · rename_i r x hx
      split at h
      · rename_i hstatus
        obtain rfl := Option.some.inj h
        exact absurd hres hstatus
      · obtain ⟨rs, hrs, hvalue⟩ := ih h
        refine ⟨r :: rs, ?_, ?_⟩
        · rw [List.map_cons, issueAll, hx]
          dsimp only
          rw [hrs]
        · rw [hvalue, List.map_cons, List.sum_cons, Nat.add_assoc]

/-! ### The bracket -/

/-- ENC.COST that ends with OK: SAVE, the estimates and RESTORE, each ended with OK (R94). -/
theorem costOf_ok {syms : List Nat} {s : State} {res : HostResult Nat} (h : costOf syms s = some res) (hres : res.status = .ok) :
    ∃ rsave saved est rrest, issue .encSave s = some (rsave, saved) ∧ rsave.status = .ok ∧ estSum syms 0 saved = some est ∧
      est.status = .ok ∧ issue (.encRestore true rsave.data.toNat) est.state = some (rrest, res.state) ∧ rrest.status = .ok ∧
      res.value = est.value := by
  unfold costOf at h
  split at h
  · cases h
  · rename_i rsave saved hsave
    split at h
    · rename_i hstatus
      obtain rfl := Option.some.inj h
      exact absurd hres hstatus
    · rename_i hok
      split at h
      · cases h
      · rename_i est hest
        split at h
        · cases h
        · rename_i rrest final hrest
          obtain rfl := Option.some.inj h
          dsimp only at hres
          split at hres
          · rename_i hstatus
            exact absurd hres hstatus
          · rename_i hok'
            exact ⟨rsave, saved, est, rrest, hsave, not_not.1 hok, hest, not_not.1 hok', hrest, hres, rfl⟩

/-- A free slot that is written and freed again changes no `valid` bit. -/
theorem map_valid_set_set {l : List EncSlot} {k : Nat} {slot a b : EncSlot} (hk : l[k]? = some slot) (hslot : slot.valid = false)
    (hb : b.valid = false) : ((l.set k a).set k b).map (·.valid) = l.map (·.valid) := by
  obtain ⟨hlt, rfl⟩ := List.getElem?_eq_some_iff.1 hk
  rw [List.set_set, List.map_set, hb, ← hslot, ← List.map_set, List.set_getElem_self]

/-- RESTORE of a snapshot of `e` gives back the mode of `e` (42_encoder.md R166). -/
theorem encRestored_encSnapshot_mode {e : Enc} (e' : Enc) (hm : e.mode = .ready ∨ e.mode = .flushed) :
    (encRestored e' (encSnapshot e)).mode = e.mode := by
  rcases hm with hm | hm <;> simp [encRestored, encSnapshot, hm]

/-- RESTORE of a snapshot of `e` gives back the slots in use of `e` (40_model.md R120). -/
theorem encRestored_encSnapshot_entry {e e' : Enc} (hlen : e.model.n < e'.model.p.length) {k : Nat} (hk : k ≤ e.model.n) :
    (encRestored e' (encSnapshot e)).model.entry k = e.model.entry k := by
  change (e'.model.load e.model.saved).entry k = _
  rw [Model.load_entry _ _ _ (by omega), Model.saved_n, if_pos hk, Model.saved_entry _ _ hk]

/-- Settles O59: the estimates keep the slot that SAVE wrote (`issueAll_estimated`), so RESTORE loads the snapshot of the first state. -/
theorem costBracketRestores : Obligations.CostBracketRestores := by
  intro syms s res hinv hcost hres
  obtain ⟨rsave, saved, est, rrest, hsave, hsaveok, hest, hestok, hrest, hrestok, hvalue⟩ := costOf_ok hcost hres
  obtain ⟨hm, k, rfl, hfree, hslots⟩ := issue_encSave_ok hsave hsaveok
  obtain ⟨rs, hrs, hsum⟩ := estSum_ok hest hestok
  obtain ⟨hknsnap, slot, hslot, hinvalid⟩ := encFreeHandle_some hfree
  obtain ⟨hsavedinv, hsavedcfg⟩ := issue_inv hinv hsave
  obtain ⟨hestinv, hestcfg, hestslots, hestwriter⟩ := issueAll_estimated hsavedinv hrs
  have hk : (okResponse k).data.toNat = k := by
    have := hinv.cfg.nsnap_le
    exact Nat.mod_eq_of_lt (by omega)
  rw [hk] at hrest
  obtain ⟨snapshot, hsnapshot, hfinal⟩ := issue_encRestore_ok hrest hrestok
  rw [hestslots, hslots, List.getElem?_set_self (List.getElem?_eq_some_iff.1 hslot).1] at hsnapshot
  obtain rfl := Option.some.inj hsnapshot
  have hlen : s.enc.model.n < est.state.enc.model.p.length := by
    rw [hestinv.enc.table_length, hestcfg, hsavedcfg]
    have := hinv.enc.n_le
    omega
  refine ⟨⟨k, saved, rs, est.state, hsave, hrs, by rw [hvalue, hsum, Nat.zero_add]⟩, ?_⟩
  rw [hfinal]
  refine ⟨rfl, rfl, rfl, rfl, encRestored_encSnapshot_mode est.state.enc hm, rfl, fun i => encRestored_encSnapshot_entry hlen, ?_, ?_⟩
  · change ((est.state.enc.slots).set k _).map (·.valid) = _
    rw [hestslots, hslots]
    exact map_valid_set_set hslot hinvalid rfl
  · rw [issue_quiet rfl hrest, hestwriter, issue_quiet rfl hsave]

end Sys2Proof.Machine
end

section
/-! SUPPORT. The micro-operations of 40_model.md on the whole table, slots that do not exist included, and EXPAND's scaling loop as an
iteration of M.SCALE (R111 to R119, R121 to R124). -/

namespace Sys2Proof.Machine

namespace Model

variable {m : Model} {sym n2 : Nat}

/-- A slot that does not exist reads 0. -/
theorem entry_of_length_le {i : Nat} (h : m.p.length ≤ i) : m.entry i = 0 := List.getD_eq_default _ _ h

/-- M.UPDATE on the whole table (40_model.md R113). -/
theorem update_entry_of_fits (hl : m.n < m.p.length) (i : Nat) :
    (m.update sym).entry i = if sym < i ∧ i ≤ m.n then m.entry i + 1 else m.entry i := by
  by_cases hi : i < m.p.length
  · exact update_entry m sym i hi
  · rw [if_neg (by omega), entry_of_length_le (by rw [update_length]; omega), entry_of_length_le (by omega)]

/-- M.UPDATE raises the weight of its own symbol and no other (40_model.md R113). -/
theorem update_weight (hl : m.n < m.p.length) {k : Nat} (hk : k < m.n) (hmono : m.entry k < m.entry (k + 1)) :
    (m.update sym).freqHigh k - (m.update sym).freqLow k = m.freqHigh k - m.freqLow k + if k = sym then 1 else 0 := by
  unfold freqHigh freqLow
  rw [update_entry_of_fits hl, update_entry_of_fits hl]
  rcases Nat.lt_trichotomy k sym with h | h | h
  · rw [if_neg (by omega), if_neg (by omega), if_neg (by omega)]
    rfl
  · rw [if_pos (by omega), if_neg (by omega), if_pos h]
    omega
  · rw [if_pos (by omega), if_pos (by omega), if_neg (by omega)]
    omega

/-- M.SCALE leaves every entry above the one below it, whatever the table held (40_model.md R114). -/
theorem scale_entry_lt_succ (hl : m.n < m.p.length) {i : Nat} (hi : i < m.n) : m.scale.entry i < m.scale.entry (i + 1) := by
  rw [scale_entry_succ m i hi (by omega)]
  exact lt_scaledValue _ _

/-- M.EXPAND's growing loop on the whole table (40_model.md R117). -/
theorem grow_entry (hl : n2 < m.p.length) (i : Nat) :
    (m.grow n2).entry i = if m.n < i ∧ i ≤ n2 then m.total + (i - m.n) else m.entry i := by
  split
  · have h := grow_entry_new m n2 (i - m.n) (by omega) (by omega)
    rwa [show m.n + (i - m.n) = i by omega] at h
  · exact grow_entry_old m n2 i (by omega)

/-- The scaling loop that ends is so many passes of M.SCALE, the total being at or above `MAX_TOTAL` before each (40_model.md R118). -/
theorem scaleLoop_eq_iterate {c : Config} {fuel : Nat} {e : Model} (h : scaleLoop c fuel m = some e) :
    ∃ k, e = scale^[k] m ∧ ∀ j, j < k → c.maxTotal ≤ (scale^[j] m).total := by
  induction fuel generalizing m with
  | zero =>
    unfold scaleLoop at h
    split at h
    · cases h
    · exact ⟨0, (Option.some.inj h).symm, fun j hj => absurd hj (Nat.not_lt_zero j)⟩
  | succ fuel ih =>
    unfold scaleLoop at h
    split at h
    · rename_i hfull
      obtain ⟨k, he, hk⟩ := ih h
      refine ⟨k + 1, he, fun j hj => ?_⟩
      cases j with
      | zero => exact hfull
      | succ j => exact hk j (by omega)
    · exact ⟨0, (Option.some.inj h).symm, fun j hj => absurd hj (Nat.not_lt_zero j)⟩

/-- Of a legal table, the symbol looked up is the only one whose sub-interval holds `q` (40_model.md R119). -/
theorem lookup_iff {c : Config} (h : TableOk c m) {q : Nat} (hq : q < m.total) :
    ∃ s, m.lookup q = some s ∧ ∀ k, (k < m.n ∧ m.entry k ≤ q ∧ q < m.entry (k + 1)) ↔ k = s := by
  obtain ⟨s, hs, hspec⟩ := lookup_spec m q h.n_pos (by rw [h.zero]; exact Nat.zero_le q) hq
  refine ⟨s, hs, fun k => ⟨fun ⟨hk, h1, h2⟩ => ?_, fun hk => hk ▸ hspec⟩⟩
  exact Option.some.inj ((lookup_unique m q k h.monotone hk h1 h2).symm.trans hs)

end Model

/-- Settles O27, by the entries of the updated table. -/
theorem updateRaisesOneWeight : Obligations.UpdateRaisesOneWeight := by
  intro m sym hl hmono hsym
  exact ⟨rfl, Model.update_entry_of_fits hl, Model.update_total m sym hsym hl, fun k hk => Model.update_weight hl hk (hmono k hk)⟩

/-- Settles O28, by the recurrence of M.SCALE (`Model.scale_entry_succ`) and the bound of R123 (`Model.scale_total_le`). -/
theorem scaleHalvesWithRepair : Obligations.ScaleHalvesWithRepair := by
  intro m hl
  refine ⟨m.scale_n, m.scale_entry_zero, fun i hi => m.scale_entry_succ i hi (by omega), fun i => Model.scale_entry_lt_succ hl,
    m.scale_entry_above, fun hn hzero hmono => m.scale_total_le ⟨hzero, hmono⟩ hl hn⟩

/-- Settles O29: M.UPDATE raises the total by 1, so scaling at or above `MAX_TOTAL` is scaling at `MAX_TOTAL`. -/
theorem symbolKeepsTheTable : Obligations.SymbolKeepsTheTable := by
  intro c m sym h hl hsym
  have htotal : (m.update sym).total ≤ c.maxTotal := by
    have hbounded := h.bounded
    rw [Model.update_total m sym hsym hl]
    exact hbounded
  refine ⟨htotal, ?_, Model.update_scaleMaybe_ok c m sym h hl hsym⟩
  unfold Model.scaleMaybe
  exact if_congr ⟨fun hge => Nat.le_antisymm htotal hge, fun heq => heq.ge⟩ rfl rfl

/-- Settles O30, by the grown table, the scaling loop as an iteration (`Model.scaleLoop_eq_iterate`) and the bound of R124
(`Model.grow_fits`). -/
theorem expandGrowsTheTable : Obligations.ExpandGrowsTheTable := by
  intro c m n2 hc h hl hn h2
  have hsize : n2 < c.maxTotal := lt_of_le_of_lt h2 hc.nmax_lt
  have hfits : n2 < m.p.length := by omega
  obtain ⟨e, he, hok, hen, -⟩ := Model.expand_ok c m n2 hc h hl hn h2 hsize
  obtain ⟨k, hek, hfull⟩ := Model.scaleLoop_eq_iterate he
  refine ⟨m.grow n2, e, k, he, hok, hen, hek, hfull, rfl, Model.grow_entry hfits, fun j i hi => ?_⟩
  calc (Model.scale^[j] (m.grow n2)).entry i < 2 * c.maxTotal := Model.grow_fits c m n2 h hfits hn hsize j i hi
    _ = 2 ^ (c.w - 1) := hc.two_lowBit.symm

/-- Settles O31, by the one symbol of a legal table whose sub-interval holds `q` (`Model.lookup_iff`). -/
theorem lookupIsUnique : Obligations.LookupIsUnique := fun _ _ _ h hq => Model.lookup_iff h hq

end Sys2Proof.Machine
end

section
/-! SUPPORT. The symbol of the scaled code (41_range_arith.md R150), and DEC.SYM whose loop takes the bits of the relation `DecLoop`
(43_decoder.md R192). -/

namespace Sys2Proof.Machine

/-- The scaled code of a code in the interval lies in the table, and a symbol is found for it (41_range_arith.md R150; 40_model.md
R119). -/
theorem scaledCode_lookup {c : Config} {m : Model} (h : TableOk c m) {low high code : Nat} (h1 : low ≤ code) (h2 : code ≤ high) :
    scaledCode m low high code < m.total ∧ ∃ sym, m.lookup (scaledCode m low high code) = some sym ∧ sym < m.n ∧
      m.entry sym ≤ scaledCode m low high code ∧ scaledCode m low high code < m.entry (sym + 1) := by
  have hq := scaledCode_lt m low high code h1 h2 (lt_of_lt_of_le h.n_pos h.monotone.n_le_total)
  exact ⟨hq, Model.lookup_spec m _ h.n_pos (by rw [h.zero]; exact Nat.zero_le _) hq⟩

/-- Settles O36, by the symbol found (`scaledCode_lookup`), whose narrowed interval holds the code (`narrow_holds_code`). -/
theorem scaledCodeFindsTheSymbol : Obligations.ScaledCodeFindsTheSymbol := by
  intro c m low high code h h1 h2
  obtain ⟨hq, sym, hsym, -, hlow, hhigh⟩ := scaledCode_lookup h h1 h2
  exact ⟨hq, sym, hsym, narrow_holds_code m low high code sym h1 (Nat.zero_lt_of_lt hq) hlow hhigh⟩

section
variable {s : State} {sym : Nat}

/-- DEC.SYM, once its symbol is known and its loop has ended at EXIT (43_decoder.md R192). -/
theorem exec_decSym_exit (hm : s.dec.mode = .ready) (hs : decodedSymbol s.dec = some sym) {run : DecRun}
    (hrun : decSymbolRun sym s = (.exit, run)) : exec .decSym s = .next (respondDec sym (decSymbolState sym run s)) := by
  rw [exec, execDecSym, decChecked_passed (accepts_decSym_iff.2 hm) rfl, hs]
  dsimp only
  rw [decSymbol, hrun]

/-- DEC.SYM whose reader supplies the bits of the loop from the interval narrowed to the symbol of the scaled code. -/
theorem exec_decSym_of_loop (hc : s.cfg.Valid) (h : DecInv s.cfg s.dec) (hm : s.dec.mode = .ready) (hs : sym < s.dec.model.n)
    (h1 : s.dec.model.entry sym ≤ scaledCode s.dec.model s.dec.low s.dec.high s.dec.code)
    (h2 : scaledCode s.dec.model s.dec.low s.dec.high s.dec.code < s.dec.model.entry (sym + 1))
    {bits : List Bool} {low high code : Nat}
    (hloop : DecLoop s.cfg (narrow s.dec.model sym s.dec.low s.dec.high).low (narrow s.dec.model sym s.dec.low s.dec.high).high
      s.dec.code bits low high code)
    (hcoming : s.reader.coming bits.length = bits.map .bit) :
    bits.length ≤ s.cfg.w ∧
      exec .decSym s = .next (respondDec sym
        (decSymbolState sym { low := low, high := high, code := code, reader := s.reader.past bits.length bits } s)) := by
  obtain ⟨-, hle, -, hfits, hfuel, -⟩ := symbol_start hc s.dec.model sym s.dec.low s.dec.high (h.table hm) (h.interval hm) hs
  obtain ⟨hlen, hrun⟩ := DecRun.renorm_of_loop hc hloop s.cfg.w s.reader hle hfits hfuel hcoming
  exact ⟨hlen, exec_decSym_exit hm (Model.lookup_unique _ _ _ (h.table hm).monotone hs h1 h2) hrun⟩

/-- With a reader that supplies bits, the loop from the interval narrowed to `sym` takes some of them (41_range_arith.md R147). -/
theorem decLoop_of_supplying (hc : s.cfg.Valid) (h : DecInv s.cfg s.dec) (hm : s.dec.mode = .ready) (hs : sym < s.dec.model.n)
    (hr : s.reader.Supplying) :
    ∃ (bits : List Bool) (low high code : Nat),
      DecLoop s.cfg (narrow s.dec.model sym s.dec.low s.dec.high).low (narrow s.dec.model sym s.dec.low s.dec.high).high
        s.dec.code bits low high code ∧ s.reader.coming bits.length = bits.map .bit := by
  obtain ⟨-, hle, -, hfits, hfuel, -⟩ := symbol_start hc s.dec.model sym s.dec.low s.dec.high (h.table hm) (h.interval hm) hs
  obtain ⟨run, hrun, -⟩ := DecRun.renorm_completes s.cfg s.cfg.w
    ⟨(narrow s.dec.model sym s.dec.low s.dec.high).low, (narrow s.dec.model sym s.dec.low s.dec.high).high, s.dec.code, s.reader⟩ hr
  obtain ⟨bits, hloop, -, hcoming, -⟩ := DecRun.loop_of_renorm hc _ _ _ hle hfits hfuel hrun
  exact ⟨bits, _, _, _, hloop, hcoming⟩

end

/-- Settles O54, by the loop as a relation (`exec_decSym_of_loop`), whose bits a supplying reader has (`decLoop_of_supplying`). -/
theorem decSymDecodesASymbol : Obligations.DecSymDecodesASymbol := by
  intro s hc h hm
  refine ⟨fun hr => ?_, fun sym bits low high code ⟨hs, h1, h2⟩ hloop hcoming => exec_decSym_of_loop hc h hm hs h1 h2 hloop hcoming⟩
  obtain ⟨-, sym, -, hs, h1, h2⟩ := scaledCode_lookup (h.table hm) (h.code_ge hm) (h.code_le hm)
  obtain ⟨bits, low, high, code, hloop, hcoming⟩ := decLoop_of_supplying hc h hm hs hr
  obtain ⟨hlen, hexec⟩ := exec_decSym_of_loop hc h hm hs h1 h2 hloop hcoming
  exact ⟨sym, bits, low, high, code, ⟨hs, h1, h2⟩, hloop, hlen, hcoming, hexec⟩

end Sys2Proof.Machine
end

section
/-! SUPPORT. ENC.INIT, EXPAND and RESTORE past their checks (42_encoder.md R160, R161, R166; 43_decoder.md R191, R194). -/

namespace Sys2Proof.Machine

/-! ### INIT -/

/-- Settles O37, by the checks that pass and M.INIT on the whole table (`Model.init_entry_of_fits`). -/
theorem encInitStartsASession : Obligations.EncInitStartsASession := by
  intro n s hlen h1 h2 h3 hbound
  refine ⟨s.enc.model.init n, rfl, (Model.init_length _ n).trans hlen, Model.init_entry_of_fits (by omega), ?_⟩
  exact encChecked_passed rfl (initCheck_none.2 ⟨h1, hbound, h3, h2⟩) s _

/-! ### EXPAND -/

/-- The table M.EXPAND gives from a legal table, and its entries when nothing is scaled (40_model.md R117, R122). -/
theorem Model.expand_entries {c : Config} {m : Model} {n2 : Nat} (hc : c.Valid) (h : TableOk c m) (hl : m.p.length = c.nmax + 1)
    (hn : m.n < n2) (h2 : n2 ≤ c.nmax) :
    ∃ e, m.expand c n2 = some e ∧ e.n = n2 ∧ TableOk c e ∧
      (m.total + (n2 - m.n) < c.maxTotal →
        ∀ i, i ≤ n2 → e.entry i = if m.n < i then m.total + (i - m.n) else m.entry i) := by
  have hfits : n2 < m.p.length := by omega
  obtain ⟨e, he, hok, hen, -, -, hgrown⟩ := expand_ok c m n2 hc h hl hn h2 (lt_of_le_of_lt h2 hc.nmax_lt)
  refine ⟨e, he, hen, hok, fun hsmall i hi => ?_⟩
  rw [hgrown (by rwa [grow_total m n2 hn.le hfits]), grow_entry hfits i]
  simp only [hi, and_true]

section
variable {s : State} {n2 : Nat} {m : Model}

/-- ENC.EXPAND past its checks (42_encoder.md R161). -/
theorem exec_encExpand (hc : s.cfg.Valid) (hm : s.enc.mode = .ready) (hn : s.enc.model.n < n2) (h2 : n2 ≤ s.cfg.nmax)
    (he : s.enc.model.expand s.cfg n2 = some m) :
    exec (.encExpand n2) s = .next (respondEnc 0 (s.withEnc { s.enc with model := m })) := by
  have hcheck : expandCheck s.cfg s.enc.model n2 = none := expandCheck_none.2 ⟨hn, lt_of_le_of_lt h2 hc.nmax_lt, h2⟩
  rw [exec, execEncExpand, encChecked_passed (accepts_encExpand_iff.2 hm) hcheck, he]

/-- DEC.EXPAND past its checks (43_decoder.md R191). -/
theorem exec_decExpand (hc : s.cfg.Valid) (hm : s.dec.mode = .ready) (hn : s.dec.model.n < n2) (h2 : n2 ≤ s.cfg.nmax)
    (he : s.dec.model.expand s.cfg n2 = some m) :
    exec (.decExpand n2) s = .next (respondDec 0 (s.withDec { s.dec with model := m })) := by
  have hcheck : expandCheck s.cfg s.dec.model n2 = none := expandCheck_none.2 ⟨hn, lt_of_le_of_lt h2 hc.nmax_lt, h2⟩
  rw [exec, execDecExpand, decChecked_passed (accepts_decExpand_iff.2 hm) hcheck, he]

end

/-- Settles O38: both units grow their table by `Model.expand`, whose entries are known (`Model.expand_entries`). -/
theorem expandGrowsTheAlphabet : Obligations.ExpandGrowsTheAlphabet := by
  refine fun n2 s hc h2 => ⟨fun h hm hn => ?_, fun h hm hn => ?_⟩
  · obtain ⟨e, he, hen, hok, hentries⟩ := Model.expand_entries hc (h.table (.inl hm)) h.table_length hn h2
    exact ⟨e, he, hen, hok, hentries, exec_encExpand hc hm hn h2 he⟩
  · obtain ⟨e, he, hen, hok, hentries⟩ := Model.expand_entries hc (h.table hm) h.table_length hn h2
    exact ⟨e, he, hen, hok, hentries, exec_decExpand hc hm hn h2 he⟩

/-! ### RESTORE -/

/-- M.LOAD_FROM on the whole table (40_model.md R120). -/
theorem Model.load_entry_of_fits {m slot : Model} (hl : slot.n < m.p.length) (i : Nat) :
    (m.load slot).entry i = if i ≤ slot.n then slot.entry i else m.entry i := by
  by_cases hi : i < m.p.length
  · exact load_entry m slot i hi
  · rw [if_neg (by omega), entry_of_length_le (by rw [load_length]; omega), entry_of_length_le (by omega)]

section
variable {s : State} {cleanup : Bool} {h : Nat}

theorem accepts_encRestore_iff {m : Mode} : accepts (.encRestore cleanup h) m = true ↔ m ≠ .fault := by cases m <;> simp [accepts]

theorem accepts_decRestore_iff {m : Mode} : accepts (.decRestore cleanup h) m = true ↔ m = .uninit ∨ m = .ready := by
  cases m <;> simp [accepts]

/-- ENC.RESTORE of a valid slot (42_encoder.md R166). -/
theorem exec_encRestore {slot : EncSlot} (hm : s.enc.mode ≠ .fault) (hslot : encSlotOf s.cfg s.enc h = some slot) :
    exec (.encRestore cleanup h) s = .next (respondEnc 0 (s.withEnc
      (if cleanup then encFreeSlot h slot (encRestored s.enc slot) else encRestored s.enc slot))) := by
  rw [exec, execEncRestore, encChecked_passed (accepts_encRestore_iff.2 hm) rfl, hslot]

/-- DEC.RESTORE of a valid slot (43_decoder.md R194). -/
theorem exec_decRestore {slot : DecSlot} (hm : s.dec.mode = .uninit ∨ s.dec.mode = .ready)
    (hslot : decSlotOf s.cfg s.dec h = some slot) :
    exec (.decRestore cleanup h) s = .next (respondDec 0 (s.withDec
      (if cleanup then decFreeSlot h slot (decRestored s.dec slot) else decRestored s.dec slot))) := by
  rw [exec, execDecRestore, decChecked_passed (accepts_decRestore_iff.2 hm) rfl, hslot]

end

/-- Settles O47, by M.LOAD_FROM on the whole table (`Model.load_entry_of_fits`); the freed slot is the slot with `valid` cleared. -/
theorem restoreLoadsTheSlot : Obligations.RestoreLoadsTheSlot := by
  refine fun h cleanup s hh => ⟨fun slot hslot hvalid hm hl => ?_, fun slot hslot hvalid hm hl => ?_⟩
  · refine ⟨s.enc.model.load slot.model, { slot with valid := false }, rfl, Model.load_entry_of_fits hl, rfl, ?_⟩
    rw [exec_encRestore hm (encSlotOf_some.2 ⟨hh, hslot, hvalid⟩)]
    cases cleanup <;> rfl
  · refine ⟨s.dec.model.load slot.model, { slot with valid := false }, rfl, Model.load_entry_of_fits hl, rfl, ?_⟩
    rw [exec_decRestore hm (decSlotOf_some.2 ⟨hh, hslot, hvalid⟩)]
    cases cleanup <;> rfl

end Sys2Proof.Machine
end

section
/-! SUPPORT. No command of a legal unit raises an internal fault, whatever the writer and the reader do (60_exceptions.md R238;
40_model.md R118, R119). -/

namespace Sys2Proof.Machine

/-- The machine goes on: neither an internal fault nor a refusal of the model. -/
def GoesOn (o : Host.Outcome State Fault Refusal) : Prop := ∃ t, o = .next t

section
variable {s : State}

theorem goesOn_next (t : State) : GoesOn (.next t) := ⟨t, rfl⟩

/-- A command of ENC goes on when its checks refuse it, and else as its effect does. -/
theorem encChecked_goesOn {accepted : Bool} {check : Option Status} {effect : Host.Outcome State Fault Refusal}
    (h : accepted = true → check = none → GoesOn effect) : GoesOn (encChecked accepted check s effect) := by
  rcases encChecked_cases accepted check s effect with ⟨-, e⟩ | ⟨-, st, -, e⟩ | ⟨ha, hn, e⟩ <;> rw [e]
  · exact goesOn_next _
  · exact goesOn_next _
  · exact h ha hn

/-- A command of DEC goes on when its checks refuse it, and else as its effect does. -/
theorem decChecked_goesOn {accepted : Bool} {check : Option Status} {effect : Host.Outcome State Fault Refusal}
    (h : accepted = true → check = none → GoesOn effect) : GoesOn (decChecked accepted check s effect) := by
  rcases decChecked_cases accepted check s effect with ⟨-, e⟩ | ⟨-, st, -, e⟩ | ⟨ha, hn, e⟩ <;> rw [e]
  · exact goesOn_next _
  · exact goesOn_next _
  · exact h ha hn

/-- EXPAND's scaling loop ends (40_model.md R118); no other command of ENC has an internal fault. -/
theorem exec_enc_goesOn (hc : s.cfg.Valid) (h : EncInv s.cfg s.enc) {i : Instr} (hi : i.unit = .enc) : GoesOn (exec i s) := by
  cases i with
  | encExpand n2 =>
    simp only [exec, execEncExpand]
    refine encChecked_goesOn fun ha hn => ?_
    obtain ⟨h1, h2, h3⟩ := expandCheck_none.1 hn
    obtain ⟨m, he, -⟩ := expand_legal hc _ n2 (h.table (.inl (accepts_encExpand_iff.1 ha))) h.table_length h1 h3 h2
    rw [he]
    exact goesOn_next _
  | encInit | encSym | encFlush | encEst | encSave | encRestore | encDelete | encReadp | encReadreg =>
    simp only [exec, execEncInit, execEncSym, execEncFlush, execEncEst, execEncSave, execEncRestore, execEncDelete, execEncReadp,
      execEncReadreg]
    exact encChecked_goesOn fun _ _ => goesOn_next _
  | decInit | decExpand | decSym | decSave | decRestore | decDelete | decReadp | decReadreg => cases hi

/-- EXPAND's scaling loop ends, and the lookup of DEC.SYM finds a symbol (40_model.md R118, R119); no other command of DEC has an
internal fault. -/
theorem exec_dec_goesOn (hc : s.cfg.Valid) (h : DecInv s.cfg s.dec) {i : Instr} (hi : i.unit = .dec) : GoesOn (exec i s) := by
  cases i with
  | decExpand n2 =>
    simp only [exec, execDecExpand]
    refine decChecked_goesOn fun ha hn => ?_
    obtain ⟨h1, h2, h3⟩ := expandCheck_none.1 hn
    obtain ⟨m, he, -⟩ := expand_legal hc _ n2 (h.table (accepts_decExpand_iff.1 ha)) h.table_length h1 h3 h2
    rw [he]
    exact goesOn_next _
  | decSym =>
    simp only [exec, execDecSym]
    refine decChecked_goesOn fun ha _ => ?_
    obtain ⟨sym, hsym, -⟩ := decodedSymbol_ok h (accepts_decSym_iff.1 ha)
    rw [hsym]
    exact goesOn_next _
  | decInit | decSave | decRestore | decDelete | decReadp | decReadreg =>
    simp only [exec, execDecInit, execDecSave, execDecRestore, execDecDelete, execDecReadp, execDecReadreg]
    exact decChecked_goesOn fun _ _ => goesOn_next _
  | encInit | encExpand | encSym | encFlush | encEst | encSave | encRestore | encDelete | encReadp | encReadreg => cases hi

/-- An accepted word is a command or is refused (30_encoding.md R82, R88). -/
theorem accept_goesOn (h : Inv s) (u : Half) (word : Word) : GoesOn (accept u word s) := by
  unfold accept
  split
  · rename_i i _
    cases hi : i.unit with
    | enc => exact exec_enc_goesOn h.cfg h.enc hi
    | dec => exact exec_dec_goesOn h.cfg h.dec hi
  · exact goesOn_next _

/-- The strap of the writer lets a waiting ENC go on with its command, or changes alone (70_reset_and_hazards.md R268). -/
theorem setWriterBound_goesOn (h : Inv s) (level : Bool) : GoesOn (setWriterBound level s) := by
  by_cases hgo : level = true ∧ ∃ b cmd, s.enc.ctl = .offeringDetached b cmd
  · obtain ⟨rfl, b, cmd, hctl⟩ := hgo
    rw [setWriterBound_resumes hctl]
    have hunit : cmd.instr.unit = .enc := by cases cmd <;> rfl
    refine exec_enc_goesOn ?_ ?_ hunit
    · exact h.cfg
    · exact freePort_enc_inv h.enc
  · rw [setWriterBound_alone fun hl b cmd hctl => hgo ⟨hl, b, cmd, hctl⟩]
    exact goesOn_next _

/-- The strap of the reader lets a waiting DEC go on with its command, or changes alone (70_reset_and_hazards.md R268). -/
theorem setReaderBound_goesOn (h : Inv s) (level : Bool) : GoesOn (setReaderBound level s) := by
  by_cases hgo : level = true ∧ s.dec.ctl = .requestingDetached
  · obtain ⟨rfl, hctl⟩ := hgo
    rw [setReaderBound_resumes hctl]
    refine exec_dec_goesOn ?_ ?_ rfl
    · exact h.cfg
    · exact freePort_dec_inv h.dec
  · rw [setReaderBound_alone fun hl hctl => hgo ⟨hl, hctl⟩]
    exact goesOn_next _

/-- No act of the host stops the machine. -/
theorem edge_goesOn (h : Inv s) (ev : HostEvent) : GoesOn (edge ev s) := by
  cases ev with
  | offer u word =>
    simp only [edge]
    split
    · exact accept_goesOn h u word
    · exact goesOn_next _
  | take u =>
    simp only [edge]
    split
    · exact goesOn_next _
    · exact goesOn_next _
  | reset level => exact goesOn_next _
  | bindWriter level => exact setWriterBound_goesOn h level
  | bindReader level => exact setReaderBound_goesOn h level

end

/-- Settles O14, by the acts of the host (`edge_goesOn`): only EXPAND and DEC.SYM could stop, and in a legal state they do not. -/
theorem legalStatesStep : Obligations.LegalStatesStep := by
  intro s h
  change GoesOn (step s)
  unfold step
  split
  · exact goesOn_next _
  · exact edge_goesOn (h.withInputs _) _

end Sys2Proof.Machine
end

section
/-! SUPPORT. The range arithmetic of one symbol step, and the renormalisation loops as bounded runs: enough fuel is as good as more, and
what the loops leave when they end at EXIT, whatever the pending count and the code (41_range_arith.md R140 to R153). -/

namespace Sys2Proof.Machine

/-- Settles O32, by the arithmetic of the three cases (`classify_msbEq_iff`, `classify_e3_iff`). -/
theorem classifyByQuarters : Obligations.ClassifyByQuarters := fun _ low high hc hl hh =>
  ⟨classify_msbEq_iff hc low high hl hh, (classify_e3_iff hc low high hl hh).trans and_assoc⟩

/-- Settles O33, by the sub-interval of a symbol (`narrow_within`), and the divisions that are exact at the ends of the table. -/
theorem narrowStaysInside : Obligations.NarrowStaysInside := by
  intro c m sym low high hc ht hi hs
  have hwidth := interval_width hc low high hi
  have hbounded : m.total < c.lowBit := ht.bounded
  have htotal : 0 < m.total := lt_of_lt_of_le ht.n_pos ht.monotone.n_le_total
  have hrange : m.total < high - low + 1 := by omega
  obtain ⟨hlow, hle, hhigh⟩ := narrow_within m sym low high ht.monotone hs hi.nonempty.le hrange
  refine ⟨hrange, hlow, hle, hhigh, fun h0 => ?_, fun hlast => ?_⟩
  · subst h0
    simp [narrow, Model.freqLow, ht.zero]
  · have hne := hi.nonempty
    simp only [narrow, Model.freqHigh, hlast]
    change low + (high - low + 1) * m.total / m.total - 1 = high
    rw [Nat.mul_div_cancel _ htotal]
    omega

/-- Settles O34, by the E3 step in arithmetic (`shift_e3`). -/
theorem e3IsTheTextbookStep : Obligations.E3IsTheTextbookStep := by
  intro c low high code b hc h1 h2 hh hk
  obtain ⟨hlow, hhigh, hcode⟩ := shift_e3 hc low high (h1.trans h2) hh hk
  exact ⟨hlow, hhigh, hcode code b h1 h2⟩

section
variable {c : Config} (hc : c.Valid)
include hc

/-- Once the fuel is enough for the interval to fill the window, more changes nothing about ENC's loop. -/
theorem EncRun.renorm_add_fuel (emits : Bool) (fuel k : Nat) (r : EncRun) (hl : r.low ≤ r.high) (hh : r.high < 2 ^ c.w)
    (hf : 2 ^ c.w ≤ (r.high - r.low + 1) * 2 ^ fuel) : renorm c emits (fuel + k) r = renorm c emits fuel r := by
  induction fuel generalizing r with
  | zero =>
    have hk := exit_of_no_fuel hc hl hh hf
    cases k with
    | zero => rfl
    | succ k => rw [Nat.zero_add, renorm_exit _ _ _ _ hk, renorm]
  | succ fuel ih =>
    rw [Nat.add_right_comm]
    cases hk : classify c r.low r.high with
    | exit => rw [renorm_exit _ _ _ _ hk, renorm_exit _ _ _ _ hk]
    | msbEq =>
      obtain ⟨s1, s2, s3⟩ := (shift_step hc _ _ hl hh).1 hk
      rw [renorm_msbEq _ _ _ _ hk, renorm_msbEq _ _ _ _ hk]
      rcases r.msbStep c emits with ⟨_ | _ | b, w⟩
      · exact ih ((r.settle w).shift c) s1 s2 (room_of_shift s3 hf)
      · rfl
      · rfl
    | e3 =>
      obtain ⟨s1, s2, s3⟩ := (shift_step hc _ _ hl hh).2 hk
      rw [renorm_e3 _ _ _ _ hk, renorm_e3 _ _ _ _ hk, ih ((r.defer c).shift c) s1 s2 (room_of_shift s3 hf)]

/-- A step of DEC's loop, whatever the code, keeps the interval non-empty and in the window, and doubles its width
(41_range_arith.md R147). -/
theorem DecRun.interval_step (r : DecRun) (b : Bool) (hl : r.low ≤ r.high) (hh : r.high < 2 ^ c.w)
    (hk : classify c r.low r.high ≠ .exit) :
    let r' := (r.act c (classify c r.low r.high)).shift c b
    r'.low ≤ r'.high ∧ r'.high < 2 ^ c.w ∧ r'.high - r'.low + 1 = 2 * (r.high - r.low + 1) := by
  obtain ⟨hmsb, he3⟩ := EncRun.shift_step hc r.low r.high hl hh
  cases hcl : classify c r.low r.high with
  | msbEq => exact hmsb hcl
  | e3 => exact he3 hcl
  | exit => exact absurd hcl hk

/-- Once the fuel is enough for the interval to fill the window, more changes nothing about DEC's loop. -/
theorem DecRun.renorm_add_fuel (fuel k : Nat) (r : DecRun) (hl : r.low ≤ r.high) (hh : r.high < 2 ^ c.w)
    (hf : 2 ^ c.w ≤ (r.high - r.low + 1) * 2 ^ fuel) : renorm c (fuel + k) r = renorm c fuel r := by
  induction fuel generalizing r with
  | zero =>
    have hk := EncRun.exit_of_no_fuel hc hl hh hf
    cases k with
    | zero => rfl
    | succ k => rw [Nat.zero_add, renorm_exit _ _ _ hk, renorm]
  | succ fuel ih =>
    rw [Nat.add_right_comm]
    by_cases hk : classify c r.low r.high = .exit
    · rw [renorm_exit _ _ _ hk, renorm_exit _ _ _ hk]
    · rw [renorm_step _ _ _ hk, renorm_step _ _ _ hk]
      rcases r.reader.answer with ⟨b | _ | _, rd⟩
      · obtain ⟨s1, s2, s3⟩ := interval_step hc r b hl hh hk
        exact ih (((r.act c (classify c r.low r.high)).shift c b).withReader (rd.consume b)) s1 s2 (EncRun.room_of_shift s3 hf)
      · rfl
      · rfl

/-- The loop leaves a legal interval, whatever was pending (41_range_arith.md R147, R149). -/
theorem EncLoop.interval {low high u low' high' u' : Nat} {bits : List Bool} (h : EncLoop c low high u bits low' high' u')
    (hl : low ≤ high) (hh : high < 2 ^ c.w) : IntervalOk c low' high' := by
  induction h with
  | exit msb straddle => exact (classify_exit_iff hc _ _ hl hh).1 ((classify_exit_bits c _ _).2 ⟨msb, straddle⟩)
  | msbEq msb _ ih =>
    obtain ⟨s1, s2, -⟩ := (EncRun.shift_step hc _ _ hl hh).1 ((classify_msbEq_bits c _ _).2 msb)
    rw [shiftLow_eq, shiftHigh_eq] at s1
    rw [shiftHigh_eq] at s2
    exact ih s1 s2
  | e3 msb straddle _ _ ih =>
    obtain ⟨s1, s2, -⟩ := (EncRun.shift_step hc _ _ hl hh).2 ((classify_e3_bits c _ _).2 ⟨msb, straddle⟩)
    rw [shiftLow_eq, shiftHigh_eq, e3Low_eq, e3High_of_bit c _ straddle.2] at s1
    rw [shiftHigh_eq, e3High_of_bit c _ straddle.2] at s2
    exact ih s1 s2

/-- From the machine to the relation, with or without emits: a loop of ENC that ended at EXIT counted the bits of the relation, no more
than were pending and shifted (41_range_arith.md R152). -/
theorem EncRun.loop_of_renorm_exit (emits : Bool) (fuel : Nat) (r r' : EncRun) (hl : r.low ≤ r.high) (hh : r.high < 2 ^ c.w)
    (hf : 2 ^ c.w ≤ (r.high - r.low + 1) * 2 ^ fuel) (he : renorm c emits fuel r = (.exit, r')) :
    ∃ bits : List Bool, EncLoop c r.low r.high r.underflow bits r'.low r'.high r'.underflow ∧
      r'.count = r.count + bits.length ∧ bits.length + r'.underflow ≤ r.underflow + fuel := by
  have hest : renorm c false fuel r = (.exit, { r' with writer := r.writer }) := by
    cases emits with
    | true => exact renorm_simulates c fuel r r' r.writer he
    | false =>
      have hw := (renorm_cases c false fuel r).2.2.1 rfl
      rw [he] at hw ⊢
      rw [← hw]
  rcases loop_or_overflow hc fuel r.low r.high r.underflow hl hh hf with ⟨bits, low, high, u, hloop, hlen⟩ | ⟨bits, hover⟩
  · have hend := Prod.mk.inj (hest.symm.trans (renorm_of_loop hc hloop false fuel r.count r.writer hl hh hf))
    simp only [EncRun.mk.injEq] at hend
    obtain ⟨-, rfl, rfl, rfl, hcount, -⟩ := hend
    exact ⟨bits, hloop, hcount, hlen⟩
  · obtain ⟨x, hrun⟩ := renorm_of_overflow hc hover false fuel r.count r.writer hl hh hf
    exact absurd (Prod.mk.inj (hest.symm.trans hrun)).1 nofun

/-- With room for the shifts below the limit of `underflow`, ENC's loop ends, with a count that a response can carry
(41_range_arith.md R144, R147, R152). -/
theorem EncLoop.exists_of_room {low high u : Nat} (hl : low ≤ high) (hh : high < 2 ^ c.w) (hu : u + c.w ≤ 2 ^ c.r - 1) :
    ∃ (bits : List Bool) (low' high' u' : Nat), EncLoop c low high u bits low' high' u' ∧
      bits.length ≤ u + c.w ∧ bits.length < 2 ^ 64 := by
  have hf : 2 ^ c.w ≤ (high - low + 1) * 2 ^ c.w := Nat.le_mul_of_pos_left _ (by omega)
  have hr : 2 ^ c.r ≤ 2 ^ 64 := Nat.pow_le_pow_right (by norm_num) hc.r_le
  rcases EncRun.loop_or_overflow hc c.w low high u hl hh hf with ⟨bits, low', high', u', hloop, hlen⟩ | ⟨bits, hover⟩
  · exact ⟨bits, low', high', u', hloop, by omega, by omega⟩
  · have := EncRun.overflow_needs hc hover c.w hl hh hf
    omega

/-- DEC's loop leaves a legal interval, since it is the one that ENC's leaves (`EncLoop.mirrored`). -/
theorem DecLoop.interval {low high code low' high' code' : Nat} {bits : List Bool}
    (h : DecLoop c low high code bits low' high' code') (hl : low ≤ high) (hh : high < 2 ^ c.w) : IntervalOk c low' high' := by
  have hroom : 0 + c.w ≤ 2 ^ c.r - 1 := by
    have := hc.r_ge
    have := Nat.lt_two_pow_self (n := c.r)
    omega
  obtain ⟨emitted, el, eh, u', henc, -⟩ := EncLoop.exists_of_room hc hl hh hroom
  obtain ⟨rfl, rfl, -⟩ := henc.mirrored h
  exact henc.interval hc hl hh

end

/-- Settles O35, by the fuel that is enough (`EncRun.renorm_add_fuel`, `DecRun.renorm_add_fuel`) and the intervals that the loops as
relations leave. -/
theorem loopReachesExit : Obligations.LoopReachesExit := by
  refine fun c hc => ⟨fun emits r k hl hh => ?_, fun r k hl hh => ?_⟩
  · have hf : 2 ^ c.w ≤ (r.high - r.low + 1) * 2 ^ c.w := Nat.le_mul_of_pos_left _ (by omega)
    refine ⟨EncRun.renorm_add_fuel hc emits c.w k r hl hh hf, fun r' he => ?_⟩
    obtain ⟨bits, hloop, hcount, hlen⟩ := EncRun.loop_of_renorm_exit hc emits c.w r r' hl hh hf he
    have hi := hloop.interval hc hl hh
    exact ⟨hi, interval_width hc _ _ hi, by omega⟩
  · have hf : 2 ^ c.w ≤ (r.high - r.low + 1) * 2 ^ c.w := Nat.le_mul_of_pos_left _ (by omega)
    refine ⟨DecRun.renorm_add_fuel hc c.w k r hl hh hf, fun r' he => ?_⟩
    obtain ⟨bits, hloop, -⟩ := DecRun.loop_of_renorm hc c.w r r' hl hh hf he
    have hi := hloop.interval hc hl hh
    exact ⟨hi, interval_width hc _ _ hi⟩

end Sys2Proof.Machine
end

section
/-! SUPPORT. ENC.SYM and ENC.EST by what their renormalisation loop does as a relation and how the writer answers its beats
(42_encoder.md R162, R164; 70_reset_and_hazards.md R263). -/

namespace Sys2Proof.Machine

section
variable {s : State} {emits : Bool} {sym : Nat}

/-- ENC in mode FAULT, with the response of a fault. -/
def Enc.faulted (e : Enc) (st : Status) : Enc := { e with mode := .fault, ctl := .responding (errorResponse st) }

theorem raise_enc_fault {st : Status} (hst : st.isFault = true) (x : State) : raise .enc st x = x.withEnc (x.enc.faulted st) := by
  rw [raise, modeAfter_fault st _ hst]
  rfl

/-! ### The ends of the symbol step -/

theorem exec_encSym_passed (hm : s.enc.mode = .ready) (hs : sym < s.enc.model.n) :
    exec (.encSym sym) s = .next (encSymbol true sym s) :=
  encChecked_passed (accepts_encSym_iff.2 hm) (symbolCheck_none.2 hs) s _

theorem exec_encEst_passed (hm : s.enc.mode = .ready) (hs : sym < s.enc.model.n) :
    exec (.encEst sym) s = .next (encSymbol false sym s) :=
  encChecked_passed (accepts_encEst_iff.2 hm) (symbolCheck_none.2 hs) s _

theorem encSymbol_exit {r : EncRun} (hrun : encSymbolRun emits sym s = (.exit, r)) (hcount : r.count < 2 ^ 64) :
    encSymbol emits sym s = respondEnc r.count (encSymbolState sym r s) := by
  rw [encSymbol, hrun]
  exact if_neg (by unfold countMax; omega)

/-- A count that no response can carry (42_encoder.md R162). -/
theorem encSymbol_uncountable {r : EncRun} (hrun : encSymbolRun emits sym s = (.exit, r)) (hcount : 2 ^ 64 ≤ r.count) :
    encSymbol emits sym s = (encSymbolState sym r s).withEnc ((encSymbolState sym r s).enc.faulted .counterOverflow) := by
  rw [encSymbol, hrun]
  dsimp only
  rw [if_pos (show countMax < r.count by unfold countMax; omega), raise_enc_fault rfl]

theorem encSymbol_raised {st : Status} {r : EncRun} (hrun : encSymbolRun emits sym s = (.raised st, r)) :
    encSymbol emits sym s = (s.withWriter r.writer).withEnc (s.enc.faulted st) := by
  rw [encSymbol, hrun]
  exact raise_enc_fault (encSymbolRun_fault hrun) _

theorem encSymbol_stuck {b : Bool} {r : EncRun} (hrun : encSymbolRun emits sym s = (.stuck b, r)) :
    encSymbol emits sym s = stallEnc (.sym sym) b (s.withWriter r.writer) := by
  rw [encSymbol, hrun]

end

/-! ### The run of the loop -/

section
variable {bits : List Bool} {w : Writer} {e : LoopEnd} {r : EncRun} {res : LoopEnd × EncRun}

theorem Writer.past_zero (w : Writer) : w.past 0 [] = w := by simp [Writer.past]

/-- ENC.EST has no beats (42_encoder.md R164). -/
theorem EncRun.afterBits.est (h : afterBits false bits w e r res) : res = (e, { r with writer := w }) := h

/-- A writer that accepts every bit. -/
theorem EncRun.afterBits.accepted (h : afterBits true bits w e r res)
    (hw : w.coming bits.length = List.replicate bits.length .accept) : res = (e, { r with writer := w.past bits.length bits }) := by
  unfold afterBits at h
  rwa [Writer.emitAll_accept bits w hw] at h

/-- A writer that reports an error at the beat after `k` bits (20_memory.md R63). -/
theorem EncRun.afterBits.error (h : afterBits true bits w e r res) {k : Nat} (hk : k < bits.length)
    (hw : w.coming (k + 1) = List.replicate k .accept ++ [.error]) :
    ∃ r', res = (.raised .streamFault, r') ∧ r'.writer = w.past (k + 1) (bits.take k) := by
  unfold afterBits at h
  rw [Writer.emitAll_stop bits k .error w hk nofun hw] at h
  exact ⟨res.2, Prod.ext h.1 rfl, h.2⟩

/-- A writer that never completes the beat after `k` bits (70_reset_and_hazards.md R260, R268). -/
theorem EncRun.afterBits.never (h : afterBits true bits w e r res) {k : Nat} (hk : k < bits.length)
    (hw : w.coming (k + 1) = List.replicate k .accept ++ [.never]) :
    ∃ r', res = (.stuck bits[k], r') ∧ r'.writer = w.past (k + 1) (bits.take k) := by
  unfold afterBits at h
  rw [Writer.emitAll_stop bits k .never w hk nofun hw, List.getD_eq_getElem bits false hk] at h
  exact ⟨res.2, Prod.ext h.1 rfl, h.2⟩

end

section
variable {s : State} {sym : Nat} (hc : s.cfg.Valid) (h : EncInv s.cfg s.enc) (hm : s.enc.mode = .ready) (hs : sym < s.enc.model.n)
include hc h hm hs

/-- The narrowed interval, which the loop of a symbol command starts from. -/
theorem encSymbol_start :
    (narrow s.enc.model sym s.enc.low s.enc.high).low ≤ (narrow s.enc.model sym s.enc.low s.enc.high).high ∧
      (narrow s.enc.model sym s.enc.low s.enc.high).high < 2 ^ s.cfg.w ∧
      2 ^ s.cfg.w ≤
        ((narrow s.enc.model sym s.enc.low s.enc.high).high - (narrow s.enc.model sym s.enc.low s.enc.high).low + 1) * 2 ^ s.cfg.w := by
  obtain ⟨-, hle, -, hfits, hfuel, -⟩ :=
    symbol_start hc s.enc.model sym s.enc.low s.enc.high (h.table (.inl hm)) (h.interval (.inl hm)) hs
  exact ⟨hle, hfits, hfuel⟩

/-- The run of a loop that ends. -/
theorem encSymbolRun_of_loop {bits : List Bool} {low high u : Nat}
    (hloop : EncLoop s.cfg (narrow s.enc.model sym s.enc.low s.enc.high).low (narrow s.enc.model sym s.enc.low s.enc.high).high
      s.enc.underflow bits low high u) (emits : Bool) :
    EncRun.afterBits emits bits s.writer .exit
      { low := low, high := high, underflow := u, count := bits.length, writer := s.writer } (encSymbolRun emits sym s) := by
  obtain ⟨hle, hfits, hfuel⟩ := encSymbol_start hc h hm hs
  have hrun := EncRun.renorm_of_loop hc hloop emits s.cfg.w 0 s.writer hle hfits hfuel
  rwa [Nat.zero_add] at hrun

/-- A symbol command whose loop meets a full counter, before which there is no beat (41_range_arith.md R144). -/
theorem encSymbol_of_overflow {bits : List Bool}
    (hover : EncOverflow s.cfg (narrow s.enc.model sym s.enc.low s.enc.high).low (narrow s.enc.model sym s.enc.low s.enc.high).high
      s.enc.underflow bits) (emits : Bool) :
    bits = [] ∧ encSymbol emits sym s = s.withEnc (s.enc.faulted .counterOverflow) := by
  obtain ⟨hle, hfits, hfuel⟩ := encSymbol_start hc h hm hs
  obtain rfl := EncRun.overflow_silent hc hover hle hfits
  obtain ⟨r, hrun⟩ := EncRun.renorm_of_overflow hc hover emits s.cfg.w 0 s.writer hle hfits hfuel
  have hend : encSymbolRun emits sym s = (.raised .counterOverflow, { r with writer := s.writer }) := by
    cases emits <;> exact hrun
  exact ⟨rfl, (encSymbol_raised hend).trans rfl⟩

end

/-- Settles O39, by the loop as a relation: with room for the shifts it ends (`EncLoop.exists_of_room`), and where it ends the machine's
run does what it says (`encSymbolRun_of_loop`). -/
theorem encSymEncodesASymbol : Obligations.EncSymEncodesASymbol := by
  intro sym s hc h hm hs range lo hi after
  have hexec : ∀ (bits : List Bool) (low high u : Nat), EncLoop s.cfg lo hi s.enc.underflow bits low high u →
      s.writer.coming bits.length = List.replicate bits.length .accept → bits.length < 2 ^ 64 →
      exec (.encSym sym) s = .next (after bits low high u) := by
    intro bits low high u hloop hw hlen
    rw [exec_encSym_passed hm hs, encSymbol_exit ((encSymbolRun_of_loop hc h hm hs hloop true).accepted hw) hlen]
    rfl
  refine ⟨fun hw hu => ?_, hexec⟩
  obtain ⟨hle, hfits, -⟩ := encSymbol_start hc h hm hs
  obtain ⟨bits, low, high, u, hloop, hroom, hlen⟩ := EncLoop.exists_of_room hc hle hfits hu
  exact ⟨bits, low, high, u, hloop, hroom, hexec bits low high u hloop (hw.coming _) hlen⟩

/-- Settles O40, as O39 without the writer; a loop that does not end meets a full counter (`EncRun.loop_or_overflow`). -/
theorem encEstGivesTheCost : Obligations.EncEstGivesTheCost := by
  intro sym s hc h hm hs range lo hi after
  obtain ⟨hle, hfits, hfuel⟩ := encSymbol_start hc h hm hs
  have hexec : ∀ (bits : List Bool) (low high u : Nat), EncLoop s.cfg lo hi s.enc.underflow bits low high u →
      bits.length < 2 ^ 64 → exec (.encEst sym) s = .next (after bits low high u) := by
    intro bits low high u hloop hlen
    rw [exec_encEst_passed hm hs, encSymbol_exit (encSymbolRun_of_loop hc h hm hs hloop false).est hlen]
    rfl
  refine ⟨fun hu => ?_, hexec, ?_⟩
  · obtain ⟨bits, low, high, u, hloop, hroom, hlen⟩ := EncLoop.exists_of_room hc hle hfits hu
    exact ⟨bits, low, high, u, hloop, hroom, hexec bits low high u hloop hlen⟩
  · exact (EncRun.loop_or_overflow hc s.cfg.w _ _ s.enc.underflow hle hfits hfuel).imp_left
      fun ⟨bits, low, high, u, hloop, _⟩ => ⟨bits, low, high, u, hloop⟩

/-- Settles O42, by the run whose writer stops it at its beat `k` (`EncRun.afterBits.error`, `EncRun.afterBits.never`), and by the
silence of a loop that overflows (`encSymbol_of_overflow`). -/
theorem encSymStreamError : Obligations.EncSymStreamError := by
  intro sym s hc h hm hs range low high
  rw [exec_encSym_passed hm hs]
  refine ⟨fun k bits ⟨low', high', u', hloop⟩ hk => ⟨fun hw => ?_, fun hw => ?_⟩, fun bits hover => ?_⟩
  · obtain ⟨r, hrun, hr⟩ := (encSymbolRun_of_loop hc h hm hs hloop true).error hk hw
    refine ⟨s.enc.faulted .streamFault, rfl, rfl, rfl, rfl, ?_⟩
    rw [encSymbol_raised hrun, hr]
    rfl
  · obtain ⟨r, hrun, hr⟩ := (encSymbolRun_of_loop hc h hm hs hloop true).never hk hw
    refine ⟨s.enc.withCtl (encStallCtl (.sym sym) bits[k] s.writer.bound), bits[k], List.getElem?_eq_getElem hk, rfl, ?_⟩
    rw [encSymbol_stuck hrun, hr]
    rfl
  · obtain ⟨hbits, hend⟩ := encSymbol_of_overflow hc h hm hs hover true
    exact ⟨hbits, s.enc.faulted .counterOverflow, rfl, rfl, rfl, rfl, congrArg _ hend⟩

/-- Settles O43, by the two causes: a full counter, before which there is no bit (`encSymbol_of_overflow`), and a count that no response
can carry (`encSymbol_uncountable`). -/
theorem counterOverflowInTheLoop : Obligations.CounterOverflowInTheLoop := by
  intro sym bits s hc h hm hs range low high hcause
  rw [exec_encSym_passed hm hs, exec_encEst_passed hm hs]
  rcases hcause with hover | ⟨hlen, low', high', u', hloop⟩
  · obtain ⟨rfl, hest⟩ := encSymbol_of_overflow hc h hm hs hover false
    obtain ⟨-, hsym⟩ := encSymbol_of_overflow hc h hm hs hover true
    refine ⟨s.enc.faulted .counterOverflow, rfl, rfl, rfl, rfl, congrArg _ hest, fun _ => ?_⟩
    rw [hsym, List.length_nil, Writer.past_zero]
    rfl
  · have hest := (encSymbolRun_of_loop hc h hm hs hloop false).est
    refine ⟨(encSymbolState sym ⟨low', high', u', bits.length, s.writer⟩ s).enc.faulted .counterOverflow, rfl, rfl,
      (Model.scaleMaybe_n ..).trans (Model.update_n ..), rfl, congrArg _ (encSymbol_uncountable hest hlen), fun hw => ?_⟩
    rw [encSymbol_uncountable ((encSymbolRun_of_loop hc h hm hs hloop true).accepted (hw.coming _)) hlen]
    rfl

end Sys2Proof.Machine
end

section
/-! SUPPORT. ENC.FLUSH with a writer that accepts its terminating bits (42_encoder.md R163; 70_reset_and_hazards.md R266). -/

namespace Sys2Proof.Machine

theorem flushBit_eq_testBit (c : Config) (low : Nat) : flushBit c low = low.testBit (c.w - 2) := by
  rw [flushBit, Config.lowBitPos, Nat.testBit_eq_decide_div_mod_eq, Nat.and_one_is_mod, Nat.shiftRight_eq_div_pow]

section
variable {s : State} {force : Bool}

/-- A flush with nothing to do. -/
theorem exec_encFlush_idle (hm : s.enc.mode = .flushed) :
    exec (.encFlush false) s = .next (s.answered .enc (okResponse 0)) := by
  rw [exec, execEncFlush, encChecked_passed (accepts_encFlush_iff.2 (.inr hm)) rfl, if_pos ⟨hm, rfl⟩, respondEnc_eq_answered]

/-- A flush that its state lets run (60_exceptions.md R226). -/
theorem exec_encFlush_runs (h : (EncBeatCommand.flush force).Accepted s.enc) :
    exec (.encFlush force) s = .next (encFlushRun force s) := by
  have hidle : ¬(s.enc.mode = .flushed ∧ force = false) := by
    rintro ⟨hm, rfl⟩
    rcases h with h | ⟨-, h⟩
    · cases hm.symm.trans h
    · cases h
  rw [exec, execEncFlush, encChecked_passed (accepts_encFlush_iff.2 (h.imp_right And.left)) rfl, if_neg hidle]

theorem flushBits_length (c : Config) (e : Enc) : (flushBits c e).length = e.underflow + 2 := by simp [flushBits]

/-- The flush procedure once its beats are done, with a count that a response can carry. -/
theorem encFlushRun_done {w : Writer} (hroom : s.enc.underflow ≠ s.cfg.underflowMax) (hcount : s.enc.underflow + 2 < 2 ^ 64)
    (hw : s.writer.emitAll (flushBits s.cfg s.enc) = (.done, w)) :
    encFlushRun force s = respondEnc (s.enc.underflow + 2)
      ((s.withWriter w).withEnc { s.enc with underflow := 0, mode := .flushed }) := by
  rw [encFlushRun, if_neg hroom, hw]
  exact if_neg (by unfold countMax; omega)

end

/-- Settles O44, by the two forms of the command (`exec_encFlush_idle`, `exec_encFlush_runs`) and the run of emits that an accepting
writer completes (`Writer.Accepting.emitAll_eq`). -/
theorem encFlushTerminates : Obligations.EncFlushTerminates := by
  refine fun force s => ⟨fun hm hforce => ?_, fun hm hw hroom hcount => ?_⟩
  · subst hforce
    exact exec_encFlush_idle hm
  · have hdone := hw.emitAll_eq (flushBits s.cfg s.enc)
    rw [flushBits_length] at hdone
    rw [exec_encFlush_runs hm, encFlushRun_done hroom hcount hdone, flushBits, flushBit_eq_testBit]
    rfl

end Sys2Proof.Machine
end

section
/-! SUPPORT. DEC.SYM whose reader ends a beat of the loop without a bit (43_decoder.md R192; 70_reset_and_hazards.md R260, R264, R268). -/

namespace Sys2Proof.Machine

/-- DEC in mode FAULT, with the response of a fault. -/
def Dec.faulted (d : Dec) (st : Status) : Dec := { d with mode := .fault, ctl := .responding (errorResponse st) }

theorem raise_dec_fault {st : Status} (hst : st.isFault = true) (x : State) : raise .dec st x = x.withDec (x.dec.faulted st) := by
  rw [raise, modeAfter_fault st _ hst]
  rfl

section
variable {s t : State} {sym : Nat} {r : DecRun}

/-- DEC.SYM, once its symbol is known (43_decoder.md R192). -/
theorem exec_decSym_found (hm : s.dec.mode = .ready) (hs : decodedSymbol s.dec = some sym) :
    exec .decSym s = .next (decSymbol sym s) := by
  rw [exec, execDecSym, decChecked_passed (accepts_decSym_iff.2 hm) rfl, hs]

theorem decSymbol_raised {st : Status} (hrun : decSymbolRun sym s = (.raised st, r)) :
    decSymbol sym s = (s.withReader r.reader).withDec (s.dec.faulted st) := by
  rw [decSymbol, hrun]
  exact raise_dec_fault (decSymbolRun_fault hrun) _

theorem decSymbol_stuck {b : Bool} (hrun : decSymbolRun sym s = (.stuck b, r)) :
    decSymbol sym s = stallDec (s.withReader r.reader) := by
  rw [decSymbol, hrun]

/-- The run of a loop that would take `all`, when the reader ends the beat after `k` bits without a bit. -/
theorem decSymbolRun_of_loop_stop (hc : s.cfg.Valid) (h : DecInv s.cfg s.dec) (hm : s.dec.mode = .ready) (hs : sym < s.dec.model.n)
    {all : List Bool} {low high code : Nat}
    (hloop : DecLoop s.cfg (narrow s.dec.model sym s.dec.low s.dec.high).low (narrow s.dec.model sym s.dec.low s.dec.high).high
      s.dec.code all low high code)
    {k : Nat} (hk : k < all.length) (a : ReaderAnswer) (ha : ∀ b, a ≠ .bit b)
    (hcoming : s.reader.coming (k + 1) = (all.take k).map .bit ++ [a]) :
    ∃ r, decSymbolRun sym s = (if a = .error then .raised .streamFault else .stuck false, r) ∧
      r.reader = s.reader.past (k + 1) (all.take k) := by
  obtain ⟨-, hle, -, hfits, hfuel, -⟩ := symbol_start hc s.dec.model sym s.dec.low s.dec.high (h.table hm) (h.interval hm) hs
  exact DecRun.renorm_of_loop_stop hc hloop s.cfg.w k a s.reader hle hfits hfuel hk ha hcoming

/-- DEC.SYM ends with StreamFault only when its loop did (60_exceptions.md R223). -/
theorem exec_decSym_streamFault {rsp : Response} (ht : exec .decSym s = .next t) (hctl : t.dec.ctl = .responding rsp)
    (hst : rsp.status = .streamFault) :
    ∃ sym r, decSymbolRun sym s = (.raised .streamFault, r) ∧ t = (s.withReader r.reader).withDec (s.dec.faulted .streamFault) := by
  rw [exec, execDecSym] at ht
  rcases decChecked_cases (accepts .decSym s.dec.mode) none s _ with ⟨-, e⟩ | ⟨-, st, hnone, -⟩ | ⟨-, -, e⟩
  · obtain rfl := Host.Outcome.next.inj (e.symm.trans ht)
    obtain rfl := Ctl.responding.inj hctl
    cases hst
  · cases hnone
  · rw [e] at ht
    split at ht
    · rename_i sym hsym
      obtain rfl := Host.Outcome.next.inj ht
      rcases hrun : decSymbolRun sym s with ⟨_ | st | b, r⟩
      · rw [decSymbol, hrun] at hctl
        obtain rfl := Ctl.responding.inj hctl
        cases hst
      · obtain rfl := decSymbolRun_raised hrun
        exact ⟨sym, r, hrun, decSymbol_raised hrun⟩
      · rw [decSymbol_stuck hrun] at hctl
        exact absurd hctl ((decStallCtl_ne _).2.1 rsp)
    · cases ht

end

/-- Settles O55: forth by the run that stops at its beat `k` (`decSymbolRun_of_loop_stop`), back by the beat at which a loop that did not
end at EXIT stopped (`DecRun.renorm_stop`). -/
theorem decSymStreamError : Obligations.DecSymStreamError := by
  intro s hc h
  refine ⟨fun hm => ?_, fun t rsp ht hctl hst => ?_⟩
  · rintro range q sym k all hs h1 h2 ⟨low, high, code, hloop⟩ hk
    rw [exec_decSym_found hm (Model.lookup_unique _ _ _ (h.table hm).monotone hs h1 h2)]
    refine ⟨fun hcoming => ?_, fun hcoming => ?_⟩
    · obtain ⟨r, hrun, hr⟩ := decSymbolRun_of_loop_stop hc h hm hs hloop hk .error nofun hcoming
      refine ⟨s.dec.faulted .streamFault, rfl, rfl, rfl, rfl, ?_⟩
      rw [decSymbol_raised hrun, hr]
      rfl
    · obtain ⟨r, hrun, hr⟩ := decSymbolRun_of_loop_stop hc h hm hs hloop hk .never nofun hcoming
      refine ⟨s.dec.withCtl (decStallCtl s.reader.bound), rfl, ?_⟩
      rw [decSymbol_stuck hrun, hr]
      rfl
  · obtain ⟨sym, r, hrun, rfl⟩ := exec_decSym_streamFault ht hctl hst
    obtain ⟨bits, a, hlen, -, hcoming, hr, hend⟩ := DecRun.renorm_stop s.cfg.w _ r _ hrun nofun
    have ha : a = .error := by
      by_contra hne
      rw [if_neg hne] at hend
      cases hend
    subst ha
    exact ⟨rfl, rfl, rfl, bits, hlen, hcoming, hr⟩

end Sys2Proof.Machine
end

section
/-! SUPPORT. A snapshot through any commands of ENC that leave its slot valid, from SAVE to RESTORE with cleanup (42_encoder.md R165, R166,
R171). -/

namespace Sys2Proof.Machine

/-! ### Commands that leave a slot valid leave its contents -/

section
variable {i : Instr} {s t x : State} {r : Response} {h : Nat} {slot slot' : EncSlot}

/-- A slot kept and still valid is the slot it was (10_state.md R33). -/
theorem EncSlot.Kept.eq_of_valid (hk : slot.Kept slot') (hvalid : slot'.valid = true) : slot' = slot := by
  obtain ⟨hcontents, himp⟩ := hk
  have hsame := hvalid.trans (himp hvalid).symm
  rwa [← hsame] at hcontents

/-- A command that does not end with OK writes no slot (60_exceptions.md R224, R225). -/
theorem CommandEnd.slots_of_not_ok (hend : CommandEnd i s t) (hctl : t.ctl i.unit = .responding r) (hr : r.status ≠ .ok) :
    t.enc.slots = s.enc.slots := by
  cases hend with
  | refused st _ ht => rw [ht, raise_enc_slots]
  | faulted st x _ hx _ _ ht => rw [ht, raise_enc_slots, hx.encSlots]
  | stalled ht => exact ht.encSlots
  | completed data hctl' =>
    obtain rfl := Ctl.responding.inj (hctl.symm.trans hctl')
    exact absurd rfl hr

/-- SAVE leaves every valid slot alone: it takes a free one, or fails (42_encoder.md R165). -/
theorem issue_encSave_keeps_slot (hi : issue .encSave s = some (r, t)) (hslot : s.enc.slots[h]? = some slot)
    (hvalid : slot.valid = true) : t.enc.slots[h]? = some slot := by
  by_cases hr : r.status = .ok
  · obtain ⟨-, k, -, hfree, hslots⟩ := issue_encSave_ok hi hr
    obtain ⟨-, old, hold, hinvalid⟩ := encFreeHandle_some hfree
    have hne : k ≠ h := by
      rintro rfl
      obtain rfl := Option.some.inj (hold.symm.trans hslot)
      exact absurd hvalid (by simp [hinvalid])
    rw [hslots, List.getElem?_set_ne hne, hslot]
  · obtain ⟨-, x, hexec, hctl, rfl⟩ := issue_some hi
    change x.enc.slots[h]? = _
    rw [(exec_end hexec).slots_of_not_ok hctl hr, hslot]

/-- A command of ENC after which a valid slot is still valid has left that slot alone (10_state.md R32, R33). -/
theorem issue_keeps_slot (hunit : i.unit = .enc) (hi : issue i s = some (r, t)) (hslot : s.enc.slots[h]? = some slot)
    (hvalid : slot.valid = true) (hslot' : t.enc.slots[h]? = some slot') (hvalid' : slot'.valid = true) :
    t.enc.slots[h]? = some slot := by
  by_cases hsave : i = .encSave
  · subst hsave
    exact issue_encSave_keeps_slot hi hslot hvalid
  · have hdec : i ≠ .decSave := by rintro rfl; cases hunit
    obtain ⟨-, x, hexec, -, rfl⟩ := issue_some hi
    rw [hunit] at hslot' ⊢
    have hkept := ((exec_end hexec).slotsKept hsave hdec).1.2 h slot slot' hslot hslot'
    rw [hslot', hkept.eq_of_valid hvalid']

end

/-! ### Sequences of commands -/

/-- A sequence that is answered: its first command, then the others. -/
theorem issueAll_cons_eq_some {i : Instr} {rest : List Instr} {s x : State} {rs : List Response} :
    issueAll (i :: rest) s = some (rs, x) ↔
      ∃ r t rs', issue i s = some (r, t) ∧ issueAll rest t = some (rs', x) ∧ rs = r :: rs' := by
  rw [issueAll]
  constructor
  · intro hall
    split at hall
    · cases hall
    · rename_i r t hi
      split at hall
      · cases hall
      · rename_i rs' y hrest
        obtain ⟨rfl, rfl⟩ := Prod.mk.inj (Option.some.inj hall)
        exact ⟨r, t, rs', hi, hrest, rfl⟩
  · rintro ⟨r, t, rs', hi, hrest, rfl⟩
    simp only [hi, hrest]

/-- Commands issued from a legal state leave one. -/
theorem issueAll_inv {cmds : List Instr} {s x : State} {rs : List Response} (hinv : Inv s) (hall : issueAll cmds s = some (rs, x)) :
    Inv x ∧ x.cfg = s.cfg := by
  induction cmds generalizing s rs with
  | nil =>
    obtain ⟨-, rfl⟩ := Prod.mk.inj (Option.some.inj hall)
    exact ⟨hinv, rfl⟩
  | cons i rest ih =>
    obtain ⟨r, t, rs', hi, hrest, -⟩ := issueAll_cons_eq_some.1 hall
    obtain ⟨hinvt, hcfg⟩ := issue_inv hinv hi
    obtain ⟨hinvx, hcfg'⟩ := ih hinvt hrest
    exact ⟨hinvx, hcfg'.trans hcfg⟩

/-- Slot `h` is valid after each of the commands. -/
def StaysValid (h : Nat) (cmds : List Instr) (s : State) : Prop :=
  ∀ k rs z, issueAll (cmds.take k) s = some (rs, z) → ∃ slot, z.enc.slots[h]? = some slot ∧ slot.valid = true

section
variable {i : Instr} {rest cmds : List Instr} {s t x : State} {r : Response} {h : Nat} {slot : EncSlot}

theorem StaysValid.head (hv : StaysValid h (i :: rest) s) (hi : issue i s = some (r, t)) :
    ∃ slot, t.enc.slots[h]? = some slot ∧ slot.valid = true :=
  hv 1 [r] t (issueAll_cons_eq_some.2 ⟨r, t, [], hi, rfl, rfl⟩)

theorem StaysValid.tail (hv : StaysValid h (i :: rest) s) (hi : issue i s = some (r, t)) : StaysValid h rest t :=
  fun k rs z hz => hv (k + 1) (r :: rs) z (issueAll_cons_eq_some.2 ⟨r, t, rs, hi, hz, rfl⟩)

/-- Commands of ENC through which a slot stays valid leave that slot alone. -/
theorem issueAll_keeps_slot {rs : List Response} (hunit : ∀ i ∈ cmds, i.unit = .enc) (hall : issueAll cmds s = some (rs, x))
    (hv : StaysValid h cmds s) (hslot : s.enc.slots[h]? = some slot) (hvalid : slot.valid = true) :
    x.enc.slots[h]? = some slot := by
  induction cmds generalizing s rs with
  | nil =>
    obtain ⟨-, rfl⟩ := Prod.mk.inj (Option.some.inj hall)
    exact hslot
  | cons i rest ih =>
    obtain ⟨r, t, rs', hi, hrest, -⟩ := issueAll_cons_eq_some.1 hall
    obtain ⟨slot', hslot', hvalid'⟩ := hv.head hi
    have hkept := issue_keeps_slot (hunit i List.mem_cons_self) hi hslot hvalid hslot' hvalid'
    exact ih (fun j hj => hunit j (List.mem_cons_of_mem i hj)) hrest (hv.tail hi) hkept

/-! ### The law -/

/-- A slot that was overwritten by one that is not valid is not valid. -/
theorem invalid_of_set_invalid {α : Type} {valid : α → Bool} {l : List α} {h : Nat} {freed a : α} (hfreed : valid freed = false)
    (ha : (l.set h freed)[h]? = some a) : valid a = false := by
  rw [List.getElem?_set_self (by simpa using (List.getElem?_eq_some_iff.1 ha).1)] at ha
  obtain rfl := Option.some.inj ha
  exact hfreed

/-- SAVE that answers the handle `h` has filled slot `h` with the snapshot (42_encoder.md R165). -/
theorem issue_encSave_fills (hc : s.cfg.Valid) (hi : issue .encSave s = some (okResponse h, t)) (hh : h < s.cfg.nsnap) :
    (s.enc.mode = .ready ∨ s.enc.mode = .flushed) ∧ t.enc.slots[h]? = some (encSnapshot s.enc) := by
  obtain ⟨hm, k, hk, hfree, hslots⟩ := issue_encSave_ok hi rfl
  obtain ⟨hknsnap, old, hold, -⟩ := encFreeHandle_some hfree
  obtain rfl : h = k := by
    have hdata : h % 2 ^ 64 = k % 2 ^ 64 := congrArg (fun r : Response => r.data.toNat) hk
    have := hc.nsnap_le
    rwa [Nat.mod_eq_of_lt (by omega), Nat.mod_eq_of_lt (by omega)] at hdata
  exact ⟨hm, by rw [hslots, List.getElem?_set_self (List.getElem?_eq_some_iff.1 hold).1]⟩

/-- RESTORE with cleanup of a valid slot, outside FAULT, ends with OK (42_encoder.md R166). -/
theorem issue_encRestore_valid (hi : issue (.encRestore true h) s = some (r, t)) (hm : s.enc.mode ≠ .fault)
    (hslot : encSlotOf s.cfg s.enc h = some slot) :
    r = okResponse 0 ∧ t.enc = (encFreeSlot h slot (encRestored s.enc slot)).withCtl .ready := by
  obtain ⟨-, x, hexec, hctl, rfl⟩ := issue_some hi
  rw [exec_encRestore hm hslot] at hexec
  obtain rfl := Host.Outcome.next.inj hexec
  exact ⟨(Ctl.responding.inj hctl).symm, rfl⟩

end

/-- Settles O58: the slot that SAVE filled (`issue_encSave_fills`) is unchanged by commands that leave it valid (`issueAll_keeps_slot`), so
RESTORE loads the snapshot of the first state. -/
theorem snapshotLaw : Obligations.SnapshotLaw := by
  intro h cmds s t x y rs r hinv hsave hh hunit hall hv hm hrest
  obtain ⟨hmode, hsnap⟩ := issue_encSave_fills hinv.cfg hsave hh
  obtain ⟨hinvt, hcfgt⟩ := issue_inv hinv hsave
  obtain ⟨hinvx, hcfgx⟩ := issueAll_inv hinvt hall
  have hslot := issueAll_keeps_slot hunit hall hv hsnap rfl
  have hnamed : encSlotOf x.cfg x.enc h = some (encSnapshot s.enc) :=
    encSlotOf_some.2 ⟨by rwa [hcfgx, hcfgt], hslot, rfl⟩
  obtain ⟨hr, hy⟩ := issue_encRestore_valid hrest hm hnamed
  have hlen : s.enc.model.n < x.enc.model.p.length := by
    rw [hinvx.enc.table_length, hcfgx, hcfgt]
    exact Nat.lt_succ_of_le hinv.enc.n_le
  refine ⟨hr, ?_⟩
  rw [hy]
  refine ⟨rfl, rfl, rfl, rfl, encRestored_encSnapshot_mode x.enc hmode, rfl, fun i => encRestored_encSnapshot_entry hlen,
    fun _ => invalid_of_set_invalid (valid := EncSlot.valid) rfl, issue_quiet rfl hrest⟩

end Sys2Proof.Machine
end

section
/-! SUPPORT. The operand checks of INIT, EXPAND, READREG and of the commands on slots that fail, and what they answer (60_exceptions.md
R221, R228; 42_encoder.md R160, R161, R165 to R169; 43_decoder.md R190, R191, R193 to R197). -/

namespace Sys2Proof.Machine

/-! ### Checks that fail -/

theorem sizeCheck_invalid {c : Config} {k : Nat} (h : 2 ^ (c.w - 2) ≤ k) : sizeCheck c k = some .invalidArgument := if_pos h

theorem sizeCheck_outOfMemory {c : Config} {k : Nat} (h : k < 2 ^ (c.w - 2)) (hk : c.nmax < k) : sizeCheck c k = some .outOfMemory := by
  rw [sizeCheck, if_neg (show ¬c.maxTotal ≤ k from h.not_ge), if_pos hk]

theorem initCheck_invalid {c : Config} {bound : Bool} {k : Nat} (h : k = 0 ∨ bound = false ∨ 2 ^ (c.w - 2) ≤ k) :
    initCheck c bound k = some .invalidArgument := by
  unfold initCheck
  split_ifs with h0 hb
  · rfl
  · rfl
  · have hbound : bound ≠ false := by simpa using hb
    exact sizeCheck_invalid ((h.resolve_left h0).resolve_left hbound)

theorem initCheck_outOfMemory {c : Config} {bound : Bool} {k : Nat} (h0 : k ≠ 0) (hb : bound = true) (h : k < 2 ^ (c.w - 2))
    (hk : c.nmax < k) : initCheck c bound k = some .outOfMemory := by
  rw [initCheck, if_neg h0, if_neg (by simp [hb]), sizeCheck_outOfMemory h hk]

theorem expandCheck_invalid {c : Config} {m : Model} {k : Nat} (h : k ≤ m.n ∨ 2 ^ (c.w - 2) ≤ k) :
    expandCheck c m k = some .invalidArgument := by
  unfold expandCheck
  split_ifs with hn
  · rfl
  · exact sizeCheck_invalid (h.resolve_left hn)

theorem expandCheck_outOfMemory {c : Config} {m : Model} {k : Nat} (hn : m.n < k) (h : k < 2 ^ (c.w - 2)) (hk : c.nmax < k) :
    expandCheck c m k = some .outOfMemory := by
  rw [expandCheck, if_neg (by omega), sizeCheck_outOfMemory h hk]

/-! ### Handles -/

/-- A handle that names no valid slot (20_memory.md R52). -/
theorem encSlotOf_none {c : Config} {e : Enc} {h : Nat} (hbad : c.nsnap ≤ h ∨ ∀ slot, e.slots[h]? = some slot → slot.valid = false) :
    encSlotOf c e h = none := by
  rw [Option.eq_none_iff_forall_ne_some]
  intro slot hslot
  obtain ⟨hh, hget, hvalid⟩ := encSlotOf_some.1 hslot
  have hinvalid := hbad.resolve_left hh.not_ge slot hget
  exact Bool.false_ne_true (hinvalid.symm.trans hvalid)

/-- A handle that names no valid slot (20_memory.md R52). -/
theorem decSlotOf_none {c : Config} {d : Dec} {h : Nat} (hbad : c.nsnap ≤ h ∨ ∀ slot, d.slots[h]? = some slot → slot.valid = false) :
    decSlotOf c d h = none := by
  rw [Option.eq_none_iff_forall_ne_some]
  intro slot hslot
  obtain ⟨hh, hget, hvalid⟩ := decSlotOf_some.1 hslot
  have hinvalid := hbad.resolve_left hh.not_ge slot hget
  exact Bool.false_ne_true (hinvalid.symm.trans hvalid)

/-- Where every slot is valid there is no free handle (42_encoder.md R165, 43_decoder.md R193). -/
theorem findIdx?_take_of_all {α : Type} {valid : α → Bool} {l : List α} (n : Nat) (hall : ∀ a ∈ l, valid a = true) :
    (l.take n).findIdx? (fun a => !valid a) = none := by
  rw [List.findIdx?_eq_none_iff]
  intro a ha
  rw [hall a (List.mem_of_mem_take ha)]
  rfl

/-! ### Commands that their checks refuse -/

section
variable {s : State} {accepted : Bool} {check : Option Status} {st : Status}

/-- A failed check of ENC changes nothing but the response (60_exceptions.md R224). -/
theorem encChecked_refused (ha : accepted = true) (hcheck : check = some st) (hst : st.isRefusal = true)
    (effect : Host.Outcome State Fault Refusal) :
    encChecked accepted check s effect = .next (s.answered .enc (errorResponse st)) := by
  rw [ha, hcheck, ← raise_of_refusal .enc st s hst]
  rfl

/-- A failed check of DEC changes nothing but the response (60_exceptions.md R224). -/
theorem decChecked_refused (ha : accepted = true) (hcheck : check = some st) (hst : st.isRefusal = true)
    (effect : Host.Outcome State Fault Refusal) :
    decChecked accepted check s effect = .next (s.answered .dec (errorResponse st)) := by
  rw [ha, hcheck, ← raise_of_refusal .dec st s hst]
  rfl

end

section
variable {s : State} {k : Nat} {st : Status} {cleanup : Bool}

theorem exec_encInit_refused (h : initCheck s.cfg s.writer.bound k = some st) :
    exec (.encInit k) s = .next (s.answered .enc (errorResponse st)) :=
  encChecked_refused rfl h (initCheck_some h) _

theorem exec_decInit_refused (h : initCheck s.cfg s.reader.bound k = some st) :
    exec (.decInit k) s = .next (s.answered .dec (errorResponse st)) :=
  decChecked_refused rfl h (initCheck_some h) _

theorem exec_encExpand_refused (hm : s.enc.mode = .ready) (h : expandCheck s.cfg s.enc.model k = some st) :
    exec (.encExpand k) s = .next (s.answered .enc (errorResponse st)) :=
  encChecked_refused (accepts_encExpand_iff.2 hm) h (expandCheck_some h) _

theorem exec_decExpand_refused (hm : s.dec.mode = .ready) (h : expandCheck s.cfg s.dec.model k = some st) :
    exec (.decExpand k) s = .next (s.answered .dec (errorResponse st)) :=
  decChecked_refused (accepts_decExpand_iff.2 hm) h (expandCheck_some h) _

/-- DELETE is accepted in every mode (60_exceptions.md R226). -/
theorem accepts_encDelete (h : Nat) (m : Mode) : accepts (.encDelete h) m = true := by cases m <;> rfl

/-- DELETE is accepted in every mode (60_exceptions.md R226). -/
theorem accepts_decDelete (h : Nat) (m : Mode) : accepts (.decDelete h) m = true := by cases m <;> rfl

theorem exec_encDelete_refused (h : encSlotOf s.cfg s.enc k = none) :
    exec (.encDelete k) s = .next (s.answered .enc (errorResponse .invalidArgument)) := by
  rw [exec, execEncDelete, encChecked_passed (accepts_encDelete k _) rfl, h, ← raise_of_refusal _ _ _ rfl]

theorem exec_decDelete_refused (h : decSlotOf s.cfg s.dec k = none) :
    exec (.decDelete k) s = .next (s.answered .dec (errorResponse .invalidArgument)) := by
  rw [exec, execDecDelete, decChecked_passed (accepts_decDelete k _) rfl, h, ← raise_of_refusal _ _ _ rfl]

theorem exec_encRestore_refused (hm : s.enc.mode ≠ .fault) (h : encSlotOf s.cfg s.enc k = none) :
    exec (.encRestore cleanup k) s = .next (s.answered .enc (errorResponse .invalidArgument)) := by
  rw [exec, execEncRestore, encChecked_passed (accepts_encRestore_iff.2 hm) rfl, h, ← raise_of_refusal _ _ _ rfl]

theorem exec_decRestore_refused (hm : s.dec.mode = .uninit ∨ s.dec.mode = .ready) (h : decSlotOf s.cfg s.dec k = none) :
    exec (.decRestore cleanup k) s = .next (s.answered .dec (errorResponse .invalidArgument)) := by
  rw [exec, execDecRestore, decChecked_passed (accepts_decRestore_iff.2 hm) rfl, h, ← raise_of_refusal _ _ _ rfl]

theorem exec_encSave_refused (hm : s.enc.mode = .ready ∨ s.enc.mode = .flushed) (h : encFreeHandle s.cfg s.enc = none) :
    exec .encSave s = .next (s.answered .enc (errorResponse .outOfMemory)) := by
  rw [exec, execEncSave, encChecked_passed (accepts_encSave_iff.2 hm) rfl, h, ← raise_of_refusal _ _ _ rfl]

theorem exec_decSave_refused (hm : s.dec.mode = .ready) (h : decFreeHandle s.cfg s.dec = none) :
    exec .decSave s = .next (s.answered .dec (errorResponse .outOfMemory)) := by
  rw [exec, execDecSave, decChecked_passed (accepts_decSave_iff.2 hm) rfl, h, ← raise_of_refusal _ _ _ rfl]

theorem exec_encReadp_refused (hm : s.enc.mode = .ready ∨ s.enc.mode = .flushed) (hk : s.enc.model.n < k) :
    exec (.encReadp k) s = .next (s.answered .enc (errorResponse .invalidArgument)) :=
  encChecked_refused (accepts_encReadp_iff.2 hm) (if_pos hk) rfl _

theorem exec_decReadp_refused (hm : s.dec.mode = .ready) (hk : s.dec.model.n < k) :
    exec (.decReadp k) s = .next (s.answered .dec (errorResponse .invalidArgument)) :=
  decChecked_refused (accepts_decReadp_iff.2 hm) (if_pos hk) rfl _

/-- The numbers that are no register of ENC: CODE's and those past the map (10_state.md R39). -/
theorem encRegister_none {c : Config} {e : Enc} (hk : k = 5 ∨ 13 ≤ k) : encRegister c e k = none := by
  rcases hk with rfl | hk
  · rfl
  · obtain ⟨j, rfl⟩ := Nat.exists_eq_add_of_le' hk
    rfl

/-- The numbers that are no register of DEC: UNDERFLOW's and those past the map (10_state.md R39). -/
theorem decRegister_none {c : Config} {d : Dec} (hk : k = 4 ∨ 13 ≤ k) : decRegister c d k = none := by
  rcases hk with rfl | hk
  · rfl
  · obtain ⟨j, rfl⟩ := Nat.exists_eq_add_of_le' hk
    rfl

theorem exec_encReadreg_refused (hk : k ≠ 7) (h : encRegister s.cfg s.enc k = none) :
    exec (.encReadreg k) s = .next (s.answered .enc (errorResponse .invalidArgument)) := by
  rw [exec, execEncReadreg, encChecked_passed (accepts_encReadreg fun h => hk h.1) rfl, h, ← raise_of_refusal _ _ _ rfl]

theorem exec_decReadreg_refused (hk : k ≠ 7) (h : decRegister s.cfg s.dec k = none) :
    exec (.decReadreg k) s = .next (s.answered .dec (errorResponse .invalidArgument)) := by
  rw [exec, execDecReadreg, decChecked_passed (accepts_decReadreg fun h => hk h.1) rfl, h, ← raise_of_refusal _ _ _ rfl]

end

/-- Settles O20, command by command: the check that fails, and the answer of a command that it refuses. -/
theorem argumentRefusals : Obligations.ArgumentRefusals := by
  intro k cleanup s
  refine ⟨?init, ?expand, fun hbad => ?encHandle, fun hbad => ?decHandle, fun hm hall => ?encSave, fun hm hall => ?decSave,
    exec_encReadp_refused, exec_decReadp_refused, fun hk => ?encReadreg, fun hk => ?decReadreg⟩
  case init =>
    rintro u i bound (⟨rfl, rfl, rfl⟩ | ⟨rfl, rfl, rfl⟩)
    · exact ⟨fun h => exec_encInit_refused (initCheck_invalid h),
        fun h0 hb h hk => exec_encInit_refused (initCheck_outOfMemory h0 hb h hk)⟩
    · exact ⟨fun h => exec_decInit_refused (initCheck_invalid h),
        fun h0 hb h hk => exec_decInit_refused (initCheck_outOfMemory h0 hb h hk)⟩
  case expand =>
    rintro u i size hm (⟨rfl, rfl, rfl⟩ | ⟨rfl, rfl, rfl⟩)
    · exact ⟨fun h => exec_encExpand_refused hm (expandCheck_invalid h),
        fun hn h hk => exec_encExpand_refused hm (expandCheck_outOfMemory hn h hk)⟩
    · exact ⟨fun h => exec_decExpand_refused hm (expandCheck_invalid h),
        fun hn h hk => exec_decExpand_refused hm (expandCheck_outOfMemory hn h hk)⟩
  case encHandle =>
    exact ⟨exec_encDelete_refused (encSlotOf_none hbad), fun hm => exec_encRestore_refused hm (encSlotOf_none hbad)⟩
  case decHandle =>
    exact ⟨exec_decDelete_refused (decSlotOf_none hbad), fun hm => exec_decRestore_refused hm (decSlotOf_none hbad)⟩
  case encSave => exact exec_encSave_refused hm (findIdx?_take_of_all _ hall)
  case decSave => exact exec_decSave_refused hm (findIdx?_take_of_all _ hall)
  case encReadreg => exact exec_encReadreg_refused (by omega) (encRegister_none hk)
  case decReadreg => exact exec_decReadreg_refused (by omega) (decRegister_none hk)

end Sys2Proof.Machine
end

section
/-! SUPPORT. SAVE and DELETE that complete (42_encoder.md R165, R167; 43_decoder.md R193, R195). -/

namespace Sys2Proof.Machine

/-! ### SAVE -/

/-- The least handle whose slot is free (42_encoder.md R165, 43_decoder.md R193). -/
theorem findIdx?_take_of_first {α : Type} {valid : α → Bool} {l : List α} {n h : Nat} (hh : h < n)
    (hbelow : ∀ k, k < h → ∀ a, l[k]? = some a → valid a = true) (hfree : ∃ a, l[h]? = some a ∧ valid a = false) :
    (l.take n).findIdx? (fun a => !valid a) = some h := by
  obtain ⟨a, ha, hinvalid⟩ := hfree
  obtain ⟨hlt, rfl⟩ := List.getElem?_eq_some_iff.1 ha
  rw [List.findIdx?_eq_some_iff_getElem]
  refine ⟨by rw [List.length_take]; omega, ?_, fun k hk => ?_⟩
  · simp [hinvalid]
  · have hvalid := hbelow k hk _ (List.getElem?_eq_getElem (hk.trans hlt))
    simp [hvalid]

section
variable {s : State} {h : Nat}

/-- ENC.SAVE with a free slot (42_encoder.md R165). -/
theorem exec_encSave (hm : s.enc.mode = .ready ∨ s.enc.mode = .flushed) (hfree : encFreeHandle s.cfg s.enc = some h) :
    exec .encSave s = .next (respondEnc h (s.withEnc { s.enc with slots := s.enc.slots.set h (encSnapshot s.enc) })) := by
  rw [exec, execEncSave, encChecked_passed (accepts_encSave_iff.2 hm) rfl, hfree]

/-- DEC.SAVE with a free slot (43_decoder.md R193). -/
theorem exec_decSave (hm : s.dec.mode = .ready) (hfree : decFreeHandle s.cfg s.dec = some h) :
    exec .decSave s = .next (respondDec h (s.withDec { s.dec with slots := s.dec.slots.set h (decSnapshot s.dec) })) := by
  rw [exec, execDecSave, decChecked_passed (accepts_decSave_iff.2 hm) rfl, hfree]

end

/-- Settles O46: the first free slot is the one SAVE takes (`findIdx?_take_of_first`), and the slot it writes is the snapshot. -/
theorem saveFillsTheLowestFreeSlot : Obligations.SaveFillsTheLowestFreeSlot := by
  refine fun h s hh => ⟨fun hm hbelow hfree => ?_, fun hm hbelow hfree => ?_⟩
  · exact ⟨encSnapshot s.enc, rfl, rfl, rfl, rfl, decide_eq_true_iff, rfl, rfl, s.enc.model.saved_entry,
      exec_encSave hm (findIdx?_take_of_first hh hbelow hfree)⟩
  · exact ⟨decSnapshot s.dec, rfl, rfl, rfl, rfl, rfl, rfl, s.dec.model.saved_entry,
      exec_decSave hm (findIdx?_take_of_first hh hbelow hfree)⟩

/-! ### DELETE -/

section
variable {s : State} {h : Nat}

/-- ENC.DELETE of a valid slot, in every mode (42_encoder.md R167). -/
theorem exec_encDelete {slot : EncSlot} (hslot : encSlotOf s.cfg s.enc h = some slot) :
    exec (.encDelete h) s = .next (respondEnc 0 (s.withEnc (encFreeSlot h slot s.enc))) := by
  rw [exec, execEncDelete, encChecked_passed (accepts_encDelete h _) rfl, hslot]

/-- DEC.DELETE of a valid slot, in every mode (43_decoder.md R195). -/
theorem exec_decDelete {slot : DecSlot} (hslot : decSlotOf s.cfg s.dec h = some slot) :
    exec (.decDelete h) s = .next (respondDec 0 (s.withDec (decFreeSlot h slot s.dec))) := by
  rw [exec, execDecDelete, decChecked_passed (accepts_decDelete h _) rfl, hslot]

end

/-- Settles O48: the slot is freed, so a second DELETE finds no valid slot (`encSlotOf_none`, `decSlotOf_none`). -/
theorem deleteFreesTheSlot : Obligations.DeleteFreesTheSlot := by
  refine fun h s hh => ⟨fun slot hslot hvalid => ?_, fun slot hslot hvalid => ?_⟩
  · refine ⟨{ slot with valid := false }, _, rfl, exec_encDelete (encSlotOf_some.2 ⟨hh, hslot, hvalid⟩), rfl, ?_⟩
    exact exec_encDelete_refused (encSlotOf_none (.inr fun _ => invalid_of_set_invalid (valid := EncSlot.valid) rfl))
  · refine ⟨{ slot with valid := false }, _, rfl, exec_decDelete (decSlotOf_some.2 ⟨hh, hslot, hvalid⟩), rfl, ?_⟩
    exact exec_decDelete_refused (decSlotOf_none (.inr fun _ => invalid_of_set_invalid (valid := DecSlot.valid) rfl))

end Sys2Proof.Machine
end

section
/-! SUPPORT. The cost law: ENC.EST against an ENC.SYM that ends with OK (42_encoder.md R162, R164, R170). -/

namespace Sys2Proof.Machine

section
variable {s t : State} {sym : Nat} {r : Response}

/-- ENC.SYM that answers OK was accepted, with a symbol of the alphabet. -/
theorem exec_encSym_ok_accepted (ht : exec (.encSym sym) s = .next t) (hctl : t.enc.ctl = .responding r) (hr : r.status = .ok) :
    s.enc.mode = .ready ∧ sym < s.enc.model.n := by
  rw [exec, execEncSym] at ht
  rcases encChecked_cases (accepts (.encSym sym) s.enc.mode) (symbolCheck s.enc.model sym) s (.next (encSymbol true sym s)) with
    ⟨-, e⟩ | ⟨-, st, hst, e⟩ | ⟨ha, hn, -⟩
  · obtain rfl := Host.Outcome.next.inj (e.symm.trans ht)
    obtain rfl := Ctl.responding.inj hctl
    cases hr
  · obtain rfl := Host.Outcome.next.inj (e.symm.trans ht)
    obtain rfl := Ctl.responding.inj hctl
    obtain rfl := symbolCheck_some hst
    cases hr
  · exact ⟨accepts_encSym_iff.1 ha, symbolCheck_none.1 hn⟩

/-- The estimate's run follows a run of ENC.SYM that ends (`EncRun.renorm_simulates`). -/
theorem encSymbolRun_est_of_sym {run : EncRun} (hrun : encSymbolRun true sym s = (.exit, run)) :
    encSymbolRun false sym s = (.exit, { run with writer := s.writer }) :=
  EncRun.renorm_simulates s.cfg s.cfg.w _ run s.writer hrun

/-- ENC.SYM's loop has given the writer as many bits as it counts (41_range_arith.md R152). -/
theorem encSymbolRun_accepted_length {run : EncRun} (hrun : encSymbolRun true sym s = (.exit, run)) :
    run.writer.accepted.length = s.writer.accepted.length + run.count := by
  obtain ⟨-, -, -, ⟨bits, hbits, hcount⟩, -⟩ := encSymbolRun_cases true sym s
  rw [hrun] at hbits hcount
  rw [hbits, List.length_append, hcount rfl rfl]

end

/-- Settles O41, by the run of ENC.SYM, which ENC.EST follows without its bits (`encSymbolRun_est_of_sym`). -/
theorem costLaw : Obligations.CostLaw := by
  intro sym s t r ht hctl hr
  obtain ⟨hm, hs⟩ := exec_encSym_ok_accepted ht hctl hr
  obtain ⟨run, hrun, hdata, rfl⟩ := exec_encSym_ok hm hs ht hctl hr
  have hcount : run.count < 2 ^ 64 := hdata ▸ r.data.isLt
  refine ⟨?_, ?_⟩
  · rw [exec_encEst_passed hm hs, encSymbol_exit (encSymbolRun_est_of_sym hrun) hcount]
    rfl
  · rw [hdata]
    exact encSymbolRun_accepted_length hrun

end Sys2Proof.Machine
end

section
/-! SUPPORT. ENC.FLUSH that ends in FAULT, or is left at one of its beats (42_encoder.md R163; 60_exceptions.md R222, R223, R225;
70_reset_and_hazards.md R260, R266, R268). -/

namespace Sys2Proof.Machine

section
variable {s : State} {force : Bool} {w : Writer}

/-- The flush procedure with a full counter: no beat (42_encoder.md R163). -/
theorem encFlushRun_full (hfull : s.enc.underflow = s.cfg.underflowMax) :
    encFlushRun force s = s.withEnc (s.enc.faulted .counterOverflow) := by
  rw [encFlushRun, if_pos hfull, raise_enc_fault rfl]

/-- The flush procedure once its beats are done, with a count that no response can carry (60_exceptions.md R222). -/
theorem encFlushRun_uncountable (hroom : s.enc.underflow ≠ s.cfg.underflowMax) (hcount : 2 ^ 64 ≤ s.enc.underflow + 2)
    (hw : s.writer.emitAll (flushBits s.cfg s.enc) = (.done, w)) :
    encFlushRun force s = (s.withWriter w).withEnc { s.enc.faulted .counterOverflow with underflow := 0 } := by
  rw [encFlushRun, if_neg hroom, hw]
  dsimp only
  rw [if_pos (show countMax < s.enc.underflow + 2 by unfold countMax; omega), raise_enc_fault rfl]
  rfl

/-- The flush procedure whose writer reports an error (60_exceptions.md R223). -/
theorem encFlushRun_error (hroom : s.enc.underflow ≠ s.cfg.underflowMax)
    (hw : s.writer.emitAll (flushBits s.cfg s.enc) = (.error, w)) :
    encFlushRun force s = (s.withWriter w).withEnc (s.enc.faulted .streamFault) := by
  rw [encFlushRun, if_neg hroom, hw]
  exact raise_enc_fault rfl _

/-- The flush procedure whose writer does not complete a beat (70_reset_and_hazards.md R260, R268). -/
theorem encFlushRun_stuck {b : Bool} (hroom : s.enc.underflow ≠ s.cfg.underflowMax)
    (hw : s.writer.emitAll (flushBits s.cfg s.enc) = (.stuck b, w)) :
    encFlushRun force s = stallEnc (.flush force) b (s.withWriter w) := by
  rw [encFlushRun, if_neg hroom, hw]

/-- The bits of a flush, by the bit of `low` they begin with (42_encoder.md R163). -/
theorem flushBits_eq (c : Config) (e : Enc) :
    flushBits c e = e.low.testBit (c.w - 2) :: List.replicate (e.underflow + 1) (!e.low.testBit (c.w - 2)) := by
  rw [flushBits, flushBit_eq_testBit]

end

/-- Settles O45, by the ways the flush procedure can fail (`encFlushRun_full`, `encFlushRun_uncountable`, `encFlushRun_error`,
`encFlushRun_stuck`) and the run of emits that stops at beat `k` (`Writer.emitAll_stop`). -/
theorem encFlushFaults : Obligations.EncFlushFaults := by
  intro force s hm b bits
  have hemit : s.writer.emitAll (flushBits s.cfg s.enc) = s.writer.emitAll bits := by rw [flushBits_eq]
  have hlen : bits.length = s.enc.underflow + 2 := by simp [bits]
  rw [exec_encFlush_runs hm]
  refine ⟨fun hfull => ?_, fun hroom hcount hw => ?_, fun hroom k hk => ⟨fun hw => ?_, fun hw => ?_⟩⟩
  · exact ⟨s.enc.faulted .counterOverflow, rfl, rfl, rfl, rfl, congrArg _ (encFlushRun_full hfull)⟩
  · have hdone := hw.emitAll_eq bits
    rw [hlen] at hdone
    exact ⟨{ s.enc.faulted .counterOverflow with underflow := 0 }, rfl, rfl, rfl, rfl,
      congrArg _ (encFlushRun_uncountable hroom hcount (hemit.trans hdone))⟩
  · have hstop := Writer.emitAll_stop bits k .error s.writer (by omega) nofun hw
    exact ⟨s.enc.faulted .streamFault, rfl, rfl, rfl, rfl, congrArg _ (encFlushRun_error hroom (hemit.trans hstop))⟩
  · have hlt : k < bits.length := by omega
    have hstop := Writer.emitAll_stop bits k .never s.writer hlt nofun hw
    rw [List.getD_eq_getElem bits false hlt] at hstop
    refine ⟨s.enc.withCtl (encStallCtl (.flush force) bits[k] s.writer.bound), bits[k], List.getElem?_eq_getElem hlt, rfl, ?_⟩
    exact congrArg _ (encFlushRun_stuck hroom (hemit.trans hstop))

end Sys2Proof.Machine
end

section
/-! SUPPORT. A window over the bits that a session will emit: what DEC's renormalisation loop does to it while ENC's loop emits those
bits or puts them off (41_range_arith.md R142 to R146; 43_decoder.md R198). -/

namespace Sys2Proof.Machine

/-! ### Windows of bits as numbers (20_memory.md R61) -/

theorem bitsValue_lt (l : List Bool) : bitsValue l < 2 ^ l.length := by
  have h := valueOf_lt l 0
  rwa [Reader.valueOf_eq, Nat.zero_mul, Nat.zero_add, Nat.zero_add, Nat.one_mul] at h

theorem bitsValue_concat (l : List Bool) (b : Bool) : bitsValue (l ++ [b]) = 2 * bitsValue l + b.toNat := by
  induction l with
  | nil => simp [bitsValue]
  | cons a l ih =>
    rw [List.cons_append, bitsValue, bitsValue, ih, List.length_append, List.length_singleton, pow_succ]
    ring

/-- SHIFT moves the window one bit on (41_range_arith.md R146). -/
theorem bitsValue_shift (b t : Bool) (l : List Bool) :
    (2 * bitsValue (b :: l) + t.toNat) % 2 ^ (l.length + 1) = bitsValue (l ++ [t]) := by
  have hlt := bitsValue_lt (l ++ [t])
  rw [List.length_append, List.length_singleton] at hlt
  have hval : 2 * bitsValue (b :: l) + t.toNat = bitsValue (l ++ [t]) + 2 ^ (l.length + 1) * b.toNat := by
    rw [bitsValue_concat, bitsValue, pow_succ]
    ring
  rw [hval, Nat.add_mul_mod_self_left, Nat.mod_eq_of_lt hlt]

/-- The E3 action makes the second bit of the window equal to the first, when it was not (41_range_arith.md R145). -/
theorem bitsValue_e3 (b : Bool) (l : List Bool) : bitsValue (b :: (!b) :: l) ^^^ 2 ^ l.length = bitsValue (b :: b :: l) := by
  have hlt := bitsValue_lt l
  have hpos := Nat.two_pow_pos l.length
  cases b with
  | false =>
    have hval : bitsValue (false :: true :: l) = bitsValue l + 2 ^ l.length := by simp [bitsValue, Nat.add_comm]
    have hdiv : (bitsValue l + 2 ^ l.length) / 2 ^ l.length = 1 := by
      rw [Nat.add_div_right _ hpos, Nat.div_eq_of_lt hlt]
    rw [Bool.not_false, hval, xor_two_pow_set _ _ (by rw [hdiv])]
    simp [bitsValue]
  | true =>
    have hval : bitsValue (true :: false :: l) = bitsValue l + 2 ^ l.length * 2 := by simp [bitsValue, pow_succ, Nat.add_comm]
    have hdiv : (bitsValue l + 2 ^ l.length * 2) / 2 ^ l.length = 2 := by
      rw [Nat.add_mul_div_left _ _ hpos, Nat.div_eq_of_lt hlt]
    rw [Bool.not_true, hval, xor_two_pow_clear _ _ (by rw [hdiv])]
    simp [bitsValue, pow_succ]
    ring

/-- A second bit that is the complement of the first puts the window a quarter above where it is without it. -/
theorem bitsValue_second (b : Bool) (l : List Bool) : bitsValue (b :: (!b) :: l) = 2 ^ l.length + bitsValue (b :: l) := by
  cases b with
  | false => simp [bitsValue]
  | true => simp [bitsValue, pow_succ]; ring

/-- Undoing a step of the loop: a window that lies in the interval after the offset `o` is removed and the bit `t` is shifted in lay in
the interval before (41_range_arith.md R146, R153). -/
theorem inside_of_concat {low high o : Nat} (ho : o ≤ low) (hl : low ≤ high) {l : List Bool} {t : Bool}
    (h1 : 2 * (low - o) ≤ bitsValue (l ++ [t])) (h2 : bitsValue (l ++ [t]) ≤ 2 * (high - o) + 1) :
    low ≤ o + bitsValue l ∧ o + bitsValue l ≤ high := by
  have ht := t.toNat_le
  rw [bitsValue_concat] at h1 h2
  omega

/-! ### Pending bits -/

/-- What ENC emits of the bits `l` while `u` bits are pending: the first bit, `u` complements of it, and the rest (41_range_arith.md
R143). -/
def withPending (u : Nat) : List Bool → List Bool
  | [] => []
  | b :: l => b :: (List.replicate u (!b) ++ l)

theorem withPending_zero (l : List Bool) : withPending 0 l = l := by cases l <;> rfl

/-- One more pending bit is the complement of the first bit, standing second (41_range_arith.md R144). -/
theorem withPending_succ (u : Nat) (b : Bool) (l : List Bool) : withPending (u + 1) (b :: l) = withPending u (b :: (!b) :: l) := by
  simp [withPending, List.replicate_succ']

/-! ### The loop on a window -/

/-- DEC's loop from the interval `low`, `high` to `low'`, `high'` on a window that begins the bits `core`: it moves the window on to
`next`, and came from inside its interval if it arrives inside the other. -/
structure WindowLoop (c : Config) (low high : Nat) (core : List Bool) (low' high' : Nat) (next : List Bool) : Prop where
  length_le : next.length ≤ core.length
  moves : ∀ head taken rest : List Bool, head.length = c.w → taken.length + next.length = core.length →
    core <+: head ++ (taken ++ rest) →
    ∃ head' : List Bool, head'.length = c.w ∧ next <+: head' ++ rest ∧
      DecLoop c low high (bitsValue head) taken low' high' (bitsValue head') ∧
      (low' ≤ bitsValue head' ∧ bitsValue head' ≤ high' → low ≤ bitsValue head ∧ bitsValue head ≤ high)

section
variable {c : Config} {low high low' high' : Nat}

theorem WindowLoop.exit (msb : high.testBit (c.w - 1) ≠ low.testBit (c.w - 1))
    (straddle : ¬(low.testBit (c.w - 2) = true ∧ high.testBit (c.w - 2) = false)) (next : List Bool) :
    WindowLoop c low high next low high next := by
  refine ⟨le_rfl, fun head taken rest hhead htaken hcore => ?_⟩
  obtain rfl : taken = [] := List.eq_nil_of_length_eq_zero (by omega)
  exact ⟨head, hhead, hcore, .exit msb straddle, id⟩

theorem testBit_msb (hc : c.Valid) {x : Nat} (hx : x < 2 ^ c.w) : x.testBit (c.w - 1) = decide (c.hiBit ≤ x) := by
  rw [← sharedMsb_eq hc x hx, sharedMsb, Nat.shiftRight_eq_div_pow]
  have h2 := hc.two_hiBit
  refine decide_eq_decide.2 ?_
  change x / c.hiBit = 1 ↔ _
  have hp : 0 < c.hiBit := Nat.two_pow_pos _
  rw [Nat.div_eq_iff hp]
  omega

/-- A window that begins with two bits is those bits and the rest of the window. -/
theorem window_cons_cons (hc : c.Valid) {a b : Bool} {core head more : List Bool} (hhead : head.length = c.w)
    (hcore : a :: b :: core <+: head ++ more) : ∃ tail, head = a :: b :: tail ∧ tail.length + 1 + 1 = c.w ∧ core <+: tail ++ more := by
  have hw := hc.w_ge
  match head, hhead, hcore with
  | [], hhead, _ => simp at hhead; omega
  | [_], hhead, _ => simp at hhead; omega
  | a' :: b' :: tail, hhead, hcore =>
    simp only [List.cons_append, List.cons_prefix_cons] at hcore
    obtain ⟨rfl, rfl, hcore⟩ := hcore
    exact ⟨tail, rfl, hhead, hcore⟩

/-- Undoing an MSB_EQ step (41_range_arith.md R143, R146). -/
theorem inside_of_msbEq (hc : c.Valid) (hl : low ≤ high) (hh : high < 2 ^ c.w) (msb : high.testBit (c.w - 1) = low.testBit (c.w - 1))
    {tail : List Bool} {t : Bool} (htail : tail.length + 1 = c.w) (h1 : 2 * low % 2 ^ c.w ≤ bitsValue (tail ++ [t]))
    (h2 : bitsValue (tail ++ [t]) ≤ (2 * high + 1) % 2 ^ c.w) :
    low ≤ bitsValue (high.testBit (c.w - 1) :: tail) ∧ bitsValue (high.testBit (c.w - 1) :: tail) ≤ high := by
  obtain ⟨o, ho, e1, e2, -⟩ := shift_msbEq hc low high hl hh ((classify_msbEq_bits c low high).2 msb)
  rw [shiftLow_eq] at e1
  rw [shiftHigh_eq] at e2
  have hval : bitsValue (high.testBit (c.w - 1) :: tail) = o + bitsValue tail := by
    have hhalf : 2 ^ tail.length = c.hiBit := by rw [Config.hiBit, Config.hiBitPos, ← htail]; rfl
    rw [testBit_msb hc hh, bitsValue, hhalf]
    rcases ho with ⟨rfl, ho⟩ | ⟨rfl, ho⟩
    · simp [ho]
    · simp [ho.trans hl]
  rw [hval]
  exact inside_of_concat (by omega) hl (e1.ge.trans h1) (h2.trans e2.le)

/-- Undoing an E3 step (41_range_arith.md R144, R153). -/
theorem inside_of_e3 (hc : c.Valid) (hl : low ≤ high) (hh : high < 2 ^ c.w) (hcase : classify c low high = .e3) {b t : Bool}
    {tail : List Bool} (htail : tail.length + 1 + 1 = c.w)
    (h1 : 2 * (low % 2 ^ (c.w - 2)) % 2 ^ c.w ≤ bitsValue (b :: tail ++ [t]))
    (h2 : bitsValue (b :: tail ++ [t]) ≤ (2 * (high + 2 ^ (c.w - 2)) + 1) % 2 ^ c.w) :
    low ≤ bitsValue (b :: (!b) :: tail) ∧ bitsValue (b :: (!b) :: tail) ≤ high := by
  obtain ⟨⟨hquarter, -⟩, -⟩ := (classify_e3_iff hc low high hl hh).1 hcase
  obtain ⟨e1, e2, -⟩ := shift_e3 hc low high hl hh hcase
  rw [shiftLow_eq, e3Low_eq] at e1
  rw [shiftHigh_eq, e3High_of_bit c high ((classify_e3_bits c low high).1 hcase).2.2] at e2
  have hpow : 2 ^ tail.length = 2 ^ (c.w - 2) := by rw [← htail]; rfl
  rw [bitsValue_second, hpow]
  exact inside_of_concat hquarter hl (e1.ge.trans h1) (h2.trans e2.le)

/-- An MSB_EQ step drops the first bit of the window, which is the shared MSB (41_range_arith.md R143). -/
theorem WindowLoop.msbEq (hc : c.Valid) (hl : low ≤ high) (hh : high < 2 ^ c.w)
    (msb : high.testBit (c.w - 1) = low.testBit (c.w - 1)) {core next : List Bool}
    (hloop : WindowLoop c (2 * low % 2 ^ c.w) ((2 * high + 1) % 2 ^ c.w) core low' high' next) :
    WindowLoop c low high (high.testBit (c.w - 1) :: core) low' high' next := by
  have hlen := hloop.length_le
  have hw := hc.w_ge
  refine ⟨hlen.trans (Nat.le_succ _), fun head taken rest hhead htaken hcore => ?_⟩
  rw [List.length_cons] at htaken
  obtain ⟨t, taken, rfl⟩ := List.exists_cons_of_length_pos (l := taken) (by omega)
  obtain ⟨b, tail, rfl⟩ := List.exists_cons_of_length_pos (l := head) (by omega)
  rw [List.cons_append, List.cons_prefix_cons] at hcore
  obtain ⟨rfl, hcore⟩ := hcore
  rw [List.length_cons] at hhead htaken
  obtain ⟨head', hhead', hnext, hdec, hback⟩ :=
    hloop.moves (tail ++ [t]) taken rest (by simpa using hhead) (by omega) (by simpa using hcore)
  have hshift := bitsValue_shift (high.testBit (c.w - 1)) t tail
  rw [hhead] at hshift
  exact ⟨head', hhead', hnext, .msbEq msb (by rwa [hshift]),
    fun hin => inside_of_msbEq hc hl hh msb hhead (hback hin).1 (hback hin).2⟩

/-- An E3 step drops the second bit of the window, which is the complement of the first (41_range_arith.md R144, R145). -/
theorem WindowLoop.e3 (hc : c.Valid) (hl : low ≤ high) (hh : high < 2 ^ c.w)
    (msb : high.testBit (c.w - 1) ≠ low.testBit (c.w - 1))
    (straddle : low.testBit (c.w - 2) = true ∧ high.testBit (c.w - 2) = false) {b : Bool} {core next : List Bool}
    (hloop : WindowLoop c (2 * (low % 2 ^ (c.w - 2)) % 2 ^ c.w) ((2 * (high + 2 ^ (c.w - 2)) + 1) % 2 ^ c.w) (b :: core)
      low' high' next) :
    WindowLoop c low high (b :: (!b) :: core) low' high' next := by
  have hlen := hloop.length_le
  refine ⟨hlen.trans (Nat.le_succ _), fun head taken rest hhead htaken hcore => ?_⟩
  rw [List.length_cons] at hlen
  rw [List.length_cons, List.length_cons] at htaken
  obtain ⟨t, taken, rfl⟩ := List.exists_cons_of_length_pos (l := taken) (by omega)
  obtain ⟨tail, rfl, htail, hcore⟩ := window_cons_cons hc hhead hcore
  rw [List.length_cons] at htaken
  obtain ⟨head', hhead', hnext, hdec, hback⟩ :=
    hloop.moves (b :: tail ++ [t]) taken rest (by simpa using htail) (by rw [List.length_cons]; omega) (by simpa using hcore)
  have hpow : 2 ^ (c.w - 2) = 2 ^ tail.length := by rw [← htail]; rfl
  have hshift := bitsValue_shift b t (b :: tail)
  rw [List.length_cons, htail, ← bitsValue_e3, ← hpow] at hshift
  have hcase := (classify_e3_bits c low high).2 ⟨msb, straddle⟩
  exact ⟨head', hhead', hnext, .e3 msb straddle (by rwa [hshift]),
    fun hin => inside_of_e3 hc hl hh hcase htail (hback hin).1 (hback hin).2⟩

/-- What ENC's loop emits and leaves pending, before the bits `next`, is bits `core` on which DEC's loop goes the same way. -/
theorem EncLoop.windowLoop (hc : c.Valid) {u u' : Nat} {bits : List Bool} (h : EncLoop c low high u bits low' high' u')
    (hl : low ≤ high) (hh : high < 2 ^ c.w) {next : List Bool} (hnext : next ≠ []) :
    ∃ core : List Bool, core ≠ [] ∧ withPending u core = bits ++ withPending u' next ∧ WindowLoop c low high core low' high' next := by
  induction h with
  | exit msb straddle => exact ⟨next, hnext, rfl, .exit msb straddle next⟩
  | msbEq msb _ ih =>
    obtain ⟨s1, s2, -⟩ := (EncRun.shift_step hc _ _ hl hh).1 ((classify_msbEq_bits c _ _).2 msb)
    rw [shiftLow_eq, shiftHigh_eq] at s1
    rw [shiftHigh_eq] at s2
    obtain ⟨core, -, hcore, hloop⟩ := ih s1 s2
    rw [withPending_zero] at hcore
    exact ⟨_, by simp, by simp [withPending, hcore], .msbEq hc hl hh msb hloop⟩
  | e3 msb straddle _ _ ih =>
    obtain ⟨s1, s2, -⟩ := (EncRun.shift_step hc _ _ hl hh).2 ((classify_e3_bits c _ _).2 ⟨msb, straddle⟩)
    rw [shiftLow_eq, shiftHigh_eq, e3Low_eq, e3High_of_bit c _ straddle.2] at s1
    rw [shiftHigh_eq, e3High_of_bit c _ straddle.2] at s2
    obtain ⟨core, hne, hcore, hloop⟩ := ih s1 s2
    obtain ⟨b, core, rfl⟩ := List.exists_cons_of_ne_nil hne
    exact ⟨b :: (!b) :: core, by simp, by rw [← hcore, withPending_succ], .e3 hc hl hh msb straddle hloop⟩

/-- The bit a flush begins with, in arithmetic (42_encoder.md R163). -/
theorem flushBit_eq_decide (hc : c.Valid) (hl : low < c.hiBit) : flushBit c low = decide (c.lowBit ≤ low) := by
  have hdiv := div_lowBit hc low (by have := hc.two_hiBit; omega)
  rw [flushBit, Nat.and_one_is_mod, Nat.shiftRight_eq_div_pow]
  change decide (low / c.lowBit % 2 = 1) = _
  rw [hdiv, if_pos hl]
  refine decide_eq_decide.2 ?_
  split <;> omega

/-- The two bits that end a flush, in the window of a decoder, keep it inside the interval whatever bits follow (42_encoder.md R163). -/
theorem flush_inside (hc : c.Valid) (h : IntervalOk c low high) {head more : List Bool} (hhead : head.length = c.w)
    (hcore : [flushBit c low, !flushBit c low] <+: head ++ more) : low ≤ bitsValue head ∧ bitsValue head ≤ high := by
  obtain ⟨tail, rfl, htail, -⟩ := window_cons_cons hc hhead hcore
  have hlt := bitsValue_lt tail
  have hquarter : 2 ^ tail.length = c.lowBit := by rw [Config.lowBit, Config.lowBitPos, ← htail]; rfl
  have hhalf := hc.two_lowBit
  obtain ⟨-, -, hlow, hhigh, hwide⟩ := h
  rw [Config.threeQuarter] at hwide
  rw [bitsValue, bitsValue, List.length_cons, pow_succ, hquarter, flushBit_eq_decide hc hlow]
  rw [hquarter] at hlt
  by_cases hq : c.lowBit ≤ low
  · rw [decide_eq_true hq, Bool.not_true, Bool.toNat_true, Bool.toNat_false]
    omega
  · rw [decide_eq_false hq, Bool.not_false, Bool.toNat_true, Bool.toNat_false]
    omega

end

end Sys2Proof.Machine
end

section
/-! SUPPORT. The two sides of a session, command by command: what an ENC command that ends with OK has done, and the DEC command that
mirrors it on a window over the bits to come (43_decoder.md R198; 70_reset_and_hazards.md R254, R255). -/

namespace Sys2Proof.Machine

/-! ### The bits a reader will give (20_memory.md R59) -/

namespace Reader

variable {r : Reader}

theorem coming_append (bits : List Bool) (m : Nat) (r : Reader) :
    r.coming (bits.length + m) = r.coming bits.length ++ (r.past bits.length bits).coming m := by
  induction bits generalizing r with
  | nil => simp [past_zero, coming]
  | cons b bits ih =>
    rw [List.length_cons, Nat.succ_add_eq_add_succ, Nat.add_succ, coming_succ, coming_succ, ← past_succ, List.cons_append]
    exact congrArg _ (ih (r.answer.2.consume b))

/-- What comes after the bits taken. -/
theorem coming_past {taken : List Bool} {rest : List ReaderAnswer} {m : Nat}
    (h : r.coming (taken.length + m) = taken.map .bit ++ rest) :
    r.coming taken.length = taken.map .bit ∧ (r.past taken.length taken).coming m = rest := by
  rw [coming_append] at h
  exact List.append_inj h (by rw [coming_length, List.length_map])

theorem Supplying.past (h : r.Supplying) (k : Nat) (bits : List Bool) : (r.past k bits).Supplying := by
  obtain ⟨hbound, hafter, hscript⟩ := h
  refine ⟨hbound, hafter, fun a ha => hscript a ?_⟩
  simp only [Reader.past, hbound, if_true] at ha
  exact List.mem_of_mem_drop ha

/-- A reader that supplies bits has as many more as asked after those known to come. -/
theorem Supplying.coming_extends (h : r.Supplying) {bits : List Bool} (hbits : r.coming bits.length = bits.map .bit) (m : Nat) :
    ∃ more : List Bool, more.length = m ∧ r.coming (bits.length + m) = (bits ++ more).map .bit := by
  obtain ⟨more, hmore⟩ := (h.past bits.length bits).coming m
  refine ⟨more, ?_, by rw [coming_append, hbits, hmore, List.map_append]⟩
  rw [← List.length_map, ← hmore, coming_length]

end Reader

/-! ### Tables that agree, grown alike (40_model.md R125) -/

/-- M.INIT gives one table on both sides, whatever stood there (40_model.md R111). -/
theorem Model.init_agree {m m' : Model} {n : Nat} (hl : n < m.p.length) (hl' : n < m'.p.length) : (m.init n).Agree (m'.init n) := by
  refine ⟨rfl, fun i hi => ?_⟩
  rw [Model.init_n] at hi
  rw [Model.init_entry_of_fits hl, Model.init_entry_of_fits hl', if_pos hi, if_pos hi]

namespace Model.Agree

variable {m m' : Model} (h : m.Agree m')
include h

theorem grow {n2 : Nat} (hl : n2 < m.p.length) (hl' : n2 < m'.p.length) : (m.grow n2).Agree (m'.grow n2) := by
  refine ⟨rfl, fun i hi => ?_⟩
  rw [Model.grow_n] at hi
  rw [Model.grow_entry hl, Model.grow_entry hl', h.n, h.total]
  split
  · rfl
  · exact h.entry i (by omega)

theorem scaleLoop (c : Config) (fuel : Nat) (hl : m.n < m.p.length) (hl' : m.n < m'.p.length) {e : Model}
    (he : Model.scaleLoop c fuel m = some e) : ∃ e', Model.scaleLoop c fuel m' = some e' ∧ e.Agree e' := by
  induction fuel generalizing m m' with
  | zero =>
    rw [Model.scaleLoop] at he ⊢
    rw [h.total]
    split at he
    · cases he
    · rename_i hsmall
      exact ⟨m', if_neg hsmall, Option.some.inj he ▸ h⟩
  | succ fuel ih =>
    rw [Model.scaleLoop] at he ⊢
    rw [h.total]
    split at he
    · rename_i hfull
      rw [if_pos hfull]
      exact ih (h.scale hl hl') (by simpa using hl) (by simpa using hl') he
    · rename_i hsmall
      exact ⟨m', if_neg hsmall, Option.some.inj he ▸ h⟩

theorem expand (c : Config) {n2 : Nat} (hl : n2 < m.p.length) (hl' : n2 < m'.p.length) {e : Model}
    (he : m.expand c n2 = some e) : ∃ e', m'.expand c n2 = some e' ∧ e.Agree e' :=
  (h.grow hl hl').scaleLoop c c.w (by simpa using hl) (by simpa using hl') he

end Model.Agree

/-! ### ENC commands that answer OK -/

section
variable {s t : State} {r : Response} {n n2 sym : Nat}

/-- A command of ENC that answers OK passed its checks. -/
theorem encChecked_passed_of_ok {accepted : Bool} {check : Option Status} {effect : Host.Outcome State Fault Refusal}
    (hcheck : check ≠ some .ok) (h : encChecked accepted check s effect = .next t) (hctl : t.enc.ctl = .responding r)
    (hr : r.status = .ok) : accepted = true ∧ check = none ∧ effect = .next t := by
  rcases encChecked_cases accepted check s effect with ⟨-, e⟩ | ⟨-, st, rfl, e⟩ | ⟨ha, hn, e⟩
  · obtain rfl := Host.Outcome.next.inj (e.symm.trans h)
    obtain rfl := Ctl.responding.inj hctl
    cases hr
  · obtain rfl := Host.Outcome.next.inj (e.symm.trans h)
    obtain rfl := Ctl.responding.inj hctl
    exact absurd (congrArg some hr) hcheck
  · exact ⟨ha, hn, e.symm.trans h⟩

/-- ENC.INIT that answers OK (42_encoder.md R160). -/
theorem issue_encInit_ok (h : issue (.encInit n) s = some (r, t)) (hr : r.status = .ok) :
    (1 ≤ n ∧ n < s.cfg.maxTotal ∧ n ≤ s.cfg.nmax) ∧ t.enc = { s.enc with
      model := s.enc.model.init n, low := 0, high := s.cfg.windowMask, underflow := 0, tmpRange := 0, mode := .ready, ctl := .ready } := by
  obtain ⟨-, x, hexec, hctl, rfl⟩ := issue_some h
  rw [exec, execEncInit] at hexec
  obtain ⟨-, hcheck, he⟩ := encChecked_passed_of_ok (fun hst => absurd (initCheck_some hst) (by decide)) hexec hctl hr
  obtain rfl := Host.Outcome.next.inj he
  obtain ⟨h1, -, h2, h3⟩ := initCheck_none.1 hcheck
  exact ⟨⟨h1, h2, h3⟩, rfl⟩

/-- ENC.EXPAND that answers OK (42_encoder.md R161). -/
theorem issue_encExpand_ok (h : issue (.encExpand n2) s = some (r, t)) (hr : r.status = .ok) :
    (s.enc.model.n < n2 ∧ n2 ≤ s.cfg.nmax) ∧ ∃ m, s.enc.model.expand s.cfg n2 = some m ∧
      t.enc = { s.enc with model := m, ctl := .ready } := by
  obtain ⟨-, x, hexec, hctl, rfl⟩ := issue_some h
  rw [exec, execEncExpand] at hexec
  obtain ⟨-, hcheck, he⟩ := encChecked_passed_of_ok (fun hst => absurd (expandCheck_some hst) (by decide)) hexec hctl hr
  obtain ⟨h1, -, h2⟩ := expandCheck_none.1 hcheck
  refine ⟨⟨h1, h2⟩, ?_⟩
  cases hm : s.enc.model.expand s.cfg n2 with
  | none => rw [hm] at he; cases he
  | some m =>
    rw [hm] at he
    obtain rfl := Host.Outcome.next.inj he
    exact ⟨m, rfl, rfl⟩

/-- A run of emits that is done has given the writer its bits. -/
theorem Writer.emitAll_done {bits : List Bool} {w w' : Writer} (h : w.emitAll bits = (.done, w')) :
    w'.accepted = w.accepted ++ bits := by
  obtain ⟨-, -, k, -, haccepted, hdone, -⟩ := emitAll_cases bits w
  rw [h] at haccepted hdone
  rw [haccepted, hdone rfl, List.take_length]

/-- ENC.FLUSH in READY that answers OK has emitted its bits (42_encoder.md R163). -/
theorem issue_encFlush_ok (hm : s.enc.mode = .ready) (h : issue (.encFlush false) s = some (r, t)) (hr : r.status = .ok) :
    t.writer.accepted = s.writer.accepted ++ flushBits s.cfg s.enc := by
  obtain ⟨-, x, hexec, hctl, rfl⟩ := issue_some h
  rw [exec_encFlush_runs (.inl hm)] at hexec
  obtain rfl := Host.Outcome.next.inj hexec
  rw [deliver_writer]
  unfold encFlushRun at hctl ⊢
  split at hctl
  · obtain rfl := Ctl.responding.inj hctl
    cases hr
  · rename_i hroom
    rw [if_neg hroom]
    rcases hw : s.writer.emitAll (flushBits s.cfg s.enc) with ⟨_ | _ | b, w⟩ <;> rw [hw] at hctl <;> dsimp only at hctl ⊢
    · split <;> exact Writer.emitAll_done hw
    · obtain rfl := Ctl.responding.inj hctl
      cases hr
    · exact absurd hctl ((encStallCtl_ne _ _ _).2.1 r)

/-- What ENC.SYM `sym`, answered OK, has done from `s` to `t`: its loop emitted `bits`. -/
structure SymbolEncoded (sym : Nat) (bits : List Bool) (s t : State) : Prop where
  sym_lt : sym < s.enc.model.n
  loop : EncLoop s.cfg (narrow s.enc.model sym s.enc.low s.enc.high).low (narrow s.enc.model sym s.enc.low s.enc.high).high
    s.enc.underflow bits t.enc.low t.enc.high t.enc.underflow
  accepted : t.writer.accepted = s.writer.accepted ++ bits
  mode : t.enc.mode = s.enc.mode
  range : t.enc.tmpRange = (narrow s.enc.model sym s.enc.low s.enc.high).tmpRange
  model : t.enc.model = (s.enc.model.update sym).scaleMaybe s.cfg

/-- ENC.SYM that answers OK (42_encoder.md R162): the loop as a relation, and the writer has its bits. -/
theorem issue_encSym_ok (hinv : Inv s) (h : issue (.encSym sym) s = some (r, t)) (hr : r.status = .ok) :
    ∃ bits, SymbolEncoded sym bits s t := by
  obtain ⟨-, x, hexec, hctl, rfl⟩ := issue_some h
  obtain ⟨hm, hs⟩ := exec_encSym_ok_accepted hexec hctl hr
  obtain ⟨run, hrun, -, rfl⟩ := exec_encSym_ok hm hs hexec hctl hr
  obtain ⟨hle, hfits, hfuel⟩ := encSymbol_start hinv.cfg hinv.enc hm hs
  obtain ⟨bits, hloop, -⟩ := EncRun.loop_of_renorm hinv.cfg _ _ _ hle hfits hfuel hrun
  refine ⟨bits, hs, hloop, ?_, rfl, rfl, rfl⟩
  have hends := encSymbolRun_of_loop hinv.cfg hinv.enc hm hs hloop true
  rw [hrun] at hends
  unfold EncRun.afterBits at hends
  rcases hw : s.writer.emitAll bits with ⟨_ | _ | b, w⟩ <;> rw [hw] at hends <;> dsimp only at hends
  · have hwriter : run.writer = w := congrArg EncRun.writer (Prod.mk.inj hends).2
    exact (congrArg Writer.accepted hwriter).trans (Writer.emitAll_done hw)
  · cases hends.1
  · cases hends.1

end

/-! ### DEC in step with ENC -/

/-- DEC in `y` is ready, with the interval and the table that ENC has in `x` (43_decoder.md R198). -/
structure InStep (x y : State) : Prop where
  enc_inv : Inv x
  dec_inv : Inv y
  cfg : y.cfg = x.cfg
  enc_mode : x.enc.mode = .ready
  dec_mode : y.dec.mode = .ready
  dec_idle : y.cmdReady .dec = true
  low : y.dec.low = x.enc.low
  high : y.dec.high = x.enc.high
  range : y.dec.tmpRange = x.enc.tmpRange
  agree : x.enc.model.Agree y.dec.model

/-- DEC has the bits `head` in its window, and its reader gives `more` next. -/
structure Window (y : State) (head more : List Bool) : Prop where
  length : head.length = y.cfg.w
  code : y.dec.code = bitsValue head
  coming : y.reader.coming more.length = more.map .bit

/-- What the host gets when it issues a command of DEC that ends with OK, and the port after it (30_encoding.md R82, R83). -/
theorem issue_dec_of_exec {i : Instr} {y z : State} {data : Nat} (hi : i.unit = .dec) (hready : y.cmdReady .dec = true)
    (hexec : exec i y = .next (respondDec data z)) :
    issue i y = some (okResponse data, deliver .dec (okResponse data) (respondDec data z)) ∧
      (deliver .dec (okResponse data) (respondDec data z)).cmdReady .dec = true := by
  have hrst : z.rst = false := by
    have hframe : z.rst = y.rst := (congrArg State.rst (exec_dec_frame hi hexec)).trans (State.decSideIn_rst _ _)
    rw [hframe]
    simp only [State.cmdReady, Bool.and_eq_true, Bool.not_eq_true'] at hready
    exact hready.1
  have hresponse : (respondDec data z).response .dec = some (okResponse data) := by
    simp [State.response, hrst, State.ctl, okResponse]
  refine ⟨?_, by simp [State.cmdReady, deliver, freePort, hrst, State.ctl]⟩
  rw [issue, hi, if_pos hready, hexec]
  simp only [hresponse]

section
variable {x x' y : State} {n n2 sym : Nat} {r : Response}

/-- DEC.INIT takes the first `W` bits into its window (43_decoder.md R190). -/
theorem issue_decInit_inStep (hx : Inv x) (hy : Inv y) (hcfg : y.cfg = x.cfg) (hready : y.cmdReady .dec = true)
    (hbound : y.reader.bound = true) (henc : issue (.encInit n) x = some (r, x')) (hr : r.status = .ok) {head more : List Bool}
    (hhead : head.length = y.cfg.w) (hcoming : y.reader.coming (head ++ more).length = (head ++ more).map .bit) :
    ∃ y', issue (.decInit n) y = some (okResponse 0, y') ∧ InStep x' y' ∧ Window y' head more ∧
      y'.reader.taken = y.reader.taken ++ head := by
  obtain ⟨⟨h1, h2, h3⟩, hx'⟩ := issue_encInit_ok henc hr
  obtain ⟨hinvx, hcfgx⟩ := issue_inv hx henc
  rw [List.length_append, List.map_append] at hcoming
  obtain ⟨htake, hcoming⟩ := Reader.coming_past hcoming
  rw [hhead] at htake hcoming
  rw [← hcfg] at h2 h3
  have hexec := exec_decInit_passed h1 h3 h2 hbound
  rw [decInitRun, Reader.takeField_value htake] at hexec
  obtain ⟨hissue, hidle⟩ := issue_dec_of_exec rfl hready hexec
  obtain ⟨hinvy, hcfgy⟩ := issue_inv hy hissue
  have hlen := hx.enc.table_length
  have hlen' := hy.dec.table_length
  have hagree : (x.enc.model.init n).Agree (y.dec.model.init n) := Model.init_agree (by rw [← hcfg] at hlen; omega) (by omega)
  have hstep : InStep x' _ :=
    { enc_inv := hinvx, dec_inv := hinvy, cfg := (hcfgy.trans hcfg).trans hcfgx.symm, enc_mode := by rw [hx'], dec_mode := rfl
      dec_idle := hidle, low := by rw [hx']; rfl, high := by rw [hx', ← hcfg]; rfl, range := by rw [hx']; rfl
      agree := by rw [hx']; exact hagree }
  exact ⟨_, hissue, hstep, ⟨hhead.trans (congrArg _ hcfgy.symm), rfl, hcoming⟩, rfl⟩

/-- DEC.EXPAND in step (43_decoder.md R191, 40_model.md R125). -/
theorem InStep.decExpand (h : InStep x y) (henc : issue (.encExpand n2) x = some (r, x')) (hr : r.status = .ok) {head more : List Bool}
    (hw : Window y head more) :
    ∃ y', issue (.decExpand n2) y = some (okResponse 0, y') ∧ InStep x' y' ∧ Window y' head more ∧
      y'.reader.taken = y.reader.taken := by
  obtain ⟨⟨h1, h2⟩, m, hm, hx'⟩ := issue_encExpand_ok henc hr
  obtain ⟨hinvx, hcfgx⟩ := issue_inv h.enc_inv henc
  have hlen := h.enc_inv.enc.table_length
  have hlen' := h.dec_inv.dec.table_length
  rw [h.cfg] at hlen'
  obtain ⟨m', hm', hagree⟩ := h.agree.expand x.cfg (by omega) (by omega) hm
  rw [← h.cfg] at h2 hm'
  have hexec := exec_decExpand h.dec_inv.cfg h.dec_mode (by rw [h.agree.n]; exact h1) h2 hm'
  obtain ⟨hissue, hidle⟩ := issue_dec_of_exec rfl h.dec_idle hexec
  obtain ⟨hinvy, hcfgy⟩ := issue_inv h.dec_inv hissue
  have hstep : InStep x' _ :=
    { enc_inv := hinvx, dec_inv := hinvy, cfg := (hcfgy.trans h.cfg).trans hcfgx.symm, enc_mode := by rw [hx']; exact h.enc_mode
      dec_mode := h.dec_mode, dec_idle := hidle, low := by rw [hx']; exact h.low, high := by rw [hx']; exact h.high
      range := by rw [hx']; exact h.range, agree := by rw [hx']; exact hagree }
  exact ⟨_, hissue, hstep, ⟨hw.length.trans (congrArg _ hcfgy.symm), hw.code, hw.coming⟩, rfl⟩

/-- A code inside the interval narrowed to `sym` has a scaled code inside the sub-interval of `sym` (41_range_arith.md R150). -/
theorem scaledCode_of_narrow {m : Model} {low high code : Nat} (hm : m.Monotone) (hs : sym < m.n) (ht : m.total < high - low + 1)
    (hlow : low ≤ code) (h1 : (narrow m sym low high).low ≤ code) (h2 : code ≤ (narrow m sym low high).high) :
    m.entry sym ≤ scaledCode m low high code ∧ scaledCode m low high code < m.entry (sym + 1) := by
  have hmono := hm.mono sym hs
  have hpos : 0 < m.total := by have := hm.le_total (i := sym + 1) hs; omega
  refine ⟨(le_scaledCode_iff m low high code _ hlow hpos).2 h1, not_le.1 fun hle => ?_⟩
  have hbound := (le_scaledCode_iff m low high code _ hlow hpos).1 hle
  have hone : 1 ≤ (high - low + 1) * m.entry (sym + 1) / m.total :=
    Nat.div_pos (ht.le.trans (Nat.le_mul_of_pos_right _ (by omega))) hpos
  simp only [narrow, Model.freqHigh] at h2
  omega

/-- DEC.SYM in step: when the window lies in the interval narrowed to `sym` and DEC's loop goes as ENC's did, it answers `sym`
(43_decoder.md R192, R198). -/
theorem InStep.decSym (h : InStep x y) {bits : List Bool} (henc : issue (.encSym sym) x = some (r, x')) (he : SymbolEncoded sym bits x x')
    {head head' taken rest : List Bool} (hw : Window y head (taken ++ rest)) (hhead' : head'.length = x.cfg.w)
    (h1 : (narrow x.enc.model sym x.enc.low x.enc.high).low ≤ bitsValue head)
    (h2 : bitsValue head ≤ (narrow x.enc.model sym x.enc.low x.enc.high).high)
    (hdec : DecLoop x.cfg (narrow x.enc.model sym x.enc.low x.enc.high).low (narrow x.enc.model sym x.enc.low x.enc.high).high
      (bitsValue head) taken x'.enc.low x'.enc.high (bitsValue head')) :
    ∃ y', issue .decSym y = some (okResponse sym, y') ∧ InStep x' y' ∧ Window y' head' rest ∧
      y'.reader.taken = y.reader.taken ++ taken := by
  have hcoming := hw.coming
  rw [List.length_append, List.map_append] at hcoming
  obtain ⟨htake, hcoming⟩ := Reader.coming_past hcoming
  have hs : sym < y.dec.model.n := by rw [h.agree.n]; exact he.sym_lt
  have hnarrow : narrow y.dec.model sym y.dec.low y.dec.high = narrow x.enc.model sym x.enc.low x.enc.high := by
    rw [h.low, h.high, h.agree.narrow he.sym_lt]
  rw [← hnarrow, ← hw.code] at h1 h2
  rw [← hnarrow, ← hw.code, ← h.cfg] at hdec
  have hinv := h.dec_inv.dec
  have htable := hinv.table h.dec_mode
  have hwidth := interval_width h.dec_inv.cfg _ _ (hinv.interval h.dec_mode)
  have htotal : y.dec.model.total < y.dec.high - y.dec.low + 1 := by
    have hbounded : _ < y.cfg.lowBit := htable.bounded
    omega
  obtain ⟨hq1, hq2⟩ := scaledCode_of_narrow htable.monotone hs htotal (hinv.code_ge h.dec_mode) h1 h2
  obtain ⟨-, hexec⟩ := exec_decSym_of_loop h.dec_inv.cfg hinv h.dec_mode hs hq1 hq2 hdec htake
  obtain ⟨hissue, hidle⟩ := issue_dec_of_exec rfl h.dec_idle hexec
  obtain ⟨hinvx, hcfgx⟩ := issue_inv h.enc_inv henc
  obtain ⟨hinvy, hcfgy⟩ := issue_inv h.dec_inv hissue
  have hlenx : x.enc.model.n < x.enc.model.p.length := by have := h.enc_inv.enc.table_length; have := h.enc_inv.enc.n_le; omega
  have hleny : x.enc.model.n < y.dec.model.p.length := by
    have := hinv.table_length
    have := hinv.n_le
    rw [← h.agree.n]
    omega
  have hagree := h.agree.afterSymbol y.cfg sym hlenx hleny
  have hstep : InStep x' _ :=
    { enc_inv := hinvx, dec_inv := hinvy, cfg := (hcfgy.trans h.cfg).trans hcfgx.symm, enc_mode := he.mode.trans h.enc_mode
      dec_mode := h.dec_mode, dec_idle := hidle, low := rfl, high := rfl
      range := (congrArg Narrowed.tmpRange hnarrow).trans he.range.symm, agree := by rw [he.model, ← h.cfg]; exact hagree }
  exact ⟨_, hissue, hstep, ⟨hhead'.trans (by rw [hcfgy, h.cfg]), rfl, hcoming⟩, rfl⟩

end

end Sys2Proof.Machine
end

section
/-! SUPPORT. The round trip of a session (43_decoder.md R198): backwards over the session, the bits it emits keep a decoder's window inside
ENC's interval (`SessionCode`), so that a decoder whose window begins them goes in step with ENC to the end (`MirroredRun`). -/

namespace Sys2Proof.Machine

/-! ### Two runs in step -/

/-- The operations of a session, run by ENC from `x` and by DEC from `y`, in step before and after each of them; DEC takes the bits. -/
inductive MirroredRun : List SessionOp → State → State → List Bool → Prop where
  | done {x y : State} (hstep : InStep x y) : MirroredRun [] x y []
  | next {op : SessionOp} {ops : List SessionOp} {x y x' y' : State} {r : Response} {taken rest : List Bool} (hstep : InStep x y)
      (henc : issue op.encode x = some (r, x')) (hdec : issue op.decode y = some (op.answer, y'))
      (htaken : y'.reader.taken = y.reader.taken ++ taken) (hrest : MirroredRun ops x' y' rest) :
      MirroredRun (op :: ops) x y (taken ++ rest)

/-- DEC answers every operation, and has taken the bits. -/
theorem MirroredRun.decodes {ops : List SessionOp} {x y : State} {bits : List Bool} (h : MirroredRun ops x y bits) :
    ∃ z, issueAll (ops.map SessionOp.decode) y = some (ops.map SessionOp.answer, z) ∧ z.reader.taken = y.reader.taken ++ bits := by
  induction h with
  | @done x y _ => exact ⟨y, rfl, (List.append_nil _).symm⟩
  | next _ _ hdec htaken _ ih =>
    obtain ⟨z, hall, hz⟩ := ih
    exact ⟨z, issueAll_cons_eq_some.2 ⟨_, _, _, hdec, hall, rfl⟩, by rw [hz, htaken, List.append_assoc]⟩

/-- After any number of the operations the two are in step. -/
theorem MirroredRun.inStep {ops : List SessionOp} {x y : State} {bits : List Bool} (h : MirroredRun ops x y bits) (k : Nat) :
    ∃ (x' y' : State) (rs : List Response), issueAll ((ops.take k).map SessionOp.encode) x = some (rs, x') ∧
      issueAll ((ops.take k).map SessionOp.decode) y = some ((ops.take k).map SessionOp.answer, y') ∧ InStep x' y' := by
  induction h generalizing k with
  | @done x y hstep => exact ⟨x, y, [], by rw [List.take_nil]; rfl, by rw [List.take_nil]; rfl, hstep⟩
  | @next op ops x y _ _ r _ _ hstep henc hdec _ _ ih =>
    cases k with
    | zero => exact ⟨x, y, [], rfl, rfl, hstep⟩
    | succ k =>
      obtain ⟨x', y', rs, hx, hy, hstep'⟩ := ih k
      exact ⟨x', y', r :: rs, issueAll_cons_eq_some.2 ⟨_, _, _, henc, hx, rfl⟩,
        issueAll_cons_eq_some.2 ⟨_, _, _, hdec, hy, rfl⟩, hstep'⟩

/-! ### The bits of a session, backwards from its flush -/

/-- `core` are bits that the session `ops` from `x`, with its flush, still owes a decoder: a window that begins them lies in ENC's
interval, and decodes the session. The two bits of the flush are never taken into the window. -/
structure SessionCode (ops : List SessionOp) (x : State) (core : List Bool) : Prop where
  length_ge : 2 ≤ core.length
  inside : ∀ head more : List Bool, head.length = x.cfg.w → more.length + 2 = core.length → core <+: head ++ more →
    x.enc.low ≤ bitsValue head ∧ bitsValue head ≤ x.enc.high
  run : ∀ (y : State) (head more : List Bool), InStep x y → Window y head more → more.length + 2 = core.length →
    core <+: head ++ more → MirroredRun ops x y more

section
variable {x x' : State} {r : Response} {ops : List SessionOp} {next : List Bool}

/-- The flush alone (42_encoder.md R163). -/
theorem SessionCode.flush (hx : Inv x) (hm : x.enc.mode = .ready) :
    SessionCode [] x [flushBit x.cfg x.enc.low, !flushBit x.cfg x.enc.low] where
  length_ge := le_rfl
  inside _ _ hhead _ hcore := flush_inside hx.cfg (hx.enc.interval (.inl hm)) hhead hcore
  run y _ more hstep _ hlen _ := by
    obtain rfl : more = [] := List.eq_nil_of_length_eq_zero (by simpa using hlen)
    exact .done hstep

/-- A growth of the alphabet moves no bits (40_model.md R125). -/
theorem SessionCode.expand (hx : Inv x) {n2 : Nat} (henc : issue (.encExpand n2) x = some (r, x')) (hr : r.status = .ok)
    (hnext : SessionCode ops x' next) : SessionCode (.expand n2 :: ops) x next where
  length_ge := hnext.length_ge
  inside head more hhead := by
    obtain ⟨-, m, -, hx'⟩ := issue_encExpand_ok henc hr
    have hin := hnext.inside head more (hhead.trans (congrArg Config.w (issue_inv hx henc).2.symm))
    rw [hx'] at hin
    exact hin
  run y head more hstep hw hlen hcore := by
    obtain ⟨y', hdec, hstep', hw', htaken⟩ := hstep.decExpand henc hr hw
    exact .next (taken := []) hstep henc hdec (by rw [htaken, List.append_nil]) (hnext.run y' head more hstep' hw' hlen hcore)

/-- A window that begins the bits before a loop of ENC: DEC's loop moves it on to the bits owed after that loop, and so it lies in the
interval that the loop began with (41_range_arith.md R142). -/
theorem SessionCode.window_moves (hnext : SessionCode ops x' next) {c : Config} (hcfg : x'.cfg = c) {low high : Nat} {core : List Bool}
    (hloop : WindowLoop c low high core x'.enc.low x'.enc.high next) {head more : List Bool} (hhead : head.length = c.w)
    (hlen : more.length + 2 = core.length) (hcore : core <+: head ++ more) :
    ∃ taken rest head' : List Bool, more = taken ++ rest ∧ rest.length + 2 = next.length ∧ head'.length = c.w ∧
      next <+: head' ++ rest ∧ DecLoop c low high (bitsValue head) taken x'.enc.low x'.enc.high (bitsValue head') ∧
      low ≤ bitsValue head ∧ bitsValue head ≤ high := by
  have hle := hloop.length_le
  have hge := hnext.length_ge
  have hsplit := List.take_append_drop (core.length - next.length) more
  have htaken : (more.take (core.length - next.length)).length + next.length = core.length := by rw [List.length_take]; omega
  have hrest : (more.drop (core.length - next.length)).length + 2 = next.length := by rw [List.length_drop]; omega
  rw [← hsplit] at hcore
  obtain ⟨head', hhead', hpre, hdec, hback⟩ := hloop.moves head _ _ hhead htaken hcore
  exact ⟨_, _, head', hsplit.symm, hrest, hhead', hpre, hdec, hback (hnext.inside head' _ (by rw [hcfg, hhead']) hrest hpre)⟩

/-- A symbol narrows the interval and shifts its bits through the window (41_range_arith.md R140, R142). -/
theorem SessionCode.sym (hx : Inv x) (hm : x.enc.mode = .ready) {a : Nat} {bits core : List Bool}
    (henc : issue (.encSym a) x = some (r, x')) (he : SymbolEncoded a bits x x') (hnext : SessionCode ops x' next)
    (hloop : WindowLoop x.cfg (narrow x.enc.model a x.enc.low x.enc.high).low (narrow x.enc.model a x.enc.low x.enc.high).high core
      x'.enc.low x'.enc.high next) : SessionCode (.sym a :: ops) x core where
  length_ge := hnext.length_ge.trans hloop.length_le
  inside head more hhead hlen hcore := by
    obtain ⟨_, _, _, -, -, -, -, -, h1, h2⟩ := hnext.window_moves (issue_inv hx henc).2 hloop hhead hlen hcore
    obtain ⟨hlow, -, hhigh, -⟩ :=
      symbol_start hx.cfg x.enc.model a x.enc.low x.enc.high (hx.enc.table (.inl hm)) (hx.enc.interval (.inl hm)) he.sym_lt
    exact ⟨hlow.trans h1, h2.trans hhigh⟩
  run y head more hstep hw hlen hcore := by
    obtain ⟨taken, rest, head', rfl, hrest, hhead', hpre, hdec, h1, h2⟩ :=
      hnext.window_moves (issue_inv hx henc).2 hloop (by rw [hw.length, hstep.cfg]) hlen hcore
    obtain ⟨y', hissue, hstep', hw', htaken⟩ := hstep.decSym henc he hw hhead' h1 h2 hdec
    exact .next hstep henc hissue htaken (hnext.run y' head' rest hstep' hw' hrest hpre)

end

/-- What a session that ends with OK emits, from an ENC in READY, is `withPending` of its code. -/
theorem exists_sessionCode {ops : List SessionOp} {x t : State} {rs : List Response} (hx : Inv x) (hm : x.enc.mode = .ready)
    (hall : issueAll (ops.map SessionOp.encode ++ [.encFlush false]) x = some (rs, t)) (hok : ∀ r ∈ rs, r.status = .ok) :
    ∃ core, t.writer.accepted = x.writer.accepted ++ withPending x.enc.underflow core ∧ SessionCode ops x core := by
  induction ops generalizing x rs with
  | nil =>
    obtain ⟨r, z, rs', hi, hnil, rfl⟩ := issueAll_cons_eq_some.1 hall
    obtain ⟨rfl, rfl⟩ := Prod.mk.inj (Option.some.inj hnil)
    refine ⟨_, ?_, .flush hx hm⟩
    rw [issue_encFlush_ok hm hi (hok r (by simp)), flushBits, withPending, List.replicate_succ']
  | cons op ops ih =>
    rw [List.map_cons, List.cons_append] at hall
    obtain ⟨r, x', rs', hi, hrest, rfl⟩ := issueAll_cons_eq_some.1 hall
    have hr : r.status = .ok := hok r (by simp)
    have hok' : ∀ r ∈ rs', r.status = .ok := fun r' hr' => hok r' (by simp [hr'])
    have hx' := (issue_inv hx hi).1
    cases op with
    | sym a =>
      obtain ⟨bits, he⟩ := issue_encSym_ok hx hi hr
      obtain ⟨next, haccepted, hnext⟩ := ih hx' (he.mode.trans hm) hrest hok'
      obtain ⟨hle, hfits, -⟩ := encSymbol_start hx.cfg hx.enc hm he.sym_lt
      have hne : next ≠ [] := by rintro rfl; exact absurd hnext.length_ge (by simp)
      obtain ⟨core, -, hcore, hloop⟩ := he.loop.windowLoop hx.cfg hle hfits hne
      exact ⟨core, by rw [haccepted, he.accepted, hcore, List.append_assoc], .sym hx hm hi he hnext hloop⟩
    | expand n2 =>
      obtain ⟨-, m, -, henc⟩ := issue_encExpand_ok hi hr
      obtain ⟨core, haccepted, hnext⟩ := ih hx' (by rw [henc]; exact hm) hrest hok'
      refine ⟨core, ?_, .expand hx hi hr hnext⟩
      rw [haccepted, issue_quiet rfl hi, henc]

/-- A session from ENC.INIT to its flush, and a decoder whose reader gives its bits: INIT on both sides, then two runs in step. -/
theorem session_mirrored {n : Nat} {ops : List SessionOp} {s t d : State} {rs : List Response} {bits : List Bool} (hs : Inv s)
    (hd : Inv d) (hcfg : d.cfg = s.cfg)
    (hall : issueAll (.encInit n :: (ops.map SessionOp.encode ++ [.encFlush false])) s = some (rs, t)) (hok : ∀ r ∈ rs, r.status = .ok)
    (hbits : t.writer.accepted = s.writer.accepted ++ bits) (hready : d.cmdReady .dec = true) (hbound : d.reader.bound = true)
    (hsupply : d.reader.Supplying) (hcoming : d.reader.coming bits.length = bits.map .bit) :
    ∃ (x y : State) (r : Response) (head more : List Bool), issue (.encInit n) s = some (r, x) ∧
      issue (.decInit n) d = some (okResponse 0, y) ∧ y.reader.taken = d.reader.taken ++ head ∧ MirroredRun ops x y more ∧
      (head ++ more).length + 2 = bits.length + s.cfg.w := by
  obtain ⟨r, x, rs', henc, hrest, rfl⟩ := issueAll_cons_eq_some.1 hall
  have hr : r.status = .ok := hok r (by simp)
  obtain ⟨-, hx⟩ := issue_encInit_ok henc hr
  obtain ⟨core, haccepted, hcode⟩ := exists_sessionCode (issue_inv hs henc).1 (by rw [hx]) hrest fun r' hr' => hok r' (by simp [hr'])
  obtain rfl : bits = core := by
    rw [issue_quiet rfl henc, hx, withPending_zero, hbits] at haccepted
    exact List.append_cancel_left haccepted
  obtain ⟨extra, hextra, hstream⟩ := hsupply.coming_extends hcoming (d.cfg.w - 2)
  have hw := hd.cfg.w_ge
  have hge := hcode.length_ge
  have hlen : (bits ++ extra).length = bits.length + (d.cfg.w - 2) := by rw [List.length_append, hextra]
  have hhead : ((bits ++ extra).take d.cfg.w).length = d.cfg.w := by rw [List.length_take]; omega
  have hmore : ((bits ++ extra).drop d.cfg.w).length + 2 = bits.length := by rw [List.length_drop]; omega
  rw [← hlen, ← List.take_append_drop d.cfg.w (bits ++ extra)] at hstream
  obtain ⟨y, hdec, hstep, hwindow, htaken⟩ := issue_decInit_inStep hs hd hcfg hready hbound henc hr hhead hstream
  refine ⟨x, y, r, _, _, henc, hdec, htaken, hcode.run y _ _ hstep hwindow hmore ?_, ?_⟩
  · rw [List.take_append_drop]
    exact List.prefix_append bits extra
  · rw [List.take_append_drop, hlen, ← hcfg]
    omega

/-- Settles O57: the session's bits decode in step with ENC (`session_mirrored`), to the end (`MirroredRun.decodes`) and after each command
(`MirroredRun.inStep`). -/
theorem roundTrip : Obligations.RoundTrip := by
  intro n ops s t d rs bits hs hd hcfg hall hok hbits hready hbound hsupply hcoming
  obtain ⟨x, y, r, head, more, henc, hdec, htaken, hrun, hlen⟩ :=
    session_mirrored hs hd hcfg hall hok hbits hready hbound hsupply hcoming
  refine ⟨?_, fun k _ => ?_⟩
  · obtain ⟨z, hz, htakenz⟩ := hrun.decodes
    exact ⟨z, head ++ more, issueAll_cons_eq_some.2 ⟨_, _, _, hdec, hz, rfl⟩, by rw [htakenz, htaken, List.append_assoc], hlen⟩
  · obtain ⟨x', y', rs', hx', hy', hstep⟩ := hrun.inStep k
    exact ⟨x', y', r :: rs', issueAll_cons_eq_some.2 ⟨_, _, _, henc, hx', rfl⟩, issueAll_cons_eq_some.2 ⟨_, _, _, hdec, hy', rfl⟩,
      hstep.low, hstep.high, hstep.range, hstep.agree.n, hstep.agree.entry⟩

end Sys2Proof.Machine
end

section
/-! SUPPORT. The statuses commands can end with: InvalidState from the mode check alone, and past it the errors of the operand checks and
of the micro-steps (60_exceptions.md R221, R224, R226, R237). -/

namespace Sys2Proof.Machine

/-! ### Refusals (R224) -/

/-- Settles O15, by the four ways a command can end (`exec_end`): only one of them answers a refusal. -/
theorem refusalsChangeNothing : Obligations.RefusalsChangeNothing := by
  refine ⟨fun i s t r hexec hctl hrefusal => ?_, fun u w e s hdecode => ?_⟩
  · cases exec_end hexec with
    | refused st hst ht =>
      rw [ht, raise_ctl, Ctl.responding.injEq] at hctl
      subst hctl
      exact ht.trans (raise_of_refusal i.unit st s hst)
    | faulted st x hst _ _ _ ht =>
      rw [ht, raise_ctl, Ctl.responding.injEq] at hctl
      subst hctl
      exact absurd ((Status.isFault_of_isRefusal hrefusal).symm.trans hst) Bool.false_ne_true
    | stalled _ _ hnone => exact absurd hctl (hnone r)
    | completed data hdone =>
      rw [hdone, Ctl.responding.injEq] at hctl
      subst hctl
      cases hrefusal
  · rw [accept, hdecode, ← raise_of_refusal u .illegalCommand s rfl]

/-- Settles O21: the symbol check fails, and a failed check answers its status and changes nothing (`encChecked_refused`). -/
theorem symbolOutOfRange : Obligations.SymbolOutOfRange := fun _ _ hm hsym =>
  ⟨encChecked_refused (accepts_encSym_iff.2 hm) (if_pos hsym) rfl _, encChecked_refused (accepts_encEst_iff.2 hm) (if_pos hsym) rfl _⟩

/-! ### The mode check (R226) -/

/-- The command passes its mode check: its mode is accepted, and READREG does not name TOTAL in UNINIT (R169, R197). -/
def passesModeCheck (i : Instr) (s : State) : Bool :=
  match i with
  | .encReadreg reg => accepts (.encReadreg reg) s.enc.mode && !decide (reg = 7 ∧ s.enc.mode = .uninit)
  | .decReadreg reg => accepts (.decReadreg reg) s.dec.mode && !decide (reg = 7 ∧ s.dec.mode = .uninit)
  | i => accepts i (s.mode i.unit)

theorem passesModeCheck_iff {i : Instr} {s : State} : passesModeCheck i s = true ↔
    accepts i (s.mode i.unit) = true ∧ ¬((i = .encReadreg 7 ∨ i = .decReadreg 7) ∧ s.mode i.unit = .uninit) := by
  cases i with
  | encReadreg | decReadreg => simp [passesModeCheck, Instr.unit, State.mode, ← not_and_or]
  | _ => simp [passesModeCheck]

section
variable {s : State} {accepted : Bool} {check : Option Status} {effect : Host.Outcome State Fault Refusal}

theorem encChecked_not_accepted (ha : accepted = false) :
    encChecked accepted check s effect = .next (s.answered .enc (errorResponse .invalidState)) := by
  rw [ha, ← raise_of_refusal .enc .invalidState s rfl]
  rfl

theorem decChecked_not_accepted (ha : accepted = false) :
    decChecked accepted check s effect = .next (s.answered .dec (errorResponse .invalidState)) := by
  rw [ha, ← raise_of_refusal .dec .invalidState s rfl]
  rfl

/-- A command that its mode check refuses. -/
theorem exec_of_not_passed {i : Instr} (h : passesModeCheck i s = false) :
    exec i s = .next (s.answered i.unit (errorResponse .invalidState)) := by
  cases i with
  | encInit | encExpand | encSym | encFlush | encEst | encSave | encRestore | encDelete | encReadp | encReadreg =>
    simp only [exec, execEncInit, execEncExpand, execEncSym, execEncFlush, execEncEst, execEncSave, execEncRestore, execEncDelete,
      execEncReadp, execEncReadreg]
    exact encChecked_not_accepted h
  | decInit | decExpand | decSym | decSave | decRestore | decDelete | decReadp | decReadreg =>
    simp only [exec, execDecInit, execDecExpand, execDecSym, execDecSave, execDecRestore, execDecDelete, execDecReadp, execDecReadreg]
    exact decChecked_not_accepted h

end

/-! ### Past the mode check (R221) -/

/-- When the outcome is a response of `u` with a status other than OK, the status is one of `l`. -/
def ErrorsIn (u : Half) (l : List Status) (o : Host.Outcome State Fault Refusal) : Prop :=
  ∀ t r, o = .next t → t.ctl u = .responding r → r.status ≠ .ok → r.status ∈ l

/-- The errors a command can end with once it has passed its mode check. -/
def errorsPastMode : Instr → List Status
  | .encInit _ | .encExpand _ | .decExpand _ => [.invalidArgument, .outOfMemory]
  | .decInit _ => [.invalidArgument, .outOfMemory, .streamFault]
  | .encSym _ => [.symbolOutOfRange, .streamFault, .counterOverflow]
  | .encEst _ => [.symbolOutOfRange, .counterOverflow]
  | .encFlush _ => [.streamFault, .counterOverflow]
  | .encSave | .decSave => [.outOfMemory]
  | .encRestore _ _ | .decRestore _ _ | .encDelete _ | .decDelete _ | .encReadp _ | .decReadp _ | .encReadreg _ | .decReadreg _ =>
    [.invalidArgument]
  | .decSym => [.streamFault]

theorem invalidState_notMem_errorsPastMode (i : Instr) : .invalidState ∉ errorsPastMode i := by cases i <;> simp [errorsPastMode]

section
variable {s : State} {l : List Status} {accepted : Bool} {check : Option Status} {effect : Host.Outcome State Fault Refusal}

theorem errorsIn_fault {u : Half} {f : Fault} : ErrorsIn u l (.fault f) := by rintro t r ⟨⟩

theorem errorsIn_raise {u : Half} {st : Status} (hst : st ∈ l) : ErrorsIn u l (.next (raise u st s)) := by
  rintro t r ⟨⟩ hctl -
  rw [raise_ctl, Ctl.responding.injEq] at hctl
  exact hctl ▸ hst

theorem errorsIn_respondEnc (data : Nat) : ErrorsIn .enc l (.next (respondEnc data s)) := by
  rintro t r ⟨⟩ ⟨⟩ hok
  exact absurd rfl hok

theorem errorsIn_respondDec (data : Nat) : ErrorsIn .dec l (.next (respondDec data s)) := by
  rintro t r ⟨⟩ ⟨⟩ hok
  exact absurd rfl hok

theorem errorsIn_stallEnc (cmd : EncBeatCommand) (b : Bool) : ErrorsIn .enc l (.next (stallEnc cmd b s)) := by
  rintro t r ⟨⟩ hctl -
  exact absurd hctl ((encStallCtl_ne _ _ _).2.1 r)

theorem errorsIn_stallDec : ErrorsIn .dec l (.next (stallDec s)) := by
  rintro t r ⟨⟩ hctl -
  exact absurd hctl ((decStallCtl_ne _).2.1 r)

/-- A command of ENC past its mode check ends with the status of its operand check, or as its effect does. -/
theorem encChecked_errorsIn (ha : accepted = true) (hcheck : ∀ st, check = some st → st ∈ l) (heffect : ErrorsIn .enc l effect) :
    ErrorsIn .enc l (encChecked accepted check s effect) := by
  subst ha
  cases check with
  | none => exact heffect
  | some st => exact errorsIn_raise (hcheck st rfl)

/-- A command of DEC past its mode check ends with the status of its operand check, or as its effect does. -/
theorem decChecked_errorsIn (ha : accepted = true) (hcheck : ∀ st, check = some st → st ∈ l) (heffect : ErrorsIn .dec l effect) :
    ErrorsIn .dec l (decChecked accepted check s effect) := by
  subst ha
  cases check with
  | none => exact heffect
  | some st => exact errorsIn_raise (hcheck st rfl)

/-- The symbol step of ENC, by the three ends of its loop: only ENC.SYM has beats to fail (42_encoder.md R162, R164). -/
theorem encSymbol_errorsIn {emits : Bool} (hcount : .counterOverflow ∈ l) (hstream : emits = true → .streamFault ∈ l) (sym : Nat) :
    ErrorsIn .enc l (.next (encSymbol emits sym s)) := by
  unfold encSymbol
  rcases hrun : encSymbolRun emits sym s with ⟨_ | st | b, r⟩ <;> dsimp only
  · split
    · exact errorsIn_raise hcount
    · exact errorsIn_respondEnc _
  · rcases encSymbolRun_raised hrun with rfl | ⟨rfl, hemits⟩
    · exact errorsIn_raise hcount
    · exact errorsIn_raise (hstream hemits)
  · exact errorsIn_stallEnc _ _

/-- The flush procedure, by the end of its beats (42_encoder.md R163). -/
theorem encFlushRun_errorsIn (hcount : .counterOverflow ∈ l) (hstream : .streamFault ∈ l) (force : Bool) :
    ErrorsIn .enc l (.next (encFlushRun force s)) := by
  unfold encFlushRun
  split
  · exact errorsIn_raise hcount
  rcases s.writer.emitAll (flushBits s.cfg s.enc) with ⟨_ | _ | b, w⟩ <;> dsimp only
  · split
    · exact errorsIn_raise hcount
    · exact errorsIn_respondEnc _
  · exact errorsIn_raise hstream
  · exact errorsIn_stallEnc _ _

/-- DEC.INIT past its checks, by the end of its beats (43_decoder.md R190). -/
theorem decInitRun_errorsIn (hstream : .streamFault ∈ l) (n : Nat) : ErrorsIn .dec l (.next (decInitRun n s)) := by
  unfold decInitRun
  rcases s.reader.takeField s.cfg.w 0 with ⟨_ | _ | b, code, rd⟩
  · exact errorsIn_respondDec _
  · exact errorsIn_raise hstream
  · exact errorsIn_stallDec

/-- DEC.SYM once its symbol is known, by the three ends of its loop (43_decoder.md R192). -/
theorem decSymbol_errorsIn (hstream : .streamFault ∈ l) (sym : Nat) : ErrorsIn .dec l (.next (decSymbol sym s)) := by
  unfold decSymbol
  rcases hrun : decSymbolRun sym s with ⟨_ | st | b, r⟩
  · exact errorsIn_respondDec _
  · obtain rfl := decSymbolRun_raised hrun
    exact errorsIn_raise hstream
  · exact errorsIn_stallDec

/-- The errors of every command of ENC past its mode check. -/
theorem exec_enc_errorsIn {i : Instr} (hi : i.unit = .enc) (hpass : passesModeCheck i s = true) :
    ErrorsIn .enc (errorsPastMode i) (exec i s) := by
  cases i with
  | encInit n =>
    simp only [exec, execEncInit]
    exact encChecked_errorsIn hpass (fun _ hst => List.mem_pair.2 (initCheck_status hst)) (errorsIn_respondEnc _)
  | encExpand n2 =>
    simp only [exec, execEncExpand]
    refine encChecked_errorsIn hpass (fun _ hst => List.mem_pair.2 (expandCheck_status hst)) ?_
    split
    · exact errorsIn_respondEnc _
    · exact errorsIn_fault
  | encSym sym | encEst sym =>
    simp only [exec, execEncSym, execEncEst]
    refine encChecked_errorsIn hpass (fun _ hst => ?_) (encSymbol_errorsIn (by simp [errorsPastMode]) (by simp [errorsPastMode]) sym)
    rw [symbolCheck_some hst]
    exact List.mem_cons_self
  | encFlush force =>
    simp only [exec, execEncFlush]
    refine encChecked_errorsIn hpass nofun ?_
    split
    · exact errorsIn_respondEnc _
    · exact encFlushRun_errorsIn (by simp [errorsPastMode]) (by simp [errorsPastMode]) force
  | encSave | encRestore | encDelete =>
    simp only [exec, execEncSave, execEncRestore, execEncDelete]
    refine encChecked_errorsIn hpass nofun ?_
    split
    · exact errorsIn_raise List.mem_cons_self
    · exact errorsIn_respondEnc _
  | encReadp idx =>
    simp only [exec, execEncReadp]
    exact encChecked_errorsIn hpass (fun _ hst => List.mem_singleton.2 (indexCheck_some hst).2) (errorsIn_respondEnc _)
  | encReadreg reg =>
    simp only [exec, execEncReadreg]
    refine encChecked_errorsIn hpass nofun ?_
    split
    · exact errorsIn_raise List.mem_cons_self
    · split
      · exact errorsIn_respondEnc _
      · exact errorsIn_respondEnc _
  | decInit | decExpand | decSym | decSave | decRestore | decDelete | decReadp | decReadreg => cases hi

/-- The errors of every command of DEC past its mode check. -/
theorem exec_dec_errorsIn {i : Instr} (hi : i.unit = .dec) (hpass : passesModeCheck i s = true) :
    ErrorsIn .dec (errorsPastMode i) (exec i s) := by
  cases i with
  | decInit n =>
    simp only [exec, execDecInit]
    refine decChecked_errorsIn hpass (fun _ hst => ?_) (decInitRun_errorsIn (by simp [errorsPastMode]) n)
    rcases initCheck_status hst with rfl | rfl <;> simp [errorsPastMode]
  | decExpand n2 =>
    simp only [exec, execDecExpand]
    refine decChecked_errorsIn hpass (fun _ hst => List.mem_pair.2 (expandCheck_status hst)) ?_
    split
    · exact errorsIn_respondDec _
    · exact errorsIn_fault
  | decSym =>
    simp only [exec, execDecSym]
    refine decChecked_errorsIn hpass nofun ?_
    split
    · exact decSymbol_errorsIn List.mem_cons_self _
    · exact errorsIn_fault
  | decSave | decRestore | decDelete =>
    simp only [exec, execDecSave, execDecRestore, execDecDelete]
    refine decChecked_errorsIn hpass nofun ?_
    split
    · exact errorsIn_raise List.mem_cons_self
    · exact errorsIn_respondDec _
  | decReadp idx =>
    simp only [exec, execDecReadp]
    exact decChecked_errorsIn hpass (fun _ hst => List.mem_singleton.2 (indexCheck_some hst).2) (errorsIn_respondDec _)
  | decReadreg reg =>
    simp only [exec, execDecReadreg]
    refine decChecked_errorsIn hpass nofun ?_
    split
    · exact errorsIn_raise List.mem_cons_self
    · split
      · exact errorsIn_respondDec _
      · exact errorsIn_respondDec _
  | encInit | encExpand | encSym | encFlush | encEst | encSave | encRestore | encDelete | encReadp | encReadreg => cases hi

/-- The errors of every command past its mode check. -/
theorem exec_errorsIn {i : Instr} (hpass : passesModeCheck i s = true) : ErrorsIn i.unit (errorsPastMode i) (exec i s) := by
  cases hi : i.unit with
  | enc => exact exec_enc_errorsIn hi hpass
  | dec => exact exec_dec_errorsIn hi hpass

end

/-! ### The two tables -/

section
variable {i : Instr} {s t : State} {r : Response}

/-- A command that its mode check refuses answers InvalidState. -/
theorem status_of_not_passed (hpass : passesModeCheck i s = false) (hexec : exec i s = .next t) (hctl : t.ctl i.unit = .responding r) :
    r.status = .invalidState := by
  obtain rfl := Host.Outcome.next.inj (hexec.symm.trans (exec_of_not_passed hpass))
  rw [← raise_of_refusal i.unit .invalidState s rfl, raise_ctl, Ctl.responding.injEq] at hctl
  exact hctl ▸ rfl

/-- Only the mode check answers InvalidState. -/
theorem not_passed_of_invalidState (hexec : exec i s = .next t) (hctl : t.ctl i.unit = .responding r) (hr : r.status = .invalidState) :
    passesModeCheck i s ≠ true := fun hpass =>
  invalidState_notMem_errorsPastMode i (hr ▸ exec_errorsIn hpass t r hexec hctl (by rw [hr]; exact nofun))

end

/-- Settles O18: the modes of a row are those that `accepts` accepts, and InvalidState is the answer of the mode check
(`exec_of_not_passed`) and of nothing else (`not_passed_of_invalidState`). -/
theorem modeAcceptance : Obligations.ModeAcceptance := by
  intro i s modes
  have hrow : s.mode i.unit ∈ modes ↔ accepts i (s.mode i.unit) = true := by
    generalize s.mode i.unit = m
    cases i <;> cases m <;> simp [modes, accepts]
  refine ⟨fun hmode => exec_of_not_passed ?_, fun hmode t r hexec hctl hr => ?_, fun hi hm => exec_of_not_passed ?_⟩
  · exact Bool.eq_false_iff.2 fun hpass => hmode (hrow.2 (passesModeCheck_iff.1 hpass).1)
  · have hfails := not_passed_of_invalidState hexec hctl hr
    rw [ne_eq, passesModeCheck_iff, not_and_not_right] at hfails
    exact hfails (hrow.1 hmode)
  · exact Bool.eq_false_iff.2 fun hpass => (passesModeCheck_iff.1 hpass).2 ⟨hi, hm⟩

/-- Settles O19: INIT and DELETE always pass their mode check; a row of any other command is InvalidState, the answer of a mode check that
fails, and then the errors past it (`exec_errorsIn`). -/
theorem statusesOfCommands : Obligations.StatusesOfCommands := by
  intro i s t r hexec hctl hr
  cases hpass : passesModeCheck i s with
  | true =>
    have hmem := exec_errorsIn hpass t r hexec hctl hr
    cases i with
    | encInit | decInit | encDelete | decDelete => exact hmem
    | _ => exact List.mem_cons_of_mem _ hmem
  | false =>
    have hstatus := status_of_not_passed hpass hexec hctl
    cases i with
    | encInit | decInit => cases hpass
    | encDelete h => exact absurd hpass (by simp [passesModeCheck, accepts_encDelete])
    | decDelete h => exact absurd hpass (by simp [passesModeCheck, accepts_decDelete])
    | _ => exact hstatus ▸ List.mem_cons_self

end Sys2Proof.Machine
end

section
/-! SUPPORT. What another strap of the writer or the reader makes of a command, and what setting a strap does (70_reset_and_hazards.md
R268). -/

namespace Sys2Proof.Machine

/-! ### Other straps -/

/-- The strap `enc_ob_bound` at this level. -/
def State.withWriterBound (b : Bool) (s : State) : State := s.withWriter { s.writer with bound := b }

/-- The strap `dec_ib_bound` at this level. -/
def State.withReaderBound (b : Bool) (s : State) : State := s.withReader { s.reader with bound := b }

section
variable {s : State} {b : Bool}

@[simp] theorem State.withWriterBound_cfg : (s.withWriterBound b).cfg = s.cfg := rfl
@[simp] theorem State.withWriterBound_enc : (s.withWriterBound b).enc = s.enc := rfl
@[simp] theorem State.withReaderBound_cfg : (s.withReaderBound b).cfg = s.cfg := rfl
@[simp] theorem State.withReaderBound_dec : (s.withReaderBound b).dec = s.dec := rfl

theorem State.withWriterBound_self (h : s.writer.bound = b) : s.withWriterBound b = s := by subst h; rfl

theorem State.withReaderBound_self (h : s.reader.bound = b) : s.withReaderBound b = s := by subst h; rfl

end

/-- `o` is the outcome of the command `i` of ENC from `s`, and `o'` its outcome with the writer's strap at `b`: the same but for the strap,
or, with the strap at 0, ENC left waiting inside the command and nothing else changed. -/
def WriterStrapAlone (i : Instr) (b : Bool) (s : State) (o o' : Host.Outcome State Fault Refusal) : Prop :=
  o' = mapNext (State.withWriterBound b) o ∨
    b = false ∧ ∃ (x : Bool) (cmd : EncBeatCommand), cmd.instr = i ∧
      o' = .next ((s.withEnc (s.enc.withCtl (.offeringDetached x cmd))).withWriterBound b)

/-- The same of the command `i` of DEC and the reader's strap; only DEC.SYM is left waiting. -/
def ReaderStrapAlone (i : Instr) (b : Bool) (s : State) (o o' : Host.Outcome State Fault Refusal) : Prop :=
  o' = mapNext (State.withReaderBound b) o ∨
    b = false ∧ i = .decSym ∧ o' = .next ((s.withDec (s.dec.withCtl .requestingDetached)).withReaderBound b)

section
variable {i : Instr} {b : Bool} {s : State}

theorem encChecked_strap {effect effect' : Host.Outcome State Fault Refusal} {accepted : Bool} {check : Option Status}
    (h : WriterStrapAlone i b s effect effect') :
    WriterStrapAlone i b s (encChecked accepted check s effect) (encChecked accepted check (s.withWriterBound b) effect') := by
  cases accepted with
  | false => exact .inl rfl
  | true =>
    cases check with
    | some st => exact .inl rfl
    | none => exact h

theorem encChecked_next_strap {t t' : State} {accepted : Bool} {check : Option Status} (h : t' = t.withWriterBound b) :
    WriterStrapAlone i b s (encChecked accepted check s (.next t)) (encChecked accepted check (s.withWriterBound b) (.next t')) :=
  encChecked_strap (.inl (congrArg _ h))

theorem decChecked_strap {effect effect' : Host.Outcome State Fault Refusal} {accepted : Bool} {check : Option Status}
    (h : ReaderStrapAlone i b s effect effect') :
    ReaderStrapAlone i b s (decChecked accepted check s effect) (decChecked accepted check (s.withReaderBound b) effect') := by
  cases accepted with
  | false => exact .inl rfl
  | true =>
    cases check with
    | some st => exact .inl rfl
    | none => exact h

theorem decChecked_next_strap {t t' : State} {accepted : Bool} {check : Option Status} (h : t' = t.withReaderBound b) :
    ReaderStrapAlone i b s (decChecked accepted check s (.next t)) (decChecked accepted check (s.withReaderBound b) (.next t')) :=
  decChecked_strap (.inl (congrArg _ h))

/-! ### The commands of ENC with a loop or with beats -/

/-- What the loop of a symbol command of ENC starts from. -/
def encLoopStart (sym : Nat) (s : State) : EncRun :=
  { low := (narrow s.enc.model sym s.enc.low s.enc.high).low, high := (narrow s.enc.model sym s.enc.low s.enc.high).high,
    underflow := s.enc.underflow, count := 0, writer := s.writer }

theorem encSymbolRun_eq (emits : Bool) (sym : Nat) (s : State) :
    encSymbolRun emits sym s = EncRun.renorm s.cfg emits s.cfg.w (encLoopStart sym s) := rfl

/-- ENC.EST's loop is the same whatever the writer (42_encoder.md R164). -/
theorem EncRun.renorm_est (c : Config) (fuel : Nat) (r : EncRun) (w : Writer) :
    renorm c false fuel { r with writer := w } =
      ((renorm c false fuel r).1, { (renorm c false fuel r).2 with writer := w }) := by
  induction fuel generalizing r with
  | zero => rfl
  | succ fuel ih =>
    cases hk : classify c r.low r.high with
    | exit => rw [renorm_exit _ _ _ _ hk, renorm_exit _ _ _ { r with writer := w } hk]
    | msbEq =>
      rw [renorm_msbEq _ _ _ _ hk, renorm_msbEq _ _ _ { r with writer := w } hk]
      exact ih ((r.settle r.writer).shift c)
    | e3 =>
      rw [renorm_e3 _ _ _ _ hk, renorm_e3 _ _ _ { r with writer := w } hk]
      split
      · rfl
      · exact ih ((r.defer c).shift c)

/-- Two runs of the loop that differ in the strap alone, and wait at no beat, leave states that differ in the strap alone. -/
theorem encSymbol_withWriterBound {emits : Bool} {sym : Nat} {e : LoopEnd} {r : EncRun} (he : ∀ x, e ≠ .stuck x)
    (hrun : encSymbolRun emits sym s = (e, { r with writer := s.writer }))
    (hrun' : encSymbolRun emits sym (s.withWriterBound b) = (e, { r with writer := (s.withWriterBound b).writer })) :
    encSymbol emits sym (s.withWriterBound b) = (encSymbol emits sym s).withWriterBound b := by
  rw [encSymbol, encSymbol, hrun, hrun']
  cases e with
  | exit =>
    dsimp only
    split <;> rfl
  | raised st => rfl
  | stuck x => exact absurd rfl (he x)

/-- ENC.EST has no beat, and no use for the writer (42_encoder.md R164). -/
theorem encSymbol_est_strap (sym : Nat) :
    encSymbol false sym (s.withWriterBound b) = (encSymbol false sym s).withWriterBound b := by
  have hrun' : encSymbolRun false sym (s.withWriterBound b) =
      ((encSymbolRun false sym s).1, { (encSymbolRun false sym s).2 with writer := (s.withWriterBound b).writer }) :=
    (encSymbolRun_eq ..).trans (EncRun.renorm_est s.cfg s.cfg.w (encLoopStart sym s) (s.withWriterBound b).writer)
  obtain ⟨-, -, hwriter, -, -, hstuck⟩ := encSymbolRun_cases false sym s
  refine encSymbol_withWriterBound (fun x hx => absurd (hstuck x hx) Bool.false_ne_true) ?_ hrun'
  rw [← hwriter rfl]

theorem encSymbol_writer (emits : Bool) (sym : Nat) (s : State) :
    (encSymbol emits sym s).writer = (encSymbolRun emits sym s).2.writer := by
  unfold encSymbol
  rcases encSymbolRun emits sym s with ⟨_ | st | x, r⟩ <;> dsimp only
  · split <;> rfl
  · rfl
  · rfl

/-- ENC.SYM with a detached writer waits at its first bit, or meets no beat (`EncRun.renorm_detached`). -/
theorem encSymbol_sym_strap (hbound : s.writer.bound = true) (sym : Nat) :
    WriterStrapAlone (.encSym sym) b s (.next (encSymbol true sym s)) (.next (encSymbol true sym (s.withWriterBound b))) := by
  cases b with
  | true =>
    have hsame : (encSymbol true sym s).writer.bound = true := by
      rw [encSymbol_writer, (encSymbolRun_cases true sym s).1, hbound]
    exact .inl (by rw [State.withWriterBound_self hbound, mapNext, State.withWriterBound_self hsame])
  | false =>
    rcases EncRun.renorm_detached s.cfg s.cfg.w (encLoopStart sym (s.withWriterBound false)) rfl with
      ⟨x, r, hrun, hw⟩ | ⟨e, r, he, hrun⟩
    · refine .inr ⟨rfl, x, .sym sym, rfl, ?_⟩
      rw [encSymbol_stuck ((encSymbolRun_eq true sym (s.withWriterBound false)).trans hrun), hw]
      rfl
    · exact .inl (congrArg _ (encSymbol_withWriterBound he (hrun s.writer) (hrun (s.withWriterBound false).writer)))

theorem encFlushRun_writer_bound (force : Bool) (s : State) : (encFlushRun force s).writer.bound = s.writer.bound := by
  have hbound := (Writer.emitAll_cases (flushBits s.cfg s.enc) s.writer).1
  unfold encFlushRun
  split
  · rfl
  rcases hw : s.writer.emitAll (flushBits s.cfg s.enc) with ⟨_ | _ | x, w⟩ <;> rw [hw] at hbound <;> dsimp only
  · split
    · exact hbound
    · exact hbound
  · exact hbound
  · exact hbound

/-- The flush procedure with a detached writer waits at its first bit, or finds its counter full before it. -/
theorem encFlushRun_strap (hbound : s.writer.bound = true) (force : Bool) :
    WriterStrapAlone (.encFlush force) b s (.next (encFlushRun force s)) (.next (encFlushRun force (s.withWriterBound b))) := by
  cases b with
  | true =>
    have hsame : (encFlushRun force s).writer.bound = true := (encFlushRun_writer_bound force s).trans hbound
    exact .inl (by rw [State.withWriterBound_self hbound, mapNext, State.withWriterBound_self hsame])
  | false =>
    by_cases hfull : s.enc.underflow = s.cfg.underflowMax
    · exact .inl (congrArg _ (by rw [encFlushRun_full hfull, encFlushRun_full (s := s.withWriterBound false) hfull]; rfl))
    · refine .inr ⟨rfl, flushBit s.cfg s.enc.low, .flush force, rfl, congrArg _ ?_⟩
      exact encFlushRun_stuck (s := s.withWriterBound false) hfull (Writer.emitAll_detached _ _ _ rfl)

/-- A command of ENC but INIT, with another strap of the writer. -/
theorem exec_enc_strap (hi : i.unit = .enc) (hinit : ∀ n, i ≠ .encInit n) (hbound : s.writer.bound = true) :
    WriterStrapAlone i b s (exec i s) (exec i (s.withWriterBound b)) := by
  cases i with
  | encInit n => exact absurd rfl (hinit n)
  | encExpand n2 =>
    simp only [exec, execEncExpand, State.withWriterBound_cfg, State.withWriterBound_enc]
    refine encChecked_strap (.inl ?_)
    cases s.enc.model.expand s.cfg n2 <;> rfl
  | encSym sym =>
    simp only [exec, execEncSym, State.withWriterBound_enc]
    exact encChecked_strap (encSymbol_sym_strap hbound sym)
  | encFlush force =>
    simp only [exec, execEncFlush, State.withWriterBound_enc]
    refine encChecked_strap ?_
    by_cases hidle : s.enc.mode = .flushed ∧ force = false
    · simp only [hidle, and_self, ↓reduceIte]
      exact .inl rfl
    · simp only [hidle, ↓reduceIte]
      exact encFlushRun_strap hbound force
  | encEst sym =>
    simp only [exec, execEncEst, State.withWriterBound_enc]
    exact encChecked_next_strap (encSymbol_est_strap sym)
  | encSave =>
    simp only [exec, execEncSave, State.withWriterBound_cfg, State.withWriterBound_enc]
    refine encChecked_next_strap ?_
    cases encFreeHandle s.cfg s.enc <;> rfl
  | encRestore cleanup h =>
    simp only [exec, execEncRestore, State.withWriterBound_cfg, State.withWriterBound_enc]
    refine encChecked_next_strap ?_
    cases encSlotOf s.cfg s.enc h <;> rfl
  | encDelete h =>
    simp only [exec, execEncDelete, State.withWriterBound_cfg, State.withWriterBound_enc]
    refine encChecked_next_strap ?_
    cases encSlotOf s.cfg s.enc h <;> rfl
  | encReadp idx =>
    simp only [exec, execEncReadp, State.withWriterBound_enc]
    exact encChecked_next_strap rfl
  | encReadreg reg =>
    simp only [exec, execEncReadreg, State.withWriterBound_cfg, State.withWriterBound_enc]
    refine encChecked_next_strap ?_
    rcases encRegister s.cfg s.enc reg with _ | ⟨width, value⟩
    · rfl
    · rw [apply_ite (State.withWriterBound b)]; rfl
  | decInit | decExpand | decSym | decSave | decRestore | decDelete | decReadp | decReadreg => cases hi

/-! ### The commands of DEC -/

/-- What the loop of DEC.SYM starts from. -/
def decLoopStart (sym : Nat) (s : State) : DecRun :=
  { low := (narrow s.dec.model sym s.dec.low s.dec.high).low, high := (narrow s.dec.model sym s.dec.low s.dec.high).high,
    code := s.dec.code, reader := s.reader }

theorem decSymbolRun_eq (sym : Nat) (s : State) :
    decSymbolRun sym s = DecRun.renorm s.cfg s.cfg.w (decLoopStart sym s) := rfl

theorem decSymbol_reader (sym : Nat) (s : State) : (decSymbol sym s).reader = (decSymbolRun sym s).2.reader := by
  unfold decSymbol
  rcases decSymbolRun sym s with ⟨_ | st | x, r⟩ <;> rfl

/-- DEC.SYM with a detached reader waits at its first request, or needs no bit (`DecRun.renorm_detached`). -/
theorem decSymbol_strap (hbound : s.reader.bound = true) (sym : Nat) :
    ReaderStrapAlone .decSym b s (.next (decSymbol sym s)) (.next (decSymbol sym (s.withReaderBound b))) := by
  cases b with
  | true =>
    have hsame : (decSymbol sym s).reader.bound = true := by
      rw [decSymbol_reader, (decSymbolRun_cases sym s).1, hbound]
    exact .inl (by rw [State.withReaderBound_self hbound, mapNext, State.withReaderBound_self hsame])
  | false =>
    rcases DecRun.renorm_detached s.cfg s.cfg.w (decLoopStart sym (s.withReaderBound false)) rfl with hrun | hrun
    · refine .inr ⟨rfl, rfl, congrArg _ ?_⟩
      exact decSymbol_stuck ((decSymbolRun_eq sym (s.withReaderBound false)).trans hrun)
    · have hattached := (decSymbolRun_eq sym s).trans (hrun s.reader)
      have hdetached := (decSymbolRun_eq sym (s.withReaderBound false)).trans (hrun (s.withReaderBound false).reader)
      exact .inl (congrArg _ (by rw [decSymbol, decSymbol, hattached, hdetached]; rfl))

/-- A command of DEC but INIT, with another strap of the reader. -/
theorem exec_dec_strap (hi : i.unit = .dec) (hinit : ∀ n, i ≠ .decInit n) (hbound : s.reader.bound = true) :
    ReaderStrapAlone i b s (exec i s) (exec i (s.withReaderBound b)) := by
  cases i with
  | decInit n => exact absurd rfl (hinit n)
  | decExpand n2 =>
    simp only [exec, execDecExpand, State.withReaderBound_cfg, State.withReaderBound_dec]
    refine decChecked_strap (.inl ?_)
    cases s.dec.model.expand s.cfg n2 <;> rfl
  | decSym =>
    simp only [exec, execDecSym, State.withReaderBound_dec]
    refine decChecked_strap ?_
    cases decodedSymbol s.dec with
    | none => exact .inl rfl
    | some sym => exact decSymbol_strap hbound sym
  | decSave =>
    simp only [exec, execDecSave, State.withReaderBound_cfg, State.withReaderBound_dec]
    refine decChecked_next_strap ?_
    cases decFreeHandle s.cfg s.dec <;> rfl
  | decRestore cleanup h =>
    simp only [exec, execDecRestore, State.withReaderBound_cfg, State.withReaderBound_dec]
    refine decChecked_next_strap ?_
    cases decSlotOf s.cfg s.dec h <;> rfl
  | decDelete h =>
    simp only [exec, execDecDelete, State.withReaderBound_cfg, State.withReaderBound_dec]
    refine decChecked_next_strap ?_
    cases decSlotOf s.cfg s.dec h <;> rfl
  | decReadp idx =>
    simp only [exec, execDecReadp, State.withReaderBound_dec]
    exact decChecked_next_strap rfl
  | decReadreg reg =>
    simp only [exec, execDecReadreg, State.withReaderBound_cfg, State.withReaderBound_dec]
    refine decChecked_next_strap ?_
    rcases decRegister s.cfg s.dec reg with _ | ⟨width, value⟩
    · rfl
    · rw [apply_ite (State.withReaderBound b)]; rfl
  | encInit | encExpand | encSym | encFlush | encEst | encSave | encRestore | encDelete | encReadp | encReadreg => cases hi

/-- A command but INIT, with other straps: its own strap may leave its unit waiting, and the other is no part of its side of the machine. -/
theorem exec_strapped {t : State} (b' : Bool) (hinit : ∀ n, i ≠ .encInit n ∧ i ≠ .decInit n) (hw : s.writer.bound = true)
    (hr : s.reader.bound = true) (ht : exec i s = .next t) :
    exec i ((s.withWriterBound b).withReaderBound b') = .next ((t.withWriterBound b).withReaderBound b') ∨
      (b = false ∧ ∃ (x : Bool) (cmd : EncBeatCommand), cmd.instr = i ∧ exec i ((s.withWriterBound b).withReaderBound b') =
        .next (((s.withEnc (s.enc.withCtl (.offeringDetached x cmd))).withWriterBound b).withReaderBound b')) ∨
      (b' = false ∧ i = .decSym ∧ exec i ((s.withWriterBound b).withReaderBound b') =
        .next (((s.withDec (s.dec.withCtl .requestingDetached)).withWriterBound b).withReaderBound b')) := by
  cases hi : i.unit with
  | enc =>
    have hside : exec i ((s.withWriterBound b).withReaderBound b') = mapNext _ (exec i (s.withWriterBound b)) :=
      exec_encSideIn ((s.withWriterBound b).withReaderBound b') (s.withWriterBound b) i hi
    rcases exec_enc_strap (b := b) hi (fun n => (hinit n).1) hw with h | ⟨hb, x, cmd, hcmd, h⟩
    · rw [ht] at h
      refine .inl (hside.trans (h ▸ ?_))
      rw [exec_enc_frame hi ht]
      rfl
    · exact .inr (.inl ⟨hb, x, cmd, hcmd, hside.trans (mapNext_next_of_eq h)⟩)
  | dec =>
    have hside : exec i ((s.withWriterBound b).withReaderBound b') = mapNext _ (exec i (s.withReaderBound b')) :=
      exec_decSideIn ((s.withWriterBound b).withReaderBound b') (s.withReaderBound b') i hi
    rcases exec_dec_strap (b := b') hi (fun n => (hinit n).2) hr with h | ⟨hb, hsym, h⟩
    · rw [ht] at h
      refine .inl (hside.trans (h ▸ ?_))
      rw [exec_dec_frame hi ht]
      rfl
    · exact .inr (.inr ⟨hb, hsym, hside.trans (mapNext_next_of_eq h)⟩)

end

/-! ### Acts of the host (log 8) -/

theorem step_of_inputs {s : State} {ev : HostEvent} {rest : List HostEvent} (hin : s.inputs = ev :: rest) :
    step s = edge ev (s.withInputs rest) := by
  rw [step, hin]

/-- Settles O23: other straps leave a command's outcome as it was, or its unit waiting (`exec_strapped`); setting a strap changes it alone
(`setWriterBound_alone`, `setReaderBound_alone`), or lets a waiting unit go on (`setWriterBound_resumes`, `setReaderBound_resumes`). -/
theorem strapsAreSampledByInit : Obligations.StrapsAreSampledByInit := by
  refine ⟨fun i s t b b' hinit hw hr ht => exec_strapped b' hinit hw hr ht, fun b rest s => ⟨fun hin => ⟨fun hwait => ?_, ?_⟩,
    fun hin => ⟨fun hwait => ?_, ?_⟩⟩⟩
  · refine (step_of_inputs hin).trans (setWriterBound_alone fun hb => ?_)
    exact hwait.resolve_left (by simp [hb])
  · rintro rfl x cmd hctl
    exact (step_of_inputs hin).trans (setWriterBound_resumes (s := s.withInputs rest) hctl)
  · refine (step_of_inputs hin).trans (setReaderBound_alone fun hb => ?_)
    exact hwait.resolve_left (by simp [hb])
  · rintro rfl hctl
    exact (step_of_inputs hin).trans (setReaderBound_resumes (s := s.withInputs rest) hctl)

end Sys2Proof.Machine
end

section
/-! SUPPORT. The edges with `rst = 1` and with `rst = 0` (70_reset_and_hazards.md R250, R251). -/

namespace Sys2Proof.Machine

theorem Enc.reset_slots (c : Config) (k : Nat) :
    (Enc.reset c k).slots.length = c.nsnap ∧ ∀ slot ∈ (Enc.reset c k).slots, slot.valid = false :=
  ⟨(Enc.reset_inv c k).slots_length, (Enc.reset_inv c k).uninit_slots rfl⟩

theorem Dec.reset_slots (c : Config) (k : Nat) :
    (Dec.reset c k).slots.length = c.nsnap ∧ ∀ slot ∈ (Dec.reset c k).slots, slot.valid = false :=
  ⟨(Dec.reset_inv c k).slots_length, (Dec.reset_inv c k).uninit_slots rfl⟩

/-- Settles O9: the step is the reset of both units, which leaves their slots free (`Enc.reset_slots`, `Dec.reset_slots`). -/
theorem resetGivesTheResetValues : Obligations.ResetGivesTheResetValues := by
  intro rest s hin
  have henc := Enc.reset_slots s.cfg s.enc.draws
  have hdec := Dec.reset_slots s.cfg s.dec.draws
  exact ⟨_, step_of_inputs hin, rfl, ⟨rfl, rfl, rfl, rfl, rfl, rfl, rfl, henc⟩, ⟨rfl, rfl, rfl, rfl, rfl, rfl, rfl, hdec⟩,
    rfl, rfl, rfl, rfl, rfl⟩

/-- Settles O10: the outputs are cut off by `rst`, and the invariant holds both units ready behind it. -/
theorem outputsUnderReset : Obligations.OutputsUnderReset := by
  intro s hrst
  refine ⟨fun u => ⟨by rw [State.cmdReady, hrst]; rfl, if_pos hrst⟩, if_pos hrst, by rw [State.bitRequest, hrst]; rfl,
    fun hinv rest hin => ⟨_, step_of_inputs hin, fun u => ?_⟩⟩
  obtain ⟨⟨-, henc⟩, -, hdec⟩ := hinv.held hrst
  cases u with
  | enc => exact decide_eq_true henc
  | dec => exact decide_eq_true hdec

end Sys2Proof.Machine
end

section
/-! SUPPORT. The acts of the host that move a unit left inside a command (70_reset_and_hazards.md R260, R268). -/

namespace Sys2Proof.Machine

/-- Where a unit stands that is inside a command (30_encoding.md R82, R83). -/
def Ctl.Inside (k : Ctl) : Prop := k ≠ .ready ∧ ∀ r, k ≠ .responding r

section
variable {s t : State} {u : Half}

/-- A word offered to a unit inside a command is no beat (30_encoding.md R82). -/
theorem edge_offer_of_inside (h : (s.ctl u).Inside) (w : Word) : edge (.offer u w) s = .next s :=
  if_neg (by simp [State.cmdReady, h.1])

/-- A unit inside a command has no response to take (30_encoding.md R83). -/
theorem edge_take_of_inside (h : (s.ctl u).Inside) : edge (.take u) s = .next s := by
  rw [edge, Option.eq_none_iff_forall_ne_some.2 fun r hr => h.2 r (ctl_of_response hr)]

end

/-- The unit `u` is in `t` as in `s`. -/
def UnitKept (u : Half) (s t : State) : Prop :=
  match u with
  | .enc => t.enc = s.enc
  | .dec => t.dec = s.dec

/-- The unit `u` waits for its detached collaborator (R268; log 19). -/
def Waiting (u : Half) (s : State) : Prop :=
  match u with
  | .enc => ∃ b cmd, s.enc.ctl = .offeringDetached b cmd
  | .dec => s.dec.ctl = .requestingDetached

/-- The act of the host that attaches the collaborator of `u`. -/
def attachEvent : Half → HostEvent
  | .enc => .bindWriter true
  | .dec => .bindReader true

section
variable {s t : State} {u v : Half}

theorem UnitKept.refl (u : Half) (s : State) : UnitKept u s s := by cases u <;> rfl

/-- A command leaves the other unit alone (60_exceptions.md R234). -/
theorem exec_unitKept {i : Instr} (hu : u ≠ i.unit) (ht : exec i s = .next t) : UnitKept u s t := by
  obtain ⟨henc, hdec⟩ := unitsAreIndependent i s t ht
  cases hi : i.unit with
  | enc =>
    cases u with
    | enc => exact absurd hi.symm hu
    | dec => exact (henc hi).1
  | dec =>
    cases u with
    | enc => exact (hdec hi).1
    | dec => exact absurd hi.symm hu

theorem raise_unitKept (hu : u ≠ v) (st : Status) (s : State) : UnitKept u s (raise v st s) :=
  match u, v with
  | .enc, .dec | .dec, .enc => rfl
  | .enc, .enc | .dec, .dec => absurd rfl hu

theorem deliver_unitKept (hu : u ≠ v) (r : Response) (s : State) : UnitKept u s (deliver v r s) :=
  match u, v with
  | .enc, .dec | .dec, .enc => rfl
  | .enc, .enc | .dec, .dec => absurd rfl hu

theorem accept_unitKept {w : Word} (hu : u ≠ v) (ht : accept v w s = .next t) : UnitKept u s t := by
  unfold accept at ht
  split at ht
  · rename_i i hdec
    exact exec_unitKept (decode_unit hdec ▸ hu) ht
  · exact Host.Outcome.next.inj ht ▸ raise_unitKept hu _ s

/-- The writer's strap moves no unit but an ENC that waits for it. -/
theorem setWriterBound_unitKept {level : Bool} (hwait : level = true → u = .enc → ¬Waiting u s)
    (ht : setWriterBound level s = .next t) : UnitKept u s t := by
  by_cases hgo : level = true ∧ ∃ b cmd, s.enc.ctl = .offeringDetached b cmd
  · obtain ⟨rfl, b, cmd, hctl⟩ := hgo
    rw [setWriterBound_resumes hctl] at ht
    have hunit : cmd.instr.unit = .enc := by cases cmd <;> rfl
    cases u with
    | enc => exact absurd ⟨b, cmd, hctl⟩ (hwait rfl rfl)
    | dec =>
      have hkept := exec_unitKept (u := .dec) (by rw [hunit]; exact nofun) ht
      exact hkept
  · rw [setWriterBound_alone fun hl b cmd hk => hgo ⟨hl, b, cmd, hk⟩] at ht
    obtain rfl := Host.Outcome.next.inj ht
    cases u <;> rfl

/-- The reader's strap moves no unit but a DEC that waits for it. -/
theorem setReaderBound_unitKept {level : Bool} (hwait : level = true → u = .dec → ¬Waiting u s)
    (ht : setReaderBound level s = .next t) : UnitKept u s t := by
  by_cases hgo : level = true ∧ s.dec.ctl = .requestingDetached
  · obtain ⟨rfl, hctl⟩ := hgo
    rw [setReaderBound_resumes hctl] at ht
    cases u with
    | enc =>
      have hkept := exec_unitKept (i := .decSym) (u := .enc) nofun ht
      exact hkept
    | dec => exact absurd hctl (hwait rfl rfl)
  · rw [setReaderBound_alone fun hl hk => hgo ⟨hl, hk⟩] at ht
    obtain rfl := Host.Outcome.next.inj ht
    cases u <;> rfl

/-- An act of the host moves a unit inside a command only when it raises `rst`, or attaches the collaborator that the unit waits for. -/
theorem edge_unitKept {ev : HostEvent} (hin : (s.ctl u).Inside) (hreset : ev ≠ .reset true) (hwait : ev = attachEvent u → ¬Waiting u s)
    (ht : edge ev s = .next t) : UnitKept u s t := by
  cases ev with
  | offer v w =>
    by_cases hu : u = v
    · subst hu
      exact Host.Outcome.next.inj ((edge_offer_of_inside hin w).symm.trans ht) ▸ .refl u s
    · simp only [edge] at ht
      split at ht
      · exact accept_unitKept hu ht
      · exact Host.Outcome.next.inj ht ▸ .refl u s
  | take v =>
    by_cases hu : u = v
    · subst hu
      exact Host.Outcome.next.inj ((edge_take_of_inside hin).symm.trans ht) ▸ .refl u s
    · simp only [edge] at ht
      split at ht
      · exact Host.Outcome.next.inj ht ▸ deliver_unitKept hu _ s
      · exact Host.Outcome.next.inj ht ▸ .refl u s
  | reset level =>
    cases level with
    | true => exact absurd rfl hreset
    | false =>
      obtain rfl := Host.Outcome.next.inj ht
      cases u <;> rfl
  | bindWriter level => exact setWriterBound_unitKept (fun hl hu => hwait (by rw [hl, hu]; rfl)) ht
  | bindReader level => exact setReaderBound_unitKept (fun hl hu => hwait (by rw [hl, hu]; rfl)) ht

/-- A step moves a unit inside a command only by those two acts. -/
theorem step_unitKept_or {k : Ctl} (hctl : s.ctl u = k) (hin : k.Inside) (ht : step s = .next t) :
    UnitKept u s t ∨ ∃ rest, s.inputs = .reset true :: rest ∨ s.inputs = attachEvent u :: rest ∧ Waiting u s := by
  subst hctl
  rcases step_cases ht with rfl | ⟨ev, rest, hev, hedge⟩
  · exact .inl (.refl u t)
  by_cases hreset : ev = .reset true
  · exact .inr ⟨rest, .inl (hreset ▸ hev)⟩
  by_cases hgo : ev = attachEvent u ∧ Waiting u s
  · exact .inr ⟨rest, .inr ⟨hgo.1 ▸ hev, hgo.2⟩⟩
  · refine .inl ?_
    cases u with
    | enc => exact edge_unitKept (s := s.withInputs rest) (u := .enc) hin hreset (not_and.1 hgo) hedge
    | dec => exact edge_unitKept (s := s.withInputs rest) (u := .dec) hin hreset (not_and.1 hgo) hedge

end

/-- Settles O11, by what can move a unit inside a command (`step_unitKept_or`). -/
theorem stuckUntilReset : Obligations.StuckUntilReset := by
  refine fun s t ht => ⟨fun b hctl => ?_, fun hctl => ?_, fun b cmd hctl => ?_, fun hctl => ?_⟩
  · refine (step_unitKept_or (u := .enc) hctl ⟨nofun, nofun⟩ ht).imp_right fun ⟨rest, h⟩ => ⟨rest, h.resolve_right ?_⟩
    rintro ⟨-, x, cmd, hk⟩
    cases hctl.symm.trans hk
  · refine (step_unitKept_or (u := .dec) hctl ⟨nofun, nofun⟩ ht).imp_right fun ⟨rest, h⟩ => ⟨rest, h.resolve_right ?_⟩
    rintro ⟨-, hk⟩
    cases hctl.symm.trans hk
  · exact (step_unitKept_or (u := .enc) hctl ⟨nofun, nofun⟩ ht).imp_right fun ⟨rest, h⟩ => ⟨rest, h.imp_right And.left⟩
  · exact (step_unitKept_or (u := .dec) hctl ⟨nofun, nofun⟩ ht).imp_right fun ⟨rest, h⟩ => ⟨rest, h.imp_right And.left⟩

end Sys2Proof.Machine
end
